-- ==== Sys2Proof/Word.lean ====
section
/-! DEFINITION. The word types of the Zalnyx and their plainest arithmetic. -/
namespace Sys2Proof

/-- A byte of memory. -/
abbrev Byte := BitVec 8
/-- A halfword. -/
abbrev W16 := BitVec 16
/-- A fabric integer, an instruction word (R21, R229). -/
abbrev W32 := BitVec 32
/-- The data field of a token (R18). -/
abbrev W40 := BitVec 40
/-- A reeve register (R223). -/
abbrev W64 := BitVec 64

/-- An integer result in the 40-bit data field, bits [39:32] equal to bit 31 (R21). -/
abbrev intField (v : W32) : W40 := v.signExtend 40

/-- The low 32 bits of a data field, which is all an integer operation reads (R21). -/
abbrev low32 (v : W40) : W32 := v.truncate 32

end Sys2Proof
end

