-- ==== Sys2Proof/Config.lean ====
section
/-! DEFINITION. What an implementation fixes and the free values of the spec: nothing can evaluate an opaque constant, so
a theorem holds whatever its value is. -/
namespace Sys2Proof.Config

/-- The value that an agent outside the package returns for the n-th read sent to it (a PCIe window, a UALink peer, an
RDMA responder: R404, R405, R406). Log entry 10. -/
opaque outsideByte : Nat → Byte

/-- A value the spec leaves open, the n-th one met in a run (the `bytes recorded` of a commit header, R363; an energy
share, R374). Log entry 11. -/
opaque freeValue : Nat → W64

/-- The IMSIC interrupt file whose seteipnum_le a physical address names: its core, and whether it is the supervisor's (R402, R403); the spec
does not say where they lie. Log entry 12. -/
opaque interruptFile : W64 → Option (Nat × Bool)

/-- The fused security version SECVER (R400, R407). Log entry 13. -/
opaque secVer : W64
/-- The fused key hash of the boot ROM, 64 bytes (R407). -/
opaque keyHash : List Byte
/-- The fused secret UDS, 32 bytes (R408). -/
opaque uds : List Byte
/-- ML-DSA-65 signature verification under FIPS 204 (R407): key, signed bytes, signature. -/
opaque mlDsaVerify : List Byte → List Byte → List Byte → Bool
/-- The public key of the ML-DSA-65 key pair of a 32-byte seed (R408). -/
opaque mlDsaPublic : List Byte → List Byte
/-- The ML-DSA-65 signature of a message by the key pair of a 32-byte seed (R409). -/
opaque mlDsaSign : List Byte → List Byte → List Byte

/-- Whether the error response of a refused load, atomic or barrier instruction, at the n-th free value of a run, returns after later
instructions have issued (R238); the spec leaves the time open. Log entry 82. -/
opaque errorLate : Nat → Bool
/-- The offset, in the configuration space of a root port, of its DMA base (false) or limit (true): the spec does not say where the
capability stands (R404). Log entry 17. -/
opaque dmaOff : Bool → Nat

/-- Whether the home outside the package answers the request, at the n-th free value of a run, with an error response (R291, R405): a UALink
peer, or what lies behind a PCIe window. Log entry 46. -/
opaque peerRefuses : Nat → Bool

/-- Whether the switches report a route to UALink device d (R405). Log entry 46. -/
opaque ualinkRoute : Nat → Bool

/-- The device's own layout of a spilled slot body (R371): the 64-byte-aligned body of the n-th frame. Log entry 44. -/
opaque spillBody : Nat → Nat → Byte

/-- The bytes an HBM stack delivers in an interval of 1 µs at 3.2 TB/s (R380). -/
def hbmBytesPerInterval : Nat := 3200000

end Sys2Proof.Config
end

