-- ==== Sys2Proof/Syntax.lean ====
section
/-! DEFINITION. The instructions and operations of the Zalnyx: one constructor per row of spec/opcode_table.json. -/
namespace Sys2Proof

/-- The fields of a fabric operation word below its opcode (R90). -/
structure FOp where
  dst : BitVec 4
  a : BitVec 4
  b : BitVec 4
  deq : BitVec 4
  pwe : Bool
  pidx : BitVec 3
  pmode : BitVec 2
  x : BitVec 3
  deriving DecidableEq, Repr

/-- A queue command of the market ring below its op (R327): the queue byte and the three operands. -/
structure QCmd where
  queue : Byte
  a : W64
  b : W64
  c : W64
  deriving DecidableEq, Repr

/-- A translation command below its op (R347): the context byte and the three operands. -/
structure XCmd where
  ctx : Byte
  a : W64
  b : W64
  c : W64
  deriving DecidableEq, Repr

/-- A command block below its kind and version (R329): flags, next, and the payload as six doublewords. -/
structure Block where
  addr : W64
  flags : W16
  next : W64
  p16 : W64
  p24 : W64
  p32 : W64
  p40 : W64
  p48 : W64
  p56 : W64
  deriving DecidableEq, Repr

/-- A memory request that reaches the package from an agent named in `agent` (R393), for the physical address `pa`:
a read of `len` bytes, a write of `bytes`, or an atomic. -/
structure BusReq where
  agent : Nat
  /-- the context of a fabric agent; none for agents that carry no context (R263) -/
  ctx : Option Nat
  /-- the hamlet of a fabric agent -/
  ham : Option Nat
  pa : Nat
  write : Bool
  len : Nat
  bytes : List Byte
  /-- an atomic on 4 or 8 bytes: the operation in the order of R241 (add, swap, and, or, xor, min, max, compare-and-swap) and
  the value a compare-and-swap expects; `bytes` is its operand -/
  atom : Option (Nat × W64)
  /-- an update of the barrier at `pa`, as one atomic at its home: an arrival or not, n, and its error bits (R304, R305, R311) -/
  bar : Option (Bool × W64 × Nat) := none
  /-- the site of an element -/
  site : Nat := 0
  deriving DecidableEq, Repr

/-- What the regulator of a parish reports for an interval of 1 µs (R374): the static and the dynamic energy in µJ, and the activity
counts of its eight hamlets. -/
structure EnergyReport where
  still : Nat
  dynamic : Nat
  activity : List Nat
  deriving DecidableEq, Repr

/-- One constructor per row of spec/opcode_table.json. -/
inductive Instr where
  /-- ADD (R114). PE firing that adds two integers modulo 2^32, with a flag on signed overflow. -/
  | add (f : FOp)
  /-- SUB (R114). PE firing that subtracts two integers modulo 2^32, with a flag on signed overflow. -/
  | sub (f : FOp)
  /-- ADDS (R114). PE firing that adds two integers with saturation. -/
  | adds (f : FOp)
  /-- SUBS (R114). PE firing that subtracts two integers with saturation. -/
  | subs (f : FOp)
  /-- MUL (R114). PE firing that writes the low 32 bits of an integer product. -/
  | mul (f : FOp)
  /-- MULH (R114). PE firing that writes the high 32 bits of a signed product. -/
  | mulh (f : FOp)
  /-- MULHU (R114). PE firing that writes the high 32 bits of an unsigned product. -/
  | mulhu (f : FOp)
  /-- NEG (R114). PE firing that negates an integer. -/
  | neg (f : FOp)
  /-- ABS (R114). PE firing that takes an integer's absolute value. -/
  | abs (f : FOp)
  /-- AND (R114). PE firing that ANDs bits [31:0] of two operands. -/
  | and (f : FOp)
  /-- OR (R114). PE firing that ORs bits [31:0] of two operands. -/
  | or (f : FOp)
  /-- XOR (R114). PE firing that XORs bits [31:0] of two operands. -/
  | xor (f : FOp)
  /-- ANDN (R114). PE firing that computes a AND NOT b. -/
  | andn (f : FOp)
  /-- SHL (R115). PE firing that shifts left by uint(b). -/
  | shl (f : FOp)
  /-- SHR (R115). PE firing that shifts right logically by uint(b). -/
  | shr (f : FOp)
  /-- SRA (R115). PE firing that shifts right arithmetically by uint(b). -/
  | sra (f : FOp)
  /-- CLZ (R114). PE firing that counts leading zero bits. -/
  | clz (f : FOp)
  /-- POPC (R114). PE firing that counts one bits. -/
  | popc (f : FOp)
  /-- MIN (R114). PE firing that takes the signed minimum. -/
  | min (f : FOp)
  /-- MAX (R114). PE firing that takes the signed maximum. -/
  | max (f : FOp)
  /-- MINU (R114). PE firing that takes the unsigned minimum. -/
  | minu (f : FOp)
  /-- MAXU (R114). PE firing that takes the unsigned maximum. -/
  | maxu (f : FOp)
  /-- CMP (R116). PE firing that compares two integers by a condition code. -/
  | cmp (f : FOp)
  /-- TST (R116). PE firing that tests a AND b for non-zero. -/
  | tst (f : FOp)
  /-- SEL (R117). PE firing that selects a or b by a predicate. -/
  | sel (f : FOp)
  /-- CLAMP (R118). PE firing that clamps a between b and a constant. -/
  | clamp (f : FOp)
  /-- FADD (R119). PE firing that adds two F40 values with one rounding. -/
  | fadd (f : FOp)
  /-- FSUB (R119). PE firing that subtracts two F40 values. -/
  | fsub (f : FOp)
  /-- FMUL (R119). PE firing that multiplies two F40 values. -/
  | fmul (f : FOp)
  /-- FMA (R119). PE firing that computes a fused multiply-add into a data register. -/
  | fma (f : FOp)
  /-- FMIN (R120). PE firing that computes minimumNumber of two F40 values. -/
  | fmin (f : FOp)
  /-- FMAX (R120). PE firing that computes maximumNumber of two F40 values. -/
  | fmax (f : FOp)
  /-- FNEG (R121). PE firing that negates an F40 value. -/
  | fneg (f : FOp)
  /-- FABS (R121). PE firing that takes an F40 absolute value. -/
  | fabs (f : FOp)
  /-- FCMP (R122). PE firing that compares two F40 values by a condition code. -/
  | fcmp (f : FOp)
  /-- FCVTI (R123). PE firing that converts F40 to a clamped integer. -/
  | fcvti (f : FOp)
  /-- ICVTF (R123). PE firing that converts an integer to F40. -/
  | icvtf (f : FOp)
  /-- FSCALE (R119). PE firing that multiplies an F40 value by 2^int(b). -/
  | fscale (f : FOp)
  /-- FRCP (R124). PE firing that computes a correctly rounded reciprocal. -/
  | frcp (f : FOp)
  /-- FRSQ (R124). PE firing that computes a correctly rounded reciprocal square root. -/
  | frsq (f : FOp)
  /-- FEXP2 (R124). PE firing that computes a correctly rounded 2^a. -/
  | fexp2 (f : FOp)
  /-- FLOG2 (R124). PE firing that computes a correctly rounded log2 a. -/
  | flog2 (f : FOp)
  /-- MOV (R125). PE firing that copies a token unchanged. -/
  | mov (f : FOp)
  /-- STEER (R126). PE firing that sends a token to one of a queue pair by a predicate, markers to both. -/
  | steer (f : FOp)
  /-- MERGE (R127). PE firing that passes the token of a or b by a predicate, dequeuing only the selected queue. -/
  | merge (f : FOp)
  /-- FILT (R128). PE firing that passes or drops a data token by a predicate. -/
  | filt (f : FOp)
  /-- DUP (R125). PE firing that writes one token twice into each destination queue. -/
  | dup (f : FOp)
  /-- DROP (R129). PE firing that discards a token. -/
  | drop (f : FOp)
  /-- MARK (R131). PE firing that turns a token into an EOD marker of rank k. -/
  | mark (f : FOp)
  /-- TAGOF (R131). PE firing that writes a token's tag as data. -/
  | tagof (f : FOp)
  /-- STRIP (R131). PE firing that turns a token into DATA keeping its data field. -/
  | strip (f : FOp)
  /-- PASSM (R131). PE firing that passes only markers and faults. -/
  | passm (f : FOp)
  /-- HOLE (R131). PE firing that writes a HOLE token. -/
  | hole (f : FOp)
  /-- RADD (R135). PE reduction firing that folds integer sums over a round and releases them with the closing marker. -/
  | radd (f : FOp)
  /-- RFADD (R135). PE reduction firing that folds F40 sums over a round. -/
  | rfadd (f : FOp)
  /-- RMAX (R135). PE reduction firing that folds the integer maximum over a round. -/
  | rmax (f : FOp)
  /-- RFMAX (R135). PE reduction firing that folds the F40 maximum over a round, propagating NaN. -/
  | rfmax (f : FOp)
  /-- PLOG (R137). PE firing that combines two predicates by a logic function. -/
  | plog (f : FOp)
  /-- PSEND (R138). PE firing that sends a predicate token to a predicate port. -/
  | psend (f : FOp)
  /-- CNT (R139). PE firing that counts data tokens and emits the count at a marker. -/
  | cnt (f : FOp)
  /-- NOP (R140). PE firing that only dequeues, consumes heads and writes its predicate. -/
  | nop (f : FOp)
  /-- HALT (R141). PE firing that halts the element until the region is next armed. -/
  | halt (f : FOp)
  /-- EVT (R142). PE firing that posts an event record to the reeve's event queue. -/
  | evt (f : FOp)
  /-- LD (R154). SPE firing that loads 1 to 8 bytes from a green. -/
  | ld (f : FOp)
  /-- ST (R155). SPE firing that posts a store of 1 to 8 bytes to a green. -/
  | st (f : FOp)
  /-- AADD (R156). SPE bank atomic add on a 4-byte word. -/
  | aadd (f : FOp)
  /-- ASUB (R156). SPE bank atomic subtract on a 4-byte word. -/
  | asub (f : FOp)
  /-- AMIN (R156). SPE bank atomic signed minimum. -/
  | amin (f : FOp)
  /-- AMAX (R156). SPE bank atomic signed maximum. -/
  | amax (f : FOp)
  /-- AMINU (R156). SPE bank atomic unsigned minimum. -/
  | aminu (f : FOp)
  /-- AMAXU (R156). SPE bank atomic unsigned maximum. -/
  | amaxu (f : FOp)
  /-- AAND (R156). SPE bank atomic AND, 4 or 8 bytes. -/
  | aand (f : FOp)
  /-- AOR (R156). SPE bank atomic OR, 4 or 8 bytes. -/
  | aor (f : FOp)
  /-- AXOR (R156). SPE bank atomic XOR, 4 or 8 bytes. -/
  | axor (f : FOp)
  /-- ASWAP (R156). SPE bank atomic swap, 4 or 8 bytes. -/
  | aswap (f : FOp)
  /-- ACAS (R157). SPE bank atomic compare-and-swap against a data register. -/
  | acas (f : FOp)
  /-- AFADD (R158). SPE bank atomic FP32 add. -/
  | afadd (f : FOp)
  /-- ITAKE (R159). SPE I-structure take that waits for a full word and empties it. -/
  | itake (f : FOp)
  /-- IPUT (R159). SPE I-structure put that fills an empty word. -/
  | iput (f : FOp)
  /-- IREAD (R159). SPE I-structure read that waits for a full word. -/
  | iread (f : FOp)
  /-- ICLR (R159). SPE I-structure clear that empties a word's presence bit. -/
  | iclr (f : FOp)
  /-- TCLAIM (R164). SPE trough claim of the next free slot. -/
  | tclaim (f : FOp)
  /-- TCOMMIT (R164). SPE trough commit of the oldest claimed slot. -/
  | tcommit (f : FOp)
  /-- TTAKE (R164). SPE trough take of the oldest filled slot. -/
  | ttake (f : FOp)
  /-- TFREE (R164). SPE trough free of the oldest taken slot. -/
  | tfree (f : FOp)
  /-- TSTAT (R164). SPE trough status read of filled and free counts. -/
  | tstat (f : FOp)
  /-- SLOAD (R173). SE firing that starts a load stream from memory into an output queue. -/
  | sload (f : FOp)
  /-- SSTORE (R173). SE firing that starts a store stream from an input queue to memory. -/
  | sstore (f : FOp)
  /-- SGATHER (R175). SE firing that starts an indirect gather through the HBM gather units. -/
  | sgather (f : FOp)
  /-- SSCATTER (R173). SE firing that starts an indirect scatter store stream. -/
  | sscatter (f : FOp)
  /-- SFEED (R176). SE firing that starts feeding A rows into an ME row buffer. -/
  | sfeed (f : FOp)
  /-- SBFILL (R176). SE firing that starts filling a B tile into an ME macro slot. -/
  | sbfill (f : FOp)
  /-- SDRAIN (R176). SE firing that starts draining accumulator rows to memory. -/
  | sdrain (f : FOp)
  /-- SWAIT (R179). SE firing that waits for a stream to be idle or stopped and acquires its status. -/
  | swait (f : FOp)
  /-- SCANCEL (R179). SE firing that cancels a stream's queued and current commands. -/
  | scancel (f : FOp)
  /-- SRESUME (R179). SE firing that resumes a stopped stream from a position. -/
  | sresume (f : FOp)
  /-- SPOS (R179). SE firing that writes a stream's position. -/
  | spos (f : FOp)
  /-- MMA (R213). ME firing that queues a dense tile operation with captured settings. -/
  | mma (f : FOp)
  /-- MMAS (R213). ME firing that queues a sparse tile operation. -/
  | mmas (f : FOp)
  /-- ACCZ (R214). ME firing that zeroes an accumulator. -/
  | accz (f : FOp)
  /-- ACCMOV (R214). ME firing that starts copying one accumulator into another. -/
  | accmov (f : FOp)
  /-- ACCRD (R214). ME firing that starts streaming an accumulator out as tokens. -/
  | accrd (f : FOp)
  /-- ACCWR (R214). ME firing that starts writing accumulator rows from input tokens. -/
  | accwr (f : FOp)
  /-- BSEL (R216). ME firing that writes the slot base. -/
  | bsel (f : FOp)
  /-- RUNG (R216). ME firing that writes the start and ceiling rungs. -/
  | rung (f : FOp)
  /-- MONSET (R216). ME firing that writes one monitor budget or cnc_shift. -/
  | monset (f : FOp)
  /-- MONRD (R217). ME firing that delivers the monitor register as two integers. -/
  | monrd (f : FOp)
  /-- MONCLR (R218). ME firing that clears the monitor register and status bits [15:0]. -/
  | monclr (f : FOp)
  /-- MWAIT (R219). ME firing that waits for an accumulator's operations to end and flags a clean commit. -/
  | mwait (f : FOp)
  /-- REEVE_ADD (R233). Reeve 64-bit add. -/
  | reeveAdd (d : BitVec 5) (a : BitVec 5) (b : BitVec 5)
  /-- REEVE_SUB (R233). Reeve 64-bit subtract. -/
  | reeveSub (d : BitVec 5) (a : BitVec 5) (b : BitVec 5)
  /-- REEVE_AND (R233). Reeve bitwise AND. -/
  | reeveAnd (d : BitVec 5) (a : BitVec 5) (b : BitVec 5)
  /-- REEVE_OR (R233). Reeve bitwise OR. -/
  | reeveOr (d : BitVec 5) (a : BitVec 5) (b : BitVec 5)
  /-- REEVE_XOR (R233). Reeve bitwise XOR. -/
  | reeveXor (d : BitVec 5) (a : BitVec 5) (b : BitVec 5)
  /-- SLL (R233). Reeve logical left shift. -/
  | sll (d : BitVec 5) (a : BitVec 5) (b : BitVec 5)
  /-- SRL (R233). Reeve logical right shift. -/
  | srl (d : BitVec 5) (a : BitVec 5) (b : BitVec 5)
  /-- REEVE_SRA (R233). Reeve arithmetic right shift. -/
  | reeveSra (d : BitVec 5) (a : BitVec 5) (b : BitVec 5)
  /-- SLT (R233). Reeve signed set-less-than. -/
  | slt (d : BitVec 5) (a : BitVec 5) (b : BitVec 5)
  /-- SLTU (R233). Reeve unsigned set-less-than. -/
  | sltu (d : BitVec 5) (a : BitVec 5) (b : BitVec 5)
  /-- REEVE_MUL (R233). Reeve low 64-bit product. -/
  | reeveMul (d : BitVec 5) (a : BitVec 5) (b : BitVec 5)
  /-- REEVE_MULH (R233). Reeve high signed product. -/
  | reeveMulh (d : BitVec 5) (a : BitVec 5) (b : BitVec 5)
  /-- REEVE_MULHU (R233). Reeve high unsigned product. -/
  | reeveMulhu (d : BitVec 5) (a : BitVec 5) (b : BitVec 5)
  /-- DIV (R233). Reeve signed division. -/
  | div (d : BitVec 5) (a : BitVec 5) (b : BitVec 5)
  /-- DIVU (R233). Reeve unsigned division. -/
  | divu (d : BitVec 5) (a : BitVec 5) (b : BitVec 5)
  /-- REM (R233). Reeve signed remainder. -/
  | rem (d : BitVec 5) (a : BitVec 5) (b : BitVec 5)
  /-- REMU (R233). Reeve unsigned remainder. -/
  | remu (d : BitVec 5) (a : BitVec 5) (b : BitVec 5)
  /-- REEVE_MIN (R233). Reeve signed minimum. -/
  | reeveMin (d : BitVec 5) (a : BitVec 5) (b : BitVec 5)
  /-- REEVE_MAX (R233). Reeve signed maximum. -/
  | reeveMax (d : BitVec 5) (a : BitVec 5) (b : BitVec 5)
  /-- ADDI (R234). Reeve add immediate. -/
  | addi (d : BitVec 5) (a : BitVec 5) (i : BitVec 16)
  /-- ANDI (R234). Reeve AND immediate. -/
  | andi (d : BitVec 5) (a : BitVec 5) (i : BitVec 16)
  /-- ORI (R234). Reeve OR immediate. -/
  | ori (d : BitVec 5) (a : BitVec 5) (i : BitVec 16)
  /-- XORI (R234). Reeve XOR immediate. -/
  | xori (d : BitVec 5) (a : BitVec 5) (i : BitVec 16)
  /-- SLLI (R234). Reeve left shift by immediate. -/
  | slli (d : BitVec 5) (a : BitVec 5) (s : BitVec 6)
  /-- SRLI (R234). Reeve logical right shift by immediate. -/
  | srli (d : BitVec 5) (a : BitVec 5) (s : BitVec 6)
  /-- SRAI (R234). Reeve arithmetic right shift by immediate. -/
  | srai (d : BitVec 5) (a : BitVec 5) (s : BitVec 6)
  /-- SLTI (R234). Reeve signed set-less-than immediate. -/
  | slti (d : BitVec 5) (a : BitVec 5) (i : BitVec 16)
  /-- LUI (R234). Reeve load of an upper immediate. -/
  | lui (d : BitVec 5) (i : BitVec 16)
  /-- BEQ (R235). Reeve branch if equal. -/
  | beq (a : BitVec 5) (b : BitVec 5) (o : BitVec 16)
  /-- BNE (R235). Reeve branch if not equal. -/
  | bne (a : BitVec 5) (b : BitVec 5) (o : BitVec 16)
  /-- BLT (R235). Reeve branch if signed less. -/
  | blt (a : BitVec 5) (b : BitVec 5) (o : BitVec 16)
  /-- BGE (R235). Reeve branch if signed greater or equal. -/
  | bge (a : BitVec 5) (b : BitVec 5) (o : BitVec 16)
  /-- BLTU (R235). Reeve branch if unsigned less. -/
  | bltu (a : BitVec 5) (b : BitVec 5) (o : BitVec 16)
  /-- BGEU (R235). Reeve branch if unsigned greater or equal. -/
  | bgeu (a : BitVec 5) (b : BitVec 5) (o : BitVec 16)
  /-- JAL (R236). Reeve jump and link by a word offset. -/
  | jal (d : BitVec 5) (o : BitVec 21)
  /-- JALR (R236). Reeve jump and link to a register plus immediate. -/
  | jalr (d : BitVec 5) (a : BitVec 5) (i : BitVec 16)
  /-- LB (R237). Reeve sign-extending byte load. -/
  | lb (d : BitVec 5) (a : BitVec 5) (i : BitVec 16)
  /-- LH (R237). Reeve sign-extending halfword load. -/
  | lh (d : BitVec 5) (a : BitVec 5) (i : BitVec 16)
  /-- LW (R237). Reeve sign-extending word load. -/
  | lw (d : BitVec 5) (a : BitVec 5) (i : BitVec 16)
  /-- REEVE_LD (R237). Reeve doubleword load. -/
  | reeveLd (d : BitVec 5) (a : BitVec 5) (i : BitVec 16)
  /-- LBU (R237). Reeve zero-extending byte load. -/
  | lbu (d : BitVec 5) (a : BitVec 5) (i : BitVec 16)
  /-- LHU (R237). Reeve zero-extending halfword load. -/
  | lhu (d : BitVec 5) (a : BitVec 5) (i : BitVec 16)
  /-- LWU (R237). Reeve zero-extending word load. -/
  | lwu (d : BitVec 5) (a : BitVec 5) (i : BitVec 16)
  /-- SB (R237). Reeve byte store into the store buffer. -/
  | sb (b : BitVec 5) (a : BitVec 5) (i : BitVec 16)
  /-- SH (R237). Reeve halfword store. -/
  | sh (b : BitVec 5) (a : BitVec 5) (i : BitVec 16)
  /-- SW (R237). Reeve word store. -/
  | sw (b : BitVec 5) (a : BitVec 5) (i : BitVec 16)
  /-- SD (R237). Reeve doubleword store. -/
  | sd (b : BitVec 5) (a : BitVec 5) (i : BitVec 16)
  /-- AMOADD (R241). Reeve atomic add at the location's home. -/
  | amoadd (d : BitVec 5) (a : BitVec 5) (b : BitVec 5) (s : BitVec 3) (o : BitVec 2) (w : BitVec 1)
  /-- AMOSWAP (R241). Reeve atomic swap. -/
  | amoswap (d : BitVec 5) (a : BitVec 5) (b : BitVec 5) (s : BitVec 3) (o : BitVec 2) (w : BitVec 1)
  /-- AMOAND (R241). Reeve atomic AND. -/
  | amoand (d : BitVec 5) (a : BitVec 5) (b : BitVec 5) (s : BitVec 3) (o : BitVec 2) (w : BitVec 1)
  /-- AMOOR (R241). Reeve atomic OR. -/
  | amoor (d : BitVec 5) (a : BitVec 5) (b : BitVec 5) (s : BitVec 3) (o : BitVec 2) (w : BitVec 1)
  /-- AMOXOR (R241). Reeve atomic XOR. -/
  | amoxor (d : BitVec 5) (a : BitVec 5) (b : BitVec 5) (s : BitVec 3) (o : BitVec 2) (w : BitVec 1)
  /-- AMOMIN (R241). Reeve atomic signed minimum. -/
  | amomin (d : BitVec 5) (a : BitVec 5) (b : BitVec 5) (s : BitVec 3) (o : BitVec 2) (w : BitVec 1)
  /-- AMOMAX (R241). Reeve atomic signed maximum. -/
  | amomax (d : BitVec 5) (a : BitVec 5) (b : BitVec 5) (s : BitVec 3) (o : BitVec 2) (w : BitVec 1)
  /-- AMOCAS (R241). Reeve atomic compare-and-swap. -/
  | amocas (d : BitVec 5) (a : BitVec 5) (b : BitVec 5) (s : BitVec 3) (o : BitVec 2) (w : BitVec 1)
  /-- FENCE (R243). Reeve acquire and/or release fence at a scope, optionally waiting for its copies. -/
  | fence (s : BitVec 3) (f : BitVec 3)
  /-- PFENCE (R244). Reeve persist fence that forces a cut and waits for it to complete. -/
  | pfence (d : BitVec 5) (s : BitVec 3)
  /-- CSRR (R242). Reeve read of a control register (popping evq when named). -/
  | csrr (d : BitVec 5) (c : BitVec 12)
  /-- CSRW (R242). Reeve write of a control register, returning its old value. -/
  | csrw (d : BitVec 5) (a : BitVec 5) (c : BitVec 12)
  /-- CSRS (R242). Reeve set of control register bits. -/
  | csrs (d : BitVec 5) (a : BitVec 5) (c : BitVec 12)
  /-- CSRC (R242). Reeve clear of control register bits. -/
  | csrc (d : BitVec 5) (a : BitVec 5) (c : BitVec 12)
  /-- CFGLD (R245). Lead reeve loads and checks a fabric image into its region. -/
  | cfgld (d : BitVec 5) (a : BitVec 5)
  /-- CFGARM (R297). Lead reeve arms the loaded region in service or bench and held or free mode. -/
  | cfgarm (d : BitVec 5) (f : BitVec 2)
  /-- CFGSTOP (R414). Lead reeve stops an armed region, settling its agents and held writes. -/
  | cfgstop (d : BitVec 5)
  /-- CFGSWAP (R245). Lead reeve swaps a drained region to a new image in the same modes. -/
  | cfgswap (d : BitVec 5) (a : BitVec 5)
  /-- CFGFALLOW (R395). Lead reeve loads the fallow configuration to drain the region. -/
  | cfgfallow (d : BitVec 5)
  /-- CUTREQ (R245). Reeve starts a cut of the hamlet or region without waiting. -/
  | cutreq (d : BitVec 5) (s : BitVec 3)
  /-- ELRD (R246). Reeve reads an element item or trough descriptor word. -/
  | elrd (d : BitVec 5) (a : BitVec 5)
  /-- ELWR (R246). Reeve writes an element item or trough descriptor word. -/
  | elwr (d : BitVec 5) (a : BitVec 5) (b : BitVec 5)
  /-- STALLRD (R247). Reeve reads, and optionally clears, an element counter. -/
  | stallrd (d : BitVec 5) (a : BitVec 5) (f : BitVec 1)
  /-- COPY (R250). Reeve queues a bulk copy command to its carter. -/
  | copy (d : BitVec 5) (a : BitVec 5) (b : BitVec 5) (s : BitVec 3) (f : BitVec 2)
  /-- BINIT (R251). Reeve initialises a barrier object. -/
  | binit (d : BitVec 5) (a : BitVec 5) (b : BitVec 5)
  /-- BARV (R305). Reeve arrives at a barrier, adding a byte count and possibly flipping it. -/
  | barv (d : BitVec 5) (a : BitVec 5) (b : BitVec 5) (s : BitVec 3) (f : BitVec 1)
  /-- BEXP (R305). Reeve adds an expected byte count to a barrier. -/
  | bexp (d : BitVec 5) (a : BitVec 5) (b : BitVec 5) (s : BitVec 3) (f : BitVec 1)
  /-- BWAIT (R251). Reeve waits for a barrier's generation to change, then acquires. -/
  | bwait (d : BitVec 5) (a : BitVec 5) (b : BitVec 5) (s : BitVec 3) (f : BitVec 1)
  /-- BSTAT (R251). Reeve reads a barrier's word 0. -/
  | bstat (d : BitVec 5) (a : BitVec 5)
  /-- TSPAWN (R317). Reeve pushes a continuation record to a market queue. -/
  | tspawn (d : BitVec 5) (a : BitVec 5) (s : BitVec 3) (f : BitVec 1)
  /-- TPOP (R325). Reeve pops the record the market offers it. -/
  | tpop (d : BitVec 5) (s : BitVec 3) (f : BitVec 1)
  /-- TJOIN (R316). Reeve decrements a record's join counter and pushes it at zero. -/
  | tjoin (d : BitVec 5) (a : BitVec 5) (s : BitVec 3) (f : BitVec 1)
  /-- TDONE (R323). Reeve ends its part of a task. -/
  | tdone (a : BitVec 5) (s : BitVec 3) (f : BitVec 1)
  /-- LAUNCH (R331). Reeve submits a LAUNCH command-block chain. -/
  | launch (d : BitVec 5) (a : BitVec 5)
  /-- LAUNCHI (R331). Reeve submits a LAUNCHI command-block chain. -/
  | launchi (d : BitVec 5) (a : BitVec 5)
  /-- GANG (R331). Reeve submits a GANG command-block chain. -/
  | gang (d : BitVec 5) (a : BitVec 5)
  /-- WAIT (R253). Reeve waits until any masked event holds. -/
  | wait (d : BitVec 5) (a : BitVec 5)
  /-- SLEEP (R253). Reeve waits with its clock gated, also returning after a cycle count. -/
  | sleep (d : BitVec 5) (a : BitVec 5) (b : BitVec 5)
  /-- TRAP (R254). Reeve raises a software trap with a code. -/
  | trap (c : BitVec 8)
  /-- TRET (R227). Reeve returns from a trap. -/
  | tret
  /-- REEVE_NOP (R255). Reeve no-operation. -/
  | reeveNop
  /-- REEVE_HALT (R255). Reeve stops fetching, logs the halt and signals the manor. -/
  | reeveHalt
  /-- CENSUS (R399). Beadle writes the device summary to memory. -/
  | census (d : BitVec 5) (a : BitVec 5)
  /-- QUEUE_NOP (R327). Queue command that does nothing. -/
  | queueNop (c : QCmd)
  /-- QCONF (R330). Queue command that writes a market queue descriptor. -/
  | qconf (c : QCmd)
  /-- QPUSH (R330). Queue command that pushes a record for a context. -/
  | qpush (c : QCmd)
  /-- QSTOP (R330). Queue command that sets a queue's stopped bit. -/
  | qstop (c : QCmd)
  /-- QSTART (R330). Queue command that clears a queue's stopped bit. -/
  | qstart (c : QCmd)
  /-- QCHAIN (R330). Queue command that runs a command-block chain for a context. -/
  | qchain (c : QCmd)
  /-- QEXPERT (R330). Queue command that writes an expert entry. -/
  | qexpert (c : QCmd)
  /-- LAUNCH_BLOCK (R332). Command block that pushes an array of records in order. -/
  | launchBlock (k : Nat) (b : Block)
  /-- LAUNCHI_BLOCK (R335). Command block that waits on a dependence, reads a count and pushes that many records. -/
  | launchiBlock (k : Nat) (b : Block)
  /-- GANG_BLOCK (R333). Command block that pushes records as one gang. -/
  | gangBlock (k : Nat) (b : Block)
  /-- COPY_BLOCK (R331). Command block that copies bytes on the market's copy channel. -/
  | copyBlock (k : Nat) (b : Block)
  /-- BINIT_BLOCK (R331). Command block that initialises a barrier. -/
  | binitBlock (k : Nat) (b : Block)
  /-- SIGNAL (R331). Command block that arrives at a barrier as BARV. -/
  | signal (k : Nat) (b : Block)
  /-- WAITB (R331). Command block that waits for a barrier generation to change. -/
  | waitb (k : Nat) (b : Block)
  /-- STAGE (R334). Command block that attaches stage images to a record. -/
  | stage (k : Nat) (b : Block)
  /-- PERSIST (R331). Command block that cuts every held region of the context. -/
  | persist (k : Nat) (b : Block)
  /-- FENCE_BLOCK (R331). Command block that performs an acquire or release of the chain. -/
  | fenceBlock (k : Nat) (b : Block)
  /-- XLATE_NOP (R347). Translation command that does nothing. -/
  | xlateNop (c : XCmd)
  /-- INVVA (R348). Translation command that drops TLB entries of a virtual span. -/
  | invva (c : XCmd)
  /-- INVASID (R348). Translation command that drops a context's entries of one ASID. -/
  | invasid (c : XCmd)
  /-- INVCTX (R347). Translation command that drops all of a context's cached translations and rereads its descriptor. -/
  | invctx (c : XCmd)
  /-- RESOLVE (R352). Translation command that makes agents waiting on a fault id walk again. -/
  | resolve (c : XCmd)
  /-- REFUSE (R352). Translation command that ends the waits on a fault id with a failure. -/
  | refuse (c : XCmd)
  /-- RELEASE (R353). Translation command that ends the task on a hamlet's region. -/
  | release (c : XCmd)
  /-- TOKEN_CROSSING (R39). A token moves through a site router into a lane register or input queue when the destination accepts it. -/
  | tokenCrossing (first : Nat)
  /-- SPE_COMPLETION (R151). A split SPE request's result lands in its reserved entries with the predicate write. -/
  | speCompletion (h site slot : Nat)
  /-- BANK_MESSAGE (R147). A shipped green request is performed at its owning bank through the second port. -/
  | bankMessage (h : Nat)
  /-- DEFERRED_REQUEST_PERFORM (R160). A bank performs the oldest permitted deferred I-structure request after a presence change. -/
  | deferredRequestPerform (h bank : Nat)
  /-- STREAM_COMMAND_START (R166). A queued stream command becomes current, copying and checking its SCB. -/
  | streamCommandStart (h site n : Nat)
  /-- TROUGH_SLOT_ACQUIRE (R169). A trough stream waiting at its start claims or takes a slot once one is available. -/
  | troughSlotAcquire (h site n : Nat)
  /-- STREAM_POSITION (R172). A stream serves one position, delivering or taking a token and issuing its sector access. -/
  | streamPosition (h site n : Nat)
  /-- GATHER_COMMAND_SEND (R309). An SE sends a gather command of up to 4,096 index values to the stacks' gather units. -/
  | gatherCommandSend (h site n : Nat)
  /-- GATHER_BURST_DELIVERY (R309). A gather unit's packed burst arrives and the SE delivers elements in position order. -/
  | gatherBurstDelivery (h site n : Nat)
  /-- ME_PORT_TRANSFER (R176). A feed, fill or drain moves 64 bytes between memory and an ME port. -/
  | mePortTransfer (h site n : Nat)
  /-- ME_OPERATION_START (R208). The head of the ME operation queue starts its first row or is refused. -/
  | meOperationStart (h site : Nat)
  /-- ME_ROW (R197). An ME attempt processes one A row of a block. -/
  | meRow (h site : Nat)
  /-- BLOCK_CHECK (R196). At a K-block boundary the ME compares monitor counts with budgets. -/
  | blockCheck (h site : Nat)
  /-- ACCMOV_ROW (R214). An accumulator move copies one row per cycle. -/
  | accmovRow (h site : Nat)
  /-- ACCRD_TOKEN (R214). An accumulator read transfer writes one token into an output queue. -/
  | accrdToken (h site q : Nat)
  /-- ACCWR_TOKEN (R214). An accumulator write transfer takes one token from an input queue. -/
  | accwrToken (h site q : Nat)
  /-- LATE_ACCESS_TRAP (R238). An error response returns to a load, atomic or barrier instruction after later instructions issued. -/
  | lateAccessTrap (h : Nat) (ea epc : W64)
  /-- STORE_PERFORM (R249). A store buffer entry is performed in memory or placed in the held-write buffer. -/
  | storePerform (h : Nat)
  /-- TRANSLATION_RETRY (R239). An access waiting on translation walks again after its fault is resolved. -/
  | translationRetry (h : Nat)
  /-- WAIT_WAKE (R253). A WAIT or SLEEP continues in the cycle after a masked event holds. -/
  | waitWake (h : Nat)
  /-- SLEEP_EXPIRY (R253). A SLEEP's cycle count expires and it returns with bit 63 set. -/
  | sleepExpiry (h : Nat)
  /-- BWAIT_POLL (R251). A waiting BWAIT re-reads its barrier once every 64 cycles. -/
  | bwaitPoll (h : Nat)
  /-- CARTER_COMMAND (R250). The carter starts the next queued copy command, performing its acquire. -/
  | carterCommand (h : Nat)
  /-- CARTER_GRANULE (R250). The carter copies one 4 KiB destination granule. -/
  | carterGranule (h : Nat)
  /-- CARTER_COMPLETION_UPDATE (R305). The carter makes a copy's delivery to its completion barrier. -/
  | carterCompletionUpdate (h : Nat)
  /-- LINK_PUSH_RETRY (R306). A held link push is retried every 1 µs while its ring is full. -/
  | linkPushRetry
  /-- MARKET_DECISION (R320). Every 4 cycles the market chooses and places one queue head. -/
  | marketDecision
  /-- POP_READ (R319). The market reads and checks a record when it becomes the head of its queue. -/
  | popRead (q : Nat)
  /-- EXPERT_WINDOW_END (R328). An expert entry's count returns to zero at the end of its window. -/
  | expertWindowEnd (e : Nat)
  /-- DISPATCH (R323). The market loads stage images, writes reeve registers and starts the region's reeves. -/
  | dispatch (first : Nat)
  /-- MARKET_RING_POLL (R326). The market reads the queue command ring tail at least every 1 µs. -/
  | marketRingPoll
  /-- TRANSLATION_RING_POLL (R347). The market reads the translation ring tail. -/
  | translationRingPoll
  /-- PAGE_WALK (R342). A translation misses the caches and walks the Sv57 tables. -/
  | pageWalk (h : Nat) (va : W64) (acc : Nat)
  /-- EVENT_RECORD_RETRY (R350). A held event record is retried every 1 µs while the event ring is full. -/
  | eventRecordRetry (ctx : Nat)
  /-- SHADOW_INTERVAL_EXPIRY (R358). The lead reeve's shadow_ival expires and a region cut starts. -/
  | shadowIntervalExpiry (first : Nat)
  /-- ELEMENT_RECORD (R359). An agent reaches its record point, captures its items and emits CUT markers. -/
  | elementRecord (h agent : Nat)
  /-- AFTER_WRITE_PERFORM (R361). A write made after its issuer's record point is performed once its target line is recorded. -/
  | afterWritePerform (h : Nat)
  /-- CUT_COMPLETE (R359). All items of a hamlet are recorded and its commit header is written last. -/
  | cutComplete (first : Nat)
  /-- STOPPED_CUT_TIMEOUT (R362). A running cut not complete after 4,096 cycles is completed as a stopped cut. -/
  | stoppedCutTimeout (first : Nat)
  /-- HELD_ENTRY_SEND (R364). A covered held-write entry is sent to its target, one per cycle. -/
  | heldEntrySend (h : Nat)
  /-- HELD_ENTRY_ACK (R364). A target acknowledges a held entry, the release index advances and the entry is freed. -/
  | heldEntryAck (h : Nat)
  /-- SUPPLY_WARNING (R365). A regulator warns of rail failure and affected hamlets stop and abandon their cut. -/
  | supplyWarning (domain : Nat)
  /-- POWER_RETURN (R366). The beadle restores each affected region from its newest valid cut or kills its context. -/
  | powerReturn (domain : Nat)
  /-- CHANNEL_STATE_REPLAY (R367). Recorded channel state is delivered into its input queue on resume. -/
  | channelStateReplay (h site q : Nat)
  /-- PREEMPTION (R369). The bellman asks every engine of the region to stop at its granularity point. -/
  | preemption (first : Nat)
  /-- ENGINE_STOP_ACK (R368). An engine reaches its stop point and acknowledges the pre-emption. -/
  | engineStopAck (h agent : Nat)
  /-- CONTEXT_SAVED (R369). After the stopped cut and its releases the context is reported saved and parked. -/
  | contextSaved (first : Nat)
  /-- SPILL_GRANULE (R371). The carter copies one 4 KiB granule of a parked slot to the save area. -/
  | spillGranule (h : Nat)
  /-- SPILL_HEADER_WRITE (R371). The spill frame header is written last with release and the slot freed. -/
  | spillHeaderWrite (h : Nat)
  /-- SPILL_READ_BACK (R373). A spilled context's frame is read back into a free slot before dispatch. -/
  | spillReadBack (h ctx : Nat)
  /-- ENERGY_UPDATE (R374). Every 1 µs each context's balance is charged and an exhausted quota pre-empts it. -/
  | energyUpdate (reports : List EnergyReport)
  /-- QUOTA_REFILL (R375). At each refill period boundary a context's balance is refilled. -/
  | quotaRefill (ctx : Nat)
  /-- SENSOR_POLL (R380). Every 50 µs each sensor is read and its level updated with hysteresis. -/
  | sensorPoll (readings : List W16)
  /-- POWER_CAP_UPDATE (R379). Every 100 µs the power cap P is adjusted against PLIMIT. -/
  | powerCapUpdate (energy : W64)
  /-- BUDGET_INTERVAL (R381). Every 1 µs each parish is granted its memory byte budget. -/
  | budgetInterval
  /-- HBM_RATE_CAP_GRANT (R380). A request above a stack's capped rate is served in arrival order. -/
  | hbmRateCapGrant (stack : Nat)
  /-- REFRESH_WINDOW_OPEN (R269). A granary bank group closes for its refresh window on schedule. -/
  | refreshWindowOpen (quad : Nat)
  /-- REFRESH_WINDOW_CLOSE (R270). A refresh window closes and waiting accesses are performed in arrival order. -/
  | refreshWindowClose (quad : Nat)
  /-- NODISPATCH (R384). PCTL bit 0 write that stops market placement in a parish. -/
  | nodispatch (p : Nat)
  /-- QUIESCE (R384). PCTL bit 1 write that pre-empts every task of the parish. -/
  | quiesce (p : Nat)
  /-- CLEAR (R384). PCTL bit 2 write that discards the parish's queues and element state. -/
  | clear (p : Nat)
  /-- RETAIN (R384). PCTL bit 3 write that moves registers and identity into retention cells. -/
  | retain (p : Nat)
  /-- CLOCK_GATE (R384). PCTL bit 4 write that stops the parish's clocks. -/
  | clockGate (p : Nat)
  /-- RAIL_GATE (R384). PCTL bit 5 write that opens the parish's power switch. -/
  | railGate (p : Nat)
  /-- AUTOGATE_ENABLE (R384). PCTL bit 8 write that enables autogating of an idle parish. -/
  | autogateEnable (p : Nat)
  /-- PCTL_STEP_UNDO (R384). Clearing the highest set PCTL bit before retain undoes that step. -/
  | pctlStepUndo (p : Nat)
  /-- PCTL_ACKNOWLEDGE (R384). A gating step completes and its PSTAT acknowledgement bit is set. -/
  | pctlAcknowledge (p : Nat)
  /-- AUTOGATE_HOLD_EXPIRY (R384). An idle parish held for PHOLD µs is gated by the device itself. -/
  | autogateHoldExpiry (p : Nat)
  /-- PWAKE (R385). A write to PWAKE posts a wake request for the parish. -/
  | pwake (p : Nat)
  /-- INRUSH_RAMP_START (R385). The die's in-rush arbiter starts ramping a queued parish. -/
  | inrushRampStart (die : Nat)
  /-- INRUSH_RAMP_END (R385). A parish's 3 µs ramp ends and it begins restoring. -/
  | inrushRampEnd (p : Nat)
  /-- RESTORE_COMPLETE (R385). A restoring parish finishes, PCTL[5:0] clears and it is on. -/
  | restoreComplete (p : Nat)
  /-- PALLOW (R381). A write to PALLOW recomputes the parish's effective allowance. -/
  | pallow (p : Nat) (v : Byte)
  /-- REGISTER_WRITE (R378). Write to a management or device register that has no row of its own. -/
  | registerWrite (addr : Nat) (v : W64)
  /-- UNCORRECTABLE_HAMLET_STATE (R387). An uncorrectable error in hamlet state is handled as a power loss of its region. -/
  | uncorrectableHamletState (h site : Nat)
  /-- VERTICAL_BUS_TRANSFER (R391). A granary transfer crosses a vertical-bus group with parity retries and lane swaps. -/
  | verticalBusTransfer (quad off : Nat) (bad : List (List Nat))
  /-- REGION_RELEASE (R396). A fallow region with zero tokens and nothing outstanding enters state empty. -/
  | regionRelease (first : Nat)
  /-- FALLOW_TIMEOUT (R396). After 4,096 cycles without zero tokens, queues are cleared and the region released. -/
  | fallowTimeout (first : Nat)
  /-- KILL_COMPLETE (R397). When every region is released and every access acknowledged, the kill is logged and reported. -/
  | killComplete (ctx : Nat)
  /-- DEVICE_RESET (R407). Reset starts the beadle ROM, which verifies and measures the firmware and jumps to it. -/
  | deviceReset
  /-- LOCK (R400). BOOTCTL bit 0 write that locks the boot block bases. -/
  | lock
  /-- GO (R401). BOOTCTL bit 1 write that starts the market and flushes held log entries. -/
  | go
  /-- MANOR_RELEASE (R402). BOOTCTL bit 2 write that starts the manor cores at MRESET. -/
  | manorRelease
  /-- MEXT (R408). A write to MEXT extends a measurement register with a digest. -/
  | mext (i : Nat)
  /-- SERVICE_RING_POLL (R409). The beadle firmware reads the service ring tail. -/
  | serviceRingPoll
  /-- ATTEST (R409). Service command that writes a signed measurement report. -/
  | attest (nonce out : W64)
  /-- WINDOW_ACCESS (R263). An agent's access through the green window is served or refused at the owning bank. -/
  | windowAccess (r : BusReq)
  /-- PCIE_ENDPOINT_REQUEST (R404). A request from a PCIe endpoint is checked against the DMA window and performed. -/
  | pcieEndpointRequest (port : Nat) (translated msi : Bool) (r : BusReq)
  /-- UALINK_REQUEST (R405). A UALink request from a peer is performed at its home at system scope. -/
  | ualinkRequest (r : BusReq)
  /-- UALINK_PORT_DOWN (R405). A UALink port fails and its sectors move to the next live port. -/
  | ualinkPortDown (port : Nat)
  /-- DOORBELL (R406). A DOORBELL write advances a queue pair's producer index. -/
  | doorbell (port : Nat) (v : W64)
  /-- RDMA_WORK_REQUEST (R406). An Ethernet port performs a queue pair's RDMA WRITE or READ. -/
  | rdmaWorkRequest (port qp : Nat)
  /-- RDMA_COMPLETION (R406). The responder acknowledges the last byte and the port delivers to the barrier. -/
  | rdmaCompletion (port qp : Nat) (nak : Bool) (payload : List Byte)
  /-- RDMA_INCOMING_REQUEST (R406). An incoming RDMA request is checked against its region entry and performed. -/
  | rdmaIncomingRequest (port op : Nat) (rkey : W32) (addr : W64) (len : Nat) (payload : List Byte)
  /-- STALL_CHARGE (R32). In a cycle in which an element with a valid slot fires nothing, exactly one stall counter rises by one. -/
  | stallCharge (h site : Nat)
  /-- RETRY_TIMEOUT (R406). An Ethernet port's retry timeout on a work request delivers to the completion barrier with an error bit. -/
  | retryTimeout (port qp : Nat)
  /-- UALINK_PORT_UP (R405). A UALink port becomes live again and takes back the sectors routed to it. -/
  | ualinkPortUp (port : Nat)
  deriving DecidableEq, Repr

end Sys2Proof
end

