-- ==== Sys2Proof/Machine/OpClass.lean ====
section
/-! DEFINITION. The opcode maps of the four element kinds with the operand classes of each opcode (R92, R94 to R97). -/
namespace Sys2Proof

/-- The kinds of element (R4). -/
inductive Kind where
  | pe | spe | se | me
  deriving DecidableEq, Repr

/-- The operand classes of R92. -/
inductive OpClass where
  | a2 | a1 | a0 | d3 | n1 | n2 | n0 | sp | pq | pp
  deriving DecidableEq, Repr

/-- The x classes of R92; `sz4` is class sz with bit 2 clear, as ST takes it (R95). -/
inductive XClass where
  | z | rm | ic | fc | pi | rk | ev | cr | lf | sz | sz4 | w | tb | sn | ac
  deriving DecidableEq, Repr

/-- Whether a class reads field a, and field b (R92). -/
def OpClass.readsA : OpClass → Bool
  | .a2 | .a1 | .d3 | .n1 | .n2 | .sp | .pp => true
  | .a0 | .n0 | .pq => false

/-- Whether a class reads field b (R92). -/
def OpClass.readsB : OpClass → Bool
  | .a2 | .d3 | .n2 | .pp => true
  | .a1 | .n1 | .sp | .a0 | .n0 | .pq => false

/-- The destinations a class allows (R92). -/
def OpClass.dstOk (c : OpClass) (dst : BitVec 4) : Bool :=
  match c with
  | .a2 | .a1 | .a0 => true
  | .d3 => decide (dst.toNat ≤ 7)
  | .n1 | .n2 | .n0 | .pp => decide (dst = 15)
  | .sp => decide (8 ≤ dst.toNat ∧ dst.toNat ≤ 11)
  | .pq => decide (dst = 12 ∨ dst = 13)

/-- The x codes a class allows (R92). -/
def XClass.ok (c : XClass) (x : BitVec 3) : Bool :=
  match c with
  | .z => decide (x = 0)
  | .rm | .cr | .sn | .ac | .sz4 => decide (x.toNat ≤ 3)
  | .ic | .fc | .pi | .rk | .ev | .lf => true
  | .sz => decide (x ≠ 7)
  | .w | .tb => decide (x.toNat ≤ 1)

/-- The fields of an operation word obey the classes of its opcode (R55, R90, R92). -/
def FOp.ok (f : FOp) (c : OpClass) (x : XClass) : Bool :=
  c.dstOk f.dst && (c.readsA || decide (f.a = 0)) && (c.readsB || decide (f.b = 0)) && x.ok f.x && decide (f.pidx.toNat ≤ 5) &&
  (decide (c ≠ .pp) || decide (f.a.toNat ≤ 7 ∧ f.b.toNat ≤ 7)) && (f.pwe || decide (f.pidx = 0 ∧ f.pmode = 0))

/-- The operand class and the x class of an opcode of a PE (R94). -/
def peOpClass (code : Nat) : Option (OpClass × XClass) :=
  match code with
  | 0 => some (.a2, .z)
  | 1 => some (.a2, .z)
  | 2 => some (.a2, .z)
  | 3 => some (.a2, .z)
  | 4 => some (.a2, .z)
  | 5 => some (.a2, .z)
  | 6 => some (.a2, .z)
  | 7 => some (.a1, .z)
  | 8 => some (.a1, .z)
  | 9 => some (.a2, .z)
  | 10 => some (.a2, .z)
  | 11 => some (.a2, .z)
  | 12 => some (.a2, .z)
  | 13 => some (.a2, .z)
  | 14 => some (.a2, .z)
  | 15 => some (.a2, .z)
  | 16 => some (.a1, .z)
  | 17 => some (.a1, .z)
  | 18 => some (.a2, .z)
  | 19 => some (.a2, .z)
  | 20 => some (.a2, .z)
  | 21 => some (.a2, .z)
  | 24 => some (.a2, .ic)
  | 25 => some (.a2, .z)
  | 26 => some (.a2, .pi)
  | 27 => some (.a2, .cr)
  | 32 => some (.a2, .rm)
  | 33 => some (.a2, .rm)
  | 34 => some (.a2, .rm)
  | 35 => some (.d3, .rm)
  | 36 => some (.a2, .z)
  | 37 => some (.a2, .z)
  | 38 => some (.a1, .z)
  | 39 => some (.a1, .z)
  | 40 => some (.a2, .fc)
  | 41 => some (.a1, .rm)
  | 42 => some (.a1, .rm)
  | 43 => some (.a2, .rm)
  | 44 => some (.a1, .rm)
  | 45 => some (.a1, .rm)
  | 46 => some (.a1, .rm)
  | 47 => some (.a1, .rm)
  | 48 => some (.a1, .z)
  | 49 => some (.sp, .pi)
  | 50 => some (.a2, .pi)
  | 51 => some (.a1, .pi)
  | 52 => some (.a1, .z)
  | 53 => some (.n1, .z)
  | 56 => some (.a1, .rk)
  | 57 => some (.a1, .z)
  | 58 => some (.a1, .z)
  | 59 => some (.a1, .z)
  | 60 => some (.a0, .z)
  | 64 => some (.a2, .rk)
  | 65 => some (.a2, .rk)
  | 66 => some (.a2, .rk)
  | 67 => some (.a2, .rk)
  | 72 => some (.pp, .lf)
  | 73 => some (.pq, .pi)
  | 80 => some (.a1, .z)
  | 81 => some (.n0, .z)
  | 82 => some (.n0, .z)
  | 83 => some (.n1, .ev)
  | _ => none

/-- The operand class and the x class of an opcode of an SPE (R95). -/
def speOpClass (code : Nat) : Option (OpClass × XClass) :=
  match code with
  | 0 => some (.a1, .sz)
  | 1 => some (.n2, .sz4)
  | 8 => some (.a2, .z)
  | 9 => some (.a2, .z)
  | 10 => some (.a2, .z)
  | 11 => some (.a2, .z)
  | 12 => some (.a2, .z)
  | 13 => some (.a2, .z)
  | 14 => some (.a2, .w)
  | 15 => some (.a2, .w)
  | 16 => some (.a2, .w)
  | 17 => some (.a2, .w)
  | 18 => some (.d3, .w)
  | 19 => some (.a2, .z)
  | 24 => some (.a1, .z)
  | 25 => some (.n2, .z)
  | 26 => some (.a1, .z)
  | 27 => some (.n1, .z)
  | 32 => some (.a0, .tb)
  | 33 => some (.n1, .tb)
  | 34 => some (.a0, .tb)
  | 35 => some (.n1, .tb)
  | 36 => some (.a0, .tb)
  | _ => none

/-- The operand class and the x class of an opcode of an SE (R96). -/
def seOpClass (code : Nat) : Option (OpClass × XClass) :=
  match code with
  | 0 => some (.n1, .sn)
  | 1 => some (.n1, .sn)
  | 2 => some (.n1, .sn)
  | 3 => some (.n1, .sn)
  | 4 => some (.n1, .sn)
  | 5 => some (.n1, .sn)
  | 6 => some (.n1, .sn)
  | 7 => some (.n0, .sn)
  | 8 => some (.n0, .sn)
  | 9 => some (.n1, .sn)
  | 10 => some (.a0, .sn)
  | _ => none

/-- The operand class and the x class of an opcode of an ME (R97). -/
def meOpClass (code : Nat) : Option (OpClass × XClass) :=
  match code with
  | 0 => some (.n1, .ac)
  | 1 => some (.n1, .ac)
  | 2 => some (.n0, .ac)
  | 3 => some (.n1, .ac)
  | 4 => some (.n0, .ac)
  | 5 => some (.n1, .ac)
  | 6 => some (.n1, .z)
  | 7 => some (.n1, .z)
  | 8 => some (.n1, .z)
  | 9 => some (.a0, .z)
  | 10 => some (.n0, .z)
  | 11 => some (.n0, .ac)
  | _ => none

/-- The classes of an opcode in the map of a kind (R94 to R97); none where it is unassigned. -/
def opClass (k : Kind) (code : Nat) : Option (OpClass × XClass) :=
  match k with
  | .pe => peOpClass code
  | .spe => speOpClass code
  | .se => seOpClass code
  | .me => meOpClass code

/-- The instruction of an opcode of a PE (R94). -/
def peOfCode (code : Nat) (f : FOp) : Option Instr :=
  match code with
  | 0 => some (.add f)
  | 1 => some (.sub f)
  | 2 => some (.adds f)
  | 3 => some (.subs f)
  | 4 => some (.mul f)
  | 5 => some (.mulh f)
  | 6 => some (.mulhu f)
  | 7 => some (.neg f)
  | 8 => some (.abs f)
  | 9 => some (.and f)
  | 10 => some (.or f)
  | 11 => some (.xor f)
  | 12 => some (.andn f)
  | 13 => some (.shl f)
  | 14 => some (.shr f)
  | 15 => some (.sra f)
  | 16 => some (.clz f)
  | 17 => some (.popc f)
  | 18 => some (.min f)
  | 19 => some (.max f)
  | 20 => some (.minu f)
  | 21 => some (.maxu f)
  | 24 => some (.cmp f)
  | 25 => some (.tst f)
  | 26 => some (.sel f)
  | 27 => some (.clamp f)
  | 32 => some (.fadd f)
  | 33 => some (.fsub f)
  | 34 => some (.fmul f)
  | 35 => some (.fma f)
  | 36 => some (.fmin f)
  | 37 => some (.fmax f)
  | 38 => some (.fneg f)
  | 39 => some (.fabs f)
  | 40 => some (.fcmp f)
  | 41 => some (.fcvti f)
  | 42 => some (.icvtf f)
  | 43 => some (.fscale f)
  | 44 => some (.frcp f)
  | 45 => some (.frsq f)
  | 46 => some (.fexp2 f)
  | 47 => some (.flog2 f)
  | 48 => some (.mov f)
  | 49 => some (.steer f)
  | 50 => some (.merge f)
  | 51 => some (.filt f)
  | 52 => some (.dup f)
  | 53 => some (.drop f)
  | 56 => some (.mark f)
  | 57 => some (.tagof f)
  | 58 => some (.strip f)
  | 59 => some (.passm f)
  | 60 => some (.hole f)
  | 64 => some (.radd f)
  | 65 => some (.rfadd f)
  | 66 => some (.rmax f)
  | 67 => some (.rfmax f)
  | 72 => some (.plog f)
  | 73 => some (.psend f)
  | 80 => some (.cnt f)
  | 81 => some (.nop f)
  | 82 => some (.halt f)
  | 83 => some (.evt f)
  | _ => none

/-- The instruction of an opcode of an SPE (R95). -/
def speOfCode (code : Nat) (f : FOp) : Option Instr :=
  match code with
  | 0 => some (.ld f)
  | 1 => some (.st f)
  | 8 => some (.aadd f)
  | 9 => some (.asub f)
  | 10 => some (.amin f)
  | 11 => some (.amax f)
  | 12 => some (.aminu f)
  | 13 => some (.amaxu f)
  | 14 => some (.aand f)
  | 15 => some (.aor f)
  | 16 => some (.axor f)
  | 17 => some (.aswap f)
  | 18 => some (.acas f)
  | 19 => some (.afadd f)
  | 24 => some (.itake f)
  | 25 => some (.iput f)
  | 26 => some (.iread f)
  | 27 => some (.iclr f)
  | 32 => some (.tclaim f)
  | 33 => some (.tcommit f)
  | 34 => some (.ttake f)
  | 35 => some (.tfree f)
  | 36 => some (.tstat f)
  | _ => none

/-- The instruction of an opcode of an SE (R96). -/
def seOfCode (code : Nat) (f : FOp) : Option Instr :=
  match code with
  | 0 => some (.sload f)
  | 1 => some (.sstore f)
  | 2 => some (.sgather f)
  | 3 => some (.sscatter f)
  | 4 => some (.sfeed f)
  | 5 => some (.sbfill f)
  | 6 => some (.sdrain f)
  | 7 => some (.swait f)
  | 8 => some (.scancel f)
  | 9 => some (.sresume f)
  | 10 => some (.spos f)
  | _ => none

/-- The instruction of an opcode of an ME (R97). -/
def meOfCode (code : Nat) (f : FOp) : Option Instr :=
  match code with
  | 0 => some (.mma f)
  | 1 => some (.mmas f)
  | 2 => some (.accz f)
  | 3 => some (.accmov f)
  | 4 => some (.accrd f)
  | 5 => some (.accwr f)
  | 6 => some (.bsel f)
  | 7 => some (.rung f)
  | 8 => some (.monset f)
  | 9 => some (.monrd f)
  | 10 => some (.monclr f)
  | 11 => some (.mwait f)
  | _ => none

/-- The instruction of an opcode in the map of a kind, with its fields (R94 to R97). -/
def ofCode (k : Kind) (code : Nat) (f : FOp) : Option Instr :=
  match k with
  | .pe => peOfCode code f
  | .spe => speOfCode code f
  | .se => seOfCode code f
  | .me => meOfCode code f

/-- The kind, opcode and fields of a fabric instruction (R94 to R97); none for every other instruction. -/
def Instr.fabric? (i : Instr) : Option (Kind × Nat × FOp) :=
  match i with
  | .add f => some (.pe, 0, f)
  | .sub f => some (.pe, 1, f)
  | .adds f => some (.pe, 2, f)
  | .subs f => some (.pe, 3, f)
  | .mul f => some (.pe, 4, f)
  | .mulh f => some (.pe, 5, f)
  | .mulhu f => some (.pe, 6, f)
  | .neg f => some (.pe, 7, f)
  | .abs f => some (.pe, 8, f)
  | .and f => some (.pe, 9, f)
  | .or f => some (.pe, 10, f)
  | .xor f => some (.pe, 11, f)
  | .andn f => some (.pe, 12, f)
  | .shl f => some (.pe, 13, f)
  | .shr f => some (.pe, 14, f)
  | .sra f => some (.pe, 15, f)
  | .clz f => some (.pe, 16, f)
  | .popc f => some (.pe, 17, f)
  | .min f => some (.pe, 18, f)
  | .max f => some (.pe, 19, f)
  | .minu f => some (.pe, 20, f)
  | .maxu f => some (.pe, 21, f)
  | .cmp f => some (.pe, 24, f)
  | .tst f => some (.pe, 25, f)
  | .sel f => some (.pe, 26, f)
  | .clamp f => some (.pe, 27, f)
  | .fadd f => some (.pe, 32, f)
  | .fsub f => some (.pe, 33, f)
  | .fmul f => some (.pe, 34, f)
  | .fma f => some (.pe, 35, f)
  | .fmin f => some (.pe, 36, f)
  | .fmax f => some (.pe, 37, f)
  | .fneg f => some (.pe, 38, f)
  | .fabs f => some (.pe, 39, f)
  | .fcmp f => some (.pe, 40, f)
  | .fcvti f => some (.pe, 41, f)
  | .icvtf f => some (.pe, 42, f)
  | .fscale f => some (.pe, 43, f)
  | .frcp f => some (.pe, 44, f)
  | .frsq f => some (.pe, 45, f)
  | .fexp2 f => some (.pe, 46, f)
  | .flog2 f => some (.pe, 47, f)
  | .mov f => some (.pe, 48, f)
  | .steer f => some (.pe, 49, f)
  | .merge f => some (.pe, 50, f)
  | .filt f => some (.pe, 51, f)
  | .dup f => some (.pe, 52, f)
  | .drop f => some (.pe, 53, f)
  | .mark f => some (.pe, 56, f)
  | .tagof f => some (.pe, 57, f)
  | .strip f => some (.pe, 58, f)
  | .passm f => some (.pe, 59, f)
  | .hole f => some (.pe, 60, f)
  | .radd f => some (.pe, 64, f)
  | .rfadd f => some (.pe, 65, f)
  | .rmax f => some (.pe, 66, f)
  | .rfmax f => some (.pe, 67, f)
  | .plog f => some (.pe, 72, f)
  | .psend f => some (.pe, 73, f)
  | .cnt f => some (.pe, 80, f)
  | .nop f => some (.pe, 81, f)
  | .halt f => some (.pe, 82, f)
  | .evt f => some (.pe, 83, f)
  | .ld f => some (.spe, 0, f)
  | .st f => some (.spe, 1, f)
  | .aadd f => some (.spe, 8, f)
  | .asub f => some (.spe, 9, f)
  | .amin f => some (.spe, 10, f)
  | .amax f => some (.spe, 11, f)
  | .aminu f => some (.spe, 12, f)
  | .amaxu f => some (.spe, 13, f)
  | .aand f => some (.spe, 14, f)
  | .aor f => some (.spe, 15, f)
  | .axor f => some (.spe, 16, f)
  | .aswap f => some (.spe, 17, f)
  | .acas f => some (.spe, 18, f)
  | .afadd f => some (.spe, 19, f)
  | .itake f => some (.spe, 24, f)
  | .iput f => some (.spe, 25, f)
  | .iread f => some (.spe, 26, f)
  | .iclr f => some (.spe, 27, f)
  | .tclaim f => some (.spe, 32, f)
  | .tcommit f => some (.spe, 33, f)
  | .ttake f => some (.spe, 34, f)
  | .tfree f => some (.spe, 35, f)
  | .tstat f => some (.spe, 36, f)
  | .sload f => some (.se, 0, f)
  | .sstore f => some (.se, 1, f)
  | .sgather f => some (.se, 2, f)
  | .sscatter f => some (.se, 3, f)
  | .sfeed f => some (.se, 4, f)
  | .sbfill f => some (.se, 5, f)
  | .sdrain f => some (.se, 6, f)
  | .swait f => some (.se, 7, f)
  | .scancel f => some (.se, 8, f)
  | .sresume f => some (.se, 9, f)
  | .spos f => some (.se, 10, f)
  | .mma f => some (.me, 0, f)
  | .mmas f => some (.me, 1, f)
  | .accz f => some (.me, 2, f)
  | .accmov f => some (.me, 3, f)
  | .accrd f => some (.me, 4, f)
  | .accwr f => some (.me, 5, f)
  | .bsel f => some (.me, 6, f)
  | .rung f => some (.me, 7, f)
  | .monset f => some (.me, 8, f)
  | .monrd f => some (.me, 9, f)
  | .monclr f => some (.me, 10, f)
  | .mwait f => some (.me, 11, f)
  | _ => none

end Sys2Proof
end

