-- ==== Sys2Proof/WellFormed.lean ====
section
/-! DEFINITION. What makes an instruction well formed: the checks the spec makes on its fields (R90, R92, R230, R231, R242,
R250), and for an operation without an encoded word the ranges of the numbers that name its agents (R3). -/
namespace Sys2Proof

/-- A scope where a flag that takes one is set, or none is (R230). -/
def scopeOk (flagged : Bool) (s : BitVec 3) : Bool :=
  if flagged then decide (1 ≤ s.toNat ∧ s.toNat ≤ 5) else decide (s = 0)

/-- A persistence scope: hamlet or region (R244, R245). -/
def persistScopeOk (s : BitVec 3) : Bool := decide (s = 1 ∨ s = 2)

/-- The assigned control register numbers (R225). -/
def csrAssigned (c : BitVec 12) : Bool := decide (c.toNat ≤ 0x13)

/-- The fabric instruction obeys the classes of its opcode (R92). -/
def fabricOk (k : Kind) (code : Nat) (f : FOp) : Bool :=
  match opClass k code with
  | some (c, x) => f.ok c x
  | none => false

/-- A reduction reads at least one input, and two inputs name different queues (R132). -/
def redOk (f : FOp) : Bool :=
  (decide (12 ≤ f.a.toNat) || decide (12 ≤ f.b.toNat)) && !(decide (12 ≤ f.a.toNat) && decide (f.a = f.b))

/-- No slot of an SPE writes p4 or p5 (R27). -/
def speOk (f : FOp) : Bool := !(f.pwe && decide (4 ≤ f.pidx.toNat))

/-- A hamlet number (R3). -/
def hamOk (h : Nat) : Bool := decide (h < 256)
/-- The number of a core: a hamlet's reeve, or 256 for the beadle (R223). -/
def coreOk (h : Nat) : Bool := decide (h ≤ 256)
/-- A queue command names one of the 64 queues (R327). -/
def queueOk (c : QCmd) : Bool := decide (c.queue.toNat < 64)
/-- A translation command names one of the 64 contexts (R347). -/
def xcmdOk (c : XCmd) : Bool := decide (c.ctx.toNat < 64)
/-- The flags and the next address of a command block keep their limits (R329). -/
def blockOk (b : Block) : Bool :=
  decide (b.flags.extractLsb' 5 11 = 0) && scopeOk (b.flags.extractLsb' 0 2 != 0 || b.flags.extractLsb' 2 3 != 0) (b.flags.extractLsb' 2 3) &&
  decide (b.next.extractLsb' 0 6 = 0)
/-- A site number (R3). -/
def siteOk (s : Nat) : Bool := decide (s < 64)

/-- The instruction is well formed. -/
def Instr.wf (i : Instr) : Bool :=
  match i with
  | .add f => fabricOk .pe 0 f
  | .sub f => fabricOk .pe 1 f
  | .adds f => fabricOk .pe 2 f
  | .subs f => fabricOk .pe 3 f
  | .mul f => fabricOk .pe 4 f
  | .mulh f => fabricOk .pe 5 f
  | .mulhu f => fabricOk .pe 6 f
  | .neg f => fabricOk .pe 7 f
  | .abs f => fabricOk .pe 8 f
  | .and f => fabricOk .pe 9 f
  | .or f => fabricOk .pe 10 f
  | .xor f => fabricOk .pe 11 f
  | .andn f => fabricOk .pe 12 f
  | .shl f => fabricOk .pe 13 f
  | .shr f => fabricOk .pe 14 f
  | .sra f => fabricOk .pe 15 f
  | .clz f => fabricOk .pe 16 f
  | .popc f => fabricOk .pe 17 f
  | .min f => fabricOk .pe 18 f
  | .max f => fabricOk .pe 19 f
  | .minu f => fabricOk .pe 20 f
  | .maxu f => fabricOk .pe 21 f
  | .cmp f => fabricOk .pe 24 f
  | .tst f => fabricOk .pe 25 f
  | .sel f => fabricOk .pe 26 f
  | .clamp f => fabricOk .pe 27 f
  | .fadd f => fabricOk .pe 32 f
  | .fsub f => fabricOk .pe 33 f
  | .fmul f => fabricOk .pe 34 f
  | .fma f => fabricOk .pe 35 f
  | .fmin f => fabricOk .pe 36 f
  | .fmax f => fabricOk .pe 37 f
  | .fneg f => fabricOk .pe 38 f
  | .fabs f => fabricOk .pe 39 f
  | .fcmp f => fabricOk .pe 40 f
  | .fcvti f => fabricOk .pe 41 f
  | .icvtf f => fabricOk .pe 42 f
  | .fscale f => fabricOk .pe 43 f
  | .frcp f => fabricOk .pe 44 f
  | .frsq f => fabricOk .pe 45 f
  | .fexp2 f => fabricOk .pe 46 f
  | .flog2 f => fabricOk .pe 47 f
  | .mov f => fabricOk .pe 48 f
  | .steer f => fabricOk .pe 49 f
  | .merge f => fabricOk .pe 50 f
  | .filt f => fabricOk .pe 51 f
  | .dup f => fabricOk .pe 52 f
  | .drop f => fabricOk .pe 53 f
  | .mark f => fabricOk .pe 56 f
  | .tagof f => fabricOk .pe 57 f
  | .strip f => fabricOk .pe 58 f
  | .passm f => fabricOk .pe 59 f
  | .hole f => fabricOk .pe 60 f
  | .radd f => fabricOk .pe 64 f && redOk f
  | .rfadd f => fabricOk .pe 65 f && redOk f
  | .rmax f => fabricOk .pe 66 f && redOk f
  | .rfmax f => fabricOk .pe 67 f && redOk f
  | .plog f => fabricOk .pe 72 f
  | .psend f => fabricOk .pe 73 f
  | .cnt f => fabricOk .pe 80 f
  | .nop f => fabricOk .pe 81 f
  | .halt f => fabricOk .pe 82 f
  | .evt f => fabricOk .pe 83 f
  | .ld f => fabricOk .spe 0 f && speOk f
  | .st f => fabricOk .spe 1 f && speOk f
  | .aadd f => fabricOk .spe 8 f && speOk f
  | .asub f => fabricOk .spe 9 f && speOk f
  | .amin f => fabricOk .spe 10 f && speOk f
  | .amax f => fabricOk .spe 11 f && speOk f
  | .aminu f => fabricOk .spe 12 f && speOk f
  | .amaxu f => fabricOk .spe 13 f && speOk f
  | .aand f => fabricOk .spe 14 f && speOk f
  | .aor f => fabricOk .spe 15 f && speOk f
  | .axor f => fabricOk .spe 16 f && speOk f
  | .aswap f => fabricOk .spe 17 f && speOk f
  | .acas f => fabricOk .spe 18 f && speOk f
  | .afadd f => fabricOk .spe 19 f && speOk f
  | .itake f => fabricOk .spe 24 f && speOk f
  | .iput f => fabricOk .spe 25 f && speOk f
  | .iread f => fabricOk .spe 26 f && speOk f
  | .iclr f => fabricOk .spe 27 f && speOk f
  | .tclaim f => fabricOk .spe 32 f && speOk f
  | .tcommit f => fabricOk .spe 33 f && speOk f
  | .ttake f => fabricOk .spe 34 f && speOk f
  | .tfree f => fabricOk .spe 35 f && speOk f
  | .tstat f => fabricOk .spe 36 f && speOk f
  | .sload f => fabricOk .se 0 f
  | .sstore f => fabricOk .se 1 f
  | .sgather f => fabricOk .se 2 f
  | .sscatter f => fabricOk .se 3 f
  | .sfeed f => fabricOk .se 4 f
  | .sbfill f => fabricOk .se 5 f
  | .sdrain f => fabricOk .se 6 f
  | .swait f => fabricOk .se 7 f
  | .scancel f => fabricOk .se 8 f
  | .sresume f => fabricOk .se 9 f
  | .spos f => fabricOk .se 10 f
  | .mma f => fabricOk .me 0 f
  | .mmas f => fabricOk .me 1 f
  | .accz f => fabricOk .me 2 f
  | .accmov f => fabricOk .me 3 f
  | .accrd f => fabricOk .me 4 f
  | .accwr f => fabricOk .me 5 f
  | .bsel f => fabricOk .me 6 f
  | .rung f => fabricOk .me 7 f
  | .monset f => fabricOk .me 8 f
  | .monrd f => fabricOk .me 9 f
  | .monclr f => fabricOk .me 10 f
  | .mwait f => fabricOk .me 11 f
  | .reeveAdd _ _ _ => true
  | .reeveSub _ _ _ => true
  | .reeveAnd _ _ _ => true
  | .reeveOr _ _ _ => true
  | .reeveXor _ _ _ => true
  | .sll _ _ _ => true
  | .srl _ _ _ => true
  | .reeveSra _ _ _ => true
  | .slt _ _ _ => true
  | .sltu _ _ _ => true
  | .reeveMul _ _ _ => true
  | .reeveMulh _ _ _ => true
  | .reeveMulhu _ _ _ => true
  | .div _ _ _ => true
  | .divu _ _ _ => true
  | .rem _ _ _ => true
  | .remu _ _ _ => true
  | .reeveMin _ _ _ => true
  | .reeveMax _ _ _ => true
  | .addi _ _ _ => true
  | .andi _ _ _ => true
  | .ori _ _ _ => true
  | .xori _ _ _ => true
  | .slli _ _ _ => true
  | .srli _ _ _ => true
  | .srai _ _ _ => true
  | .slti _ _ _ => true
  | .lui _ _ => true
  | .beq _ _ _ => true
  | .bne _ _ _ => true
  | .blt _ _ _ => true
  | .bge _ _ _ => true
  | .bltu _ _ _ => true
  | .bgeu _ _ _ => true
  | .jal _ _ => true
  | .jalr _ _ _ => true
  | .lb _ _ _ => true
  | .lh _ _ _ => true
  | .lw _ _ _ => true
  | .reeveLd _ _ _ => true
  | .lbu _ _ _ => true
  | .lhu _ _ _ => true
  | .lwu _ _ _ => true
  | .sb _ _ _ => true
  | .sh _ _ _ => true
  | .sw _ _ _ => true
  | .sd _ _ _ => true
  | .amoadd _ _ _ s o _ => scopeOk (o != 0) s
  | .amoswap _ _ _ s o _ => scopeOk (o != 0) s
  | .amoand _ _ _ s o _ => scopeOk (o != 0) s
  | .amoor _ _ _ s o _ => scopeOk (o != 0) s
  | .amoxor _ _ _ s o _ => scopeOk (o != 0) s
  | .amomin _ _ _ s o _ => scopeOk (o != 0) s
  | .amomax _ _ _ s o _ => scopeOk (o != 0) s
  | .amocas _ _ _ s o _ => scopeOk (o != 0) s
  | .fence s f => (f.getLsbD 0 || f.getLsbD 1) && scopeOk true s
  | .pfence _ s => persistScopeOk s
  | .csrr _ c => csrAssigned c
  | .csrw _ _ c => csrAssigned c
  | .csrs _ _ c => csrAssigned c
  | .csrc _ _ c => csrAssigned c
  | .cfgld _ _ => true
  | .cfgswap _ _ => true
  | .cfgarm _ _ => true
  | .cfgstop _ => true
  | .cfgfallow _ => true
  | .cutreq _ s => persistScopeOk s
  | .elrd _ _ => true
  | .elwr _ _ _ => true
  | .stallrd _ _ _ => true
  | .copy d _ _ s f => scopeOk (f != 0) s && decide (d.toNat % 2 = 0 ∧ d.toNat < 30)
  | .binit _ _ _ => true
  | .barv _ _ _ s f => scopeOk (f != 0) s
  | .bexp _ _ _ s f => scopeOk (f != 0) s
  | .bwait _ _ _ s f => scopeOk (f != 0) s
  | .bstat _ _ => true
  | .tspawn _ _ s f => scopeOk (f != 0) s
  | .tjoin _ _ s f => scopeOk (f != 0) s
  | .tpop _ s f => scopeOk (f != 0) s
  | .tdone _ s f => scopeOk (f != 0) s
  | .launch _ _ => true
  | .launchi _ _ => true
  | .gang _ _ => true
  | .wait _ _ => true
  | .sleep _ _ _ => true
  | .trap _ => true
  | .tret => true
  | .reeveNop => true
  | .reeveHalt => true
  | .census _ _ => true
  | .tokenCrossing first => hamOk first
  | .speCompletion h site slot => hamOk h && siteOk site && decide (slot < 16)
  | .bankMessage h => hamOk h
  | .deferredRequestPerform h bank => hamOk h && decide (bank < 16)
  | .streamCommandStart h site n => hamOk h && siteOk site && decide (n < 4)
  | .troughSlotAcquire h site n => hamOk h && siteOk site && decide (n < 4)
  | .streamPosition h site n => hamOk h && siteOk site && decide (n < 4)
  | .gatherCommandSend h site n => hamOk h && siteOk site && decide (n < 4)
  | .gatherBurstDelivery h site n => hamOk h && siteOk site && decide (n < 4)
  | .mePortTransfer h site n => hamOk h && siteOk site && decide (n < 4)
  | .meOperationStart h site => hamOk h && siteOk site
  | .meRow h site => hamOk h && siteOk site
  | .blockCheck h site => hamOk h && siteOk site
  | .accmovRow h site => hamOk h && siteOk site
  | .accrdToken h site q => hamOk h && siteOk site && decide (q < 4)
  | .accwrToken h site q => hamOk h && siteOk site && decide (q < 4)
  | .lateAccessTrap h _ _ => coreOk h
  | .storePerform h => coreOk h
  | .translationRetry h => coreOk h
  | .waitWake h => coreOk h
  | .sleepExpiry h => coreOk h
  | .bwaitPoll h => coreOk h
  | .carterCommand h => hamOk h
  | .carterGranule h => hamOk h
  | .carterCompletionUpdate h => hamOk h
  | .linkPushRetry => true
  | .marketDecision => true
  | .popRead q => decide (q < 64)
  | .expertWindowEnd e => decide (e < 256)
  | .dispatch first => hamOk first
  | .marketRingPoll => true
  | .queueNop c => queueOk c
  | .qconf c => queueOk c
  | .qpush c => queueOk c
  | .qstop c => queueOk c
  | .qstart c => queueOk c
  | .qchain c => queueOk c
  | .qexpert c => queueOk c
  | .launchBlock _ b => blockOk b
  | .launchiBlock _ b => blockOk b
  | .gangBlock _ b => blockOk b
  | .copyBlock _ b => blockOk b
  | .binitBlock _ b => blockOk b
  | .signal _ b => blockOk b
  | .waitb _ b => blockOk b
  | .stage _ b => blockOk b
  | .persist _ b => blockOk b
  | .fenceBlock _ b => blockOk b
  | .translationRingPoll => true
  | .xlateNop c => xcmdOk c
  | .invva c => xcmdOk c
  | .invasid c => xcmdOk c
  | .invctx c => xcmdOk c
  | .resolve c => xcmdOk c
  | .refuse c => xcmdOk c
  | .release c => xcmdOk c
  | .pageWalk h _ acc => hamOk h && decide (acc < 3)
  | .eventRecordRetry ctx => decide (ctx < 64)
  | .shadowIntervalExpiry first => hamOk first
  | .elementRecord h agent => hamOk h && decide (agent < 66)
  | .afterWritePerform h => hamOk h
  | .cutComplete first => hamOk first
  | .stoppedCutTimeout first => hamOk first
  | .heldEntrySend h => hamOk h
  | .heldEntryAck h => hamOk h
  | .supplyWarning _ => true
  | .powerReturn _ => true
  | .channelStateReplay h site q => hamOk h && siteOk site && decide (q < 6)
  | .preemption first => hamOk first
  | .engineStopAck h agent => hamOk h && decide (agent < 66)
  | .contextSaved first => hamOk first
  | .spillGranule h => hamOk h
  | .spillHeaderWrite h => hamOk h
  | .spillReadBack h ctx => hamOk h && decide (ctx < 64)
  | .energyUpdate _ => true
  | .quotaRefill ctx => decide (ctx < 64)
  | .sensorPoll _ => true
  | .powerCapUpdate _ => true
  | .budgetInterval => true
  | .hbmRateCapGrant stack => decide (stack < 8)
  | .refreshWindowOpen quad => decide (quad < 8)
  | .refreshWindowClose quad => decide (quad < 8)
  | .nodispatch p => decide (p < 32)
  | .quiesce p => decide (p < 32)
  | .clear p => decide (p < 32)
  | .retain p => decide (p < 32)
  | .clockGate p => decide (p < 32)
  | .railGate p => decide (p < 32)
  | .autogateEnable p => decide (p < 32)
  | .pctlStepUndo p => decide (p < 32)
  | .pctlAcknowledge p => decide (p < 32)
  | .autogateHoldExpiry p => decide (p < 32)
  | .pwake p => decide (p < 32)
  | .inrushRampStart die => decide (die < 2)
  | .inrushRampEnd p => decide (p < 32)
  | .restoreComplete p => decide (p < 32)
  | .pallow p _ => decide (p < 32)
  | .registerWrite _ _ => true
  | .uncorrectableHamletState h site => hamOk h && siteOk site
  | .verticalBusTransfer quad _ _ => decide (quad < 8)
  | .regionRelease first => hamOk first
  | .fallowTimeout first => hamOk first
  | .killComplete ctx => decide (ctx < 64)
  | .deviceReset => true
  | .lock => true
  | .go => true
  | .manorRelease => true
  | .mext i => decide (i < 8)
  | .serviceRingPoll => true
  | .attest _ _ => true
  | .windowAccess _ => true
  | .pcieEndpointRequest _ _ _ _ => true
  | .ualinkRequest _ => true
  | .ualinkPortDown port => decide (port < 18)
  | .doorbell _ _ => true
  | .rdmaWorkRequest _ _ => true
  | .rdmaCompletion _ _ _ _ => true
  | .rdmaIncomingRequest _ _ _ _ _ _ => true
  | .stallCharge h site => hamOk h && siteOk site
  | .retryTimeout _ _ => true
  | .ualinkPortUp port => decide (port < 18)

end Sys2Proof
end

