-- ==== Sys2Proof/Decode.lean ====
section
/-! DEFINITION. Decoding of operation words (R90 to R97), trigger words (R89), reeve words (R229 to R232), queue and
translation commands (R327, R347) and command blocks (R329), each total and rejecting by name; and the encoders. -/
namespace Sys2Proof

/-- Why bits are no instruction. -/
inductive DecodeErr where
  /-- an opcode that the map of the kind leaves unassigned (R94 to R97) -/
  | unassignedOpcode
  /-- a field of an operation word outside its class (R90, R92) -/
  | badField
  /-- a major opcode that R232 leaves unassigned -/
  | unassignedMajor
  /-- a function or sub-op that its table leaves unassigned -/
  | unassignedFunction
  /-- a field the entry does not read is not zero (R231) -/
  | nonzeroField
  /-- a scope, flag or register field outside its entry (R230, R242, R250) -/
  | badOperand
  deriving DecidableEq, Repr

/-- n bits of a word from bit lo. -/
def fld (w : W32) (lo n : Nat) : BitVec n := w.extractLsb' lo n

/-- The fields of an operation word below its opcode (R90). -/
def unpackFOp (w : W32) : FOp :=
  { dst := fld w 21 4, a := fld w 17 4, b := fld w 13 4, deq := fld w 9 4, pwe := w.getLsbD 8, pidx := fld w 5 3,
    pmode := fld w 3 2, x := fld w 0 3 }

/-- The operation word of an opcode and its fields (R90). -/
def packFOp (code : Nat) (f : FOp) : W32 :=
  BitVec.ofNat 7 code ++ f.dst ++ f.a ++ f.b ++ f.deq ++ BitVec.ofBool f.pwe ++ f.pidx ++ f.pmode ++ f.x

/-- The instruction of an operation word in the map of a kind (R90 to R97). -/
def decodeOpWord (k : Kind) (w : W32) : Except DecodeErr Instr :=
  match ofCode k (fld w 25 7).toNat (unpackFOp w) with
  | none => .error .unassignedOpcode
  | some i => if i.wf then .ok i else .error .badField

/-- A trigger word (R89). -/
structure Trig where
  valid : Bool
  high : Bool
  aEn : Bool
  aNeg : Bool
  aIdx : BitVec 3
  bEn : Bool
  bNeg : Bool
  bIdx : BitVec 3
  needIn : BitVec 4
  needOut : BitVec 4
  needPq : BitVec 2
  tagQ : BitVec 2
  tagCls : BitVec 3
  k : BitVec 3
  rsvd : BitVec 2
  deriving DecidableEq, Repr

/-- The fields of a trigger word (R89). -/
def unpackTrig (w : W32) : Trig :=
  { valid := w.getLsbD 31, high := w.getLsbD 30, aEn := w.getLsbD 29, aNeg := w.getLsbD 28, aIdx := fld w 25 3,
    bEn := w.getLsbD 24, bNeg := w.getLsbD 23, bIdx := fld w 20 3, needIn := fld w 16 4, needOut := fld w 12 4,
    needPq := fld w 10 2, tagQ := fld w 8 2, tagCls := fld w 5 3, k := fld w 2 3, rsvd := fld w 0 2 }

/-- The trigger word of its fields (R89). -/
def packTrig (t : Trig) : W32 :=
  BitVec.ofBool t.valid ++ BitVec.ofBool t.high ++ BitVec.ofBool t.aEn ++ BitVec.ofBool t.aNeg ++ t.aIdx ++
  BitVec.ofBool t.bEn ++ BitVec.ofBool t.bNeg ++ t.bIdx ++ t.needIn ++ t.needOut ++ t.needPq ++ t.tagQ ++ t.tagCls ++ t.k ++
  t.rsvd

/-- An R-form word (R229). -/
def rWord (major : Nat) (d a b : BitVec 5) (fn : BitVec 11) : W32 := BitVec.ofNat 6 major ++ d ++ a ++ b ++ fn

/-- An I-form or S-form word (R229). -/
def iWord (major : Nat) (d a : BitVec 5) (i : BitVec 16) : W32 := BitVec.ofNat 6 major ++ d ++ a ++ i

/-- An X-form word (R229). -/
def xWord (major : Nat) (d a b : BitVec 5) (sub : Nat) (s f : BitVec 3) : W32 :=
  BitVec.ofNat 6 major ++ d ++ a ++ b ++ BitVec.ofNat 5 sub ++ s ++ f

/-- The ALU instruction of a function (R233). -/
def aluOp (fn : Nat) (d a b : BitVec 5) : Except DecodeErr Instr :=
  match fn with
  | 0 => .ok (.reeveAdd d a b)
  | 1 => .ok (.reeveSub d a b)
  | 2 => .ok (.reeveAnd d a b)
  | 3 => .ok (.reeveOr d a b)
  | 4 => .ok (.reeveXor d a b)
  | 5 => .ok (.sll d a b)
  | 6 => .ok (.srl d a b)
  | 7 => .ok (.reeveSra d a b)
  | 8 => .ok (.slt d a b)
  | 9 => .ok (.sltu d a b)
  | 10 => .ok (.reeveMul d a b)
  | 11 => .ok (.reeveMulh d a b)
  | 12 => .ok (.reeveMulhu d a b)
  | 13 => .ok (.div d a b)
  | 14 => .ok (.divu d a b)
  | 15 => .ok (.rem d a b)
  | 16 => .ok (.remu d a b)
  | 17 => .ok (.reeveMin d a b)
  | 18 => .ok (.reeveMax d a b)
  | _ => .error .unassignedFunction

/-- The instruction, where the named fields are zero (R231). -/
def zeroed (z : Bool) (i : Instr) : Except DecodeErr Instr := if z then .ok i else .error .nonzeroField

/-- The atomic of a function field (R241): operation [3:0], width [4], order [6:5], scope [9:7], [10] zero. -/
def amoOp (d a b : BitVec 5) (fn : BitVec 11) : Except DecodeErr Instr :=
  let w := fn.extractLsb' 4 1
  let o := fn.extractLsb' 5 2
  let s := fn.extractLsb' 7 3
  let z := !fn.getLsbD 10
  match (fn.extractLsb' 0 4).toNat with
  | 0 => zeroed z (.amoadd d a b s o w)
  | 1 => zeroed z (.amoswap d a b s o w)
  | 2 => zeroed z (.amoand d a b s o w)
  | 3 => zeroed z (.amoor d a b s o w)
  | 4 => zeroed z (.amoxor d a b s o w)
  | 5 => zeroed z (.amomin d a b s o w)
  | 6 => zeroed z (.amomax d a b s o w)
  | 7 => zeroed z (.amocas d a b s o w)
  | _ => .error .unassignedFunction

/-- Flags of which only bit 1, release, may be set (R230). -/
def relOnly (f : BitVec 3) : Bool := decide (f &&& 5 = 0)
/-- Flags of which only bit 0 may be set (R230). -/
def lowOnly (f : BitVec 3) : Bool := decide (f &&& 6 = 0)

/-- The fabric instruction of a sub-op (R245). -/
def fabricOp (d a b : BitVec 5) (sub : Nat) (s f : BitVec 3) : Except DecodeErr Instr :=
  match sub with
  | 0 => zeroed (b = 0 ∧ s = 0 ∧ f = 0) (.cfgld d a)
  | 1 => zeroed (a = 0 ∧ b = 0 ∧ s = 0 ∧ f &&& 4 = 0) (.cfgarm d (f.truncate 2))
  | 2 => zeroed (a = 0 ∧ b = 0 ∧ s = 0 ∧ f = 0) (.cfgstop d)
  | 3 => zeroed (b = 0 ∧ s = 0 ∧ f = 0) (.cfgswap d a)
  | 4 => zeroed (a = 0 ∧ b = 0 ∧ s = 0 ∧ f = 0) (.cfgfallow d)
  | 5 => zeroed (a = 0 ∧ b = 0 ∧ f = 0) (.cutreq d s)
  | 6 => zeroed (b = 0 ∧ s = 0 ∧ f = 0) (.elrd d a)
  | 7 => zeroed (s = 0 ∧ f = 0) (.elwr d a b)
  | 8 => zeroed (b = 0 ∧ s = 0 ∧ lowOnly f) (.stallrd d a (f.truncate 1))
  | _ => .error .unassignedFunction

/-- The barrier instruction of a sub-op (R251). -/
def barrierOp (d a b : BitVec 5) (sub : Nat) (s f : BitVec 3) : Except DecodeErr Instr :=
  match sub with
  | 0 => zeroed (s = 0 ∧ f = 0) (.binit d a b)
  | 1 => zeroed (relOnly f) (.barv d a b s (f.extractLsb' 1 1))
  | 2 => zeroed (relOnly f) (.bexp d a b s (f.extractLsb' 1 1))
  | 3 => zeroed (lowOnly f) (.bwait d a b s (f.truncate 1))
  | 4 => zeroed (b = 0 ∧ s = 0 ∧ f = 0) (.bstat d a)
  | _ => .error .unassignedFunction

/-- The task instruction of a sub-op (R252). -/
def taskOp (d a b : BitVec 5) (sub : Nat) (s f : BitVec 3) : Except DecodeErr Instr :=
  match sub with
  | 0 => zeroed (b = 0 ∧ relOnly f) (.tspawn d a s (f.extractLsb' 1 1))
  | 1 => zeroed (a = 0 ∧ b = 0 ∧ lowOnly f) (.tpop d s (f.truncate 1))
  | 2 => zeroed (b = 0 ∧ relOnly f) (.tjoin d a s (f.extractLsb' 1 1))
  | 3 => zeroed (d = 0 ∧ b = 0 ∧ relOnly f) (.tdone a s (f.extractLsb' 1 1))
  | 4 => zeroed (b = 0 ∧ s = 0 ∧ f = 0) (.launch d a)
  | 5 => zeroed (b = 0 ∧ s = 0 ∧ f = 0) (.launchi d a)
  | 6 => zeroed (b = 0 ∧ s = 0 ∧ f = 0) (.gang d a)
  | _ => .error .unassignedFunction

/-- The control register instruction of an operation code (R242). -/
def csrOp (d a : BitVec 5) (i : BitVec 16) : Except DecodeErr Instr :=
  let c : BitVec 12 := i.truncate 12
  let z : Bool := i.extractLsb' 12 2 = 0
  match (i.extractLsb' 14 2).toNat with
  | 0 => zeroed (z && decide (a = 0)) (.csrr d c)
  | 1 => zeroed z (.csrw d a c)
  | 2 => zeroed z (.csrs d a c)
  | _ => zeroed z (.csrc d a c)

/-- A shift by an immediate below 64 (R234). -/
def shiftImm (i : BitVec 16) (j : Instr) : Except DecodeErr Instr := zeroed (i.extractLsb' 6 10 = 0) j

/-- The fields of a reeve word read by major opcode (R229, R232). -/
def reeveFields (w : W32) : Except DecodeErr Instr :=
  let d : BitVec 5 := fld w 21 5
  let a : BitVec 5 := fld w 16 5
  let b : BitVec 5 := fld w 11 5
  let i : BitVec 16 := fld w 0 16
  let fn : BitVec 11 := fld w 0 11
  let sub := (fld w 6 5).toNat
  let s : BitVec 3 := fld w 3 3
  let f : BitVec 3 := fld w 0 3
  match (fld w 26 6).toNat with
  | 0x00 => aluOp fn.toNat d a b
  | 0x01 => .ok (.addi d a i)
  | 0x02 => .ok (.andi d a i)
  | 0x03 => .ok (.ori d a i)
  | 0x04 => .ok (.xori d a i)
  | 0x05 => shiftImm i (.slli d a (i.truncate 6))
  | 0x06 => shiftImm i (.srli d a (i.truncate 6))
  | 0x07 => shiftImm i (.srai d a (i.truncate 6))
  | 0x08 => .ok (.slti d a i)
  | 0x09 => zeroed (a = 0) (.lui d i)
  | 0x10 => .ok (.beq d a i)
  | 0x11 => .ok (.bne d a i)
  | 0x12 => .ok (.blt d a i)
  | 0x13 => .ok (.bge d a i)
  | 0x14 => .ok (.bltu d a i)
  | 0x15 => .ok (.bgeu d a i)
  | 0x16 => .ok (.jal d (fld w 0 21))
  | 0x17 => .ok (.jalr d a i)
  | 0x18 => .ok (.lb d a i)
  | 0x19 => .ok (.lh d a i)
  | 0x1a => .ok (.lw d a i)
  | 0x1b => .ok (.reeveLd d a i)
  | 0x1c => .ok (.lbu d a i)
  | 0x1d => .ok (.lhu d a i)
  | 0x1e => .ok (.lwu d a i)
  | 0x20 => .ok (.sb d a i)
  | 0x21 => .ok (.sh d a i)
  | 0x22 => .ok (.sw d a i)
  | 0x23 => .ok (.sd d a i)
  | 0x24 => amoOp d a b fn
  | 0x25 => zeroed (d = 0 ∧ a = 0 ∧ b = 0 ∧ sub = 0) (.fence s f)
  | 0x26 => zeroed (a = 0 ∧ b = 0 ∧ sub = 0 ∧ f = 0) (.pfence d s)
  | 0x27 => csrOp d a i
  | 0x28 => fabricOp d a b sub s f
  | 0x29 => zeroed (sub = 0 ∧ f &&& 4 = 0) (.copy d a b s (f.truncate 2))
  | 0x2A => barrierOp d a b sub s f
  | 0x2B => taskOp d a b sub s f
  | 0x2C =>
    match sub with
    | 0 => zeroed (b = 0 ∧ s = 0 ∧ f = 0) (.wait d a)
    | 1 => zeroed (s = 0 ∧ f = 0) (.sleep d a b)
    | _ => .error .unassignedFunction
  | 0x2D =>
    match (fld w 8 3).toNat with
    | 0 => zeroed (d = 0 ∧ a = 0 ∧ b = 0) (.trap (fld w 0 8))
    | 1 => zeroed (d = 0 ∧ a = 0 ∧ b = 0 ∧ fld w 0 8 = 0) .tret
    | _ => .error .unassignedFunction
  | 0x2E =>
    match fn.toNat with
    | 0 => zeroed (d = 0 ∧ a = 0 ∧ b = 0) .reeveNop
    | 1 => zeroed (d = 0 ∧ a = 0 ∧ b = 0) .reeveHalt
    | 2 => zeroed (b = 0) (.census d a)
    | _ => .error .unassignedFunction
  | _ => .error .unassignedMajor

/-- The instruction of a reeve word (R229 to R232). -/
def decodeReeve (w : W32) : Except DecodeErr Instr :=
  match reeveFields w with
  | .error e => .error e
  | .ok i => if i.wf then .ok i else .error .badOperand

/-- The word of a reeve instruction (R229 to R255); none for every other instruction. -/
def encodeReeve (i : Instr) : Option W32 :=
  match i with
  | .reeveAdd d a b => some (rWord 0 d a b 0)
  | .reeveSub d a b => some (rWord 0 d a b 1)
  | .reeveAnd d a b => some (rWord 0 d a b 2)
  | .reeveOr d a b => some (rWord 0 d a b 3)
  | .reeveXor d a b => some (rWord 0 d a b 4)
  | .sll d a b => some (rWord 0 d a b 5)
  | .srl d a b => some (rWord 0 d a b 6)
  | .reeveSra d a b => some (rWord 0 d a b 7)
  | .slt d a b => some (rWord 0 d a b 8)
  | .sltu d a b => some (rWord 0 d a b 9)
  | .reeveMul d a b => some (rWord 0 d a b 10)
  | .reeveMulh d a b => some (rWord 0 d a b 11)
  | .reeveMulhu d a b => some (rWord 0 d a b 12)
  | .div d a b => some (rWord 0 d a b 13)
  | .divu d a b => some (rWord 0 d a b 14)
  | .rem d a b => some (rWord 0 d a b 15)
  | .remu d a b => some (rWord 0 d a b 16)
  | .reeveMin d a b => some (rWord 0 d a b 17)
  | .reeveMax d a b => some (rWord 0 d a b 18)
  | .addi d a i => some (iWord 1 d a i)
  | .andi d a i => some (iWord 2 d a i)
  | .ori d a i => some (iWord 3 d a i)
  | .xori d a i => some (iWord 4 d a i)
  | .slli d a s => some (iWord 5 d a (s.setWidth 16))
  | .srli d a s => some (iWord 6 d a (s.setWidth 16))
  | .srai d a s => some (iWord 7 d a (s.setWidth 16))
  | .slti d a i => some (iWord 8 d a i)
  | .lui d i => some (iWord 9 d 0 i)
  | .beq a b o => some (iWord 16 a b o)
  | .bne a b o => some (iWord 17 a b o)
  | .blt a b o => some (iWord 18 a b o)
  | .bge a b o => some (iWord 19 a b o)
  | .bltu a b o => some (iWord 20 a b o)
  | .bgeu a b o => some (iWord 21 a b o)
  | .jal d o => some (BitVec.ofNat 6 0x16 ++ d ++ o)
  | .jalr d a i => some (iWord 0x17 d a i)
  | .lb d a i => some (iWord 24 d a i)
  | .lh d a i => some (iWord 25 d a i)
  | .lw d a i => some (iWord 26 d a i)
  | .reeveLd d a i => some (iWord 27 d a i)
  | .lbu d a i => some (iWord 28 d a i)
  | .lhu d a i => some (iWord 29 d a i)
  | .lwu d a i => some (iWord 30 d a i)
  | .sb b a i => some (iWord 32 b a i)
  | .sh b a i => some (iWord 33 b a i)
  | .sw b a i => some (iWord 34 b a i)
  | .sd b a i => some (iWord 35 b a i)
  | .amoadd d a b s o w => some (rWord 0x24 d a b (0#1 ++ s ++ o ++ w ++ 0#4))
  | .amoswap d a b s o w => some (rWord 0x24 d a b (0#1 ++ s ++ o ++ w ++ 1#4))
  | .amoand d a b s o w => some (rWord 0x24 d a b (0#1 ++ s ++ o ++ w ++ 2#4))
  | .amoor d a b s o w => some (rWord 0x24 d a b (0#1 ++ s ++ o ++ w ++ 3#4))
  | .amoxor d a b s o w => some (rWord 0x24 d a b (0#1 ++ s ++ o ++ w ++ 4#4))
  | .amomin d a b s o w => some (rWord 0x24 d a b (0#1 ++ s ++ o ++ w ++ 5#4))
  | .amomax d a b s o w => some (rWord 0x24 d a b (0#1 ++ s ++ o ++ w ++ 6#4))
  | .amocas d a b s o w => some (rWord 0x24 d a b (0#1 ++ s ++ o ++ w ++ 7#4))
  | .fence s f => some (xWord 0x25 0 0 0 0 s f)
  | .pfence d s => some (xWord 0x26 d 0 0 0 s 0)
  | .csrr d c => some (iWord 0x27 d 0 (0#4 ++ c))
  | .csrw d a c => some (iWord 0x27 d a (1#2 ++ 0#2 ++ c))
  | .csrs d a c => some (iWord 0x27 d a (2#2 ++ 0#2 ++ c))
  | .csrc d a c => some (iWord 0x27 d a (3#2 ++ 0#2 ++ c))
  | .cfgld d a => some (xWord 0x28 d a 0 0 0 0)
  | .cfgarm d f => some (xWord 0x28 d 0 0 1 0 (0#1 ++ f))
  | .cfgstop d => some (xWord 0x28 d 0 0 2 0 0)
  | .cfgswap d a => some (xWord 0x28 d a 0 3 0 0)
  | .cfgfallow d => some (xWord 0x28 d 0 0 4 0 0)
  | .cutreq d s => some (xWord 0x28 d 0 0 5 s 0)
  | .elrd d a => some (xWord 0x28 d a 0 6 0 0)
  | .elwr d a b => some (xWord 0x28 d a b 7 0 0)
  | .stallrd d a f => some (xWord 0x28 d a 0 8 0 (0#2 ++ f))
  | .copy d a b s f => some (xWord 0x29 d a b 0 s (0#1 ++ f))
  | .binit d a b => some (xWord 0x2A d a b 0 0 0)
  | .barv d a b s f => some (xWord 0x2A d a b 1 s (0#1 ++ f ++ 0#1))
  | .bexp d a b s f => some (xWord 0x2A d a b 2 s (0#1 ++ f ++ 0#1))
  | .bwait d a b s f => some (xWord 0x2A d a b 3 s (0#2 ++ f))
  | .bstat d a => some (xWord 0x2A d a 0 4 0 0)
  | .tspawn d a s f => some (xWord 0x2B d a 0 0 s (0#1 ++ f ++ 0#1))
  | .tpop d s f => some (xWord 0x2B d 0 0 1 s (0#2 ++ f))
  | .tjoin d a s f => some (xWord 0x2B d a 0 2 s (0#1 ++ f ++ 0#1))
  | .tdone a s f => some (xWord 0x2B 0 a 0 3 s (0#1 ++ f ++ 0#1))
  | .launch d a => some (xWord 0x2B d a 0 4 0 0)
  | .launchi d a => some (xWord 0x2B d a 0 5 0 0)
  | .gang d a => some (xWord 0x2B d a 0 6 0 0)
  | .wait d a => some (xWord 0x2C d a 0 0 0 0)
  | .sleep d a b => some (xWord 0x2C d a b 1 0 0)
  | .trap c => some (rWord 0x2D 0 0 0 (0#3 ++ c))
  | .tret  => some (rWord 0x2D 0 0 0 (1#3 ++ 0#8))
  | .reeveNop  => some (rWord 0x2E 0 0 0 0)
  | .reeveHalt  => some (rWord 0x2E 0 0 0 1)
  | .census d a => some (rWord 0x2E d a 0 2)
  | _ => none

/-- The word of a fabric instruction (R90 to R97). -/
def encodeFabric (i : Instr) : Option W32 := i.fabric?.map fun p => packFOp p.2.1 p.2.2

/-- The 32-bit word of an instruction, where it has one: the operation word of a fabric slot or a reeve word. -/
def encode (i : Instr) : Option W32 :=
  match encodeFabric i with
  | some w => some w
  | none => encodeReeve i

/-- The instruction of a queue command by its op (R327, R330). -/
def queueOp (op : Nat) (c : QCmd) : Option Instr :=
  match op with
  | 0 => some (.queueNop c)
  | 1 => some (.qconf c)
  | 2 => some (.qpush c)
  | 3 => some (.qstop c)
  | 4 => some (.qstart c)
  | 5 => some (.qchain c)
  | 6 => some (.qexpert c)
  | _ => none

/-- The op and operands of a queue command (R327). -/
def queueParts (i : Instr) : Option (Nat × QCmd) :=
  match i with
  | .queueNop c => some (0, c)
  | .qconf c => some (1, c)
  | .qpush c => some (2, c)
  | .qstop c => some (3, c)
  | .qstart c => some (4, c)
  | .qchain c => some (5, c)
  | .qexpert c => some (6, c)
  | _ => none

/-- The queue command of the four doublewords of a ring entry, or the status that refuses it (R327): op at byte 0, version
at byte 1, queue at byte 2, a reserved byte 3; the market writes bytes 4 to 7. -/
def decodeQueueCmd (h a b c : W64) : Except Nat Instr :=
  match queueOp (h.extractLsb' 0 8).toNat { queue := h.extractLsb' 16 8, a := a, b := b, c := c } with
  | none => .error 1
  | some i =>
    if h.extractLsb' 8 8 ≠ 1 then .error 2
    else if 64 ≤ (h.extractLsb' 16 8).toNat ∨ h.extractLsb' 24 8 ≠ 0 then .error 3
    else .ok i

/-- The four doublewords of a queue command, its status 0 (R327). -/
def encodeQueueCmd (i : Instr) : Option (W64 × W64 × W64 × W64) :=
  (queueParts i).map fun p => (0#40 ++ p.2.queue ++ 1#8 ++ BitVec.ofNat 8 p.1, p.2.a, p.2.b, p.2.c)

/-- The instruction of a translation command by its op (R347). -/
def xlatOp (op : Nat) (c : XCmd) : Option Instr :=
  match op with
  | 0 => some (.xlateNop c)
  | 1 => some (.invva c)
  | 2 => some (.invasid c)
  | 3 => some (.invctx c)
  | 4 => some (.resolve c)
  | 5 => some (.refuse c)
  | 6 => some (.release c)
  | _ => none

/-- The op and operands of a translation command (R347). -/
def xlatParts (i : Instr) : Option (Nat × XCmd) :=
  match i with
  | .xlateNop c => some (0, c)
  | .invva c => some (1, c)
  | .invasid c => some (2, c)
  | .invctx c => some (3, c)
  | .resolve c => some (4, c)
  | .refuse c => some (5, c)
  | .release c => some (6, c)
  | _ => none

/-- The translation command of the four doublewords of a ring entry, or the status that refuses it (R347). -/
def decodeXlatCmd (h a b c : W64) : Except Nat Instr :=
  match xlatOp (h.extractLsb' 0 8).toNat { ctx := h.extractLsb' 16 8, a := a, b := b, c := c } with
  | none => .error 1
  | some i =>
    if h.extractLsb' 8 8 ≠ 1 then .error 2
    else if 64 ≤ (h.extractLsb' 16 8).toNat ∨ h.extractLsb' 24 8 ≠ 0 then .error 3
    else .ok i

/-- The four doublewords of a translation command, its status 0 (R347). -/
def encodeXlatCmd (i : Instr) : Option (W64 × W64 × W64 × W64) :=
  (xlatParts i).map fun p => (0#40 ++ p.2.ctx ++ 1#8 ++ BitVec.ofNat 8 p.1, p.2.a, p.2.b, p.2.c)

/-- The command block of a kind, run by chain k (R329). -/
def blockOp (kind k : Nat) (b : Block) : Option Instr :=
  match kind with
  | 1 => some (.launchBlock k b)
  | 2 => some (.launchiBlock k b)
  | 3 => some (.gangBlock k b)
  | 4 => some (.copyBlock k b)
  | 5 => some (.binitBlock k b)
  | 6 => some (.signal k b)
  | 7 => some (.waitb k b)
  | 8 => some (.stage k b)
  | 9 => some (.persist k b)
  | 10 => some (.fenceBlock k b)
  | _ => none

/-- The common checks of a block's first 16 bytes, in offset order: kind, version, flags, next (R329). -/
def blockHeadCause (kind version : Byte) (flags : W16) (next : W64) : Nat :=
  let scope := (flags.extractLsb' 2 3).toNat
  if kind.toNat = 0 ∨ 11 ≤ kind.toNat then 1
  else if version ≠ 1 then 2
  else if flags.extractLsb' 5 11 ≠ 0 ∨ 6 ≤ scope ∨ (scope = 0 ∧ flags.extractLsb' 0 2 ≠ 0) then 3
  else if next.extractLsb' 0 6 ≠ 0 then 4
  else 0

/-- How many bits of an instruction's word its table row leaves free: the sizes of the fields it reads (R92, R229). -/
def Instr.freeBits (i : Instr) : Nat :=
  match i.fabric? with
  | some (k, code, _) =>
    match opClass k code with
    | some (c, x) =>
      9 + (if c.readsA then 4 else 0) + (if c.readsB then 4 else 0) +
      (match c with | .a2 | .a1 | .a0 => 4 | .d3 => 3 | .sp => 2 | .pq => 1 | _ => 0) +
      (match x with | .z => 0 | .w | .tb => 1 | .rm | .cr | .sn | .ac | .sz4 => 2 | _ => 3)
    | none => 32
  | none =>
    match i with
    | .lui _ _ => 21
    | .jal _ _ => 26
    | .slli _ _ _ | .srli _ _ _ | .srai _ _ _ => 16
    | .addi _ _ _ | .andi _ _ _ | .ori _ _ _ | .xori _ _ _ | .slti _ _ _ | .jalr _ _ _ => 26
    | .beq _ _ _ | .bne _ _ _ | .blt _ _ _ | .bge _ _ _ | .bltu _ _ _ | .bgeu _ _ _ => 26
    | .lb _ _ _ | .lh _ _ _ | .lw _ _ _ | .reeveLd _ _ _ | .lbu _ _ _ | .lhu _ _ _ | .lwu _ _ _ => 26
    | .sb _ _ _ | .sh _ _ _ | .sw _ _ _ | .sd _ _ _ => 26
    | .amoadd .. | .amoswap .. | .amoand .. | .amoor .. | .amoxor .. | .amomin .. | .amomax .. | .amocas .. => 21
    | .fence _ _ => 6
    | .pfence _ _ | .cutreq _ _ => 8
    | .csrr _ _ => 17
    | .csrw _ _ _ | .csrs _ _ _ | .csrc _ _ _ => 22
    | .cfgarm _ _ => 7
    | .cfgstop _ | .cfgfallow _ => 5
    | .stallrd _ _ _ => 11
    | .copy .. => 20
    | .barv .. | .bexp .. | .bwait .. => 19
    | .tspawn .. | .tjoin .. => 14
    | .tpop .. | .tdone .. => 9
    | .cfgld _ _ | .cfgswap _ _ | .elrd _ _ | .bstat _ _ | .launch _ _ | .launchi _ _ | .gang _ _ | .wait _ _ | .census _ _ => 10
    | .trap _ => 8
    | .tret | .reeveNop | .reeveHalt => 0
    | _ => 15

/-- Of two readings of one word, the one whose table row fixes more of its bits. -/
def moreFixed (x y : Option Instr) : Option Instr :=
  match x, y with
  | some i, some j => if j.freeBits < i.freeBits then some j else some i
  | some i, none => some i
  | none, y => y

/-- The instruction of a 32-bit word taken out of its place. The four fabric maps and the reeve's map use the same words, so
a word alone may be an instruction of several; the reading whose table row fixes the most bits is taken (log entry 5). -/
def decodeTableWord (nbits w : Nat) : Option Instr :=
  if nbits ≠ 32 ∨ 2 ^ 32 ≤ w then none
  else
    let v := BitVec.ofNat 32 w
    moreFixed (moreFixed (moreFixed (moreFixed (decodeOpWord .me v).toOption (decodeOpWord .se v).toOption)
      (decodeOpWord .spe v).toOption) (decodeReeve v).toOption) (decodeOpWord .pe v).toOption

end Sys2Proof
end

