-- ==== Sys2Proof/Machine/Float.lean ====
section
/-! DEFINITION. Exact binary values, their rounding, and the F40 and FP32 patterns (R61 to R64, R67, R119 to R124). A value is
computed exactly and rounded once. -/
namespace Sys2Proof

/-- A rounding mode (R64). -/
inductive Rm where
  | rne | rtz | rdn | rup
  deriving DecidableEq, Repr

/-- The mode of a rounding-mode code (R64). -/
def Rm.ofCode (x : Nat) : Rm :=
  match x with
  | 0 => .rne
  | 1 => .rtz
  | 2 => .rdn
  | _ => .rup

/-- An exact value: (−1)^s × m × 2^e, an infinity or NaN. -/
inductive FVal where
  | nan
  | inf (s : Bool)
  | fin (s : Bool) (m : Nat) (e : Int)
  deriving DecidableEq, Repr

/-- Two to a non-negative power given as an integer; a negative power gives 1. -/
def pow2 (k : Int) : Nat := 2 ^ k.toNat

/-- The number of bits of a positive number. -/
def bitLen (m : Nat) : Nat := if m = 0 then 0 else Nat.log2 m + 1

/-- m × 2^e in units of 2^g, rounded by the mode for a value of sign s; and whether that was inexact. -/
def roundGrid (rm : Rm) (s : Bool) (m : Nat) (e g : Int) : Nat × Bool :=
  if g ≤ e then (m * pow2 (e - g), false)
  else
    let d := pow2 (g - e)
    let q := m / d
    let r := m % d
    let up :=
      match rm with
      | .rne => decide (d < 2 * r) || (decide (2 * r = d) && decide (q % 2 = 1))
      | .rtz => false
      | .rdn => s && decide (r ≠ 0)
      | .rup => !s && decide (r ≠ 0)
    (if up then q + 1 else q, decide (r ≠ 0))

/-- The overflow result of a mode: an infinity, or the largest finite value (R64). -/
def overflowVal (rm : Rm) (s : Bool) (p : Nat) (emax : Int) : FVal :=
  let toInf :=
    match rm with
    | .rne => true
    | .rtz => false
    | .rdn => s
    | .rup => !s
  if toInf then .inf s else .fin s (2 ^ p - 1) (emax - p + 1)

/-- A non-zero magnitude rounded to precision p with exponents emin to emax and the subnormal grid below 2^emin (R64);
and whether that was inexact. -/
def roundBin (p : Nat) (emin emax : Int) (rm : Rm) (s : Bool) (m : Nat) (e : Int) : FVal × Bool :=
  if m = 0 then (.fin s 0 0, false)
  else
    let top : Int := e + bitLen m - 1
    let g : Int := (if top < emin then emin else top) - p + 1
    let r := roundGrid rm s m e g
    let n := if r.1 = 2 ^ p then 2 ^ (p - 1) else r.1
    let g' := if r.1 = 2 ^ p then g + 1 else g
    if emax - p + 1 < g' then (overflowVal rm s p emax, true) else (.fin s n g', r.2)

/-- A value known to lie strictly between m and m + 1 units of 2^e, as a value that rounds alike. -/
def sticky (st : Bool) (s : Bool) (m : Nat) (e : Int) : FVal := if st then .fin s (2 * m + 1) (e - 1) else .fin s m e

/-- The value of an F40 pattern (R62). -/
def f40Val (w : W40) : FVal :=
  let s := w.getLsbD 39
  let e := (w.extractLsb' 28 11).toNat
  let m := (w.extractLsb' 0 28).toNat
  if e = 0x7FF then (if m = 0 then .inf s else .nan)
  else .fin s m ((if e = 0 then 1 else (e : Int)) - 1050)

/-- The F40 pattern of sign, exponent field and significand. -/
def f40Pack (s : Bool) (e m : Nat) : W40 := BitVec.ofBool s ++ BitVec.ofNat 11 e ++ BitVec.ofNat 28 m

/-- The canonical NaN (R62). -/
def f40Nan : W40 := 0x7FF8000000
/-- An infinity. -/
def f40Inf (s : Bool) : W40 := f40Pack s 0x7FF 0
/-- A zero. -/
def f40Zero (s : Bool) : W40 := f40Pack s 0 0

/-- A rounded value as a canonical F40 pattern (R63). -/
def f40OfRounded (v : FVal) : W40 :=
  match v with
  | .nan => f40Nan
  | .inf s => f40Inf s
  | .fin s m e =>
    if m = 0 then f40Zero s
    else if m < 2 ^ 27 then f40Pack s 0 m
    else f40Pack s (e + 1050).toNat m

/-- A value rounded once to F40, and whether that was inexact (R64). -/
def f40Round' (rm : Rm) (v : FVal) : W40 × Bool :=
  match v with
  | .nan => (f40Nan, false)
  | .inf s => (f40Inf s, false)
  | .fin s m e =>
    let r := roundBin 28 (-1022) 1023 rm s m e
    (f40OfRounded r.1, r.2)

/-- A value rounded once to F40 (R64). -/
def f40Round (rm : Rm) (v : FVal) : W40 := (f40Round' rm v).1

/-- Whether an F40 result is an infinity or NaN: its exponent field is all ones. -/
def f40Special (w : W40) : Bool := decide ((w.extractLsb' 28 11) = 0x7FF)

/-- The value of an FP32 pattern (R67, id 20). -/
def f32Val (w : W32) : FVal :=
  let s := w.getLsbD 31
  let e := (w.extractLsb' 23 8).toNat
  let m := (w.extractLsb' 0 23).toNat
  if e = 0xFF then (if m = 0 then .inf s else .nan)
  else if e = 0 then .fin s m (-149) else .fin s (m + 2 ^ 23) ((e : Int) - 150)

/-- A value rounded once to FP32 by a mode; NaN is canonical (R67). -/
def f32Round (rm : Rm) (v : FVal) : W32 :=
  let pack (s : Bool) (e m : Nat) : W32 := BitVec.ofBool s ++ BitVec.ofNat 8 e ++ BitVec.ofNat 23 m
  match v with
  | .nan => 0x7FC00000
  | .inf s => pack s 0xFF 0
  | .fin s m e =>
    match (roundBin 24 (-126) 127 rm s m e).1 with
    | .nan => 0x7FC00000
    | .inf s => pack s 0xFF 0
    | .fin s n g => if n < 2 ^ 23 then pack s 0 n else pack s (g + 150).toNat (n - 2 ^ 23)

/-- The negated value. -/
def FVal.neg (v : FVal) : FVal :=
  match v with
  | .nan => .nan
  | .inf s => .inf (!s)
  | .fin s m e => .fin (!s) m e

/-- The absolute value. -/
def FVal.abs (v : FVal) : FVal :=
  match v with
  | .nan => .nan
  | .inf _ => .inf false
  | .fin _ m e => .fin false m e

/-- The signed integer of a finite value in units of 2^g, for g at most its exponent. -/
def signedUnits (s : Bool) (m : Nat) (e g : Int) : Int :=
  let n : Int := (m * pow2 (e - g) : Nat)
  if s then -n else n

/-- The exact sum; an exact zero sum takes the sign that the mode gives (IEEE 754-2019, R64). -/
def FVal.add (rm : Rm) (x y : FVal) : FVal :=
  match x, y with
  | .nan, _ | _, .nan => .nan
  | .inf s, .inf t => if s = t then .inf s else .nan
  | .inf s, .fin _ _ _ => .inf s
  | .fin _ _ _, .inf t => .inf t
  | .fin s m e, .fin t n f =>
    if m = 0 ∧ n = 0 then (if s = t then .fin s 0 0 else .fin (decide (rm = .rdn)) 0 0)
    else if m = 0 then .fin t n f
    else if n = 0 then .fin s m e
    else
      let g := if e < f then e else f
      let r := signedUnits s m e g + signedUnits t n f g
      if r = 0 then .fin (decide (rm = .rdn)) 0 0 else .fin (decide (r < 0)) r.natAbs g

/-- The exact product. -/
def FVal.mul (x y : FVal) : FVal :=
  match x, y with
  | .nan, _ | _, .nan => .nan
  | .inf s, .inf t => .inf (s != t)
  | .inf s, .fin t n _ => if n = 0 then .nan else .inf (s != t)
  | .fin s m _, .inf t => if m = 0 then .nan else .inf (s != t)
  | .fin s m e, .fin t n f => .fin (s != t) (m * n) (e + f)

/-- The exact value times 2^k; a shift beyond ±8192 is taken as ±8192, which rounds alike. -/
def FVal.scale (x : FVal) (k : Int) : FVal :=
  let k' := if k < -8192 then -8192 else if 8192 < k then 8192 else k
  match x with
  | .fin s m e => if m = 0 then .fin s 0 0 else .fin s m (e + k')
  | v => v

/-- The order of two values that are not NaN. -/
def FVal.lt (x y : FVal) : Bool :=
  match x, y with
  | .nan, _ | _, .nan => false
  | .inf s, .inf t => s && !t
  | .inf s, .fin _ _ _ => s
  | .fin _ _ _, .inf t => !t
  | .fin s m e, .fin t n f =>
    let g := if e < f then e else f
    decide (signedUnits s m e g < signedUnits t n f g)

/-- Whether a value is NaN. -/
def FVal.isNan (x : FVal) : Bool :=
  match x with
  | .nan => true
  | _ => false

/-- Whether a value is a zero. -/
def FVal.isZero (x : FVal) : Bool :=
  match x with
  | .fin _ m _ => decide (m = 0)
  | _ => false

/-- The sign of a value; NaN counts as positive. -/
def FVal.sign (x : FVal) : Bool :=
  match x with
  | .nan => false
  | .inf s => s
  | .fin s _ _ => s

/-- Equality of values: zeros are equal, NaN equals nothing. -/
def FVal.feq (x y : FVal) : Bool := !x.isNan && !y.isNan && !x.lt y && !y.lt x

/-- The largest number whose square is at most n, found bit by bit from bit k − 1. -/
def isqrtAux (n : Nat) : Nat → Nat → Nat
  | 0, acc => acc
  | k + 1, acc => if (acc + 2 ^ k) * (acc + 2 ^ k) ≤ n then isqrtAux n k (acc + 2 ^ k) else isqrtAux n k acc

/-- The integer square root. -/
def isqrt (n : Nat) : Nat := isqrtAux n (bitLen n / 2 + 1) 0

/-- 1/a (R124). -/
def FVal.rcp (x : FVal) : FVal :=
  match x with
  | .nan => .nan
  | .inf s => .fin s 0 0
  | .fin s m e =>
    if m = 0 then .inf s
    else
      let k := bitLen m + 40
      sticky (decide (2 ^ k % m ≠ 0)) s (2 ^ k / m) (-(k : Int) - e)

/-- 1/√a (R124). -/
def FVal.rsq (x : FVal) : FVal :=
  match x with
  | .nan => .nan
  | .inf s => if s then .nan else .fin false 0 0
  | .fin s m e =>
    if m = 0 then .inf s
    else if s then .nan
    else
      let m' := if e % 2 = 0 then m else 2 * m
      let e' := if e % 2 = 0 then e else e - 1
      let k := bitLen m' + 40
      let q := isqrt (2 ^ (2 * k) / m')
      sticky (decide (q * q * m' ≠ 2 ^ (2 * k))) false q (-(k : Int) - e' / 2)

/-- Bits of working precision of 2^a. -/
def expBits : Nat := 192

/-- The product over the bits of f (k bits, most significant first) of 2^(2^−i), in units of 2^−expBits; r is the current
root, starting at 2 for i = 0. -/
def exp2Aux (f : Nat) : Nat → Nat → Nat → Nat
  | 0, _, acc => acc
  | k + 1, r, acc =>
    let r' := isqrt (r * 2 ^ expBits)
    exp2Aux f k r' (if f.testBit k then acc * r' / 2 ^ expBits else acc)

/-- 2^a (R124). An integer power is exact; every other is irrational and is found to far more bits than a rounding can
need (log entry 14). -/
def FVal.exp2 (x : FVal) : FVal :=
  match x with
  | .nan => .nan
  | .inf s => if s then .fin false 0 0 else .inf false
  | .fin s m e =>
    if m = 0 then .fin false 1 0
    else if 12 ≤ e + bitLen m then .fin false 1 (if s then -8192 else 8192)
    else if e + bitLen m < -60 then (if s then sticky true false (2 ^ 60 - 1) (-60) else sticky true false (2 ^ 60) (-60))
    else
      -- a in units of 2^−88
      let u := signedUnits s m e (-88)
      let n := u / (2 ^ 88 : Int)
      let f := (u % (2 ^ 88 : Int)).toNat
      if f = 0 then .fin false 1 n
      else sticky true false (exp2Aux f 88 (2 * 2 ^ expBits) (2 ^ expBits)) (n - expBits)

/-- k bits of log2 of x / 2^200, for x in [2^200, 2^201), by squaring. -/
def log2Aux : Nat → Nat → Nat → Nat
  | 0, _, acc => acc
  | k + 1, x, acc =>
    let y := x * x / 2 ^ 200
    if 2 ^ 201 ≤ y then log2Aux k (y / 2) (2 * acc + 1) else log2Aux k y (2 * acc)

/-- log2 a (R124). A power of two is exact; every other is irrational (log entry 14). -/
def FVal.log2 (x : FVal) : FVal :=
  match x with
  | .nan => .nan
  | .inf s => if s then .nan else .inf false
  | .fin s m e =>
    if m = 0 then .inf true
    else if s then .nan
    else
      let l := bitLen m
      let n : Int := e + l - 1
      if m = 2 ^ (l - 1) then .fin (decide (n < 0)) n.natAbs 0
      else
        let f := log2Aux 160 (m * 2 ^ 200 / 2 ^ (l - 1)) 0
        let t : Int := n * (2 ^ 160 : Int) + f
        if t < 0 then sticky true true (t.natAbs - 1) (-160) else sticky true false t.natAbs (-160)

/-- A value rounded to an integer by a mode; for a finite value only. -/
def roundInt (rm : Rm) (s : Bool) (m : Nat) (e : Int) : Int :=
  let n : Int := ((roundGrid rm s m e 0).1 : Nat)
  if s then -n else n

end Sys2Proof
end

