-- ==== Sys2Proof/Machine/Tab.lean ====
section
/-! DEFINITION. Finite tables by number. A table lists its entries in rising order of their numbers; a number that is not
listed reads as the table's default. Memory (`Mem`) is such a table of bytes in which no entry equals the default. -/
namespace Sys2Proof

/-- A finite table by number. -/
abbrev Tab (α : Type) := List (Nat × α)

/-- The entry of number k, or the default. -/
def Tab.get {α : Type} (t : Tab α) (dflt : α) (k : Nat) : α :=
  match t with
  | [] => dflt
  | (j, v) :: r => if j = k then v else Tab.get r dflt k

/-- The table with entry k set, in rising order. -/
def Tab.put {α : Type} (t : Tab α) (k : Nat) (v : α) : Tab α :=
  match t with
  | [] => [(k, v)]
  | (j, w) :: r => if k < j then (k, v) :: (j, w) :: r else if k = j then (k, v) :: r else (j, w) :: Tab.put r k v

/-- The table without entry k. -/
def Tab.del {α : Type} (t : Tab α) (k : Nat) : Tab α :=
  match t with
  | [] => []
  | (j, w) :: r => if k = j then r else if k < j then (j, w) :: r else (j, w) :: Tab.del r k

/-- Every entry changed by f. -/
def Tab.mapVals {α : Type} (t : Tab α) (f : Nat → α → α) : Tab α := t.map fun p => (p.1, f p.1 p.2)

/-- The bytes of an address space: what is not listed reads as zero (log entry 3). -/
abbrev Mem := Tab Byte

/-- One byte of memory. -/
def Mem.read (m : Mem) (a : Nat) : Byte := Tab.get m 0 a

/-- Memory with one byte written; the byte zero is not listed, so that equal memories are equal lists. -/
def Mem.write (m : Mem) (a : Nat) (v : Byte) : Mem := if v = 0 then Tab.del m a else Tab.put m a v

/-- The canonical form: addresses strictly rising, no entry equal to what an unlisted address reads as. -/
def Mem.wf : Mem → Bool
  | [] => true
  | (a, v) :: r => decide (v ≠ 0) && (match r with | [] => true | (b, _) :: _ => decide (a < b)) && Mem.wf r

/-- n bytes of memory from address a. -/
def Mem.readBytes (m : Mem) (a : Nat) : Nat → List Byte
  | 0 => []
  | n + 1 => m.read a :: Mem.readBytes m (a + 1) n

/-- Memory with a list of bytes written from address a. -/
def Mem.writeBytes (m : Mem) (a : Nat) : List Byte → Mem
  | [] => m
  | b :: r => Mem.writeBytes (m.write a b) (a + 1) r

/-- Memory with a list of cells written, in order. -/
def Mem.writeCells (m : Mem) : List (Nat × Byte) → Mem
  | [] => m
  | c :: r => Mem.writeCells (m.write c.1 c.2) r

/-- The value of little-endian bytes (R12). -/
def leNat : List Byte → Nat
  | [] => 0
  | b :: r => b.toNat + 256 * leNat r

/-- The n little-endian bytes of a value (R12). -/
def leBytes : Nat → Nat → List Byte
  | 0, _ => []
  | n + 1, v => BitVec.ofNat 8 v :: leBytes n (v / 256)

/-- The n-byte little-endian value at address a. -/
def Mem.readLE (m : Mem) (a n : Nat) : Nat := leNat (m.readBytes a n)

/-- Memory with an n-byte little-endian value written at address a. -/
def Mem.writeLE (m : Mem) (a n v : Nat) : Mem := m.writeBytes a (leBytes n v)

end Sys2Proof
end

