-- ==== Sys2Proof/Machine/State.lean ====
section
/-! DEFINITION. The state of the Zalnyx: every piece of state that spec/ gives the machine, as plain data, and its value
right after device reset. A field docstring cites the rule that names it. -/
namespace Sys2Proof.Machine
open Sys2Proof

/-- Who executes a reeve instruction: the reeve of a hamlet, or the beadle (R223, R256). -/
inductive CoreId where
  | reeve (h : Nat)
  | beadle
  deriving DecidableEq, Repr

/-- A token of the data network (R18): a 4-bit tag and a 40-bit data field. -/
structure Token where
  tag : BitVec 4
  data : W40
  deriving DecidableEq, Repr

/-- An entry of a queue or a lane register: a data token, a predicate token, a CUT marker (R19, R360), or an entry
reserved by a split request of the slot named (R151). -/
inductive QEnt where
  | tok (t : Token)
  | bit (b : Bool)
  | cut (n : W32)
  | resv (slot : Nat)
  deriving DecidableEq, Repr

/-- A queue (R29, R30). `fresh` entries at the back arrived in this cycle and `gone` left in it, so that every condition
can be judged on the state at the start of the cycle; `mark` is the number of entries ahead of a boundary mark (R360). -/
structure Queue where
  ents : List QEnt := []
  fresh : Nat := 0
  gone : Nat := 0
  mark : Option Nat := none
  deriving DecidableEq, Repr

/-- The state of a reduction slot (R133) and of a CNT slot (R139). -/
structure SlotSt where
  acc : W40 := 0
  openA : Bool := false
  openB : Bool := false
  mkr : Option Token := none
  flt : Option Token := none
  ovf : Bool := false
  seen : Bool := false
  count : W32 := 0
  deriving DecidableEq, Repr

/-- The kinds of green request an SPE issues (R154 to R159). -/
inductive SpeKind where
  | ld | st | aadd | asub | amin | amax | aminu | amaxu | aand | aor | axor | aswap | acas | afadd
  | itake | iput | iread | iclr
  deriving DecidableEq, Repr

/-- A green request of an SPE (R146 to R161). -/
structure SpeReq where
  kind : SpeKind
  srcH : Nat
  site : Nat
  slot : Nat
  addr : W32
  size : Nat
  zext : Bool
  val : W40
  expv : W40
  /-- the operation word's fields for the completion: destination and predicate write -/
  op : FOp
  posted : Bool
  deferred : Bool := false
  /-- the cut, if any, after whose record point its issuer issued it while that cut ran (R361) -/
  after : Option Nat := none
  /-- the cycle of its issue (R166) -/
  issued : Nat := 0
  deriving DecidableEq, Repr

/-- A pending completion of a split request (R151, R180): the request, and its result once it has arrived. -/
structure Pending where
  req : SpeReq
  result : Option (Token × Bool) := none
  deriving DecidableEq, Repr

/-- The stream commands (R96). -/
inductive StKind where
  | sload | sstore | sgather | sscatter | sfeed | sbfill | sdrain
  deriving DecidableEq, Repr

/-- The states of a stream (R166); `starting` is a current command whose SCB or trough slot is not yet taken. -/
inductive StSt where
  | idle | starting | running | stopped
  deriving DecidableEq, Repr

/-- The exact value of an A element (R186): (−1)^neg × m × 2^e, or non-finite. -/
structure MeVal where
  neg : Bool := false
  m : Nat := 0
  e : Int := 0
  nonfin : Bool := false
  deriving DecidableEq, Repr

/-- One stream of an SE (R166, R177, R181). -/
structure Stream where
  st : StSt := .idle
  kind : StKind := .sload
  /-- green offset of the SCB of the current command, the cycle of its start's firing, and the copied SCB (R166) -/
  scbOff : Nat := 0
  since : Nat := 0
  scb : List Byte := []
  /-- the queued command, its SCB offset and the cycle of its start's firing (R166) -/
  queued : Option (StKind × Nat × Nat) := none
  pos : Nat := 0
  /-- dither phase (R80) -/
  phase : BitVec 4 := 0
  /-- conversion counters (R177) -/
  sat : W32 := 0
  ufl : W32 := 0
  /-- the status word of the last ended command (R177) and the bits of the current one -/
  status : W64 := 0
  wstat : W64 := 0
  /-- the position SPOS reads on an idle stream (R179) -/
  lastPos : Nat := 0
  /-- bytes taken and not yet written: position, address, byte, mask of its bits (R170, R172) -/
  out : List (Nat × Nat × Byte × Byte) := []
  /-- the sector and the header read last (R172, R70, R71) -/
  line : Option (Nat × List Byte) := none
  hdr : Option (Nat × List Byte) := none
  /-- the units of ids 18 and 19 whose reserved header bytes the command has counted (R85) -/
  units : List Nat := []
  /-- the EOD token waiting behind its element (R171) -/
  eod : Option Token := none
  /-- the MX block under collection: index in the block, value, threshold (R83) -/
  block : List (Nat × W40 × Nat) := []
  /-- the scale of the unit being stored (R84) -/
  unitScale : Option W32 := none
  /-- the trough slot claimed or taken, as a green offset (R169) -/
  slot : Option Nat := none
  cancelling : Bool := false
  /-- the last write is done, the trough step is made: the status word is all that is left (R168) -/
  finished : Bool := false
  /-- the outstanding fault id the stream waits on, and whether it was refused (R349, R352) -/
  fault : Option Nat := none
  refused : Bool := false
  /-- the code and the position of that fault -/
  fcode : Nat := 0
  fpos : Nat := 0
  /-- status bits and position to end with, once the tokens of the gather command under way are delivered (R170, R175) -/
  endAt : Option (W64 × Nat) := none
  /-- the gather command being sent: first position, length, the sectors read (R175, R309) -/
  gather : Option (Nat × Nat × List (Nat × List Byte)) := none
  /-- the tokens of the gather command under way that are still to be delivered, in position order (R309) -/
  gtoks : List Token := []
  /-- the ME port is held by this command (R176) -/
  port : Bool := false
  /-- values received of unfinished rows or of the tile, by position, with the sparse positions and the unit scales (R176) -/
  recvd : Tab MeVal := []
  recvPos : Tab Nat := []
  recvScale : Tab W32 := []
  /-- rows written whole (R176) -/
  rowsDone : Nat := 0
  /-- a token was moved in this cycle (R172) -/
  moved : Bool := false
  deriving DecidableEq, Repr

/-- A row of the row buffer (R183, R186). -/
structure MeRow where
  full : Bool := false
  fmt : Nat := 0
  scale : W32 := 0x3F800000
  vals : Tab MeVal := []
  deriving DecidableEq, Repr

/-- A tile slot of the macro with its side store (R183, R185, R187). `npos` is 16 for dense, 8 or 4 for sparse. -/
structure Tile where
  full : Bool := false
  fmt : Nat := 0
  npos : Nat := 16
  wscale : W32 := 0x3F800000
  invalid : Bool := false
  /-- signed magnitudes on the group's grid, by col × 128 + index; the exponent of a group by col × 8 + g -/
  vals : Tab MeVal := []
  exps : Tab Int := []
  /-- positions of stored values in their group for a sparse fill -/
  posn : Tab Nat := []
  deriving DecidableEq, Repr

/-- An accumulator (R183, R199), element (r, c) at number 128r + c. -/
structure Acc where
  vals : Tab W32 := []
  valid : Bool := false
  dirty : Bool := false
  infl : Bool := false
  deriving DecidableEq, Repr

/-- An entry of the ME operation queue with its captured settings (R207, R208). -/
structure MeOp where
  sparse : Bool
  acc : Nat
  desc : W32
  start : BitVec 2
  ceil : BitVec 2
  bSat : W16
  bUfl : W16
  bCnc : W16
  shift : Byte
  base : BitVec 3
  /-- the cycle of its firing, at whose end it is in the queue -/
  since : Nat := 0
  deriving DecidableEq, Repr

/-- The attempt in progress: working tile, counts, rung, progress point (R196, R203). -/
structure Attempt where
  op : MeOp
  rung : Nat
  replays : Nat := 0
  kb : Nat := 0
  i : Nat := 0
  /-- the next step is the check of block kb -/
  check : Bool := false
  integer : Bool := false
  w : Tab W32 := []
  sat : Nat := 0
  ufl : Nat := 0
  cnc : Nat := 0
  overr : Bool := false
  nonfin : Bool := false
  deriving DecidableEq, Repr

/-- A read transfer: accumulator and the number of tokens each queue has received (R207, R214). -/
structure RdX where
  acc : Nat
  /-- the cycle of its firing -/
  since : Nat := 0
  sent : Tab Nat := []
  deriving DecidableEq, Repr

/-- A write transfer: accumulator, current row, rows left, positions served by each queue, partial row (R207, R214). -/
structure WrX where
  acc : Nat
  row : Nat
  left : Nat
  /-- the cycle of its firing, or of the last row written -/
  since : Nat := 0
  served : Tab Nat := []
  part : Tab W32 := []
  deriving DecidableEq, Repr

/-- A move transfer: source, target, next row (R207, R214). -/
structure MvX where
  src : Nat
  dst : Nat
  row : Nat
  /-- the cycle of its firing -/
  since : Nat := 0
  deriving DecidableEq, Repr

/-- The state of a matrix element (R183, R207). -/
structure ME where
  tiles : Tab Tile := []
  rows : Tab MeRow := []
  accs : Tab Acc := []
  att : Option Attempt := none
  rungStart : BitVec 2 := 3
  rungCeil : BitVec 2 := 3
  bSat : W16 := 0xFFFF
  bUfl : W16 := 0xFFFF
  bCnc : W16 := 0xFFFF
  cncShift : Byte := 16
  monitor : W64 := 0
  status : W16 := 0
  /-- replay counters of context c: number 4c + n (R202) -/
  replay : Tab W32 := []
  slotBase : BitVec 3 := 0
  opq : List MeOp := []
  rd : Option RdX := none
  wr : Option WrX := none
  mv : Option MvX := none
  /-- transfer fault counter (R207) -/
  xfault : W32 := 0
  deriving DecidableEq, Repr

/-- An element (R24) with the state its kind adds (R149, R177, R183). -/
structure Elem where
  d : Tab W40 := []
  c : Tab W40 := []
  p : Tab Bool := []
  /-- input queues: 0–3 for i0–i3, 4–5 for pq0–pq1 -/
  inq : Tab Queue := []
  /-- output queues: 0–3 for o0–o3, 4–5 for q0–q1 -/
  outq : Tab Queue := []
  depth : Tab Nat := []
  /-- input-empty, output-full, predicate-false, tag-mismatch (R32) -/
  stall : Tab W32 := []
  slots : Tab W64 := []
  conflict : Tab W16 := []
  /-- switch words of output lanes 0–29 (R34, R35) and the registers of lanes 0–15 and 20–27 -/
  sw : Tab W16 := []
  lanes : Tab Queue := []
  ptr : BitVec 4 := 15
  halted : Bool := false
  slotSt : Tab SlotSt := []
  /-- SPE: troughs bound to p4 and p5 (R87), access status (R149), pending completions (R151) -/
  bind4 : Option Nat := none
  bind5 : Option Nat := none
  access : W32 := 0
  pend : List Pending := []
  /-- requests issued and not yet sent, in issue order: R280 and R148 keep them behind earlier ones of their SPE (log entry 60) -/
  sendQ : List SpeReq := []
  /-- SE: streams and format-fault counter (R85) -/
  streams : Tab Stream := []
  fmtFault : W32 := 0
  me : ME := {}
  /-- the running cut: recorded (R359), inputs still open, channel state of each input, outputs still owed a CUT -/
  recorded : Bool := false
  openIn : List Nat := []
  chan : Tab (List QEnt) := []
  cutOut : List Nat := []
  /-- channel state still to be delivered after a resume (R367) -/
  replayIn : Tab (List QEnt) := []
  /-- fired in this cycle, so that no stall is charged (R32) -/
  fired : Bool := false
  deriving DecidableEq, Repr

/-- A trough descriptor (R162); `committed`, `freed`, `clm` and `tkn` count this cycle's commits, frees, claims and takes (R165). -/
structure Trough where
  base : W32 := 0
  log2 : Byte := 0
  en : Byte := 0
  count : W16 := 0
  free : W16 := 0
  filled : W16 := 0
  claimed : W16 := 0
  taken : W16 := 0
  ci : W16 := 0
  mi : W16 := 0
  ti : W16 := 0
  fi : W16 := 0
  committed : Nat := 0
  freed : Nat := 0
  clm : Nat := 0
  tkn : Nat := 0
  deriving DecidableEq, Repr

/-- The operation of an atomic (R241). -/
inductive AmoOp where
  | add | swap | and | or | xor | min | max | cas
  deriving DecidableEq, Repr

/-- A reeve's request that a held-mode region makes wait for a cut (R241, R251, R252); a launch names its block kind. -/
inductive RReq where
  | amo (op : AmoOp) (word : Bool)
  | binit | barv | bexp
  | tspawn | tjoin | tdone
  | launch (kind : Nat)
  deriving DecidableEq, Repr

/-- A request with its destination register and its operands. -/
structure RCall where
  req : RReq
  d : BitVec 5
  gd : W64
  ga : W64
  gb : W64
  deriving DecidableEq, Repr

/-- What waits for a cut (R376). -/
inductive CutWaiter where
  | pfence (d : BitVec 5)
  | call (r : RCall)
  deriving DecidableEq, Repr

/-- What a refused translation fault does to the instruction that waits on it (R239, R317, R331). -/
inductive OnRefuse where
  | page
  | access
  | code (d : BitVec 5)
  deriving DecidableEq, Repr

/-- What a reeve is doing (R226, R253, R259). -/
inductive Run where
  /-- no task -/
  | idle
  /-- the boot ROM runs (R407); the beadle only -/
  | rom
  | running
  /-- WAIT or SLEEP: the mask, the destination, cycles left of a SLEEP with a count, and the cut number at its start -/
  | wait (mask : Nat) (d : BitVec 5) (left : Option Nat) (cut0 : Nat)
  /-- BWAIT re-reads its barrier (R251) -/
  | bwait
  /-- BWAIT has read its barrier and returns value v into d at the end of the cycle given (R383) -/
  | slew (till : Nat) (d : BitVec 5) (v : W64)
  /-- an access waits on translation fault `id`, resolved when `res` is some true, refused when some false (R239) -/
  | xlat (id : Nat) (res : Option Bool) (ea : W64) (refuse : OnRefuse)
  /-- an instruction waits for cut n (R376) -/
  | cutWait (n : Nat) (w : CutWaiter)
  /-- CFGSTOP, CFGSWAP or CFGFALLOW waits for its stop to land (R245) -/
  | cfgWait (d : BitVec 5)
  /-- the response of the held entry with index idx is awaited, whose value register d takes (R376) -/
  | heldWait (idx : Nat) (d : BitVec 5)
  /-- TDONE has ended the reeve's part of the task (R252) -/
  | done
  /-- double trap or HALT (R226, R255) -/
  | halted
  deriving DecidableEq, Repr

/-- An entry of the store buffer (R249). -/
structure StoreEnt where
  pa : Nat
  bytes : List Byte
  /-- a release at a scope, behind a FENCE with release (R274, R286) -/
  rel : Bool := false
  scope : BitVec 3 := 0
  /-- an invalidation waits until the entry is performed (R348) -/
  inv : Bool := false
  deriving DecidableEq, Repr

/-- An error response on its way to a load, atomic or barrier instruction (R238): its address and its virtual address, the register it does
not write, and whether a later instruction has issued. -/
structure OwedErr where
  epc : W64
  ea : W64
  d : BitVec 5
  ran : Bool := false
  deriving DecidableEq, Repr

/-- A reeve or the beadle (R223, R225). -/
structure Core where
  g : Tab W64 := []
  pc : W64 := 0
  run : Run := .idle
  ctx : Nat := 0
  arenaBase : W64 := 0
  arenaBound : W64 := 0
  tvec : W64 := 0
  tcause : W64 := 0
  tval : W64 := 0
  epc : W64 := 0
  /-- mstat: t, pt, late (R225); bit 2 is the core's kind -/
  mT : Bool := false
  mPt : Bool := false
  mLate : Bool := false
  shadowIval : W64 := 262144
  heldBase : W64 := 0
  heldSize : W64 := 65536
  instret : W64 := 0
  evq : List W64 := []
  /-- records popped in this cycle, so that EVT judges the start of the cycle (R142) -/
  evPopped : Nat := 0
  /-- records posted in this cycle, which enter the queue at its end (R142) -/
  evFresh : Nat := 0
  /-- records ahead of the boundary of a running cut that the reeve has yet to record in (R143, R359) -/
  evMark : Option Nat := none
  storeBuf : List StoreEnt := []
  /-- error responses on their way, oldest first (R238) -/
  owedErr : List OwedErr := []
  /-- the widest scope of the FENCEs with release so far: each later write is a release at it (R286) -/
  relScope : Option (BitVec 3) := none
  /-- the pc and instret of the fetch made last, so that an instruction that waits is fetched once (R381): the model's own -/
  fetched : Option (W64 × W64) := none
  /-- the dispatched record and those popped since dispatch (R323, R325) -/
  record : W64 := 0
  popped : List W64 := []
  /-- the record the market offers, with its queue (R325) -/
  offer : Option (Nat × W64) := none
  deriving DecidableEq, Repr

/-- A command of the carter (R250). -/
structure CopyCmd where
  src : W64
  dst : W64
  size : Nat
  comp : W64
  acq : Bool
  rel : Bool
  scope : BitVec 3
  /-- the index of the next held entry of its hamlet at its issue (R280) -/
  held : Nat := 0
  deriving DecidableEq, Repr

/-- A copy under way: bytes copied, error bits, whether every byte is copied, the fault id awaited. -/
structure CopyRun where
  cmd : CopyCmd
  off : Nat := 0
  errs : Nat := 0
  finished : Bool := false
  fault : Option Nat := none
  cut : Option Nat := none
  deriving DecidableEq, Repr

/-- The carter of a hamlet (R250). -/
structure Carter where
  q : List CopyCmd := []
  cur : Option CopyRun := none
  deriving DecidableEq, Repr

/-- What a held entry performs once its cut is complete (R274, R182, R376). -/
inductive HeldOp where
  | write (code site : Nat) (cells : List (Nat × Byte))
  | spe (r : SpeReq)
  | reeve (r : RCall)
  deriving DecidableEq, Repr

/-- What the target of a held request has answered: a value for its register, or a trap at its instruction, by cause and tval (R182, R238,
R376). -/
inductive HeldRet where
  | value (v : W64)
  | trap (cause : Nat) (val : W64)
  deriving DecidableEq, Repr

/-- An entry of the held-write buffer (R274): its operation, release flag and scope, the cut that covers it, its issue
index, whether it has been sent, and what it has returned (R182, R376). -/
structure Held where
  op : HeldOp
  rel : Bool := false
  scope : BitVec 3 := 0
  tag : Nat
  idx : Nat
  sent : Bool := false
  /-- its target has performed it, so that it can be acknowledged (R364) -/
  done : Bool := false
  /-- the translation fault that its send waits on, and whether it was refused (R349, R352) -/
  fault : Option Nat := none
  refused : Bool := false
  /-- the fault was met by the read of the push that a TJOIN makes (R239, R317) -/
  joinAccess : Bool := false
  /-- a store translated before an invalidation, which waits for it (R348) -/
  inv : Bool := false
  ret : HeldRet := .value 0
  deriving DecidableEq, Repr

/-- A commit header (R363). -/
structure Header where
  magic : W32 := 0
  version : Byte := 0
  valid : Bool := false
  stopped : Bool := false
  bench : Bool := false
  free : Bool := false
  idem : Bool := false
  ctx : Nat := 0
  hidx : Nat := 0
  hcount : Nat := 0
  seq : Nat := 0
  image : W64 := 0
  start : Nat := 0
  bytes : W32 := 0
  crc : W32 := 0
  deriving DecidableEq, Repr

/-- The content of a shadow slot used as a bank or parked (R356). -/
structure Snap where
  hdr : Header := {}
  elems : Tab Elem := []
  troughs : Tab Trough := []
  green : List (Nat × Byte) := []
  /-- sectors of the green that could not be corrected when the cut read them, by number (R386) -/
  lost : List Nat := []
  pres : Tab Bool := []
  defer : Tab (List SpeReq) := []
  reeve : Core := {}
  carter : Carter := {}
  held : List Held := []
  heldSpan : Option (Nat × Nat) := none
  armed : Bool := false
  deriving DecidableEq, Repr

/-- The stale bits of a hamlet's items for one bank (R357): bit i is `all`, but for the items of `except`, whose bit is the other. -/
structure Stale where
  all : Bool := true
  except : List Nat := []
  deriving DecidableEq, Repr

/-- The use of a shadow slot (R355). -/
inductive SlotUse where
  | free
  | bank (isB : Bool)
  | parked (since : Nat)
  | stage (record : W64) (images : List (W64 × List Byte))
  deriving DecidableEq, Repr

/-- A shadow slot of a hamlet (R355). -/
structure ShSlot where
  use : SlotUse := .free
  ctx : Nat := 0
  snap : Snap := {}
  /-- the index of a line that cannot be corrected, and the lines of which one cell has failed, with its number (R386, R388) -/
  bad : Option Nat := none
  weak : List (Nat × Nat) := []
  deriving DecidableEq, Repr

/-- A spill or a read-back under way (R371, R373). -/
structure Spill where
  slot : Nat
  ctx : Nat
  off : Nat := 64
  stopped : Bool := false
  /-- the fault id waited on, and its code (R372) -/
  fault : Option Nat := none
  code : Nat := 0
  deriving DecidableEq, Repr

/-- A frame of the save area that holds a spilled slot (R371, R373): the context, the slot it left, its number, the snapshot that
its body stands for, the offset that the read-back has reached, and the fault id waited on. -/
structure Frame where
  ctx : Nat
  slot : Nat
  seq : Nat
  snap : Snap
  off : Nat := 0
  fault : Option Nat := none
  /-- the slot that the read-back fills, and whether it has stopped (R388) -/
  fills : Option Nat := none
  stopped : Bool := false
  code : Nat := 0
  deriving DecidableEq, Repr

/-- A hamlet. -/
structure Hamlet where
  reeve : Core := {}
  elems : Tab Elem := []
  troughs : Tab Trough := []
  carter : Carter := {}
  /-- deferred requests of each bank, oldest first (R160) -/
  defer : Tab (List SpeReq) := []
  /-- shipped requests on their way to this hamlet's banks, in arrival order (R147) -/
  msgs : List SpeReq := []
  /-- the context that holds the hamlet, the last one that ran on it (R324) -/
  ctx : Option Nat := none
  lastCtx : Option Nat := none
  /-- first hamlet of the region the hamlet belongs to (R295) -/
  region : Option Nat := none
  held : List Held := []
  heldNext : Nat := 0
  /-- the span of the held-write buffer in the green, while it exists (R272) -/
  heldSpan : Option (Nat × Nat) := none
  /-- release index of the header area (R364), and the values kept for acknowledged entries
  (R182, R376) -/
  relIdx : Nat := 0
  /-- entries at or beyond the release index that have been released (R364) -/
  released : List Nat := []
  kept : List (Nat × HeldOp × HeldRet) := []
  slots : Tab ShSlot := []
  /-- the number of cuts completed; cut_seq reads one less (R225, R358) -/
  cutSeq : Nat := 0
  /-- outside readers of the greens of a held-mode region, by reader, with the cut each waits past (R291) -/
  readers : Tab Nat := []
  /-- captures of the running cut: reeve, carter, elements (R359) -/
  capR : Option Core := none
  capC : Option Carter := none
  capE : Tab Elem := []
  /-- green, presence bits, troughs, deferred requests captured once every agent has recorded (R361) -/
  capG : Option Snap := none
  /-- stale bits of the items for bank A and bank B, and the items changed since the running cut recorded them (R357) -/
  staleA : Stale := {}
  staleB : Stale := {}
  since : Stale := { all := false }
  /-- after-writes waiting, with the later requests of their issuers to those banks (R148, R361) -/
  afterQ : List SpeReq := []
  /-- engines that have acknowledged a pre-emption (R369) -/
  acks : List Nat := []
  spill : Option Spill := none
  /-- frames of contexts spilled from this hamlet (R373) -/
  frames : List Frame := []
  powered : Bool := true
  /-- entries and words of element state of which one cell has failed: the site, and the failing bit (R386); nothing in the model makes one
  fail (log entry 62) -/
  weak : List (Nat × Nat) := []
  deriving DecidableEq, Repr

/-- The states of a region (R296). -/
inductive RegSt where
  | empty | loaded | armed
  deriving DecidableEq, Repr

/-- An edge format record of the loaded image (R98). -/
structure Edge where
  pHam : Nat
  pSite : Nat
  pPort : Nat
  pFmt : Nat
  cHam : Nat
  cSite : Nat
  cPort : Nat
  cFmt : Nat
  deriving DecidableEq, Repr

/-- A task running on a region (R323): its record, queue, priority field and push time, the completion of each record it
holds in order, and the hamlet indexes that have executed TDONE. -/
structure Task where
  record : W64
  /-- the 64 bytes that the pop read returned (R319) -/
  body : List Byte
  queue : Nat
  prio : Nat
  pushed : Nat
  comps : List W64
  tdone : List Nat := []
  /-- the gang and the number of the region in it (R333) -/
  gang : Option (Nat × Nat) := none
  /-- the first record of the entry, and its bytes, by which its gang competes (R333) -/
  lead : W64 × List Byte := (0, [])
  /-- RELEASE marks its barrier completions with e = bit 4 (R353) -/
  abandoned : Bool := false
  /-- the market is ending the task (R323) -/
  ending : Bool := false
  deriving DecidableEq, Repr

/-- A cut in progress (R359). -/
structure CutRun where
  seq : Nat
  start : Nat
  stopped : Bool := false
  deriving DecidableEq, Repr

/-- A stop of a region that has yet to land (R414): the stopinfo it leaves, the image that CFGSWAP loads then (R245), and
whether the settling's stopped cut has been taken (R275). -/
structure Stopping where
  info : W64
  swap : Option W64 := none
  cutDone : Bool := false
  deriving DecidableEq, Repr

/-- A region (R295, R296). -/
structure Region where
  n : Nat := 1
  ctx : Nat := 0
  st : RegSt := .empty
  bench : Bool := false
  free : Bool := false
  idem : Bool := false
  image : W64 := 0
  edges : List Edge := []
  /-- mismatching edges of the load: edge number, producer id, consumer id (R101) -/
  mism : List (Nat × Nat × Nat) := []
  /-- the load report of the last load, if it failed (R245) -/
  failed : Option W64 := none
  stopinfo : W64 := 0
  faultStop : Bool := false
  /-- stops made in this cycle, applied at its end (R56): key (hamlet index, site, class, queue) and stopinfo -/
  stops : List (Nat × W64) := []
  /-- a stop is landing: no element fires and no router moves (R414) -/
  stopping : Option Stopping := none
  /-- cycle of the fallow load (R395) -/
  fallow : Option Nat := none
  cut : Option CutRun := none
  cutAgain : Bool := false
  /-- restored, and waiting for its image to be read again (R366, R381) -/
  reload : Bool := false
  nextSeq : Nat := 0
  lastCutStart : Nat := 0
  task : Option Task := none
  /-- the region waits for its dispatch, which restores a parked state where `resume` is set (R323, R370) -/
  placed : Bool := false
  resume : Bool := false
  /-- a pre-emption is in progress, and its stopped cut has been taken (R369) -/
  pre : Bool := false
  preCut : Bool := false
  /-- the region is stopped by a supply warning (R365) -/
  frozen : Bool := false
  killed : Bool := false
  deriving DecidableEq, Repr

/-- An entry of a market queue: record address, push time, the bytes of the pop read (64 for each record), and for a gang its
records. -/
structure QRec where
  addr : W64
  pushed : Nat
  ctx : Nat
  body : Option (List Byte) := none
  gang : Option (List W64) := none
  /-- a pre-empted task: the regions it left, by first hamlet (R370), and the bytes of the first record, by which it competes (R333) -/
  left : List (Nat × Region) := []
  lead : Option (List Byte) := none
  /-- the entry of the ring that holds its address, which the market reads back when it is among the next 16 (R317) -/
  slot : Option Nat := none
  /-- the fault that the pop read waits on, and the record whose read met it (R319) -/
  fault : Option Nat := none
  faultAt : W64 := 0
  deriving DecidableEq, Repr

/-- A market queue (R317, R318). -/
structure MQ where
  conf : Bool := false
  ring : W64 := 0
  log2 : Nat := 6
  ctx : Nat := 0
  prio : Nat := 0
  weight : Nat := 0
  preempt : Bool := false
  en : Bool := false
  stopped : Bool := false
  ents : List QRec := []
  tail : Nat := 0
  popped : W32 := 0
  rejected : W32 := 0
  deriving DecidableEq, Repr

/-- An expert entry (R328). -/
structure Expert where
  id : W16 := 0
  threshold : W16 := 0
  window : W16 := 0
  count : W32 := 0
  record : W64 := 0
  start : Nat := 0
  fired : Bool := false
  deriving DecidableEq, Repr

/-- A running command-block chain (R331). -/
structure Chain where
  id : Nat
  ctx : Nat
  cur : W64
  fault : Option Nat := none
  /-- the block under way as read, and the cause it has ended with, whose status is still to be written -/
  body : Option (List Byte) := none
  ended : Option Nat := none
  /-- a refused fault on the block's own page: its status is not written (R331, log entry 68) -/
  mute : Bool := false
  copy : Option CopyRun := none
  /-- LAUNCHI: its dependence has shown, and the count that its one acquire has read (R335) -/
  ready : Bool := false
  count : Option Nat := none
  /-- PERSIST: the cut that each region waits for, by first hamlet -/
  persist : Option (List (Nat × Nat)) := none
  deriving DecidableEq, Repr

/-- A link or replication push that waits for room (R306, R328). -/
structure LinkPush where
  addr : W64
  ctx : Nat
  /-- the fault id its read waits on (R349) -/
  fault : Option Nat := none
  deriving DecidableEq, Repr

/-- An event record (R350). -/
structure EvRec where
  va : W64
  cause : Nat
  agent : Nat := 0
  acc : Nat := 0
  fid : Nat := 0
  hamlet : Nat := 0
  site : Nat := 0
  stream : Nat := 0
  code : Nat := 0
  deriving DecidableEq, Repr

/-- An outstanding fault id (R349): context, id, page, access kind, hamlet (256 for an access of none). -/
structure FaultId where
  ctx : Nat
  id : Nat
  page : Nat
  acc : Nat
  ham : Nat
  /-- the record of the task that waited on it when that was pre-empted (R353) -/
  parked : Option W64 := none
  deriving DecidableEq, Repr

/-- An owed update: the completion address of a record, or a delivery to a barrier (R305, R323). -/
inductive OwedAct where
  | complete (addr : W64)
  | deliver (bar n : W64)
  deriving DecidableEq, Repr

/-- Updates owed by an agent, in order, with the error bits they carry and the fault id waited on
(R323, R353, R395, R415). -/
structure Owed where
  ctx : Nat
  code : Nat := 6
  ham : Option Nat := none
  acts : List OwedAct
  e : Nat := 0
  fault : Option Nat := none
  deriving DecidableEq, Repr

/-- The market's reservation (R322). -/
structure Reservation where
  queue : Nat
  /-- the head that holds it: its record and the time of its push -/
  head : W64
  pushed : Nat
  hamlets : List Nat
  deriving DecidableEq, Repr

/-- A cached translation (R345): context, ASID, global, virtual page base, size, physical base, permissions, dirty. -/
structure Tlb where
  /-- the hamlet whose caches hold it, and the site of the SE whose first level does; none for the second level -/
  ham : Nat
  se : Option Nat := none
  ctx : Nat
  asid : Nat
  glob : Bool
  va : Nat
  size : Nat
  pa : Nat
  r : Bool
  w : Bool
  d : Bool
  deriving DecidableEq, Repr

/-- A range entry in the range cache of an SE (R340, R345): its number in the descriptor and its fields. -/
structure RangeEnt where
  ham : Nat
  se : Nat
  ctx : Nat
  idx : Nat
  base : Nat
  limit : Nat
  off : Nat
  ctl : Byte
  deriving DecidableEq, Repr

/-- The translation command at the ring's head that waits (R348, R353, R397): its context, the held entries that have to be performed by
hamlet and index, and whether it waits for a kill. -/
structure InvWait where
  ctx : Nat
  held : List (Nat × Nat)
  kill : Bool := false
  /-- RELEASE: the first hamlet of the region whose task ends (R353) -/
  release : Option Nat := none
  deriving DecidableEq, Repr

/-- The market (R317 to R335) and the translation unit it serves (R337 to R353). -/
structure Market where
  qs : Tab MQ := []
  credit : Tab Nat := []
  cur : Nat := 0
  resv : Option Reservation := none
  experts : Tab Expert := []
  chains : List Chain := []
  nextChain : Nat := 0
  gangs : Nat := 0
  /-- images attached by STAGE to a record of a context (R334) -/
  staged : List (Nat × W64 × List W64) := []
  links : List LinkPush := []
  owed : List Owed := []
  /-- event records held for a full ring, per context (R350) -/
  evHeld : Tab (List EvRec) := []
  faults : List FaultId := []
  nextFid : Tab Nat := []
  /-- the descriptor of each context as the market last read it (R338) -/
  desc : Tab (List Byte) := []
  tlb : List Tlb := []
  /-- the range caches of the SEs (R345) -/
  ranges : List RangeEnt := []
  /-- faults refused while their context is parked, and the faults on which that refusal then acts (R353) -/
  answered : List FaultId := []
  refuseNow : List (Nat × Nat) := []
  /-- contexts whose descriptor was invalid when it was last read (R338) -/
  descBad : List Nat := []
  /-- the fault that the market ring's command waits on: context, id, refused (R330, R349) -/
  ringFault : Option (Nat × Nat × Bool) := none
  invWait : Option InvWait := none
  /-- energy balance of each context (R374) -/
  balance : Tab Int := []
  killing : List Nat := []
  /-- contexts killed whose number no descriptor has been read for since (R306, R397) -/
  dead : List Nat := []
  deriving DecidableEq, Repr

/-- A temperature sensor (R380). -/
structure Sensor where
  read : W16 := 0
  level : Nat := 0
  polls : W32 := 0
  t1 : W16 := 0x0550
  t2 : W16 := 0x05F0
  t3 : W16 := 0x0690
  hyst : W16 := 0x0020
  events : W64 := 0
  deriving DecidableEq, Repr

/-- A parish block and its byte budget (R381, R382, R384). `waiters` are the requests that found too little budget, in
arrival order, named by a number of their agent. -/
structure Parish where
  pallow : Byte := 255
  aeff : Nat := 255
  applied : Nat := 255
  pbudget : W32 := 0x100000
  b : Nat := 0x100000
  left : Nat := 0x100000
  /-- bytes that requests used beyond a whole budget, charged to the intervals that follow -/
  debt : Nat := 0
  waiters : List Nat := []
  /-- a waiter was served in this cycle -/
  served : Bool := false
  waited : Bool := false
  pctl : W16 := 0x100
  ack : BitVec 6 := 0
  st : Nat := 0
  ordErr : Bool := false
  phold : W16 := 20
  pwaitb : W64 := 0
  holdStart : Nat := 0
  /-- PCTL[0] was set by autogating (R411) -/
  auto : Bool := false
  /-- the device's own steps are under way (R384) -/
  gating : Bool := false
  deriving DecidableEq, Repr

/-- A granary quadrant (R268 to R271, R390, R391). -/
structure Quad where
  next : Nat := 0
  group : Nat := 0
  /-- the period in force is the hot one (R269) -/
  hot : Bool := false
  openG : Option Nat := none
  delayed : W32 := 0
  waitCyc : W32 := 0
  refused : W32 := 0
  /-- the accesses waiting at a window, in arrival order: 4 × the agent's number + the group (R270) -/
  waiters : List Nat := []
  served : Bool := false
  /-- writes accepted that wait at a window, and the regions whose CFGARM seals the quadrant and waits for them (R268, R297) -/
  accepted : List Nat := []
  sealing : List Nat := []
  /-- lanes mapped to spares, per bus group (R391) -/
  spares : Tab (List Nat) := []
  /-- for the next attempts on a bus group, the lanes whose parity fails, one list an attempt (R391); nothing in the model makes a lane fail
  (log entry 62) -/
  parity : Tab (List (List Nat)) := []
  deriving DecidableEq, Repr

/-- An HBM stack's rate cap (R380): bytes delivered in this interval, requests waiting in arrival order. -/
structure Stack where
  used : Nat := 0
  /-- the bytes of this interval, by the cap as it began (R380) -/
  rate : Nat := 3200000
  waiters : List Nat := []
  served : Bool := false
  /-- waiters named to be served before the others, in order (R380) -/
  granted : List Nat := []
  deriving DecidableEq, Repr

/-- One of the three logs (R392, R401): entries held on chip before go, entries lost before go. -/
structure Log where
  held : List (List Byte) := []
  lost : Nat := 0
  deriving DecidableEq, Repr

/-- The boot block (R400) and the device's identity (R407, R408). -/
structure Boot where
  lock : Bool := false
  go : Bool := false
  manor : Bool := false
  ctxBase : W64 := 0
  mktRing : W64 := 0
  xlRing : W64 := 0
  alog : W64 := 0
  blog : W64 := 0
  elog : W64 := 0
  svcRing : W64 := 0
  linkId : W64 := 0
  mreset : W64 := 0
  svcMsiA : W64 := 0
  svcMsiD : W64 := 0
  mextSrc : W64 := 0
  meas : Tab (List Byte) := []
  seed : List Byte := []
  idkey : List Byte := []
  /-- entry offset and rounded body length of the accepted firmware (R256, R407) -/
  entry : Nat := 0
  bodyLen : Nat := 0
  deriving DecidableEq, Repr

/-- An Ethernet port (R406): its BAR, the registers in it by offset, producer index of each queue pair, request in flight. -/
structure Eth where
  bar : W64 := 0
  regs : Tab W64 := []
  prod : Tab Nat := []
  /-- by queue pair, the 64 bytes of its entry and the 64 of the work request in flight; none listed where there is none -/
  flight : Tab (List Byte) := []
  deriving DecidableEq, Repr

/-- An atomic that its home performs outside the package (R241, R251, R305, R316): an atomic of R241 with its operands, BINIT, an
update of a barrier, and TJOIN's step of a join counter. -/
inductive Away where
  | amo (op : AmoOp) (word : Bool) (b expv : W64)
  | binit (expected link : W64)
  | bar (arrival : Bool) (n : W64) (e : Nat)
  | join
  deriving DecidableEq, Repr

/-- A core of the manor: whether it has been released, its mode and pc (R402), and the identities pending in its machine-level and its
supervisor-level interrupt file. Its registers and instructions are those of the RISC-V profile that R7 names, which no rule of spec/ gives. -/
structure ManorCore where
  started : Bool := false
  machine : Bool := false
  pc : W64 := 0
  pendM : Tab Unit := []
  pendS : Tab Unit := []
  deriving DecidableEq, Repr

/-- A request of an Ethernet port to its remote peer: the addresses and the queue pair that its entry names, as bytes 0 to 31 of it (R406). -/
structure RdmaTo where
  ip : List Byte := []
  mac : List Byte := []
  flags : W16 := 0
  qpn : W32 := 0
  psn : W32 := 0
  deriving DecidableEq, Repr

/-- What leaves the package. -/
inductive Out where
  /-- a write to a PCIe window, by the addresses of its bytes (R404) -/
  | pcie (cells : List (Nat × Byte))
  /-- a write or request to UALink peer on a port (R405) -/
  | ualink (port : Nat) (cells : List (Nat × Byte))
  /-- an atomic request to a UALink peer, with its port, or into a PCIe window, performed whole at its home (R284, R405) -/
  | atomic (port : Option Nat) (pa : Nat) (op : Away)
  /-- a read request to a UALink peer, with its port, or into a PCIe window (R404, R405) -/
  | read (port : Option Nat) (pa : Nat) (n : Nat)
  /-- an RDMA WRITE or READ request of an Ethernet port (R406) -/
  | rdma (port : Nat) (qp : Nat) (dest : RdmaTo) (read : Bool) (remote : W64) (rkey : W32) (len : Nat) (bytes : List Byte)
  /-- the answer to an incoming RDMA request: acknowledged data, or a NAK of remote access error (1) or invalid request (2) -/
  | rdmaReply (port : Nat) (nak : Nat) (bytes : List Byte)
  /-- the answer to a request from outside, or an Unsupported Request or error response -/
  | reply (ok : Bool) (bytes : List Byte)
  deriving DecidableEq, Repr

/-- A write of ELWR that lands at the end of its cycle (R246). -/
inductive ItemWrite where
  | elem (h site item : Nat) (v : W64)
  | trough (h n word : Nat) (v : W64)
  deriving DecidableEq, Repr

/-- An event from outside whose access has several pieces (R267): a request through the window, of an endpoint or of a peer, the data of a
work request or of its completion, or an incoming RDMA request. -/
inductive PartKey where
  | window (r : BusReq)
  | pcie (port : Nat) (r : BusReq)
  | ualink (r : BusReq)
  | work (port qp : Nat) (completes : Bool)
  | incoming (port op : Nat) (rkey : W32) (addr : W64) (len : Nat) (payload : List Byte)
  /-- the look-up of the region entry that grants it -/
  | lookup (port op : Nat) (rkey : W32) (addr : W64) (len : Nat) (payload : List Byte)
  deriving DecidableEq, Repr

/-- An agent that accesses memory: its number (R393), the context it carries, its hamlet, site and unit. -/
structure Agent where
  code : Nat
  ctx : Option Nat := none
  ham : Option Nat := none
  site : Nat := 0
  unit : Nat := 0
  /-- sectors of the same run that come behind this access, in the same bank group (R271) -/
  more : Nat := 0
  /-- its refusals are those of a posted store, logged as error kind 10 (R238) -/
  posted : Bool := false
  deriving DecidableEq, Repr

/-- The three logs. -/
inductive LogName where
  | array | bus | error
  deriving DecidableEq, Repr

/-- An access that the device makes of its own (R326, R347, R350, R392, R403, R406, R409). -/
inductive DevOp where
  /-- bytes at an address -/
  | write (a : Agent) (pa : Nat) (bytes : List Byte)
  /-- an entry of a log; `again` where the failed cells that it meets are logged in turn -/
  | log (n : LogName) (entry : List Byte) (again : Bool)
  /-- the count of entries that a log has lost before GO (R401) -/
  | lost (n : LogName) (k : Nat)
  /-- an event record of a context; `retry` for one that was held -/
  | event (c : Nat) (r : EvRec) (retry : Bool)
  /-- an MSI of an agent, behind what comes before it -/
  | msi (agent : Nat) (ctx : Option Nat) (a : W64) (d : W32)
  deriving DecidableEq, Repr

/-- What moves next. -/
inductive Turn where
  /-- a reeve or the beadle issues its next instruction -/
  | core (c : CoreId)
  /-- the trigger unit of an element picks and fires its first slot, or charges a stall (R48, R32) -/
  | fire (h site : Nat)
  /-- the second pick of the pair fires (R50, R53) -/
  | second (h site slot : Nat)
  /-- an operation of the device that is no encoded instruction -/
  | event (i : Instr)
  /-- the market performs the next queue command, or translation command, or the current block of a chain -/
  | queueCmd
  | xlatCmd
  | chain (id : Nat)
  /-- the end of a fabric cycle (R6, R54) -/
  | tick
  deriving DecidableEq, Repr

/-- Failed cells of a 32-byte sector (R386): one that its check bits correct, by number, or too many to correct. -/
inductive CellErr where
  | one (bit : Nat)
  | many
  deriving DecidableEq, Repr

/-- The whole machine. -/
structure State where
  /-- fabric cycles since device reset (R225) -/
  cycle : Nat
  /-- which agent moves next: the model's own field, plain data (log entry 1) -/
  agenda : List Turn
  /-- the core that runs reeve instructions, the element slot that runs fabric instructions -/
  core : CoreId
  curH : Nat
  curSite : Nat
  curSlot : Nat
  mem : Mem
  /-- presence bits of the green words, by physical address div 8; unlisted is empty (R159) -/
  pres : Tab Bool
  /-- sectors with failed cells, by physical address div 32 (R386, R389); nothing in the model makes a cell fail (log entry 62) -/
  ecc : Tab CellErr
  hamlets : Tab Hamlet
  /-- memory, presence bits and hamlets as they stood at the start of the cycle (R29, R54) -/
  mem0 : Mem
  pres0 : Tab Bool
  hamlets0 : Tab Hamlet
  /-- the writes of ELWR made in this cycle (R246) -/
  itemWrites : List ItemWrite
  /-- regions by their first hamlet (R295) -/
  regions : Tab Region
  beadle : Core
  market : Market
  /-- global block (R379) -/
  plimit : W16
  slew : W64
  pkge : W64
  capP : Nat
  sensors : Tab Sensor
  parishes : Tab Parish
  /-- in-rush FIFO of each die (R385) -/
  inrush : Tab (List Nat)
  quads : Tab Quad
  hbm : Tab Stack
  alog : Log
  blog : Log
  elog : Log
  boot : Boot
  /-- the manor's cores (R7, R402) -/
  manor : Tab ManorCore
  /-- the device stays in reset: the ROM has accepted no image (R407) -/
  inReset : Bool
  /-- boot flash, outside the package (R407) -/
  flash : Mem
  /-- DMA base and limit of each PCIe root port (R404) -/
  dma : Tab (W64 × W64)
  /-- UALink ports that are down (R405) -/
  ualDown : List Nat
  eth : Tab Eth
  out : List Out
  /-- a rail whose loss turns the device off has failed (R377) -/
  off : Bool
  /-- quadrants whose rail has failed (R365) -/
  darkQuads : List Nat
  /-- events from outside that wait for their access, and whether the one under way waits: the model's own (log entry 1) -/
  waiting : List Instr
  again : Bool
  /-- of the waiting events with several pieces: those still to be performed, and the bytes read so far or still to be written (R267) -/
  partly : List (PartKey × List (Nat × Nat) × List Byte)
  /-- accesses of the device's own that wait for their stacks, oldest first (R380) -/
  devQ : List DevOp
  /-- number of free values met so far (the model's own field, log entry 11) -/
  freeN : Nat
  deriving DecidableEq, Repr

/-- Why a step stops for good. -/
inductive Fault where
  /-- Raised by `step` when the granary or shadow layer, the manor or an HBM rail has failed: "the device is off" (R377).
  Safe: nothing is claimed about what an unpowered device does. -/
  | deviceOff
  deriving DecidableEq, Repr

/-- Why an instruction has no meaning. -/
inductive Refusal where
  /-- Raised by `exec` for an instruction not modelled yet, by its mnemonic. Safe. -/
  | notModelled (mnemonic : String)
  deriving DecidableEq, Repr

/-- The beadle at device reset, before the ROM's jump (R256, R407; log entry 4). -/
def Core.beadleReset : Core :=
  { pc := 0xFF00000000, run := .rom, arenaBase := 0xFF00000000, arenaBound := 0xFF00000000, tvec := 0xFF00000000,
    shadowIval := 0, heldSize := 0 }

/-- The machine right after device reset. -/
def State.reset : State :=
  { cycle := 0, agenda := [], core := .beadle, curH := 0, curSite := 1, curSlot := 0, mem := [], pres := [], ecc := [], hamlets := [],
    mem0 := [], pres0 := [], hamlets0 := [], itemWrites := [], regions := [], beadle := Core.beadleReset, market := {}, plimit := 1600, slew := 0, pkge := 0, capP := 255, sensors := [],
    parishes := [], inrush := [], quads := [], hbm := [], alog := {}, blog := {}, elog := {}, boot := {}, manor := [], inReset := false, flash := [],
    dma := [], ualDown := [], eth := [], out := [], off := false, darkQuads := [], waiting := [], again := false, partly := [], devQ := [], freeN := 0 }

end Sys2Proof.Machine
end

