-- ==== Sys2Proof/Machine/Ops.lean ====
section
/-! DEFINITION. The named operations over the state that the meanings share: access to hamlets, elements, cores and regions;
queues; the logs and event rings; region stops; taking a trap and returning from one. -/
namespace Sys2Proof.Machine
open Sys2Proof

/-- What a meaning answers. -/
abbrev Out' := Host.Outcome State Fault Refusal

/-! ### The parts of the state -/

/-- Hamlet h (R3). -/
def State.ham (s : State) (h : Nat) : Hamlet := Tab.get s.hamlets {} h
/-- Hamlet h as it stood at the start of the cycle (R29, R54). -/
def State.ham0 (s : State) (h : Nat) : Hamlet := Tab.get s.hamlets0 {} h
/-- The state with hamlet h replaced. -/
def State.setHam (s : State) (h : Nat) (x : Hamlet) : State := { s with hamlets := Tab.put s.hamlets h x }
/-- The element at a site of a hamlet (R4). -/
def State.elem (s : State) (h site : Nat) : Elem := Tab.get (s.ham h).elems {} site
/-- The state with one element replaced. -/
def State.setElem (s : State) (h site : Nat) (e : Elem) : State :=
  s.setHam h { s.ham h with elems := Tab.put (s.ham h).elems site e }
/-- The reeve of a hamlet, or the beadle. -/
def State.coreOf (s : State) (c : CoreId) : Core :=
  match c with
  | .reeve h => (s.ham h).reeve
  | .beadle => s.beadle
/-- The state with one core replaced. -/
def State.setCore (s : State) (c : CoreId) (k : Core) : State :=
  match c with
  | .reeve h => s.setHam h { s.ham h with reeve := k }
  | .beadle => { s with beadle := k }
/-- The region whose first hamlet is given (R295). -/
def State.region (s : State) (first : Nat) : Region := Tab.get s.regions {} first
/-- The state with one region replaced. -/
def State.setRegion (s : State) (first : Nat) (r : Region) : State := { s with regions := Tab.put s.regions first r }
/-- The first hamlet and the region that a hamlet belongs to. -/
def State.regionOf (s : State) (h : Nat) : Option (Nat × Region) :=
  match (s.ham h).region with
  | none => none
  | some f => some (f, s.region f)
/-- The hamlets of a region, in index order (R295). -/
def Region.hamlets (r : Region) (first : Nat) : List Nat := (List.range r.n).map fun i => first + i
/-- The hamlet of a core; the beadle has none. -/
def CoreId.hamlet? (c : CoreId) : Option Nat :=
  match c with
  | .reeve h => some h
  | .beadle => none
/-- Whether a core is the beadle. -/
def CoreId.isBeadle (c : CoreId) : Bool :=
  match c with
  | .reeve _ => false
  | .beadle => true

/-- The kind of the element at a site: the ME row is y = 3, the SPE row y = 4, an SE at each corner (R4). -/
def siteKind (site : Nat) : Kind :=
  if site / 8 = 3 then .me
  else if site / 8 = 4 then .spe
  else if site = 0 ∨ site = 7 ∨ site = 56 ∨ site = 63 then .se
  else .pe

/-- The parish of a hamlet (R3). -/
def parishOf (h : Nat) : Nat := h / 8
/-- The quadrant of a hamlet (R3). -/
def quadOf (h : Nat) : Nat := h / 32

/-- The next free value of the run (log entry 11). -/
def State.takeFree (s : State) : W64 × State := (Config.freeValue s.freeN, { s with freeN := s.freeN + 1 })
/-- The event under way waits for its access and is tried again. -/
def State.tryAgain (s : State) : State := { s with again := true }
/-- n bytes from outside the package (log entry 10). -/
def State.takeOutside (s : State) (n : Nat) : List Byte × State :=
  ((List.range n).map fun i => Config.outsideByte (s.freeN + i), { s with freeN := s.freeN + n })

/-- A general register; g0 reads as zero (R223). -/
def Core.reg (k : Core) (r : BitVec 5) : W64 := if r = 0 then 0 else Tab.get k.g 0 r.toNat
/-- A core with a general register written; a write of g0 is discarded (R223). -/
def Core.setReg (k : Core) (r : BitVec 5) (v : W64) : Core := if r = 0 then k else { k with g := Tab.put k.g r.toNat v }

/-! ### Queues (R29, R30, R360) -/

/-- A head is present: an entry that stood at the start of the cycle, not behind the boundary mark of an element that has
not recorded (R29, R360). -/
def Queue.present (q : Queue) (recorded : Bool) : Bool :=
  decide (q.fresh < q.ents.length) && (recorded || decide (q.mark ≠ some 0))
/-- The occupancy that room and acceptance are judged by: an entry removed in this cycle still counts (R30). -/
def Queue.occ (q : Queue) : Nat := q.ents.length + q.gone
/-- The queue without its head. -/
def Queue.pop (q : Queue) : Queue :=
  { q with ents := q.ents.tail, gone := q.gone + 1, mark := q.mark.map fun k => k - 1 }
/-- The queue with an entry at its back. -/
def Queue.push (q : Queue) (x : QEnt) : Queue := { q with ents := q.ents ++ [x], fresh := q.fresh + 1 }
/-- The queue at the start of the next cycle. -/
def Queue.settle (q : Queue) : Queue := { q with fresh := 0, gone := 0 }
/-- The number of tokens of a queue: a CUT is never counted, a reserved entry holds no token yet (R40, R151). -/
def Queue.tokens (q : Queue) : Nat :=
  (q.ents.filter fun x => match x with | .tok _ => true | .bit _ => true | .cut _ => false | .resv _ => false).length

/-- Input queue n: i0 to i3, then pq0 and pq1. -/
def Elem.inQ (e : Elem) (n : Nat) : Queue := Tab.get e.inq {} n
/-- Output queue or port n: o0 to o3, then q0 and q1. -/
def Elem.outQ (e : Elem) (n : Nat) : Queue := Tab.get e.outq {} n
/-- The element with one input queue replaced. -/
def Elem.setInQ (e : Elem) (n : Nat) (q : Queue) : Elem := { e with inq := Tab.put e.inq n q }
/-- The element with one output queue replaced. -/
def Elem.setOutQ (e : Elem) (n : Nat) (q : Queue) : Elem := { e with outq := Tab.put e.outq n q }
/-- The depth of an input queue: 8, and 2 for pq0 and pq1, where no image says otherwise (R25, R88). -/
def Elem.depthOf (e : Elem) (n : Nat) : Nat := Tab.get e.depth (if n < 4 then 8 else 2) n
/-- Whether the head of input queue n is present (R29). -/
def Elem.inPresent (e : Elem) (n : Nat) : Bool := (e.inQ n).present e.recorded
/-- The token at the head of an input queue; DATA 0 where there is none. -/
def Elem.headTok (e : Elem) (n : Nat) : Token :=
  match (e.inQ n).ents with
  | .tok t :: _ => t
  | _ => ⟨0, 0⟩
/-- The bit at the head of predicate queue n. -/
def Elem.headBit (e : Elem) (n : Nat) : Bool :=
  match (e.inQ (4 + n)).ents with
  | .bit b :: _ => b
  | _ => false
/-- Predicate n; p6 and p7 are the heads of pq0 and pq1 (R24, R44). -/
def Elem.pred (e : Elem) (n : Nat) : Bool := if n < 6 then Tab.get e.p false n else e.headBit (n - 6)
/-- Whether predicate n can be read: a head has to be present (R44, R93). -/
def Elem.predPresent (e : Elem) (n : Nat) : Bool := decide (n < 6) || e.inPresent (n - 2)

/-- The parts of a switch word (R35): valid, source side, source lane. -/
def swValid (w : W16) : Bool := w.getLsbD 15
/-- The source side of a switch word (R35). -/
def swSide (w : W16) : Nat := (w.extractLsb' 12 3).toNat
/-- The source lane of a switch word (R35). -/
def swLane (w : W16) : Nat := (w.extractLsb' 10 2).toNat
/-- The switch word of an output lane (R34). -/
def Elem.swWord (e : Elem) (lane : Nat) : W16 := Tab.get e.sw 0 lane
/-- Whether an output lane belongs to the predicate network (R34). -/
def lanePred (lane : Nat) : Bool := decide (20 ≤ lane)
/-- Whether output lane `lane` takes its tokens from the source named: side 4 is the element itself, and sources 4 and 5 of
that side are q0 and q1. -/
def Elem.selects (e : Elem) (lane side src : Nat) (net : Bool) : Bool :=
  let w := e.swWord lane
  swValid w && decide (swSide w = side) && decide (swLane w = src) && decide (lanePred lane = net)
/-- The output lanes of an element that one source feeds (R38). -/
def Elem.lanesOf (e : Elem) (side src : Nat) (net : Bool) : List Nat :=
  (List.range 30).filter fun l => e.selects l side src net
/-- Whether a valid switch word selects output queue n (R31). -/
def Elem.outRouted (e : Elem) (n : Nat) : Bool :=
  if n < 4 then !(e.lanesOf 4 n false).isEmpty else !(e.lanesOf 4 (n - 4) true).isEmpty
/-- Whether an output queue or port has room (R29); a queue that no word selects always has (R31), and one that waits to
take a CUT has none (R359). -/
def Elem.outRoom (e : Elem) (n : Nat) : Bool :=
  !e.cutOut.contains n && (!e.outRouted n || decide ((e.outQ n).occ < 2))
/-- Whether an output queue is empty at the start of the cycle (R125, R134). -/
def Elem.outEmpty (e : Elem) (n : Nat) : Bool :=
  !e.cutOut.contains n && (!e.outRouted n || decide ((e.outQ n).occ = 0))
/-- An entry written into an output queue or port; a token that no switch word takes is discarded (R31). -/
def Elem.pushOut (e : Elem) (n : Nat) (x : QEnt) : Elem :=
  if e.outRouted n then e.setOutQ n ((e.outQ n).push x) else e

/-- Whether the elements of a hamlet act: the region is armed, not stopped by a warning, and the parish has power. -/
def State.hamletRuns (s : State) (h : Nat) : Bool :=
  match s.regionOf h with
  | none => false
  | some (_, r) => decide (r.st = .armed) && !r.frozen && r.fallow.isNone && !r.pre && r.stopping.isNone &&
    !(match r.cut with | some c => c.stopped | none => false) && (s.ham h).powered
/-- Whether an element evaluates its triggers (R43, R141, R180): an SPE held for its record point or stop point fires
nothing. -/
def State.elemRuns (s : State) (h site : Nat) : Bool :=
  s.hamletRuns h && !(s.elem h site).halted &&
  !(decide (siteKind site = .spe) && !(s.elem h site).recorded &&
    (match s.regionOf h with | some (_, r) => r.cut.isSome | none => false))

/-- The number of data and predicate tokens of an element: its queues and lane registers (R40). Channel state that a resume has yet
to deliver counts too: the spec leaves this open, and the model's choice is that such a token is in flight (DESIGN CHOICE, log entry
58). -/
def Elem.tokens (e : Elem) : Nat :=
  ((e.inq ++ e.outq ++ e.lanes).map fun p => p.2.tokens).foldl (· + ·) 0 +
  (e.replayIn.map fun p => p.2.length).foldl (· + ·) 0
/-- The token count of the headcount tree of a region (R40). -/
def State.headcount (s : State) (first : Nat) : Nat :=
  ((s.region first).hamlets first).foldl (fun n h => n + ((s.ham h).elems.map fun p => p.2.tokens).foldl (· + ·) 0) 0

/-! ### Agents and arrays (R262, R264, R386, R389) -/

/-- A number that tells the waiters of one place apart. -/
def Agent.key (a : Agent) : Nat := ((a.code * 512 + (match a.ham with | some h => h | none => 256)) * 64 + a.site) * 16 + a.unit

/-- The cells of bytes at an address. -/
def cellsAt (pa : Nat) : List Byte → List (Nat × Byte)
  | [] => []
  | b :: r => (pa, b) :: cellsAt (pa + 1) r

/-- The HBM stack k. -/
def State.stack (s : State) (k : Nat) : Stack := Tab.get s.hbm {} k
/-- The state with a stack replaced. -/
def State.setStack (s : State) (k : Nat) (x : Stack) : State := { s with hbm := Tab.put s.hbm k x }

/-- The stack of a physical HBM address (R264). -/
def stackOf (pa : Nat) : Nat := pa / 0x1000 % 8
/-- The sectors that n bytes at an address touch (R266, R267). -/
def sectorsOf (pa n : Nat) : Nat := if n = 0 then 0 else (pa + n - 1) / 32 - pa / 32 + 1

/-- The cap of a temperature level (R380). -/
def levelCap (l : Nat) : Nat :=
  match l with
  | 0 => 255
  | 1 => 192
  | 2 => 128
  | _ => 0
/-- The level of a sensor. -/
def State.sensorLevel (s : State) (n : Nat) : Nat := (Tab.get s.sensors {} n).level
/-- The bytes that an HBM stack delivers in 1 µs at its capped rate (R380). -/
def State.stackRate (s : State) (k : Nat) : Nat :=
  let c := ((List.range 4).map fun r => levelCap (s.sensorLevel (32 + 4 * k + r))).foldl Nat.min 255
  Config.hbmBytesPerInterval * Nat.max c 16 / 255

/-- Waiting in arrival order: whether a request is served now, and the waiters after it. A request that finds the way blocked,
or others ahead of it, joins at the back. -/
def gate (waiters : List Nat) (key : Nat) (blocked : Bool) : Bool × List Nat :=
  match waiters with
  | [] => if blocked then (false, [key]) else (true, [])
  | w :: r =>
    if w = key then (if blocked then (false, w :: r) else (true, r))
    else if (w :: r).contains key then (false, w :: r) else (false, w :: r ++ [key])

/-- The rate cap of an HBM stack (R380): a request beyond it waits in arrival order, and HBM_RATE_CAP_GRANT has its place in that order
served first. Every request is charged; one that no whole interval covers goes on with a whole interval, and what it takes beyond that is
charged to those that follow. -/
def State.admitStack (s : State) (a : Agent) (pa n : Nat) : Bool × State :=
  let k := stackOf pa
  let x := s.stack k
  let cost := 32 * sectorsOf pa n
  let blocked := decide (s.stackRate k < x.used + cost ∧ x.used ≠ 0)
  if x.granted.contains a.key && !blocked then
    (true, s.setStack k { x with used := x.used + cost, granted := x.granted.erase a.key, served := true })
  else
    let g := gate x.waiters a.key (blocked || !x.granted.isEmpty)
    if g.1 then (true, s.setStack k { x with used := x.used + cost, waiters := g.2, served := true })
    else (false, s.setStack k { x with waiters := g.2 })

/-- Accesses of the device's own, admitted together by their stacks; where one waits, none is made (R380). -/
def State.admitAll (s : State) (a : Agent) (l : List (Nat × Nat)) : Bool × State :=
  match (l.filter fun p => decide (p.1 < 0x8000000000)).find? fun p => !(s.admitStack a p.1 p.2).1 with
  | some p => (false, (s.admitStack a p.1 p.2).2)
  | none => (true, (l.filter fun p => decide (p.1 < 0x8000000000)).foldl (fun (t : State) p => (t.admitStack a p.1 p.2).2) s)

/-- The sectors with failed cells among those that n bytes at an address touch. -/
def State.eccOf (s : State) (pa n : Nat) : Tab CellErr :=
  if n = 0 then [] else s.ecc.filter fun p => decide (pa / 32 ≤ p.1 ∧ p.1 ≤ (pa + n - 1) / 32)
/-- A sector that cannot be corrected is among those met. -/
def anyLost (l : Tab CellErr) : Bool := l.any fun p => decide (p.2 = .many)
/-- The sectors of a list that can be corrected are written back corrected (R386). -/
def State.corrected (s : State) (l : Tab CellErr) : State :=
  { s with ecc := (l.filter fun p => decide (p.2 ≠ .many)).foldl (fun (t : Tab CellErr) p => Tab.del t p.1) s.ecc }
/-- Whether cells cover a whole sector. -/
def coversSector (cells : List (Nat × Byte)) (sector : Nat) : Bool :=
  (List.range 32).all fun i => cells.any fun c => decide (c.1 = 32 * sector + i)
/-- Cells written into the arrays, and the sectors with failed cells that they cover in part (R386, R389): a sector written whole loses its
errors, and one that cannot be corrected takes no partial write. -/
def State.putArray (s : State) (pa n : Nat) (cells : List (Nat × Byte)) : Tab CellErr × State :=
  let hit := s.eccOf pa n
  let part := hit.filter fun p => !coversSector cells p.1
  let lost := part.filter fun p => decide (p.2 = .many)
  let t := s.corrected part
  (part, { t with
    ecc := (hit.filter fun p => coversSector cells p.1).foldl (fun (l : Tab CellErr) p => Tab.del l p.1) t.ecc
    mem := t.mem.writeCells (cells.filter fun c => !(lost.any fun p => decide (p.1 = c.1 / 32))) })

/-! ### Logs (R392 to R394, R401) -/

/-- What an error log entry names. -/
structure LogRec where
  addr : Nat := 0
  kind : Nat
  agent : Nat := 10
  ctx : Option Nat := none
  ham : Nat := 0
  site : Nat := 0
  detail : Nat := 0
  extra : Nat := 0
  deriving DecidableEq, Repr

/-- The 32 bytes of a log entry (R393). -/
def LogRec.bytes (r : LogRec) (cycle : Nat) : List Byte :=
  leBytes 8 r.addr ++ leBytes 2 r.kind ++ leBytes 1 r.agent ++
  leBytes 1 (match r.ctx with | some c => 128 + c % 64 | none => 0) ++ leBytes 1 r.ham ++ leBytes 1 r.site ++
  leBytes 2 r.detail ++ leBytes 8 cycle ++ leBytes 8 r.extra

/-- Memory with one entry written to the log ring at a base, or the lost count raised when 2,046 stand unread (R392). -/
def logRing (m : Mem) (base : Nat) (entry : List Byte) : Mem :=
  let tail := m.readLE base 8
  let head := m.readLE (base + 8) 8
  let lost := m.readLE (base + 16) 8
  if 2046 ≤ tail - head then m.writeLE (base + 16) 8 (if lost + 1 < 2 ^ 64 then lost + 1 else lost)
  else (m.writeBytes (base + 64 + 32 * (tail % 2046)) entry).writeLE base 8 (tail + 1)

/-- A log. -/
def State.log (s : State) (n : LogName) : Log :=
  match n with
  | .array => s.alog
  | .bus => s.blog
  | .error => s.elog
/-- The state with a log replaced. -/
def State.setLog (s : State) (n : LogName) (l : Log) : State :=
  match n with
  | .array => { s with alog := l }
  | .bus => { s with blog := l }
  | .error => { s with elog := l }
/-- The physical base of a log ring (R400). -/
def State.logBase (s : State) (n : LogName) : Nat :=
  match n with
  | .array => s.boot.alog.toNat
  | .bus => s.boot.blog.toNat
  | .error => s.boot.elog.toNat

/-- The array log's entry for a sector (R386, R389, R394). -/
def arrayRec (a : Agent) (sector kind detail : Nat) : LogRec :=
  { addr := 32 * sector, kind := kind, agent := a.code, ctx := a.ctx, ham := a.ham.getD 0, site := a.site, detail := detail }
/-- The array log's entry for a sector that an access meets: kind 1 with the failing bit, or kind 2 (R386, R394). -/
def cellRec (a : Agent) (p : Nat × CellErr) : LogRec :=
  match p.2 with
  | .one bit => arrayRec a p.1 1 bit
  | .many => arrayRec a p.1 2 0

/-- An entry written to the log ring at a base, and the failed cells of the ring's first sector that it meets; where that sector cannot be
corrected, no entry is written (R386, R392, log entry 62). -/
def State.ringPut (s : State) (base : Nat) (entry : List Byte) : Tab CellErr × State :=
  let hit := s.eccOf base 24
  if anyLost hit then (hit, s)
  else
    let t := s.corrected hit
    let tail := t.mem.readLE base 8
    let full := decide (2046 ≤ tail - t.mem.readLE (base + 8) 8)
    (hit, { t with mem := logRing t.mem base entry, ecc := if full then t.ecc else Tab.del t.ecc ((base + 64 + 32 * (tail % 2046)) / 32) })

/-- One more access of the device's own. -/
def State.devAdd (s : State) (op : DevOp) : State := { s with devQ := s.devQ ++ [op] }
/-- One entry for a log, on its way there; before GO it is held on chip, up to 64 of the three logs together (R392, R401). -/
def State.logAdd (s : State) (n : LogName) (r : LogRec) : State :=
  let entry := r.bytes s.cycle
  if s.boot.go then s.devAdd (.log n entry true)
  else
    let l := s.log n
    if s.alog.held.length + s.blog.held.length + s.elog.held.length < 64 then s.setLog n { l with held := l.held ++ [entry] }
    else s.setLog n { l with lost := l.lost + 1 }
/-- The failed cells that an access of the device's own meets are logged (R386); those that an entry for them meets are not logged again. -/
def State.cellsAdd (s : State) (a : Agent) (l : Tab CellErr) : State := l.foldl (fun (t : State) p => t.logAdd .array (cellRec a p)) s

/-! ### Contexts: descriptor fields, event records, MSIs (R337, R350) -/

/-- A field of the descriptor of a context as the market last read it (R338). -/
def State.descField (s : State) (c off n : Nat) : Nat := leNat (((Tab.get s.market.desc [] c).drop off).take n)
/-- A core of the manor (R402). -/
def State.manorCore (s : State) (n : Nat) : ManorCore := Tab.get s.manor {} n
/-- An identity is written to seteipnum_le of an interrupt file of a core, machine or supervisor: it is pending there; one that is not 1 to
2,047 names none (R402, log entry 12). -/
def State.interrupt (s : State) (f : Nat × Bool) (id : Nat) : State :=
  if id = 0 ∨ 2047 < id then s
  else
    let x := s.manorCore f.1
    let y := if f.2 then { x with pendS := Tab.put x.pendS id () } else { x with pendM := Tab.put x.pendM id () }
    { s with manor := Tab.put s.manor f.1 y }
/-- An MSI: a write to an address that is no interrupt file is refused and logged (R402, R403). -/
def State.msiAdd (s : State) (agent : Nat) (ctx : Option Nat) (a : W64) (d : W32) : State :=
  match Config.interruptFile a with
  | some f => s.interrupt f d.toNat
  | none => s.logAdd .error { addr := a.toNat, kind := 2, agent := agent, ctx := ctx }
/-- The MSI of a context (R350). -/
def State.sendMsi (s : State) (c : Nat) : State :=
  s.msiAdd 6 (some c) (BitVec.ofNat 64 (s.descField c 104 8)) (BitVec.ofNat 32 (s.descField c 112 4))
/-- The 32 bytes of an event record (R350). -/
def EvRec.bytes (r : EvRec) : List Byte :=
  leBytes 8 r.va.toNat ++ leBytes 2 r.cause ++ leBytes 1 r.agent ++ leBytes 1 r.acc ++ leBytes 4 r.fid ++
  leBytes 1 r.hamlet ++ leBytes 1 r.site ++ leBytes 1 r.stream ++ leBytes 1 r.code ++ leBytes 12 0
/-- Whether the event ring of a context takes no record: it is full (R350), or its first sector cannot be corrected (log entry 62). -/
def State.eventFull (s : State) (c : Nat) : Bool :=
  let base := s.descField c 88 8
  anyLost (s.eccOf base 16) || decide (126 ≤ s.mem.readLE base 8 - s.mem.readLE (base + 8) 8)
/-- Bytes written by the device itself, with a log entry for the failed cells that they meet (R386, R389). -/
def State.devPut (s : State) (a : Agent) (pa : Nat) (bytes : List Byte) : State :=
  let w := s.putArray pa bytes.length (cellsAt pa bytes)
  w.2.cellsAdd a w.1
/-- An event record written to the ring, then the tail, then the MSI (R350). -/
def State.eventPut (s : State) (c : Nat) (r : EvRec) : State :=
  let base := s.descField c 88 8
  let tail := s.mem.readLE base 8
  let a : Agent := { code := 6, ctx := some c }
  let t := (s.corrected (s.eccOf base 16)).cellsAdd a (s.eccOf base 16)
  ((t.devPut a (base + 64 + 32 * (tail % 126)) r.bytes).devPut a base (leBytes 8 (tail + 1))).sendMsi c
/-- The event records that the device holds for a context (R350). -/
def State.heldEvents (s : State) (c : Nat) : List EvRec := Tab.get s.market.evHeld [] c
/-- The held event records of a context replaced. -/
def State.setEvents (s : State) (c : Nat) (l : List EvRec) : State := { s with market := { s.market with evHeld := Tab.put s.market.evHeld c l } }

/-! ### The accesses that the device makes of its own (R326, R347, R350, R380, R392) -/

/-- What an access of the device's own takes of the HBM: addresses and lengths, those of one stack together. -/
def State.devTouches (s : State) (op : DevOp) : List (Nat × Nat) :=
  match op with
  | .write _ pa b => [(pa, b.length)]
  | .log n _ _ =>
    let base := s.logBase n
    let tail := s.mem.readLE base 8
    let at' := base + 64 + 32 * (tail % 2046)
    if 2046 ≤ tail - s.mem.readLE (base + 8) 8 then [(base, 64)]
    else if stackOf base = stackOf at' then [(base, 96)] else [(base, 64), (at', 32)]
  | .lost n _ => [(s.logBase n, 64)]
  | .event c _ _ => [(s.descField c 88 8, if s.eventFull c then 32 else 96)]
  | .msi _ _ _ _ => []

/-- An access of the device's own as its stacks take it. An event record whose ring is full, or behind others that are held, is held (R350). -/
def State.devPerform (s : State) (op : DevOp) : State :=
  match op with
  | .write a pa b => s.devPut a pa b
  | .log n e again =>
    let w := s.ringPut (s.logBase n) e
    w.1.foldl (fun (t : State) p => if again then t.devAdd (.log .array ((cellRec { code := 10 } p).bytes s.cycle) false) else t) w.2
  | .lost n k =>
    let base := s.logBase n
    s.devPut { code := 10 } (base + 16) (leBytes 8 (Nat.min (s.mem.readLE (base + 16) 8 + k) (2 ^ 64 - 1)))
  | .event c r retry =>
    if retry then (if s.eventFull c then s.setEvents c (r :: s.heldEvents c) else s.eventPut c r)
    else if (s.heldEvents c).isEmpty && !s.eventFull c then s.eventPut c r
    else s.setEvents c (s.heldEvents c ++ [r])
  | .msi agent ctx a d => s.msiAdd agent ctx a d

/-- The device's own accesses made in order, up to a number of them, as far as their stacks let them in. -/
def State.devDrain : Nat → State → State
  | 0, s => s
  | n + 1, s =>
    match s.devQ with
    | [] => s
    | op :: rest =>
      let w := s.admitAll { code := 10, unit := 15 } (s.devTouches op)
      if w.1 then State.devDrain n (({ w.2 with devQ := rest } : State).devPerform op) else w.2
/-- An access of the device's own: it is made at once where none of them waits and its stacks let it in; else it waits in their order (R380). -/
def State.devPost (s : State) (op : DevOp) : State := if s.devQ.isEmpty then (s.devAdd op).devDrain 8 else s.devAdd op
/-- A write of the device's own to n bytes at an address still waits. -/
def State.devWaits (s : State) (pa n : Nat) : Bool :=
  s.devQ.any fun op => match op with | .write _ q b => decide (q < pa + n ∧ pa < q + b.length) | _ => false

/-- A held event record of a context is on its way to the ring again. -/
def State.eventOnWay (s : State) (c : Nat) : Bool := s.devQ.any fun op => match op with | .event k _ r => r && decide (k = c) | _ => false

/-- One entry written to a log: held on chip before GO (R392, R401). -/
def State.logIn (s : State) (n : LogName) (r : LogRec) : State :=
  if s.boot.go then s.devPost (.log n (r.bytes s.cycle) true) else s.logAdd n r
/-- One entry of the error log. -/
def State.logErr (s : State) (r : LogRec) : State := s.logIn .error r
/-- An MSI from outside the device (R403, R404). -/
def State.msiFrom (s : State) (agent : Nat) (ctx : Option Nat) (a : W64) (d : W32) : State :=
  match Config.interruptFile a with
  | some f => s.interrupt f d.toNat
  | none => s.logErr { addr := a.toNat, kind := 2, agent := agent, ctx := ctx }
/-- The failed cells that an access meets are logged (R386). -/
def State.logCells (s : State) (a : Agent) (l : Tab CellErr) : State := l.foldl (fun (t : State) p => t.logIn .array (cellRec a p)) s
/-- A write that the device makes of its own. -/
def State.devWrite (s : State) (a : Agent) (pa : Nat) (bytes : List Byte) : State := s.devPost (.write a pa bytes)
/-- The status of the command at the head of a ring is written, and then head, as its reader has read it (R326, R347, R409). -/
def State.endCommand (s : State) (a : Agent) (base status : Nat) : State :=
  let head := s.mem.readLE (base + 8) 8
  (s.devWrite a (base + 64 + 32 * (head % 126) + 4) (leBytes 4 status)).devWrite a (base + 8) (leBytes 8 (head + 1))
/-- An MSI of the device, behind its own accesses (R403). -/
def State.msi (s : State) (ctx : Option Nat) (a : W64) (d : W32) : State := s.devPost (.msi 6 ctx a d)
/-- An event record of a context; when the ring is full or others wait, the device holds it (R350). None is written for a
context with no descriptor. -/
def State.event (s : State) (c : Nat) (r : EvRec) : State :=
  if (Tab.get s.market.desc [] c).isEmpty then s else s.devPost (.event c r false)

/-- An event record whose address field the spec gives no value: a free value stands there (log entry 11). -/
def State.eventFree (s : State) (c : Nat) (r : EvRec) : State := s.takeFree.2.event c { r with va := s.takeFree.1 }

/-! ### Region stops (R56, R225) -/

/-- The value of stopinfo (R225). -/
def stopInfo (cause idx site slot q : Nat) (v : W32) : W64 :=
  v ++ BitVec.ofNat 11 0 ++ BitVec.ofNat 4 q ++ BitVec.ofNat 4 slot ++ BitVec.ofNat 6 site ++ BitVec.ofNat 3 idx ++
  BitVec.ofNat 4 cause

/-- A stop made in this cycle, applied at its end; each is logged (R56). `tagClass` is 1 for a reserved tag, which comes
after a firing's stop at one site. -/
def State.requestStop (s : State) (h site cause slot q tagClass : Nat) (v : W32) : State :=
  match s.regionOf h with
  | none => s
  | some (f, r) =>
    let info := stopInfo cause (h - f) site slot q v
    let key := (((h - f) * 64 + site) * 2 + tagClass) * 16 + q
    (s.setRegion f { r with stops := r.stops ++ [(key, info)] }).logErr
      { kind := 4, agent := (match siteKind site with | .spe => 0 | .se => 1 | .me => 2 | .pe => 10), ctx := some r.ctx, ham := h,
        site := site, detail := cause, extra := info.toNat }

/-- Of the stops of a cycle, the one that stopinfo holds (R56). -/
def firstStop : List (Nat × W64) → Option (Nat × W64)
  | [] => none
  | x :: r =>
    match firstStop r with
    | none => some x
    | some y => if y.1 < x.1 then some y else some x

/-! ### Traps (R226 to R228, R256) -/

/-- The beadle's registers at the ROM's jump to the firmware entry (R256). The spec does not say what becomes of its buffered stores at a
double trap; the model keeps them, and they are performed (DESIGN CHOICE, log entry 70). -/
def Core.romJump (k : Core) (entry bodyLen : Nat) : Core :=
  { pc := 0xFF00000000 + BitVec.ofNat 64 entry, run := .running, arenaBase := 0xFF00000000,
    arenaBound := 0xFF00000000 + BitVec.ofNat 64 bodyLen, tvec := 0xFF00000000, shadowIval := 0, heldSize := 0,
    instret := k.instret, storeBuf := k.storeBuf }

/-- The context that holds a core's hamlet. -/
def State.ctxOf (s : State) (c : CoreId) : Nat := (s.coreOf c).ctx

/-- A reeve halts: it fetches nothing more, the beadle logs it and the manor receives the context's MSI (R226, R255, R351). -/
def State.haltReeve (s : State) (h : Nat) (k : Core) : State :=
  ((s.setCore (.reeve h) { k with run := .halted }).logErr
    { kind := 8, agent := 3, ctx := some k.ctx, ham := h, detail := k.tcause.toNat, extra := k.tval.toNat }).eventFree k.ctx
    { va := 0, cause := 2, agent := 2, hamlet := h }

/-- Taking a trap (R226): epc, tcause and tval are written, mstat.t is set with its old value in mstat.pt, and the pc goes
to tvec. A trap taken in a trap halts a reeve, and resets the beadle (R256). -/
def State.takeTrap (s : State) (c : CoreId) (cause : Nat) (val : W64) (late : Bool) : State :=
  let k := s.coreOf c
  let k1 := { k with epc := k.pc, tcause := BitVec.ofNat 64 cause, tval := val, mLate := late }
  if k.mT then
    match c with
    | .reeve h => s.haltReeve h k1
    | .beadle =>
      { s.logErr { kind := 9, agent := 7, detail := cause, extra := val.toNat } with
        beadle := k1.romJump s.boot.entry s.boot.bodyLen }
  else s.setCore c { k1 with mPt := k.mT, mT := true, pc := k.tvec }

/-- Returning from a trap (R227): the pc takes epc, mstat.t takes mstat.pt, and mstat.pt is cleared. -/
def State.trapReturn (s : State) (c : CoreId) : State :=
  let k := s.coreOf c
  s.setCore c { k with pc := k.epc, mT := k.mPt, mPt := false, instret := k.instret + 1 }

/-- An instruction of a core ends: its destination is written, the pc moves past it, and it counts in instret (R225). -/
def State.retire (s : State) (c : CoreId) (d : BitVec 5) (v : W64) : State :=
  let k := (s.coreOf c).setReg d v
  s.setCore c { k with pc := k.pc + 4, instret := k.instret + 1 }

/-- A jump or taken branch ends. -/
def State.jumpTo (s : State) (c : CoreId) (d : BitVec 5) (v target : W64) : State :=
  let k := (s.coreOf c).setReg d v
  s.setCore c { k with pc := target, instret := k.instret + 1 }

end Sys2Proof.Machine
end

