-- ==== Sys2Proof/Machine/Operands.lean ====
section
/-! DEFINITION. Operand forms of a fabric firing (R90 to R93, R109), readiness (R43 to R47), the tag rule (R23), delivery
(R110), the predicate write (R55) and the atomic commit (R54). -/
namespace Sys2Proof.Machine
open Sys2Proof

/-- The token of an operand code: a data register or constant as DATA, or the head of an input queue (R22, R90, R91). -/
def Elem.operand (e : Elem) (code : BitVec 4) : Token :=
  let n := code.toNat
  if n < 8 then ⟨0, Tab.get e.d 0 n⟩
  else if n < 12 then ⟨0, Tab.get e.c 0 (n - 8)⟩
  else e.headTok (n - 12)

/-- The input queue that an operand code names, if it is a head operand (R91). -/
def headOf (code : BitVec 4) : List Nat := if 12 ≤ code.toNat then [code.toNat - 12] else []

/-- The input queues set in a dequeue mask (R90). -/
def deqList (m : BitVec 4) : List Nat := (List.range 4).filter fun n => m.getLsbD n

/-- Tag classes of a token (R19): DATA, marker, FAULT, HOLE. -/
def Token.isData (t : Token) : Bool := decide (t.tag = 0)
/-- An EOD token (R19). -/
def Token.isEod (t : Token) : Bool := decide (1 ≤ t.tag.toNat ∧ t.tag.toNat ≤ 8)
/-- A CUT token (R19). -/
def Token.isCut (t : Token) : Bool := decide (t.tag = 9)
/-- An EOD or CUT token (R19). -/
def Token.isMarker (t : Token) : Bool := t.isEod || t.isCut
/-- A FAULT token (R19). -/
def Token.isFault (t : Token) : Bool := decide (t.tag = 10)
/-- A HOLE token (R19). -/
def Token.isHole (t : Token) : Bool := decide (t.tag = 11)
/-- The rank of an EOD (R19). -/
def Token.rank (t : Token) : Nat := t.tag.toNat - 1
/-- A DATA token. -/
def dataTok (v : W40) : Token := ⟨0, v⟩
/-- The HOLE token as it is made (R19). -/
def holeTok : Token := ⟨11, 0⟩
/-- A FAULT token of a code and a position (R19). -/
def faultTok (code : Nat) (pos : Nat) : Token := ⟨10, BitVec.ofNat 8 code ++ BitVec.ofNat 32 pos⟩

/-- The tag rule for the operands read, a before b: the token that replaces the computed value, or none (R23). -/
def tagRule (ops : List Token) : Option Token :=
  match ops.find? Token.isFault with
  | some t => some t
  | none =>
    match ops.find? Token.isMarker with
    | some t => some t
    | none => if ops.any Token.isHole then some holeTok else none

/-- A computed value under the tag rule: rules 1 to 3 replace it and give flag 0 (R23). -/
def underTags (ops : List Token) (v : W40 × Bool) : Token × Bool :=
  match tagRule ops with
  | some t => (t, false)
  | none => (dataTok v.1, v.2)

/-! ### Readiness -/

/-- The reasons of a slot that is not ready, in order (R32). -/
inductive Reason where
  | predicate | input | tag | output
  deriving DecidableEq, Repr

/-- The place of a reason in the order of R32; also the number of its stall counter: input-empty 0, output-full 1,
predicate-false 2, tag-mismatch 3. -/
def Reason.order : Reason → Nat
  | .predicate => 1
  | .input => 2
  | .tag => 3
  | .output => 4
/-- The stall counter of a reason, in the order R32 lists the counters. -/
def Reason.counter : Reason → Nat
  | .input => 0
  | .output => 1
  | .predicate => 2
  | .tag => 3

/-- What an operation needs beyond its trigger word: input queues that have to hold an entry, predicates read, queues
dequeued, output queues that need room, output queues that have to be empty, and a condition of its own that holds it (R43,
R47). -/
structure Need where
  heads : List Nat := []
  preds : List Nat := []
  deq : List Nat := []
  outs : List Nat := []
  empties : List Nat := []
  held : Bool := false
  deriving DecidableEq, Repr

/-- The output queues that a destination code names (R43, R90). -/
def dstOuts (dst : BitVec 4) : List Nat :=
  let n := dst.toNat
  if 8 ≤ n ∧ n ≤ 13 then [n - 8] else if n = 14 then [0, 1, 2, 3] else []

/-- The needs of an operation by its operand class and x class (R43, R92, R93). -/
def baseNeed (c : OpClass) (x : XClass) (f : FOp) : Need :=
  { heads := if c = .pp then [] else (if c.readsA then headOf f.a else []) ++ (if c.readsB then headOf f.b else []),
    preds := (if x = .pi then [f.x.toNat] else []) ++ (if c = .pp then [f.a.toNat, f.b.toNat] else []),
    deq := deqList f.deq, outs := if c = .sp then [] else dstOuts f.dst }

/-- One predicate term of a trigger word: false, or an absent head (R44). -/
def termFalse (e : Elem) (en neg : Bool) (idx : BitVec 3) : Bool :=
  en && e.predPresent idx.toNat && (e.pred idx.toNat == neg)
/-- A predicate term reads a head that is absent (R44). -/
def termAbsent (e : Elem) (en : Bool) (idx : BitVec 3) : Bool := en && !e.predPresent idx.toNat

/-- Whether a head's tag satisfies the tag class (R45). -/
def tagOk (cls k : Nat) (t : Token) : Bool :=
  match cls with
  | 0 => true
  | 1 => t.isData
  | 2 => t.isEod
  | 3 => t.isEod && decide (k ≤ t.rank)
  | 4 => t.isEod && decide (t.rank = k)
  | 5 => t.isCut
  | 6 => t.isFault
  | _ => t.isHole

/-- The bits set in a mask of n bits. -/
def bitsOf {n : Nat} (m : BitVec n) : List Nat := (List.range n).filter fun i => m.getLsbD i

/-- A slot names an input queue while a write transfer of its ME owns them (R215). -/
def meHoldsIn (e : Elem) (t : Trig) (n : Need) : Bool :=
  e.me.wr.isSome && (decide (t.needIn ≠ 0) || !n.heads.isEmpty || !n.deq.isEmpty || decide (t.tagCls ≠ 0))
/-- A slot names an output queue while a read transfer of its ME owns them (R215). -/
def meHoldsOut (e : Elem) (t : Trig) (n : Need) : Bool :=
  e.me.rd.isSome && (decide (t.needOut ≠ 0) || n.outs.any (fun q => decide (q < 4)))

/-- The first reason that holds a slot, in the order of R32; none when the slot is ready (R43). With its open inputs empty and an output full
that is input, which the worked example of R136 charges otherwise (DESIGN CHOICE, log entry 77). -/
def slotReason (e : Elem) (t : Trig) (n : Need) : Option Reason :=
  if termFalse e t.aEn t.aNeg t.aIdx || termFalse e t.bEn t.bNeg t.bIdx then some .predicate
  else if (bitsOf t.needIn ++ n.heads ++ n.deq).any (fun q => !e.inPresent q) ||
      (bitsOf t.needPq).any (fun q => !e.inPresent (4 + q)) || n.preds.any (fun p => !e.predPresent p) ||
      termAbsent e t.aEn t.aIdx || termAbsent e t.bEn t.bIdx || (t.tagCls != 0 && !e.inPresent t.tagQ.toNat) || meHoldsIn e t n then some .input
  else if !tagOk t.tagCls.toNat t.k.toNat (e.headTok t.tagQ.toNat) then some .tag
  else if (bitsOf t.needOut ++ n.outs).any (fun q => !e.outRoom q) || n.empties.any (fun q => !e.outEmpty q) || n.held ||
      meHoldsOut e t n then
    some .output
  else none

/-! ### The firing slot and its commit -/

/-- The element whose slot runs a fabric instruction. -/
def State.cur (s : State) : Elem := s.elem s.curH s.curSite
/-- The state with that element replaced. -/
def State.setCur (s : State) (e : Elem) : State := s.setElem s.curH s.curSite e
/-- The trigger word of the running slot (R89). -/
def State.curTrig (s : State) : Trig := unpackTrig ((Tab.get s.cur.slots 0 s.curSlot).extractLsb' 0 32)

/-- Whether the running slot is ready with these needs: its element evaluates triggers, its trigger word is valid, and no
reason holds it (R43). -/
def State.slotReady (s : State) (n : Need) : Bool :=
  s.elemRuns s.curH s.curSite && s.curTrig.valid && decide (slotReason s.cur s.curTrig n = none)

/-- Tokens delivered in order to the places that a destination code names (R110, R136): a register takes the data field of
the first, a predicate port one bit, a queue every token. -/
def Elem.deliver (e : Elem) (dst : BitVec 4) (toks : List Token) : Elem :=
  match toks with
  | [] => e
  | t :: _ =>
    let n := dst.toNat
    if n < 8 then { e with d := Tab.put e.d n t.data }
    else if n < 12 then toks.foldl (fun e x => e.pushOut (n - 8) (.tok x)) e
    else if n < 14 then e.pushOut (n - 8) (.bit (t.isData && decide (t.data ≠ 0)))
    else if n = 14 then toks.foldl (fun e x => (List.range 4).foldl (fun e q => e.pushOut q (.tok x)) e) e
    else e

/-- The predicate write of an operation word with a flag (R55); `old` is the element at the start of the cycle. -/
def Elem.predWrite (e old : Elem) (f : FOp) (flag : Bool) : Elem :=
  if f.pwe then
    let n := f.pidx.toNat
    let v := match f.pmode.toNat with | 0 => flag | 1 => true | 2 => false | _ => !(Tab.get old.p false n)
    { e with p := Tab.put e.p n v }
  else e

/-- What a firing does to its element: the dequeues, the tokens it delivers and where, the flag where a predicate write is
made, and the element with the operation's own state changed. -/
structure Fire where
  e : Elem
  toks : List Token := []
  dsts : List (BitVec 4) := []
  flag : Option Bool := some false

/-- The commit of a firing: its dequeues, its consumption of predicate heads, its writes, its predicate write and the
round-robin pointer land together (R49, R54). -/
def Fire.land (x : Fire) (old : Elem) (t : Trig) (slot : Nat) (f : FOp) (deq : List Nat) : Elem :=
  let e1 := (deq.eraseDups ++ (bitsOf t.needPq).map (4 + ·)).foldl (fun (e : Elem) q => e.setInQ q (e.inQ q).pop) x.e
  let e2 := x.dsts.foldl (fun (e : Elem) d => e.deliver d x.toks) e1
  let e3 := match x.flag with | some b => e2.predWrite old f b | none => e2
  { e3 with ptr := if t.high then e3.ptr else BitVec.ofNat 4 slot, fired := true }

/-- A firing of the running slot: nothing happens while the slot is not ready; otherwise the body's effect lands (R43,
R54). -/
def State.fire (s : State) (f : FOp) (n : Need) (body : Elem → Fire) : State :=
  if s.slotReady n then s.setCur ((body s.cur).land s.cur s.curTrig s.curSlot f n.deq) else s

/-- A firing that delivers one token to dst with a flag. -/
def Fire.one (e : Elem) (f : FOp) (r : Token × Bool) : Fire := { e := e, toks := [r.1], dsts := [f.dst], flag := some r.2 }

/-- A two-operand value operation (class A2): the tag rule, then the computed value and flag (R23, R111). -/
def State.fireA2 (s : State) (f : FOp) (x : XClass) (g : W40 → W40 → W40 × Bool) : State :=
  s.fire f (baseNeed .a2 x f) fun e =>
    Fire.one e f (underTags [e.operand f.a, e.operand f.b] (g (e.operand f.a).data (e.operand f.b).data))

/-- A one-operand value operation (class A1). -/
def State.fireA1 (s : State) (f : FOp) (x : XClass) (g : W40 → W40 × Bool) : State :=
  s.fire f (baseNeed .a1 x f) fun e => Fire.one e f (underTags [e.operand f.a] (g (e.operand f.a).data))

end Sys2Proof.Machine
end

