-- ==== Sys2Proof/Machine/Flags.lean ====
section
/-! DEFINITION. The results and flags of the PE's computing instructions (R114 to R124): each is a function of the data
fields of its operands. -/
namespace Sys2Proof.Machine
open Sys2Proof

/-- int(v) (R109). -/
def sint (v : W40) : Int := (low32 v).toInt
/-- uint(v) (R109). -/
def uint (v : W40) : Nat := (low32 v).toNat
/-- The integer result n mod 2^32 in the data field (R109). -/
def intRes (n : Int) : W40 := intField (BitVec.ofInt 32 n)
/-- Whether an integer lies in −2^31 … 2^31 − 1. -/
def fits32 (n : Int) : Bool := decide (-(2 ^ 31 : Int) ≤ n ∧ n < (2 ^ 31 : Int))
/-- n clamped to −2^31 … 2^31 − 1. -/
def clamp32 (n : Int) : Int := if n < -(2 ^ 31 : Int) then -(2 ^ 31 : Int) else if (2 ^ 31 : Int) ≤ n then (2 ^ 31 : Int) - 1 else n
/-- A result with flag "the result is not zero" (R114). -/
def nzRes (v : W32) : W40 × Bool := (intField v, decide (v ≠ 0))

/-- ADD and SUB: mod 2^32, flag on signed overflow (R114). -/
def aluWrap (n : Int) : W40 × Bool := (intRes n, !fits32 n)
/-- ADDS and SUBS: clamped, flag when clamped (R114). -/
def aluSat (n : Int) : W40 × Bool := (intRes (clamp32 n), !fits32 n)
/-- MULH (R114). -/
def aluMulh (a b : W40) : W40 × Bool := nzRes (BitVec.ofInt 32 (sint a * sint b / (2 ^ 32 : Int)))
/-- MULHU (R114). -/
def aluMulhu (a b : W40) : W40 × Bool := nzRes (BitVec.ofNat 32 (uint a * uint b / 2 ^ 32))
/-- NEG, and ABS of a negative number (R114). -/
def aluNeg (a : W40) : W40 × Bool := (intRes (-(sint a)), decide (low32 a = 0x80000000))
/-- ABS (R114). -/
def aluAbs (a : W40) : W40 × Bool := (intRes (sint a).natAbs, decide (low32 a = 0x80000000))
/-- SHL (R114, R115). -/
def aluShl (a b : W40) : W40 × Bool := nzRes (if 32 ≤ uint b then 0 else low32 a <<< uint b)
/-- SHR (R114, R115). -/
def aluShr (a b : W40) : W40 × Bool := nzRes (if 32 ≤ uint b then 0 else low32 a >>> uint b)
/-- SRA (R114, R115). -/
def aluSra (a b : W40) : W40 × Bool := nzRes ((low32 a).sshiftRight (if 32 ≤ uint b then 32 else uint b))
/-- The number of leading zero bits of the low k bits of v. -/
def clzAux (v : W32) : Nat → Nat
  | 0 => 0
  | k + 1 => if v.getLsbD k then 0 else 1 + clzAux v k
/-- CLZ (R114). -/
def aluClz (a : W40) : W40 × Bool := (intRes (clzAux (low32 a) 32 : Nat), decide (low32 a = 0))
/-- The number of one bits. -/
def popCount (v : W32) : Nat := (bitsOf v).length
/-- POPC (R114). -/
def aluPopc (a : W40) : W40 × Bool := (intRes (popCount (low32 a) : Nat), decide (popCount (low32 a) % 2 = 1))
/-- MIN, MAX, MINU and MAXU: b when `takeB`, else a (R114). -/
def aluPick (takeB : Bool) (a b : W40) : W40 × Bool := (intField (if takeB then low32 b else low32 a), takeB)
/-- A comparison's result and flag: integer 1 or 0 (R116). -/
def boolRes (c : Bool) : W40 × Bool := (if c then 1 else 0, c)
/-- The integer condition of a code (R92, R116). -/
def intCond (code : Nat) (a b : W40) : Bool :=
  match code with
  | 0 => decide (low32 a = low32 b)
  | 1 => decide (low32 a ≠ low32 b)
  | 2 => decide (sint a < sint b)
  | 3 => decide (sint b ≤ sint a)
  | 4 => decide (uint a < uint b)
  | 5 => decide (uint b ≤ uint a)
  | 6 => decide (sint b < sint a)
  | _ => decide (sint a ≤ sint b)
/-- CLAMP of a between b and c (R118). -/
def aluClamp (a b c : W40) : W40 × Bool :=
  let r := if sint a < sint b then sint b else sint a
  let r' := if sint c < r then sint c else r
  (intRes r', decide (r' ≠ sint a))

/-- A rounded F40 result with flag "the result is ±∞ or NaN" (R119). -/
def f40Res (rm : Rm) (v : FVal) : W40 × Bool := (f40Round rm v, f40Special (f40Round rm v))
/-- FADD (R119). -/
def aluFadd (rm : Rm) (a b : W40) : W40 × Bool := f40Res rm ((f40Val a).add rm (f40Val b))
/-- FSUB (R119). -/
def aluFsub (rm : Rm) (a b : W40) : W40 × Bool := f40Res rm ((f40Val a).add rm (f40Val b).neg)
/-- FMUL (R119). -/
def aluFmul (rm : Rm) (a b : W40) : W40 × Bool := f40Res rm ((f40Val a).mul (f40Val b))
/-- FMA (R119): a × b + c with one rounding. -/
def aluFma (rm : Rm) (a b c : W40) : W40 × Bool := f40Res rm (((f40Val a).mul (f40Val b)).add rm (f40Val c))
/-- FSCALE (R119). -/
def aluFscale (rm : Rm) (a b : W40) : W40 × Bool := f40Res rm ((f40Val a).scale (sint b))
/-- The canonical form of a pattern, which is exact (R63, R121). -/
def f40Canon (v : W40) : W40 := f40Round .rne (f40Val v)
/-- FMIN and FMAX: `isMax` picks the larger (R120). -/
def aluFminmax (isMax : Bool) (a b : W40) : W40 × Bool :=
  let x := f40Val a
  let y := f40Val b
  if x.isNan && y.isNan then (f40Nan, false)
  else if x.isNan then (f40Canon b, true)
  else if y.isNan then (f40Canon a, false)
  else if x.isZero && y.isZero then
    -- −0 counts as smaller than +0
    let takeB := if isMax then x.sign && !y.sign else !x.sign && y.sign
    (f40Canon (if takeB then b else a), takeB)
  else
    let takeB := if isMax then x.lt y else y.lt x
    (f40Canon (if takeB then b else a), takeB)
/-- FNEG (R121). -/
def aluFneg (a : W40) : W40 × Bool :=
  let r := f40Round .rne (f40Val a).neg
  (r, r.getLsbD 39)
/-- FABS (R121): the flag is the sign bit of a. -/
def aluFabs (a : W40) : W40 × Bool := (f40Round .rne (f40Val a).abs, a.getLsbD 39)
/-- The F40 condition of a code (R92, R122). -/
def f40Cond (code : Nat) (a b : W40) : Bool :=
  let x := f40Val a
  let y := f40Val b
  let un := x.isNan || y.isNan
  match code with
  | 0 => x.feq y
  | 1 => !x.feq y
  | 2 => x.lt y
  | 3 => !un && !x.lt y
  | 4 => y.lt x
  | 5 => !un && !y.lt x
  | 6 => un
  | _ => !un
/-- FCVTI (R123). -/
def aluFcvti (rm : Rm) (a : W40) : W40 × Bool :=
  match f40Val a with
  | .nan => (0, true)
  | .inf s => (intRes (if s then -(2 ^ 31 : Int) else (2 ^ 31 : Int) - 1), true)
  | .fin s m e => aluSat (roundInt rm s m e)
/-- ICVTF (R123): the flag is 1 when the conversion is inexact. -/
def aluIcvtf (rm : Rm) (a : W40) : W40 × Bool := f40Round' rm (.fin (decide (sint a < 0)) (sint a).natAbs 0)

end Sys2Proof.Machine
end

