-- ==== Sys2Proof/Machine/Pe.lean ====
section
/-! DEFINITION. The meanings of the processing element's instructions (R108 to R143). -/
namespace Sys2Proof.Machine
open Sys2Proof

/-- ADD (R114). -/
def execAdd (f : FOp) (s : State) : Out' :=
  .next (s.fireA2 f .z fun a b => aluWrap (sint a + sint b))

/-- SUB (R114). -/
def execSub (f : FOp) (s : State) : Out' :=
  .next (s.fireA2 f .z fun a b => aluWrap (sint a - sint b))

/-- ADDS (R114). -/
def execAdds (f : FOp) (s : State) : Out' :=
  .next (s.fireA2 f .z fun a b => aluSat (sint a + sint b))

/-- SUBS (R114). -/
def execSubs (f : FOp) (s : State) : Out' :=
  .next (s.fireA2 f .z fun a b => aluSat (sint a - sint b))

/-- MUL (R114). -/
def execMul (f : FOp) (s : State) : Out' :=
  .next (s.fireA2 f .z fun a b => aluWrap (sint a * sint b))

/-- MULH (R114). -/
def execMulh (f : FOp) (s : State) : Out' :=
  .next (s.fireA2 f .z fun a b => aluMulh a b)

/-- MULHU (R114). -/
def execMulhu (f : FOp) (s : State) : Out' :=
  .next (s.fireA2 f .z fun a b => aluMulhu a b)

/-- NEG (R114). -/
def execNeg (f : FOp) (s : State) : Out' :=
  .next (s.fireA1 f .z fun a => aluNeg a)

/-- ABS (R114). -/
def execAbs (f : FOp) (s : State) : Out' :=
  .next (s.fireA1 f .z fun a => aluAbs a)

/-- AND (R114). -/
def execAnd (f : FOp) (s : State) : Out' :=
  .next (s.fireA2 f .z fun a b => nzRes (low32 a &&& low32 b))

/-- OR (R114). -/
def execOr (f : FOp) (s : State) : Out' :=
  .next (s.fireA2 f .z fun a b => nzRes (low32 a ||| low32 b))

/-- XOR (R114). -/
def execXor (f : FOp) (s : State) : Out' :=
  .next (s.fireA2 f .z fun a b => nzRes (low32 a ^^^ low32 b))

/-- ANDN (R114). -/
def execAndn (f : FOp) (s : State) : Out' :=
  .next (s.fireA2 f .z fun a b => nzRes (low32 a &&& ~~~(low32 b)))

/-- SHL (R114, R115). -/
def execShl (f : FOp) (s : State) : Out' :=
  .next (s.fireA2 f .z fun a b => aluShl a b)

/-- SHR (R114, R115). -/
def execShr (f : FOp) (s : State) : Out' :=
  .next (s.fireA2 f .z fun a b => aluShr a b)

/-- SRA (R114, R115). -/
def execSra (f : FOp) (s : State) : Out' :=
  .next (s.fireA2 f .z fun a b => aluSra a b)

/-- CLZ (R114). -/
def execClz (f : FOp) (s : State) : Out' :=
  .next (s.fireA1 f .z fun a => aluClz a)

/-- POPC (R114). -/
def execPopc (f : FOp) (s : State) : Out' :=
  .next (s.fireA1 f .z fun a => aluPopc a)

/-- MIN (R114). -/
def execMin (f : FOp) (s : State) : Out' :=
  .next (s.fireA2 f .z fun a b => aluPick (decide (sint b < sint a)) a b)

/-- MAX (R114). -/
def execMax (f : FOp) (s : State) : Out' :=
  .next (s.fireA2 f .z fun a b => aluPick (decide (sint a < sint b)) a b)

/-- MINU (R114). -/
def execMinu (f : FOp) (s : State) : Out' :=
  .next (s.fireA2 f .z fun a b => aluPick (decide (uint b < uint a)) a b)

/-- MAXU (R114). -/
def execMaxu (f : FOp) (s : State) : Out' :=
  .next (s.fireA2 f .z fun a b => aluPick (decide (uint a < uint b)) a b)

/-- CMP (R116). -/
def execCmp (f : FOp) (s : State) : Out' :=
  .next (s.fireA2 f .ic fun a b => boolRes (intCond f.x.toNat a b))

/-- TST (R116). -/
def execTst (f : FOp) (s : State) : Out' :=
  .next (s.fireA2 f .z fun a b => boolRes (decide (low32 a &&& low32 b ≠ 0)))

/-- SEL (R117): the selected operand's token unchanged; both operands count for readiness. -/
def execSel (f : FOp) (s : State) : Out' :=
  .next (s.fire f (baseNeed .a2 .pi f) fun e =>
    let p := e.pred f.x.toNat
    Fire.one e f (if p then e.operand f.a else e.operand f.b, p))

/-- CLAMP (R118). -/
def execClamp (f : FOp) (s : State) : Out' :=
  .next (s.fireA2 f .cr fun a b => aluClamp a b (Tab.get s.cur.c 0 f.x.toNat))

/-- FADD (R119). -/
def execFadd (f : FOp) (s : State) : Out' :=
  .next (s.fireA2 f .rm fun a b => aluFadd (Rm.ofCode f.x.toNat) a b)

/-- FSUB (R119). -/
def execFsub (f : FOp) (s : State) : Out' :=
  .next (s.fireA2 f .rm fun a b => aluFsub (Rm.ofCode f.x.toNat) a b)

/-- FMUL (R119). -/
def execFmul (f : FOp) (s : State) : Out' :=
  .next (s.fireA2 f .rm fun a b => aluFmul (Rm.ofCode f.x.toNat) a b)

/-- FSCALE (R119). -/
def execFscale (f : FOp) (s : State) : Out' :=
  .next (s.fireA2 f .rm fun a b => aluFscale (Rm.ofCode f.x.toNat) a b)

/-- FMA (R119): the register that dst names is read as the third operand and written with the result. -/
def execFma (f : FOp) (s : State) : Out' :=
  .next (s.fire f (baseNeed .d3 .rm f) fun e =>
    let a := e.operand f.a
    let b := e.operand f.b
    let c := Tab.get e.d 0 f.dst.toNat
    Fire.one e f (underTags [a, b, dataTok c] (aluFma (Rm.ofCode f.x.toNat) a.data b.data c)))

/-- FMIN (R120). -/
def execFmin (f : FOp) (s : State) : Out' :=
  .next (s.fireA2 f .z fun a b => aluFminmax false a b)

/-- FMAX (R120). -/
def execFmax (f : FOp) (s : State) : Out' :=
  .next (s.fireA2 f .z fun a b => aluFminmax true a b)

/-- FNEG (R121). -/
def execFneg (f : FOp) (s : State) : Out' :=
  .next (s.fireA1 f .z fun a => aluFneg a)

/-- FABS (R121). -/
def execFabs (f : FOp) (s : State) : Out' :=
  .next (s.fireA1 f .z fun a => aluFabs a)

/-- FCMP (R122). -/
def execFcmp (f : FOp) (s : State) : Out' :=
  .next (s.fireA2 f .fc fun a b => boolRes (f40Cond f.x.toNat a b))

/-- FCVTI (R123). -/
def execFcvti (f : FOp) (s : State) : Out' :=
  .next (s.fireA1 f .rm fun a => aluFcvti (Rm.ofCode f.x.toNat) a)

/-- ICVTF (R123). -/
def execIcvtf (f : FOp) (s : State) : Out' :=
  .next (s.fireA1 f .rm fun a => aluIcvtf (Rm.ofCode f.x.toNat) a)

/-- FRCP (R124). -/
def execFrcp (f : FOp) (s : State) : Out' :=
  .next (s.fireA1 f .rm fun a => f40Res (Rm.ofCode f.x.toNat) (f40Val a).rcp)

/-- FRSQ (R124). -/
def execFrsq (f : FOp) (s : State) : Out' :=
  .next (s.fireA1 f .rm fun a => f40Res (Rm.ofCode f.x.toNat) (f40Val a).rsq)

/-- FEXP2 (R124). -/
def execFexp2 (f : FOp) (s : State) : Out' :=
  .next (s.fireA1 f .rm fun a => f40Res (Rm.ofCode f.x.toNat) (f40Val a).exp2)

/-- FLOG2 (R124). -/
def execFlog2 (f : FOp) (s : State) : Out' :=
  .next (s.fireA1 f .rm fun a => f40Res (Rm.ofCode f.x.toNat) (f40Val a).log2)

/-- The flag of MOV and DUP: DATA with a data field other than zero (R125). -/
def movFlag (t : Token) : Bool :=
  t.isData && decide (t.data ≠ 0)

/-- MOV (R125). -/
def execMov (f : FOp) (s : State) : Out' :=
  .next (s.fire f (baseNeed .a1 .z f) fun e => Fire.one e f (e.operand f.a, movFlag (e.operand f.a)))

/-- The needs of STEER (R126): room in the chosen queue, or in both for a marker. -/
def steerNeed (f : FOp) (e : Elem) : Need :=
  let q := f.dst.toNat - 8
  let pair := q ^^^ 1
  let outs := if (e.operand f.a).isMarker then [q, pair] else if e.pred f.x.toNat then [q] else [pair]
  { baseNeed .sp .pi f with outs := outs }

/-- STEER (R126). -/
def execSteer (f : FOp) (s : State) : Out' :=
  .next (s.fire f (steerNeed f s.cur) fun e =>
    let t := e.operand f.a
    let p := e.pred f.x.toNat
    let pair := f.dst ^^^ 1
    let dsts := if t.isMarker then [f.dst, pair] else if p then [f.dst] else [pair]
    { e := e, toks := [t], dsts := dsts, flag := some p })

/-- The needs of MERGE (R127): the selected operand's head, and the effective dequeue mask. -/
def mergeNeed (f : FOp) (e : Elem) : Need :=
  let p := e.pred f.x.toNat
  let sel := headOf (if p then f.a else f.b)
  let other := headOf (if p then f.b else f.a)
  { baseNeed .a2 .pi f with
    heads := sel, deq := (deqList f.deq).filter fun q => !other.contains q || sel.contains q }

/-- MERGE (R127). -/
def execMerge (f : FOp) (s : State) : Out' :=
  .next (s.fire f (mergeNeed f s.cur) fun e =>
    let p := e.pred f.x.toNat
    Fire.one e f (if p then e.operand f.a else e.operand f.b, p))

/-- FILT (R128). -/
def execFilt (f : FOp) (s : State) : Out' :=
  .next (s.fire f (baseNeed .a1 .pi f) fun e =>
    let t := e.operand f.a
    let keep := e.pred f.x.toNat || !(t.isData || t.isHole)
    { e := e, toks := if keep then [t] else [], dsts := [f.dst], flag := some keep })

/-- The needs of DUP (R125): the queues it writes are empty. -/
def dupNeed (f : FOp) : Need :=
  { baseNeed .a1 .z f with outs := [], empties := dstOuts f.dst }

/-- DUP (R125): the same token twice into each queue or port that dst names. -/
def execDup (f : FOp) (s : State) : Out' :=
  .next (s.fire f (dupNeed f) fun e =>
    let t := e.operand f.a
    { e := e, toks := [t], dsts := [f.dst, f.dst], flag := some (movFlag t) })

/-- DROP (R129). -/
def execDrop (f : FOp) (s : State) : Out' :=
  .next (s.fire f (baseNeed .n1 .z f) fun e => { e := e, flag := some (!(e.operand f.a).isData) })

/-- The token that MARK writes (R131). -/
def markTok (k : Nat) (t : Token) : Token :=
  let eod : BitVec 4 := BitVec.ofNat 4 (k + 1)
  if t.isCut || t.isFault then t else if t.isHole then ⟨eod, 0⟩ else ⟨eod, t.data⟩

/-- MARK (R131). -/
def execMark (f : FOp) (s : State) : Out' :=
  .next (s.fire f (baseNeed .a1 .rk f) fun e => Fire.one e f (markTok f.x.toNat (e.operand f.a), false))

/-- The token and flag of TAGOF (R131). -/
def tagofTok (t : Token) : Token × Bool :=
  if t.isCut then (t, false) else (dataTok (t.tag.setWidth 40), decide (t.tag ≠ 0))

/-- TAGOF (R131). -/
def execTagof (f : FOp) (s : State) : Out' :=
  .next (s.fire f (baseNeed .a1 .z f) fun e => Fire.one e f (tagofTok (e.operand f.a)))

/-- The token that STRIP writes (R131). -/
def stripTok (t : Token) : Token :=
  if t.isCut then t else dataTok (if t.isHole then 0 else t.data)

/-- STRIP (R131). -/
def execStrip (f : FOp) (s : State) : Out' :=
  .next (s.fire f (baseNeed .a1 .z f) fun e => Fire.one e f (stripTok (e.operand f.a), !(e.operand f.a).isData))

/-- PASSM (R131). -/
def execPassm (f : FOp) (s : State) : Out' :=
  .next (s.fire f (baseNeed .a1 .z f) fun e =>
    let t := e.operand f.a
    let keep := !(t.isData || t.isHole)
    { e := e, toks := if keep then [t] else [], dsts := [f.dst], flag := some keep })

/-- HOLE (R131). -/
def execHole (f : FOp) (s : State) : Out' :=
  .next (s.fire f (baseNeed .a0 .z f) fun e => Fire.one e f (holeTok, false))

/-! ### Reductions (R132 to R136) -/

/-- One of the four reductions (R132). -/
inductive Red where
  | radd | rfadd | rmax | rfmax
  deriving DecidableEq, Repr

/-- The identity at round start (R132): 0, −0, −2^31, −∞. -/
def redIdent (r : Red) : W40 :=
  match r with
  | .radd => 0
  | .rfadd => f40Zero true
  | .rmax => intRes (-(2 ^ 31 : Int))
  | .rfmax => f40Inf true

/-- One fold, and whether it overflowed as a signed sum (R132). -/
def redFold (r : Red) (acc v : W40) : W40 × Bool :=
  match r with
  | .radd => aluWrap (sint acc + sint v)
  | .rfadd => ((aluFadd .rne acc v).1, false)
  | .rmax => (intField (if sint acc < sint v then low32 v else low32 acc), false)
  | .rfmax =>
    (if (f40Val acc).isNan || (f40Val v).isNan then f40Nan else (aluFminmax true acc v).1, false)

/-- The round-start state of a reduction slot (R133): its inputs are open. -/
def redStart (r : Red) (f : FOp) : SlotSt :=
  { acc := redIdent r, openA := decide (12 ≤ f.a.toNat), openB := decide (12 ≤ f.b.toNat) }

/-- The state of a slot; a slot not listed stands at its round start (R133). -/
def Elem.slotOf (e : Elem) (slot : Nat) (start : SlotSt) : SlotSt :=
  Tab.get e.slotSt start slot

/-- What one input's head does to the state (R135); `isA` says which input it is. -/
def redTake (r : Red) (k : Nat) (isA : Bool) (st : SlotSt) (t : Token) : SlotSt :=
  let close (st : SlotSt) : SlotSt := if isA then { st with openA := false } else { st with openB := false }
  if t.isData then
    let w := redFold r st.acc t.data
    { st with seen := true, acc := if st.flt.isNone then w.1 else st.acc, ovf := st.ovf || (st.flt.isNone && w.2) }
  else if t.isEod && decide (k ≤ t.rank) then
    let newer := match st.mkr with | none => true | some m => decide (m.rank < t.rank)
    close { st with mkr := if newer then some t else st.mkr }
  else if t.isFault then { st with flt := if st.flt.isNone then some t else st.flt }
  else st

/-- The state after a firing has taken the heads of its open inputs, a before b (R135). -/
def redStep (r : Red) (f : FOp) (e : Elem) (st : SlotSt) : SlotSt :=
  let s1 := if st.openA then redTake r f.x.toNat true st (e.operand f.a) else st
  if st.openB then redTake r f.x.toNat false s1 (e.operand f.b) else s1

/-- The first open input, a before b, whose head is a CUT (R135). -/
def redCut (f : FOp) (e : Elem) (st : SlotSt) : Option (BitVec 4) :=
  if st.openA && (e.operand f.a).isCut then some f.a else if st.openB && (e.operand f.b).isCut then some f.b else none

/-- The needs of a reduction slot (R134): the heads of its open inputs; a closed input is not dequeued, nor any but the CUT's; a
release needs empty queues. -/
def redNeed (r : Red) (f : FOp) (e : Elem) (st : SlotSt) : Need :=
  let opened := (if st.openA then headOf f.a else []) ++ (if st.openB then headOf f.b else [])
  let kept := match redCut f e st with | some c => headOf c | none => opened
  let closed := (headOf f.a ++ headOf f.b).filter fun q => !kept.contains q
  let st' := redStep r f e st
  let releases := !st'.openA && !st'.openB && (redCut f e st).isNone
  let base := baseNeed .a2 .rk f
  { base with
    heads := opened, deq := base.deq.filter fun q => !closed.contains q,
    outs := if releases ∧ 8 ≤ f.dst.toNat ∧ (f.dst.toNat ≤ 11 ∨ f.dst.toNat = 14) then [] else base.outs,
    empties := if releases ∧ 8 ≤ f.dst.toNat ∧ (f.dst.toNat ≤ 11 ∨ f.dst.toNat = 14) then base.outs else [] }

/-- The result and flag of a release (R132, R135): the seed, if any, is folded last. -/
def redRelease (r : Red) (f : FOp) (e : Elem) (st : SlotSt) : Token × Bool :=
  let seed : Option W40 :=
    if f.a.toNat < 12 then some (e.operand f.a).data else if f.b.toNat < 12 then some (e.operand f.b).data else none
  let w := match seed with | some v => redFold r st.acc v | none => (st.acc, false)
  let ovf := st.ovf || w.2
  match st.flt with
  | some t => (t, false)
  | none =>
    (dataTok w.1, match r with | .radd => ovf | .rfadd => f40Special w.1 | .rmax | .rfmax => st.seen)

/-- A firing of a reduction slot (R135, R136). -/
def fireRed (r : Red) (f : FOp) (s : State) : State :=
  let st := s.cur.slotOf s.curSlot (redStart r f)
  s.fire f (redNeed r f s.cur st) fun e =>
    let st' := redStep r f e st
    if let some c := redCut f e st then { e := e, toks := [e.operand c], dsts := [f.dst], flag := none }
    else if st'.openA || st'.openB then { e := { e with slotSt := Tab.put e.slotSt s.curSlot st' }, flag := none }
    else
      let w := redRelease r f e st'
      { e := { e with slotSt := Tab.put e.slotSt s.curSlot (redStart r f) },
        toks := w.1 :: (match st'.mkr with | some m => [m] | none => []), dsts := [f.dst], flag := some w.2 }

/-- RADD (R132 to R136). -/
def execRadd (f : FOp) (s : State) : Out' :=
  .next (fireRed .radd f s)

/-- RFADD (R132 to R136). -/
def execRfadd (f : FOp) (s : State) : Out' :=
  .next (fireRed .rfadd f s)

/-- RMAX (R132 to R136). -/
def execRmax (f : FOp) (s : State) : Out' :=
  .next (fireRed .rmax f s)

/-- RFMAX (R132 to R136). -/
def execRfmax (f : FOp) (s : State) : Out' :=
  .next (fireRed .rfmax f s)

/-- The logic function of a code (R92, R137). -/
def logicFn (code : Nat) (a b : Bool) : Bool :=
  match code with
  | 0 => a && b
  | 1 => a || b
  | 2 => xor a b
  | 3 => a && !b
  | 4 => !(a && b)
  | 5 => !(a || b)
  | 6 => !(xor a b)
  | _ => a || !b

/-- PLOG (R137). -/
def execPlog (f : FOp) (s : State) : Out' :=
  .next (s.fire f (baseNeed .pp .lf f) fun e =>
    { e := e, flag := some (logicFn f.x.toNat (e.pred f.a.toNat) (e.pred f.b.toNat)) })

/-- PSEND (R138). -/
def execPsend (f : FOp) (s : State) : Out' :=
  .next (s.fire f (baseNeed .pq .pi f) fun e =>
    let p := e.pred f.x.toNat
    Fire.one e f (dataTok (if p then 1 else 0), p))

/-- CNT (R139). -/
def execCnt (f : FOp) (s : State) : Out' :=
  .next (s.fire f (baseNeed .a1 .z f) fun e =>
    let t := e.operand f.a
    let st := e.slotOf s.curSlot {}
    let put (n : W32) : Elem := { e with slotSt := Tab.put e.slotSt s.curSlot { st with count := n } }
    if t.isData then { e := put (st.count + 1), flag := none }
    else if t.isHole then { e := e, flag := none }
    else if t.isEod then
      { e := put 0, toks := [dataTok (intField st.count)], dsts := [f.dst], flag := some (decide (st.count ≠ 0)) }
    else { e := e, toks := [t], dsts := [f.dst], flag := some false })

/-- NOP (R140). -/
def execNop (f : FOp) (s : State) : Out' :=
  .next (s.fire f (baseNeed .n0 .z f) fun e => { e := e })

/-- HALT (R141). -/
def execHalt (f : FOp) (s : State) : Out' :=
  .next (s.fire f (baseNeed .n0 .z f) fun e => { e := { e with halted := true } })

/-- The event record of EVT (R142). -/
def evtRecord (site slot : Nat) (code : BitVec 3) (t : Token) : W64 :=
  0#6 ++ BitVec.ofNat 6 site ++ BitVec.ofNat 4 slot ++ 0#1 ++ code ++ t.tag ++ t.data

/-- The needs of EVT (R142): the reeve's event queue held fewer than 32 records at the start of the cycle, after the records
posted earlier in it. -/
def evtNeed (f : FOp) (k : Core) : Need :=
  { baseNeed .n1 .ev f with held := decide (32 ≤ k.evq.length + k.evPopped) }

/-- EVT (R142): one event record to the reeve of the hamlet. -/
def execEvt (f : FOp) (s : State) : Out' :=
  let k := (s.ham s.curH).reeve
  let n := evtNeed f k
  if s.slotReady n then
    let t := s.cur.operand f.a
    let s1 := s.fire f n fun e => { e := e }
    let k1 := (s1.ham s.curH).reeve
    .next (s1.setCore (.reeve s.curH) { k1 with evq := k1.evq ++ [evtRecord s.curSite s.curSlot f.x t], evFresh := k1.evFresh + 1 })
  else .next s

end Sys2Proof.Machine
end

