-- ==== Sys2Proof/Machine/Formats.lean ====
section
/-! DEFINITION. The storage formats: their layouts, their values on load and their codes on store (R65 to R85). -/
namespace Sys2Proof

/-- The layout of a float format: exponent bits, mantissa bits, bias (R67). -/
structure FloatFmt where
  e : Nat
  m : Nat
  bias : Nat
  /-- has an infinity code -/
  inf : Bool
  /-- has NaN codes -/
  nan : Bool
  deriving DecidableEq, Repr

/-- The layout of a float format id; ids 12 to 16, 18 and 19 name the layout of their elements (R65, R67, R70, R71). -/
def floatFmt (id : Nat) : Option FloatFmt :=
  match id with
  | 0 | 12 => some ⟨2, 1, 1, false, false⟩
  | 1 | 13 => some ⟨2, 3, 1, false, false⟩
  | 2 | 14 => some ⟨3, 2, 3, false, false⟩
  | 3 | 18 | 19 => some ⟨4, 3, 7, false, true⟩
  | 15 => some ⟨4, 3, 7, false, false⟩
  | 4 | 16 => some ⟨5, 2, 15, true, true⟩
  | 9 | 23 => some ⟨8, 7, 127, true, true⟩
  | 10 => some ⟨5, 10, 15, true, true⟩
  | 11 => some ⟨8, 10, 127, true, true⟩
  | 20 => some ⟨8, 23, 127, true, true⟩
  | _ => none

/-- The element bits of a format id, its container where it has one (R65). -/
def fmtBits (id : Nat) : Nat :=
  match id with
  | 0 | 5 | 6 | 12 => 4
  | 1 | 2 | 13 | 14 => 6
  | 9 | 10 | 22 | 23 => 16
  | 11 | 20 | 21 => 32
  | 24 => 64
  | _ => 8
/-- An integer format (R65). -/
def fmtInt (id : Nat) : Bool := decide (id = 5 ∨ id = 6 ∨ id = 7 ∨ id = 8 ∨ id = 21 ∨ id = 22)
/-- An integer format without sign (R68). -/
def fmtUnsigned (id : Nat) : Bool := decide (id = 6 ∨ id = 8)
/-- An MX format (R70). -/
def fmtMx (id : Nat) : Bool := decide (12 ≤ id ∧ id ≤ 17)
/-- A format stored in units with a header (R71). -/
def fmtUnit (id : Nat) : Bool := decide (id = 18 ∨ id = 19)
/-- The elements of a unit (R71). -/
def unitLen (id : Nat) : Nat := if id = 18 then 128 else 16384

/-- The largest finite magnitude of a float format as significand and exponent (R67). -/
def FloatFmt.top (f : FloatFmt) (e4m3 : Bool) : Nat × Int :=
  if f.inf then (2 ^ (f.m + 1) - 1, (2 ^ f.e - 2 : Int) - f.bias - f.m)
  else (if e4m3 then 2 ^ (f.m + 1) - 2 else 2 ^ (f.m + 1) - 1, (2 ^ f.e - 1 : Int) - f.bias - f.m)

/-- The value of a code under a layout (R67); `ext` says the all-ones exponent codes are special (infinity and NaN), `e4m3`
that S.1111.111 is NaN. -/
def FloatFmt.value (f : FloatFmt) (code : Nat) : FVal :=
  let s := decide (code / 2 ^ (f.e + f.m) % 2 = 1)
  let ex := code / 2 ^ f.m % 2 ^ f.e
  let fr := code % 2 ^ f.m
  if f.inf && decide (ex = 2 ^ f.e - 1) then (if fr = 0 then .inf s else .nan)
  else if f.nan && !f.inf && decide (ex = 2 ^ f.e - 1 ∧ fr = 2 ^ f.m - 1) then .nan
  else if ex = 0 then .fin s fr (1 - (f.bias : Int) - f.m)
  else .fin s (2 ^ f.m + fr) ((ex : Int) - f.bias - f.m)

/-- The layouts whose largest magnitude leaves out the all-ones code: E4M3, whose NaN it is, and the MX elements and unit
elements of the same layout. -/
def isE4m3 (id : Nat) : Bool := decide (id = 3 ∨ id = 15 ∨ id = 18 ∨ id = 19)

/-- The value of an element's code for a float format without its scale; FP19 is read from bits [31:13] (R67, R70, R71). -/
def elemValue (id code : Nat) : FVal :=
  if id = 17 then
    let k := (BitVec.ofNat 8 code).toInt
    .fin (decide (k < 0)) k.natAbs (-6)
  else
    match floatFmt id with
    | some f => if id = 15 then ({ f with nan := true } : FloatFmt).value code else f.value (if id = 11 then code / 2 ^ 13 else code)
    | none => .nan

/-- A store rounding mode (R73). -/
inductive StMode where
  | rne | rtz | satrne | dither
  deriving DecidableEq, Repr

/-- The store rounding mode of a code (R73). -/
def StMode.ofCode (x : Nat) : StMode :=
  match x with
  | 0 => .rne
  | 1 => .rtz
  | 2 => .satrne
  | _ => .dither

/-- The bit pattern P(v) of the dither matrix (R81). -/
def ditherP (v : Nat) : Nat := 64 * (v % 2) + 16 * (v / 2 % 2) + 4 * (v / 4 % 2) + v / 8 % 2
/-- The dither matrix D[y][x] (R81). -/
def ditherD (y x : Nat) : Nat := 2 * ditherP ((x ^^^ y) % 16) + ditherP (y % 16)
/-- The threshold at a row, phase and column (R79). -/
def ditherT (row phase col : Nat) : Nat := ditherD ((row + phase) % 16) (col % 16)

/-- A magnitude m × 2^e in units of 2^g, rounded by a store mode with threshold t (R73, R74, R79). -/
def storeGrid (mode : StMode) (t m : Nat) (e g : Int) : Nat :=
  match mode with
  | .rne | .satrne => (roundGrid .rne false m e g).1
  | .rtz => (roundGrid .rtz false m e g).1
  | .dither => ((roundGrid .rtz false m e (g - 8)).1 + t) / 256

/-- A stored element: its code, and the events sat and ufl (R75 to R78). -/
structure Stored where
  code : Nat
  sat : Bool := false
  ufl : Bool := false
  deriving DecidableEq, Repr

/-- A value stored into a float layout (R74, R75, R77). `clamp` is a target whose overflow clamps whatever the mode. -/
def FloatFmt.store (f : FloatFmt) (e4m3 clamp : Bool) (mode : StMode) (t : Nat) (v : FVal) : Stored :=
  let sgn (s : Bool) : Nat := if s then 2 ^ (f.e + f.m) else 0
  let big := f.top e4m3
  let topCode := if f.inf then (2 ^ f.e - 1) * 2 ^ f.m - 1 else if e4m3 then 2 ^ (f.e + f.m) - 2 else 2 ^ (f.e + f.m) - 1
  let infCode := (2 ^ f.e - 1) * 2 ^ f.m
  let nanCode := if f.inf then infCode + 2 ^ (f.m - 1) else 2 ^ (f.e + f.m) - 1
  match v with
  | .nan => if f.nan && !clamp then { code := nanCode } else { code := 0, sat := true }
  | .inf s =>
    if f.inf && !clamp then { code := sgn s + infCode }
    else if f.nan && !clamp then { code := sgn s + nanCode, sat := true }
    else { code := sgn s + topCode, sat := true }
  | .fin s m e =>
    if m = 0 then { code := sgn s }
    else
      let top : Int := e + bitLen m - 1
      let emin : Int := 1 - (f.bias : Int)
      let g : Int := (if top < emin then emin else top) - f.m
      let n := storeGrid mode t m e g
      -- a carry into the next binade
      let n' := if n = 2 ^ (f.m + 1) then 2 ^ f.m else n
      let g' := if n = 2 ^ (f.m + 1) then g + 1 else g
      let tooBig := decide (big.2 < g') || (decide (g' = big.2) && decide (big.1 < n'))
      if tooBig then
        if clamp || decide (mode ≠ .rne) then { code := sgn s + topCode, sat := true }
        else if f.inf then { code := sgn s + infCode, sat := true }
        else if f.nan then { code := sgn s + nanCode, sat := true }
        else { code := sgn s + topCode, sat := true }
      else if n' = 0 then { code := sgn s, ufl := true }
      else if n' < 2 ^ f.m then { code := sgn s + n' }
      else { code := sgn s + (g' + f.m + f.bias).toNat * 2 ^ f.m + (n' - 2 ^ f.m) }

/-- The bounds of an integer format (R68). -/
def intBounds (id : Nat) : Int × Int :=
  match id with
  | 5 => (-8, 7)
  | 6 => (0, 15)
  | 7 => (-128, 127)
  | 8 => (0, 255)
  | 22 => (-32768, 32767)
  | _ => (-2147483648, 2147483647)

/-- An integer stored into an integer format (R76): replaced by the nearest bound outside its range; a negative value that becomes the 0
of an unsigned format raises ufl as well (R77). -/
def storeInt (id : Nat) (n : Int) : Stored :=
  let b := intBounds id
  let w := 2 ^ fmtBits id
  if n < b.1 then { code := (b.1 % (w : Int)).toNat, sat := true, ufl := decide (b.1 = 0) }
  else if b.2 < n then { code := b.2.toNat, sat := true }
  else { code := (n % (w : Int)).toNat }

/-- A float value stored into an integer format, whose ulp is 1 (R74 to R77). A negative value stored into an unsigned format raises sat
even where it rounds to 0; any non-zero value whose code is 0 raises ufl. -/
def storeFloatInt (id : Nat) (mode : StMode) (t : Nat) (v : FVal) : Stored :=
  match v with
  | .nan => { code := 0, sat := true }
  | .inf s => { storeInt id (if s then (intBounds id).1 else (intBounds id).2) with sat := true, ufl := s && decide ((intBounds id).1 = 0) }
  | .fin s m e =>
    let n := storeGrid mode t m e 0
    let r := storeInt id (if s then -(n : Int) else n)
    { r with
      sat := r.sat || (s && decide (m ≠ 0) && decide ((intBounds id).1 = 0))
      ufl := decide (m ≠ 0) && decide (r.code = 0) }

/-- A value stored into a float format, no scale applied: ids 0 to 4, 9 to 11, 20, 23, and the E4M3 elements of units
(R73 to R77). FP19 stands in bits [31:13] of its container. -/
def storeFloat (id : Nat) (mode : StMode) (t : Nat) (v : FVal) : Stored :=
  match floatFmt id with
  | none => { code := 0 }
  | some f =>
    let r := f.store (isE4m3 id) false mode t v
    if id = 11 then { r with code := r.code * 2 ^ 13 } else r

/-- A quotient stored as an MX element: overflow clamps whatever the mode (R75, R82). An MXINT8 element is k × 2^−6. -/
def storeMxElem (id : Nat) (mode : StMode) (t : Nat) (v : FVal) : Stored :=
  if id = 17 then
    match v with
    | .nan => { code := 0, sat := true }
    | .inf s => { code := if s then 0x80 else 0x7F, sat := true }
    | .fin s m e =>
      let n := storeGrid mode t m e (-6)
      let r := storeInt 7 (if s then -(n : Int) else n)
      { r with ufl := decide (m ≠ 0) && decide (n = 0) }
  else
    match floatFmt id with
    | none => { code := 0 }
    | some f => f.store (isE4m3 id) true mode t v

/-- The largest exponent of an MX element format (R82). -/
def mxEmax (id : Nat) : Int :=
  match id with
  | 14 => 4
  | 15 => 8
  | 16 => 15
  | 17 => 0
  | _ => 2

/-- floor(log2 |v|) of a finite non-zero value. -/
def floorLog2 (m : Nat) (e : Int) : Int := e + bitLen m - 1

/-- The scale code of an MX block, and whether its elements are written as code 0 (R82). -/
def mxScale (id : Nat) (vs : List FVal) : Nat × Bool :=
  if vs.any fun v => (match v with | .fin _ _ _ => false | _ => true) then (0xFF, true)
  else
    let logs := vs.filterMap fun v => match v with | .fin _ m e => if m = 0 then none else some (floorLog2 m e) | _ => none
    match logs with
    | [] => (0, false)
    | x :: r =>
      let k := r.foldl (fun (a b : Int) => if a < b then b else a) x - mxEmax id
      let k' := if k < -127 then -127 else if 127 < k then 127 else k
      ((k' + 127).toNat, false)

/-- The elements of an MX block with their events, under a scale code (R82); each value comes with its threshold. In a block of scale 0xFF
every element is written as code 0, and its NaNs and infinities raise sat (R75). Whether its finite non-zero elements raise ufl (R77) the
spec leaves open: the whole block reads as NaN, and the model raises nothing for them (DESIGN CHOICE, log entry 16). -/
def mxElems (id scale : Nat) (zero : Bool) (mode : StMode) (vs : List (FVal × Nat)) : List Stored :=
  if zero then vs.map fun p => { code := 0, sat := match p.1 with | .fin _ _ _ => false | _ => true }
  else vs.map fun p => storeMxElem id mode p.2 (p.1.scale (127 - (scale : Int)))

/-- A quotient of two finite values, as a value that rounds alike (R84). -/
def FVal.quot (x y : FVal) : FVal :=
  match x, y with
  | .fin s m e, .fin t n f =>
    if n = 0 then .nan
    else if m = 0 then .fin (s != t) 0 0
    else
      let k := bitLen n + 60
      sticky (decide (m * 2 ^ k % n ≠ 0)) (s != t) (m * 2 ^ k / n) (e - f - k)
  | _, _ => .nan

/-- The scale that SDRAIN forms for a row of id 18 (R84): amax / 448 rounded up to FP32, or 1.0. -/
def rowScale (vs : List FVal) : W32 :=
  let fin := vs.filterMap fun v => match v with | .fin _ m e => if m = 0 then none else some (FVal.fin false m e) | _ => none
  match fin with
  | [] => 0x3F800000
  | x :: r =>
    let amax := r.foldl (fun (a b : FVal) => if a.lt b then b else a) x
    f32Round .rup (amax.quot (.fin false 448 0))

/-- The value of a unit element under its scale (R71). -/
def unitValue (scale : W32) (code : Nat) : FVal :=
  match f32Val scale with
  | .fin s m e => (elemValue 18 code).mul (.fin s m e)
  | _ => .nan

/-- The value of an MX element under its scale code (R70). -/
def mxValue (id scale code : Nat) : FVal :=
  if scale = 0xFF then .nan else (elemValue id code).scale ((scale : Int) - 127)

/-- The element bits of a code as the 32-bit integer of an integer format (R72). -/
def intOfCode (id code : Nat) : W32 :=
  match id with
  | 5 => (BitVec.ofNat 4 code).signExtend 32
  | 7 => (BitVec.ofNat 8 code).signExtend 32
  | 22 => (BitVec.ofNat 16 code).signExtend 32
  | _ => BitVec.ofNat 32 code

end Sys2Proof
end

