-- ==== Sys2Proof/Machine/Memory.lean ====
section
/-! DEFINITION. Physical memory: the address map (R262), who may access what (R263, R268, R271, R273, R291), the waits of an
access (R270, R380, R381), and accesses by agents. -/
namespace Sys2Proof.Machine
open Sys2Proof

/-- What a physical address names (R262). -/
inductive Place where
  | hbm
  | store
  | granary (q off : Nat)
  | green (h off : Nat)
  | status (q off : Nat)
  | mgmt
  | pcie (port : Nat)
  | ualink (d off : Nat)
  | unmapped
  deriving DecidableEq, Repr

/-- The base of the granary. -/
def granaryBase : Nat := 0x10000000000
/-- The base of the green window (R263). -/
def greenBase : Nat := 0x20000000000
/-- The base of the granary status pages (R271). -/
def statusBase : Nat := 0x30000000000
/-- The base of the management registers (R378). -/
def mgmtBase : Nat := 0x30000008000
/-- The base of the beadle's firmware store (R256). -/
def storeBase : Nat := 0xFF00000000

/-- The row of the map that names an address (R262). -/
def placeOf (pa : Nat) : Place :=
  if pa < 0x8000000000 then .hbm
  else if pa < storeBase then .unmapped
  else if pa < 0xFF01000000 then .store
  else if pa < granaryBase then .unmapped
  else if pa < 0x10100000000 then .granary ((pa - granaryBase) / 0x20000000) ((pa - granaryBase) % 0x20000000)
  else if pa < greenBase then .unmapped
  else if pa < 0x20020000000 then .green ((pa - greenBase) / 0x200000) ((pa - greenBase) % 0x200000)
  else if pa < statusBase then .unmapped
  else if pa < mgmtBase then .status ((pa - statusBase) / 0x1000) ((pa - statusBase) % 0x1000)
  else if pa < 0x40000000000 then .mgmt
  else if pa < 0x80000000000 then .pcie ((pa - 0x40000000000) / 0x10000000000)
  else if pa < 0x10000000000000 then .unmapped
  else if pa < 0x11200000000000 then .ualink ((pa - 0x10000000000000) / 0x10000000000) ((pa - 0x10000000000000) % 0x10000000000)
  else .unmapped

/-- The window address of a green offset (R263). -/
def greenPa (h off : Nat) : Nat := greenBase + h * 0x200000 + off

/-- The outcome of an access: done, still waiting, or refused with an error response that has been logged. -/
inductive MemRes (α : Type) where
  | ok (v : α) (s : State)
  | wait (s : State)
  | err (s : State)

/-- The value of a memory answer changed. -/
def MemRes.map {α β : Type} (r : MemRes α) (f : α → β) : MemRes β :=
  match r with
  | .ok v s => .ok (f v) s
  | .wait s => .wait s
  | .err s => .err s

/-- The log record of a refused access: error kind 1, or 2 for an unmapped address, and 10 for a posted store (R238, R394). -/
def refuseLog (a : Agent) (pa kind : Nat) : LogRec :=
  { addr := pa, kind := if a.posted then 10 else kind, agent := a.code, ctx := a.ctx, ham := a.ham.getD 0, site := a.site }

/-- The bank of a green offset (R146). -/
def bankOf (off : Nat) : Nat := off / 0x20000

/-- The parish block of a hamlet. -/
def State.parish (s : State) (p : Nat) : Parish := Tab.get s.parishes {} p
/-- The state with a parish block replaced. -/
def State.setParish (s : State) (p : Nat) (x : Parish) : State := { s with parishes := Tab.put s.parishes p x }
/-- The granary quadrant q. -/
def State.quad (s : State) (q : Nat) : Quad := Tab.get s.quads {} q
/-- The state with a quadrant replaced. -/
def State.setQuad (s : State) (q : Nat) (x : Quad) : State := { s with quads := Tab.put s.quads q x }
/-- Greens refuse access while the parish is gated: its rail is off, or it is in state 2 with bit 2 acknowledged, or in
states 3 to 6 (R384). -/
def State.greenGated (s : State) (h : Nat) : Bool :=
  let p := s.parish (parishOf h)
  !(s.ham h).powered || decide (3 ≤ p.st) || (decide (p.st = 2) && p.ack.getLsbD 2)

/-- A range of green offsets meets the held-write buffer (R273). -/
def Hamlet.inHeld (x : Hamlet) (off n : Nat) : Bool :=
  match x.heldSpan with
  | none => false
  | some (b, e) => decide (off < e ∧ b < off + n)

/-- Two hamlets belong to one region. -/
def State.sameRegion (s : State) (h h' : Nat) : Bool :=
  decide (h = h') || (match (s.ham h).region, (s.ham h').region with
    | some f, some g => decide (f = g)
    | _, _ => false)

/-- A hamlet belongs to an armed held-mode region (R298). -/
def State.heldMode (s : State) (h : Nat) : Bool :=
  match s.regionOf h with
  | some (_, r) => decide (r.st = .armed) && !r.free && r.fallow.isNone
  | none => false

/-- An access by an agent to the green of a hamlet is refused: the green is held by another context, gated, or in a
held-write buffer, or a write or atomic from outside a held-mode region (R149, R263, R273, R291). -/
def State.greenRefused (s : State) (a : Agent) (h off n : Nat) (write : Bool) : Bool :=
  (match a.ctx, (s.ham h).ctx with
    | some c, some c' => decide (c ≠ c')
    | _, _ => false) ||
  s.greenGated h || (s.ham h).inHeld off n ||
  (write && s.heldMode h && !(match a.ham with | some h' => s.sameRegion h' h | none => false))

/-- Any region is armed, or being armed, in a hamlet of the quadrant (R268). -/
def State.sealed (s : State) (q : Nat) : Bool :=
  ((s.quad q).sealing.any fun f => decide ((s.region f).st = .loaded)) ||
  (List.range 32).any fun i =>
    match s.regionOf (32 * q + i) with
    | some (_, r) => decide (r.st = .armed)
    | none => false

/-- The granary bank group of a quadrant offset (R269). -/
def groupOf (off : Nat) : Nat := off / 0x8000000

/-- The budget of a fabric agent's parish, charged 32 bytes for each sector outside the greens (R381). A request waits until the budget
left covers all its sectors; one that no whole budget covers goes on with a whole budget, and what it uses beyond that is charged to the
intervals that follow. -/
def State.admitBudget (s : State) (a : Agent) (pa n : Nat) : Bool × State :=
  match a.ham with
  | none => (true, s)
  | some h =>
    let p := s.parish (parishOf h)
    let cost := 32 * sectorsOf pa n
    let g := gate p.waiters a.key (decide (p.left < Nat.min cost p.b))
    if g.1 then
      (true, s.setParish (parishOf h) { p with left := p.left - cost, debt := p.debt + (cost - p.left), waiters := g.2, served := true })
    else (false, s.setParish (parishOf h) { p with waiters := g.2, waited := true })

/-- A counter of 32 bits that stops at its top. -/
def sat32 (v : W32) (n : Nat) : W32 := BitVec.ofNat 32 (Nat.min (v.toNat + n) 0xFFFFFFFF)

/-- The refresh window of a granary bank group (R270): an access to the group of the open window waits, and those waiting
are performed in arrival order once it closes; one that comes when it is closed has no such wait. A stream whose access waits goes on: in each
cycle of the window the next two of the sectors behind it, as its port brings them (R172), take their places. -/
def State.admitRefresh (s : State) (a : Agent) (q off n : Nat) : Bool × State :=
  let x := s.quad q
  let key := 4 * a.key + groupOf off
  let places := (x.waiters.filter fun w => decide (w = key)).length
  let ahead := (x.waiters.takeWhile fun w => decide (w ≠ key)).filter fun w => decide (w % 4 = groupOf off)
  if x.openG = some (groupOf off) then
    let new := if places = 0 then 1 + Nat.min 1 a.more else Nat.min 2 (1 + a.more - places)
    (false, s.setQuad q { x with
      waiters := x.waiters ++ List.replicate new key
      delayed := sat32 x.delayed (if places = 0 then sectorsOf off n + Nat.min 1 a.more else new) })
  else if places = 0 then (true, s)
  else if ahead.isEmpty then (true, s.setQuad q { x with waiters := x.waiters.erase key, served := true })
  else (false, s)

/-- Bytes charged to the budget of a hamlet's parish that did not wait for it (R334, R381). -/
def State.chargeBytes (s : State) (h pa n : Nat) : State :=
  let p := s.parish (parishOf h)
  let cost := 32 * sectorsOf pa n
  s.setParish (parishOf h) { p with left := p.left - cost, debt := p.debt + (cost - p.left) }

/-- A request that its home would serve, but that has no budget, keeps its place there. -/
def State.keepPlace (s : State) (pa : Nat) : State :=
  match placeOf pa with
  | .hbm => s.setStack (stackOf pa) { s.stack (stackOf pa) with served := true }
  | .granary q _ => s.setQuad q { s.quad q with served := true }
  | _ => s

/-- The waits of an access outside the greens: the rate cap or the refresh window of its home, and its parish's budget. -/
def State.letIn (s : State) (a : Agent) (pa n : Nat) : Bool × State :=
  let blockedHome : Bool × State :=
    match placeOf pa with
    | .hbm => s.admitStack a pa n
    | .granary q off => s.admitRefresh a q off n
    | _ => (true, s)
  if blockedHome.1 then
    let b := blockedHome.2.admitBudget a pa n
    if b.1 then (true, b.2) else (false, (s.admitBudget a pa n).2.keepPlace pa)
  else (false, blockedHome.2)

/-- The 64 bytes of a granary status page (R271). -/
def State.statusPage (s : State) (q : Nat) : List Byte :=
  let x := s.quad q
  let st := x.group % 4 + (if x.hot then 4 else 0) + (if s.sealed q then 8 else 0) +
    (match x.openG with | some g => 16 + 32 * g | none => 0)
  leBytes 8 x.next ++ leBytes 1 st ++ leBytes 7 0 ++ leBytes 4 x.delayed.toNat ++ leBytes 4 x.waitCyc.toNat ++
  leBytes 4 x.refused.toNat ++ leBytes 36 0

/-- A region no longer waits to be armed: its wait seals its quadrant no more (R268, R297). -/
def State.unseal (s : State) (first : Nat) : State :=
  let q := quadOf first
  if (s.quad q).sealing.contains first then s.setQuad q { s.quad q with sealing := (s.quad q).sealing.erase first } else s

/-- The UALink port that serves a peer physical address: the port of its sector, or the next live port (R405). -/
def State.ualinkPort (s : State) (ppa : Nat) : Option Nat :=
  ((List.range 18).map fun i => (ppa / 32 + i) % 18).find? fun i => !s.ualDown.contains i

/-- The peer physical address of a window offset; none above the windows (R405). -/
def peerPa (off : Nat) : Option Nat :=
  if off < 0x8000000000 then some off
  else if off < 0x8020000000 then some (greenBase + (off - 0x8000000000)) else none

/-- Whether a UALink access has a way: not the device's own LINKID, a routed peer, a live port (R405). -/
def State.ualinkOk (s : State) (d off : Nat) : Option Nat :=
  match peerPa off with
  | none => none
  | some ppa =>
    if d = (s.boot.linkId.extractLsb' 0 9).toNat ∨ Config.ualinkRoute d = false then none else s.ualinkPort ppa

/-! ### The shadow layer's lines (R355, R386, R388) -/

/-- Shadow slot n of a hamlet. -/
def Hamlet.slot (x : Hamlet) (n : Nat) : ShSlot := Tab.get x.slots {} n
/-- The hamlet with a shadow slot replaced. -/
def Hamlet.setSlot (x : Hamlet) (n : Nat) (y : ShSlot) : Hamlet := { x with slots := Tab.put x.slots n y }
/-- The array log's entry for a line of a slot (R393, R394). -/
def slotRec (h : Nat) (y : ShSlot) (kind detail extra : Nat) : LogRec :=
  { kind := kind, ctx := some y.ctx, ham := h, detail := detail, extra := extra }
/-- Lines of a slot from `lo` on, n of them, are read: a cell that has failed is corrected and logged, a line that cannot be corrected is
logged (R386, R388). -/
def State.readLines (s : State) (h k lo n : Nat) : State :=
  let y := (s.ham h).slot k
  let hit (l : Nat) : Bool := decide (lo ≤ l ∧ l < lo + n)
  let s1 := s.setHam h ((s.ham h).setSlot k { y with weak := y.weak.filter fun l => !hit l.1 })
  let s2 := (y.weak.filter fun l => hit l.1).foldl (fun (t : State) l => t.logIn .array (slotRec h y 1 l.2 0)) s1
  match y.bad with
  | some l => if hit l then s2.logIn .array (slotRec h y 4 k l) else s2
  | none => s2
/-- The lines of a slot: 256 bytes each (R355, R386). -/
def slotLines : Nat := 14336

/-- The slot whose bank holds the newest completed cut, with its number (R291). -/
def Hamlet.cutBank (x : Hamlet) : Option (Nat × ShSlot) :=
  x.slots.find? fun p => (match p.2.use with | .bank _ => true | _ => false) && p.2.snap.hdr.valid && decide (p.2.snap.hdr.seq + 1 = x.cutSeq)
/-- The content of a green line range as the newest completed cut recorded it (R291). -/
def Hamlet.cutBytes (x : Hamlet) (off n : Nat) : List Byte :=
  match x.cutBank with
  | some p => (List.range n).map fun i => Tab.get p.2.snap.green 0 (off + i)
  | none => (List.range n).map fun _ => 0

/-- A reader from outside that waits for the next completed cut of a hamlet's region: whether one has completed since it came, with its wait
noted, or over (R291). -/
def State.cutAwaited (s : State) (key h : Nat) : Bool × State :=
  let x := s.ham h
  match x.readers.find? fun p => p.1 = key with
  | none => (false, s.setHam h { x with readers := Tab.put x.readers key x.cutSeq })
  | some p => if x.cutSeq ≤ p.2 then (false, s) else (true, s.setHam h { x with readers := Tab.del x.readers key })
/-- The content of greens as the newest completed cut recorded it, from the lines of its bank (R291, R386, R388). -/
def State.cutRead (s : State) (h off n : Nat) : MemRes (List Byte) :=
  let x := s.ham h
  match x.cutBank with
  | none => .ok (x.cutBytes off n) s
  | some b =>
    let u := s.readLines h b.1 (off / 256) ((off + n - 1) / 256 - off / 256 + 1)
    if b.2.bad.any fun l => decide (off / 256 ≤ l ∧ l ≤ (off + n - 1) / 256) then .err u else .ok (x.cutBytes off n) u
/-- A read by an agent outside a held-mode region from its greens: it waits for the next completed cut and takes the content
as that cut recorded it (R291). -/
def State.heldRead (s : State) (a : Agent) (h off n : Nat) : MemRes (List Byte) :=
  let w := s.cutAwaited a.key h
  if w.1 then w.2.cutRead h off n else .wait w.2

/-! ### Errors of the arrays and of the vertical bus (R386, R389 to R391) -/

/-- A read of the arrays: what can be corrected is delivered and written back corrected; an uncorrectable sector answers with an error
response (R386). -/
def State.arrayRead (s : State) (a : Agent) (pa n : Nat) : MemRes (List Byte) :=
  let hit := s.eccOf pa n
  let t := (s.corrected hit).logCells a hit
  if anyLost hit then .err t else .ok (t.mem.readBytes pa n) t
/-- A write of the arrays: a partial write of an uncorrectable sector gets an error response (R389), which a posted store logs (R238). -/
def State.arrayWrite (s : State) (a : Agent) (pa n : Nat) (cells : List (Nat × Byte)) : MemRes Unit :=
  let w := s.putArray pa n cells
  let t := w.2.logCells a w.1
  if anyLost w.1 then .err (if a.posted then t.logErr (refuseLog a pa 10) else t) else .ok () t

/-- The first attempt of a transfer that is clean, of at most four (R391). -/
def cleanAttempt (bad : List (List Nat)) : Option Nat := (List.range 4).find? fun i => (bad.getD i []).isEmpty

/-- Bits of a bus log's detail: lane, group and attempts (R394). -/
def busDetail (lane group attempts : Nat) : Nat := lane % 64 + 64 * (group % 64) + 4096 * (attempts % 16)

/-- The lanes that failed the last attempt, each mapped to the group's next spare where it has one left; whether all were (R391). -/
def State.mapLanes (s : State) (quad group pa : Nat) : List Nat → Bool → Bool × State
  | [], all => (all, s)
  | l :: r, all =>
    let x := s.quad quad
    let used := Tab.get x.spares [] group
    if used.length < 4 then
      let s1 := (s.setQuad quad { x with spares := Tab.put x.spares group (used ++ [l]) }).logIn .bus
        { addr := pa, kind := 2, detail := busDetail l group 4, extra := used.length }
      State.mapLanes s1 quad group pa r all
    else
      State.mapLanes (s.logIn .bus { addr := pa, kind := 3, detail := busDetail l group 4, extra := quad }) quad group pa r false

/-- A transfer of a bus group, with the lanes whose parity fails in each attempt: whether it is delivered (R391). -/
def State.busSend (s : State) (quad group pa : Nat) (bad : List (List Nat)) : Bool × State :=
  match cleanAttempt bad with
  | some 0 => (true, s)
  | some i =>
    (true, s.logIn .bus { addr := pa, kind := 1, detail := busDetail ((bad.getD (i - 1) []).headD 0) group (i + 1), extra := quad })
  | none => s.mapLanes quad group pa (bad.getD 3 []) true
/-- The block of 512 bytes at a quadrant offset crosses its bus group, whose next attempts fail as State says (R390, R391). -/
def State.busBlock (s : State) (q block : Nat) : Bool × State :=
  let g := block % 64
  let bad := Tab.get (s.quad q).parity [] g
  if bad.isEmpty then (true, s)
  else
    let used := match cleanAttempt bad with | some i => i + 1 | none => 4
    (s.setQuad q { s.quad q with parity := Tab.put (s.quad q).parity g (bad.drop used) }).busSend q g (granaryBase + q * 0x20000000 + block * 512) bad
/-- An access of n bytes at a quadrant offset crosses the vertical bus: whether all of it is delivered (R390, R391). -/
def State.busCross (s : State) (q off n : Nat) : Bool × State :=
  ((List.range ((off + n - 1) / 512 - off / 512 + 1)).map fun i => off / 512 + i).foldl (fun (w : Bool × State) b =>
    let u := w.2.busBlock q b
    (w.1 && u.1, u.2)) (true, s)

/-- A write or an atomic of the granary, by an agent that may write there where the quadrant is unsealed; one accepted before the seal is
performed (R268, R297). It crosses the vertical bus (R391). -/
def State.granaryWrite {α : Type} (s : State) (a : Agent) (mayWrite : Bool) (q off pa n : Nat) (k : State → MemRes α) : MemRes α :=
  let x := s.quad q
  if !mayWrite || (s.sealed q && !x.accepted.contains a.key) then
    .err ((s.setQuad q { x with refused := sat32 x.refused 1 }).logErr (refuseLog a pa 1))
  else
    let w := s.letIn a pa n
    let y := w.2.quad q
    if w.1 then
      let b := (w.2.setQuad q { y with accepted := y.accepted.erase a.key }).busCross q off n
      if b.1 then k b.2 else .err (if a.posted then b.2.logErr (refuseLog a pa 10) else b.2)
    else if y.accepted.contains a.key then .wait w.2
    else .wait (w.2.setQuad q { y with accepted := y.accepted ++ [a.key] })

/-! ### What lies outside the package (R404 to R406) -/

/-- A request leaves the package, and its home there answers with bytes or with an error response, which is logged (R262, R405, log entry
46). -/
def State.away (s : State) (a : Agent) (pa n : Nat) (o : Out) : MemRes (List Byte) :=
  let u : State := { s with out := s.out ++ [o] }
  if Config.peerRefuses u.freeN then .err (({ u with freeN := u.freeN + 1 } : State).logErr (refuseLog a pa 1))
  else let r := u.takeOutside n; .ok r.1 r.2

/-- An Ethernet port. -/
def State.port (s : State) (p : Nat) : Eth := Tab.get s.eth {} p
/-- A BAR register of a port. -/
def Eth.reg (e : Eth) (o : Nat) : Nat := (Tab.get e.regs 0 o).toNat
/-- DOORBELL of a port: the producer index of a queue pair advances (R406). -/
def State.doorbell (s : State) (port : Nat) (v : W64) : State :=
  let e := s.port port
  { s with eth := Tab.put s.eth port { e with prod := Tab.put e.prod (v.toNat % 4096) (v.toNat / 65536 % 65536) } }
/-- What 8 bytes of a PCIe window name in the package. -/
inductive PReg where
  /-- the DMA base (false) or limit (true) of a root port, in a capability of its configuration space (R404, log entry 17) -/
  | dma (port : Nat) (limit : Bool)
  /-- the BAR of an Ethernet port, in its configuration space (R404, R406) -/
  | bar (port : Nat)
  /-- an offset in the 64 KiB of an Ethernet port's BAR (R406) -/
  | eth (port off : Nat)
  /-- what else stands in the configuration space of a function of the package -/
  | config
  deriving DecidableEq, Repr
/-- The functions of the package in the configuration space of a window, in 4 KiB each: 0 the root port, 1 and 2 its Ethernet endpoints, which
are functions 0 and 1 of device 1 on bus 0 (R404). -/
def ownFunction (o : Nat) : Option Nat :=
  if o / 4096 = 0 then some 0 else if o / 4096 = 8 then some 1 else if o / 4096 = 9 then some 2 else none
/-- The register that the 8 bytes at an address of a window name, if they lie in a function of the package or in an Ethernet port's BAR. A BAR
stands at offset 0x10 of its configuration space and holds a physical address in the memory space of the window (R404, R406; PRESUMED, the layout
of PCI's configuration header, log entry 17). -/
def State.pregAt (s : State) (pa : Nat) : Option PReg :=
  let p := pa / 0x10000000000 - 4
  let o := pa % 0x10000000000
  if o < 0x10000000 then
    match ownFunction o with
    | none => none
    | some 0 =>
      if o / 8 = Config.dmaOff false / 8 then some (.dma p false)
      else if o / 8 = Config.dmaOff true / 8 then some (.dma p true) else some .config
    | some f => if o % 4096 / 8 = 2 then some (.bar (2 * p + f - 1)) else some .config
  else
    ([2 * p, 2 * p + 1].find? fun n => decide ((s.port n).bar.toNat ≤ pa ∧ pa < (s.port n).bar.toNat + 0x10000)).map fun n =>
      .eth n ((pa - (s.port n).bar.toNat) / 8 * 8)
/-- The 8 bytes at an address of a PCIe window belong to the package. -/
def State.isPcieReg (s : State) (pa : Nat) : Bool := (s.pregAt pa).isSome
/-- The value of a register. The kind of memory that the low bits of a BAR show, whether the link is up, which CTL[1] shows, what DOORBELL
reads as, and whatever of the package the spec does not describe, are free values (R404, R406, log entry 17). -/
def State.pregRead (s : State) (r : PReg) : W64 × State :=
  match r with
  | .dma p lim => (let d := Tab.get s.dma (0, 0) p; if lim then d.2 else d.1, s)
  | .bar n => ((s.port n).bar ||| s.takeFree.1 &&& 0xF, s.takeFree.2)
  | .eth n o =>
    if o = 0 then (Tab.get (s.port n).regs 0 0 &&& 1 ||| s.takeFree.1 &&& 2, s.takeFree.2)
    else if 0x40 ≤ o then s.takeFree
    else (Tab.get (s.port n).regs 0 o, s)
  | .config => s.takeFree
/-- A value written to a register: CTL holds its enable bit, MAC its low 48 bits, and DOORBELL sets the producer index of a queue pair (R406);
the DMA window is 4 KiB granular (R404), and a BAR holds the base of its 64 KiB (R406). -/
def State.pregWrite (s : State) (r : PReg) (v : W64) : State :=
  match r with
  | .dma p lim =>
    let d := Tab.get s.dma (0, 0) p
    let x := v &&& ~~~0xFFF
    { s with dma := Tab.put s.dma p (if lim then (d.1, x) else (x, d.2)) }
  | .bar n => { s with eth := Tab.put s.eth n { s.port n with bar := v &&& ~~~0xFFFF } }
  | .eth n o =>
    let e := s.port n
    if o = 0x40 then s.doorbell n v
    else if 0x40 < o then s
    else
      let keep := if o = 0 then v &&& 1 else if o = 8 then v &&& 0xFFFFFFFFFFFF else v
      { s with eth := Tab.put s.eth n { e with regs := Tab.put e.regs o keep } }
  | .config => s
/-- The registers that n bytes at an address touch, with the addresses of their first bytes. -/
def State.pregsOf (s : State) (pa n : Nat) : List (Nat × PReg) :=
  ((List.range ((pa + n - 1) / 8 - pa / 8 + 1)).map fun i => (pa / 8 + i) * 8).filterMap fun b => (s.pregAt b).map fun r => (b, r)
/-- A read of n bytes of a PCIe window that touches registers of the package; what else it covers comes from outside. -/
def State.regRead (s : State) (pa n : Nat) : List Byte × State :=
  let o := s.takeOutside n
  (s.pregsOf pa n).foldl (fun (w : List Byte × State) b =>
    let v := w.2.pregRead b.2
    ((List.range n).map fun i => if (pa + i) / 8 * 8 = b.1 then (leBytes 8 v.1.toNat).getD ((pa + i) % 8) 0 else w.1.getD i 0, v.2)) o
/-- Cells written to registers of the package. The bytes of one that a write leaves out keep their value; those of DOORBELL are zero. -/
def State.regWrite (s : State) (pa n : Nat) (cells : List (Nat × Byte)) : State :=
  (s.pregsOf pa n).foldl (fun (t : State) b =>
    let old := match b.2 with | .eth _ 0x40 => 0 | r => (t.pregRead r).1
    let new := (List.range 8).map fun i => match cells.find? fun c => c.1 = b.1 + i with | some c => c.2 | none => (leBytes 8 old.toNat).getD i 0
    t.pregWrite b.2 (BitVec.ofNat 64 (leNat new))) s

/-- The pieces of an access at its sector boundaries: address and length (R267). -/
def splitSectors (fuel pa n : Nat) : List (Nat × Nat) :=
  match fuel with
  | 0 => []
  | k + 1 =>
    if n = 0 then []
    else
      let m := Nat.min n (32 - pa % 32)
      (pa, m) :: splitSectors k (pa + m) (n - m)

/-- The sectors of an access to a UALink peer, each sent on its own port: one with no way there gets an error response, and so does one that
the peer refuses (R405). The answers come from outside. -/
def State.ualinkSend (s : State) (a : Agent) (out : Nat → Nat → Nat → Out) (read : Bool) : List (Nat × Nat) → List Byte → MemRes (List Byte)
  | [], acc => .ok acc s
  | p :: r, acc =>
    match (match placeOf p.1 with | .ualink d off => s.ualinkOk d off | _ => none) with
    | none => .err (s.logErr (refuseLog a p.1 2))
    | some port =>
      match s.away a p.1 (if read then p.2 else 0) (out port p.1 p.2) with
      | .ok b t => State.ualinkSend t a out read r (acc ++ b)
      | .wait t => .wait t
      | .err t => .err t

/-- A read of n bytes that lie in one row of the map, by an agent (R262). -/
def State.readPhys (s : State) (a : Agent) (pa n : Nat) : MemRes (List Byte) :=
  let refuse (kind : Nat) : MemRes (List Byte) := .err (s.logErr (refuseLog a pa kind))
  match placeOf pa with
  | .unmapped => refuse 2
  | .mgmt => refuse 1
  | .store => if a.code = 7 then .ok (s.mem.readBytes pa n) s else refuse 1
  | .green h off =>
    if s.greenRefused a h off n false then refuse 1
    else if s.heldMode h && !(match a.ham with | some h' => s.sameRegion h' h | none => false) then s.heldRead a h off n
    else s.arrayRead a pa n
  | .status q off => .ok ((List.range n).map fun i => (s.statusPage q).getD (off + i) 0) s
  | .hbm =>
    let w := s.letIn a pa n
    if w.1 then w.2.arrayRead a pa n else .wait w.2
  | .granary q off =>
    let w := s.letIn a pa n
    if w.1 then
      let b := w.2.busCross q off n
      if b.1 then b.2.arrayRead a pa n else .err b.2
    else .wait w.2
  | .pcie _ =>
    let w := s.letIn a pa n
    if !w.1 then .wait w.2
    else if !(s.pregsOf pa n).isEmpty then let r := w.2.regRead pa n; .ok r.1 r.2
    else w.2.away a pa n (.read none pa n)
  | .ualink d off =>
    if (s.ualinkOk d off).isNone then refuse 2
    else
      let w := s.letIn a pa n
      if w.1 then w.2.ualinkSend a (fun port v m => .read (some port) v m) true (splitSectors (n / 32 + 2) pa n) [] else .wait w.2

/-- A masked write of cells that lie in one row of the map, starting at pa and spanning n bytes, by an agent; `copy` marks a
carter COPY, a COPY block or the beadle, which alone may write the granary (R268). -/
def State.writePhys (s : State) (a : Agent) (copy : Bool) (pa n : Nat) (cells : List (Nat × Byte)) : MemRes Unit :=
  let refuse (kind : Nat) : MemRes Unit := .err (s.logErr (refuseLog a pa kind))
  match placeOf pa with
  | .unmapped => refuse 2
  | .mgmt => refuse 1
  | .status _ _ => refuse 1
  | .store => if a.code = 7 then .ok () { s with mem := s.mem.writeCells cells } else refuse 1
  | .green h off =>
    if s.greenRefused a h off n true then refuse 1 else s.arrayWrite a pa n cells
  | .granary q off => s.granaryWrite a copy q off pa n fun t => t.arrayWrite a pa n cells
  | .hbm =>
    let w := s.letIn a pa n
    if w.1 then w.2.arrayWrite a pa n cells else .wait w.2
  | .pcie _ =>
    let w := s.letIn a pa n
    if w.1 && !(s.pregsOf pa n).isEmpty then .ok () (w.2.regWrite pa n cells)
    else if w.1 then .ok () { w.2 with out := w.2.out ++ [.pcie cells] } else .wait w.2
  | .ualink d off =>
    if (s.ualinkOk d off).isNone then refuse 2
    else
      let w := s.letIn a pa n
      let sent (port v m : Nat) : Out := .ualink port (cells.filter fun c => decide (v ≤ c.1 ∧ c.1 < v + m))
      if w.1 then (w.2.ualinkSend a sent false (splitSectors (n / 32 + 2) pa n) []).map fun _ => () else .wait w.2

/-- A write of whole bytes. -/
def State.writeBytesPhys (s : State) (a : Agent) (copy : Bool) (pa : Nat) (bytes : List Byte) : MemRes Unit :=
  s.writePhys a copy pa bytes.length (cellsAt pa bytes)

/-- The presence bit of the word at a physical address (R159). -/
def State.present (s : State) (pa : Nat) : Bool := Tab.get s.pres false (pa / 8)
/-- The state with a presence bit set or cleared. -/
def State.setPresent (s : State) (pa : Nat) (b : Bool) : State :=
  { s with pres := if b then Tab.put s.pres (pa / 8) true else Tab.del s.pres (pa / 8) }

/-! ### Writes that have to wait for a cut's record points (R361) -/

/-- A write to a green has to wait: a cut of the green's region runs, not every agent has recorded, and its issuer has, or
stands outside the region (R361). A cut that is completed as a stopped cut records all agents anew, and no write waits for it (R362). -/
def State.afterWait (s : State) (issuer : Option Nat) (recorded : Bool) (h : Nat) : Bool :=
  match s.regionOf h with
  | none => false
  | some (_, r) =>
    match r.cut with
    | none => false
    | some c => !c.stopped && (s.ham h).capG.isNone && (recorded || !(match issuer with | some g => s.sameRegion g h | none => false))

/-- An agent has recorded in the cut that runs in its region. -/
def State.agentRecorded (s : State) (a : Agent) : Bool :=
  match a.ham with
  | none => false
  | some h => match a.code with
    | 3 => (s.ham h).capR.isSome
    | 4 => (s.ham h).capC.isSome
    | _ => (s.elem h a.site).recorded
/-- A write of an agent to a physical address has to wait for the record points of a running cut (R361). -/
def State.agentAfter (s : State) (a : Agent) (pa : Nat) : Bool :=
  match placeOf pa with
  | .green g _ => s.afterWait a.ham (s.agentRecorded a) g
  | _ => false
/-- A copy of the market's channel, or a write of a chain, into a green waits while a cut of the green's region has yet to record every agent
(R361). -/
def State.channelAfter (s : State) (pa : Nat) : Bool :=
  match placeOf pa with
  | .green g _ => s.afterWait none false g
  | _ => false

/-! ### Outbound writes of a held-mode region (R274, R364) -/

/-- A physical address lies in a green of the region of hamlet h. -/
def State.inOwnGreens (s : State) (h pa : Nat) : Bool :=
  match placeOf pa with
  | .green g _ => s.sameRegion h g
  | _ => false
/-- A write of an agent of hamlet h to a physical address is outbound and has to be held (R274, R298). -/
def State.outbound (s : State) (h pa : Nat) : Bool := s.heldMode h && !s.inOwnGreens h pa

/-- The cut that covers an access made now by an agent of the region: the cut in progress if the agent has yet to record,
else the next one (R358, R364). -/
def Region.coverCut (r : Region) (recorded : Bool) : Nat :=
  match r.cut with
  | some c => if recorded then c.seq + 1 else c.seq
  | none => r.nextSeq

/-- The number of the cut that covers an access made now by an agent of a hamlet; a hamlet that holds no region is cut alone. -/
def State.coveringCut (s : State) (h : Nat) (recorded : Bool) : Nat :=
  match s.regionOf h with
  | some (_, r) => r.coverCut recorded
  | none => (s.ham h).cutSeq

/-- The region of a hamlet is asked for a cut that covers an access made now (R358): the one in progress serves if the issuer has yet
to record; else one starts now, or when the one in progress completes. A hamlet that holds no region is cut alone. -/
def State.askCut (s : State) (h : Nat) (recorded : Bool) : State :=
  match s.regionOf h with
  | some (f, r) => if r.cut.isSome && !recorded then s else s.setRegion f { r with cutAgain := true }
  | none => s

/-- The entries of the held-write buffer of a hamlet (R274). -/
def Hamlet.heldRoom (x : Hamlet) : Nat := match x.heldSpan with | some (b, e) => (e - b) / 64 | none => 0

/-- An outbound write, which occupies an entry of the buffer; a value-returning request waits for a cut instead (R274). -/
def HeldOp.isWrite (x : HeldOp) : Bool :=
  match x with
  | .write _ _ _ => true
  | .spe r => r.posted
  | .reeve _ => false
/-- The entries of the held-write buffer in use (R274). -/
def Hamlet.heldUsed (x : Hamlet) : Nat := (x.held.filter fun e => e.op.isWrite).length

/-- No entry of the held-write buffer is free (R274). -/
def Hamlet.heldFull (x : Hamlet) : Bool := decide (x.heldRoom ≤ x.heldUsed)

/-- One held entry more. An outbound write that takes the entries in use to the threshold makes the hamlet ask for a cut (R274). -/
def State.putHeld (s : State) (h : Nat) (op : HeldOp) (rel : Bool) (scope : BitVec 3) (recorded : Bool) : State :=
  let x := s.ham h
  let s1 := s.setHam h { x with
    held := x.held ++ [{ op := op, rel := rel, scope := scope, tag := s.coveringCut h recorded, idx := x.heldNext }]
    heldNext := x.heldNext + 1 }
  if op.isWrite && decide (x.heldRoom ≤ x.heldUsed + 1 + 64) then s1.askCut h recorded else s1

/-- One outbound write placed in the held-write buffer; none when the buffer is full (R274). -/
def State.hold (s : State) (h : Nat) (op : HeldOp) (rel : Bool) (scope : BitVec 3) (recorded : Bool) : Option State :=
  if (s.ham h).heldRoom ≤ (s.ham h).heldUsed then none else some (s.putHeld h op rel scope recorded)

end Sys2Proof.Machine
end

