-- ==== Sys2Proof/Machine/Translate.lean ====
section
/-! DEFINITION. Translation of virtual addresses: range entries (R340, R341), the Sv57 walk (R342 to R344), the caches (R345),
and the report of a translation fault (R349). -/
namespace Sys2Proof.Machine
open Sys2Proof

/-- The kind of an access: load, store, or atomic (R341, R350). -/
inductive Want where
  | load | store | atomic
  deriving DecidableEq, Repr

/-- The number of an access kind in an event record (R350). -/
def Want.num : Want → Nat
  | .load => 0
  | .store => 1
  | .atomic => 2
/-- The access needs R. -/
def Want.needsR (w : Want) : Bool := decide (w ≠ .store)
/-- The access needs W. -/
def Want.needsW (w : Want) : Bool := decide (w ≠ .load)

/-- The number of an agent in an event record (R350): stream, carter, reeve, market. -/
def Agent.evNum (a : Agent) : Nat :=
  match a.code with
  | 1 => 0
  | 4 => 1
  | 3 | 7 => 2
  | _ => 3

/-- The outcome of a translation: a physical address, a fault with its code (R152), a wait for a page table read, or an error
response to one. -/
inductive XRes where
  | ok (pa : Nat) (s : State)
  | fault (code : Nat) (s : State)
  | wait (s : State)
  | err (s : State)

/-- The range entry of a context's descriptor as the market read it last (R338, R340); none behind its range count. -/
def State.rangeRead (s : State) (a : Agent) (c r : Nat) : Option RangeEnt :=
  let at' := 256 + 32 * r
  if r < s.descField c 26 2 then
    some { ham := a.ham.getD 256, se := a.site, ctx := c, idx := r, base := s.descField c at' 8, limit := s.descField c (at' + 8) 8,
           off := s.descField c (at' + 16) 8, ctl := BitVec.ofNat 8 (s.descField c (at' + 24) 1) }
  else none
/-- Two range entries stand in the range cache of one SE. -/
def RangeEnt.sameCache (x y : RangeEnt) : Bool := decide (x.ham = y.ham ∧ x.se = y.se)
/-- A range entry as an agent meets it: an SE takes the one in its range cache, where it has it (R345). -/
def State.rangeEnt (s : State) (a : Agent) (c r : Nat) : Option RangeEnt :=
  match s.market.ranges.find? fun e => decide (a.code = 1 ∧ some e.ham = a.ham ∧ e.se = a.site ∧ e.ctx = c ∧ e.idx = r) with
  | some e => some e
  | none => s.rangeRead a c r
/-- The lowest-numbered enabled range entry that holds v (R341). -/
def State.rangeFind (s : State) (a : Agent) (c v : Nat) : Option RangeEnt :=
  ((List.range 32).filterMap fun r => s.rangeEnt a c r).find? fun e => e.ctl.getLsbD 2 && decide (e.base ≤ v ∧ v < e.limit)

/-- The first n entries of a list for which a test holds, and all for which it does not. -/
def keepFirst {α : Type} (p : α → Bool) : Nat → List α → List α
  | _, [] => []
  | n, x :: r => if p x then (match n with | 0 => keepFirst p 0 r | m + 1 => x :: keepFirst p m r) else x :: keepFirst p n r

/-- A range entry that an SE has met enters its cache of 16, the newest first; the oldest leaves it (R345, log entry 9). -/
def State.cacheRange (s : State) (a : Agent) (e : RangeEnt) : State :=
  if a.code ≠ 1 ∨ s.market.ranges.contains e then s
  else { s with market := { s.market with ranges := e :: keepFirst e.sameCache 15 s.market.ranges } }

/-- The root field of a context's descriptor: ASID and root page number (R337). -/
def State.rootOf (s : State) (c : Nat) : Nat × Nat :=
  let r := s.descField c 0 8
  (r / 2 ^ 44 % 2 ^ 16, r % 2 ^ 44)

/-- The agent of a page table read: it is charged to the parish of the agent it walks for (R381), and bound to no context. -/
def walker (a : Agent) : Agent := { a with ctx := none }

/-- An atomic whose home is a UALink peer or lies behind a PCIe window: one request leaves, and what the home answers comes from outside
(R304, R404, R405). -/
def State.awayAtomic (s : State) (a : Agent) (pa n : Nat) (port : Option Nat) (op : Away) : MemRes (List Byte) :=
  let w := s.letIn a pa n
  if w.1 then w.2.away a pa n (.atomic port pa op) else .wait w.2

/-- A read-modify-write of n bytes at a physical address, performed whole at its home: f gives the new bytes, or none where no
write is made; the old bytes are returned (R266, R284). `op` says what a home outside the package does. -/
def State.atomicPhys (s : State) (a : Agent) (pa n : Nat) (op : Away) (f : List Byte → Option (List Byte)) : MemRes (List Byte) :=
  let merge (t : State) (old : List Byte) : MemRes (List Byte) :=
    match f old with
    | none => .ok old t
    | some b => .ok old { t with mem := t.mem.writeBytes pa b }
  let arrays (t : State) : MemRes (List Byte) :=
    match t.arrayRead a pa n with
    | .ok old u => merge u old
    | .wait u => .wait u
    | .err u => .err u
  match placeOf pa with
  | .granary q off => s.granaryWrite a (decide (a.code = 7)) q off pa n arrays
  | .green h off => if s.greenRefused a h off n true then .err (s.logErr (refuseLog a pa 1)) else arrays s
  | .status _ _ => .err (s.logErr (refuseLog a pa 1))
  | .pcie _ => s.awayAtomic a pa n none op
  | .ualink d off =>
    match s.ualinkOk d off with
    | none => .err (s.logErr (refuseLog a pa 2))
    | some port => s.awayAtomic a pa n (some port) op
  | _ =>
    match s.readPhys a pa n with
    | .wait t => .wait t
    | .err t => .err t
    | .ok old t => merge t old

/-- The fault of a leaf PTE at a level, if any (R342, R343): misplaced leaf or N, unaligned superpage, U clear, a missing
permission. -/
def leafFault (pte : W64) (level : Nat) (w : Want) : Option Nat :=
  let ppn := (pte.extractLsb' 10 44).toNat
  let n := pte.getLsbD 63
  if level = 4 ∨ (n ∧ ¬(level = 0 ∧ ppn % 16 = 8)) ∨ ppn % 2 ^ (9 * level) ≠ 0 then some 1
  else if !pte.getLsbD 4 then some 2
  else if (w.needsR && !pte.getLsbD 1) || (w.needsW && !pte.getLsbD 2) then some 2
  else none

/-- The fault of any PTE (R342). -/
def pteFault (pte : W64) : Bool :=
  !pte.getLsbD 0 || (pte.getLsbD 2 && !pte.getLsbD 1) || decide (pte.extractLsb' 54 7 ≠ 0) || decide (pte.extractLsb' 61 2 = 3)

/-- Whether a PTE is a leaf: R, W or X set (R342). -/
def pteLeaf (pte : W64) : Bool := decide (pte.extractLsb' 1 3 ≠ 0)

/-- Two translations stand in one cache. -/
def Tlb.sameCache (x y : Tlb) : Bool := decide (x.ham = y.ham ∧ x.se = y.se)
/-- A translation enters its cache: 256 entries in the first level of an SE, 4,096 in the second level of a hamlet, the newest first;
the oldest leaves a full one (R345, log entry 9). -/
def State.cacheTlb (s : State) (e : Tlb) : State :=
  { s with market := { s.market with tlb := e :: keepFirst e.sameCache (if e.se.isSome then 255 else 4095) s.market.tlb } }
/-- The first level of the SE that an agent is takes a translation (R345). -/
def State.cacheFirst (s : State) (a : Agent) (e : Tlb) : State := if a.code = 1 then s.cacheTlb { e with se := some a.site } else s
/-- The record of the task that a hamlet runs. -/
def State.recordAt (s : State) (h : Nat) : Option W64 :=
  match s.regionOf h with
  | some (_, r) => r.task.map fun t => t.record
  | none => none
/-- The refusal of a fault of a task, recorded while that was pre-empted, concerns an access of a hamlet to a page by a kind (R353). -/
def State.answeredFor (s : State) (ham c v : Nat) (w : Want) (f : FaultId) : Bool :=
  decide (f.ctx = c ∧ f.page = v / 4096 ∧ f.acc = w.num ∧ f.ham = ham ∧ f.parked = s.recordAt ham)
/-- A recorded refusal concerns no later fault of an access that now has its translation (R353). -/
def State.dropAnswered (s : State) (a : Agent) (c v : Nat) (w : Want) : State :=
  match a.ham with
  | none => s
  | some h =>
    if s.market.answered.any (s.answeredFor h c v w) then
      { s with market := { s.market with answered := s.market.answered.filter fun f => !s.answeredFor h c v w f } }
    else s
/-- What a walk has found enters the second level of the agent's hamlet, and the first level of an SE; the market has no cache
(R345). -/
def State.cacheWalk (s : State) (a : Agent) (e : Tlb) : State :=
  if a.ham.isNone then s else (s.cacheTlb e).cacheFirst a e

/-- The walk from the table at page `table`, `level + 1` levels left (R342 to R344). A leaf that grants the access gets A,
and D for a write, by one atomic that compares the PTE at its home with what the walk has read; where it has changed, the walk starts again.
The caches of the hamlet take the translation. -/
def State.walk (s : State) (a : Agent) (c v : Nat) (w : Want) (glob : Bool) : Nat → Nat → XRes
  | 0, _ => .fault 1 s
  | k + 1, table =>
    let pteAt := table * 4096 + v / 2 ^ (12 + 9 * k) % 512 * 8
    match s.readPhys (walker a) pteAt 8 with
    | .wait s' => .wait s'
    | .err s' => .err s'
    | .ok bytes s' =>
      let pte := BitVec.ofNat 64 (leNat bytes)
      if pteFault pte then .fault 1 s'
      else if !pteLeaf pte then
        if pte.getLsbD 4 || pte.getLsbD 6 || pte.getLsbD 7 || pte.getLsbD 63 || decide (pte.extractLsb' 61 2 ≠ 0) then .fault 1 s'
        else State.walk s' a c v w (glob || pte.getLsbD 5) k (pte.extractLsb' 10 44).toNat
      else
        match leafFault pte k w with
        | some code => .fault code s'
        | none =>
          let d := pte.getLsbD 7 || w.needsW
          let pte' := pte ||| 0x40 ||| (if d then 0x80 else 0)
          let size := if pte.getLsbD 63 then 2 ^ 16 else 2 ^ (12 + 9 * k)
          let ppn := (pte.extractLsb' 10 44).toNat
          let base := (if pte.getLsbD 63 then ppn - ppn % 16 else ppn) * 4096
          let entry : Tlb :=
            { ham := a.ham.getD 256, ctx := c, asid := (s'.rootOf c).1, glob := glob || pte.getLsbD 5, va := v - v % size,
              size := size, pa := base, r := pte.getLsbD 1, w := pte.getLsbD 2, d := d }
          if pte' = pte then .ok (base + v % size) (s'.cacheWalk a entry)
          else
            match s'.atomicPhys (walker a) pteAt 8 (.amo .cas false pte' pte)
                (fun old => if old = bytes then some (leBytes 8 pte'.toNat) else none) with
            | .ok old t => if old = bytes then .ok (base + v % size) (t.cacheWalk a entry) else .wait t
            | .wait t => .wait t
            | .err t => .err t

/-- A cached translation of one level that serves the access (R344, R345). -/
def State.tlbHit (s : State) (a : Agent) (c v : Nat) (w : Want) (se : Option Nat) : Option Tlb :=
  s.market.tlb.find? fun t =>
    decide (some t.ham = a.ham) && decide (t.se = se) && decide (t.ctx = c) && (t.glob || decide (t.asid = (s.rootOf c).1)) &&
    decide (t.va ≤ v ∧ v < t.va + t.size) && (!w.needsR || t.r) && (!w.needsW || (t.w && t.d))
/-- The cached translation that serves the access: of an SE's own level, else of its hamlet's, which its own level then takes (R345). -/
def State.tlbFind (s : State) (a : Agent) (c v : Nat) (w : Want) : Option (Tlb × State) :=
  match (if a.code = 1 then s.tlbHit a c v w (some a.site) else none) with
  | some t => some (t, s)
  | none => (s.tlbHit a c v w none).map fun t => (t, s.cacheFirst a t)

/-- The translation of virtual address v for an agent of context c, by a range entry, a cache or a walk (R341, R342, R345). -/
def State.findPage (s : State) (a : Agent) (c v : Nat) (w : Want) : XRes :=
  match s.rangeFind a c v with
  | some e =>
    let t := s.cacheRange a e
    if (w.needsR && !e.ctl.getLsbD 0) || (w.needsW && !e.ctl.getLsbD 1) then .fault 2 t else .ok ((v + e.off) % 2 ^ 64) t
  | none =>
    if v / 2 ^ 57 ≠ (if v / 2 ^ 56 % 2 = 1 then 127 else 0) then .fault 1 s
    else
      match s.tlbFind a c v w with
      | some (e, t) => .ok (e.pa + (v - e.va)) t
      | none => s.walk a c v w false 5 (s.rootOf c).2
/-- The translation of virtual address v for an agent of context c (R341, R342); with it a refusal recorded for that access is spent (R353). -/
def State.translate (s : State) (a : Agent) (c v : Nat) (w : Want) : XRes :=
  match s.findPage a c v w with
  | .ok pa t => .ok pa (t.dropAnswered a c v w)
  | r => r

/-- A translation fault is reported, and its id: faults of one hamlet on one page with one access kind share an outstanding
id (R349, R350). A fault that was refused while its context was parked is refused again at once (R353). -/
def State.reportFault (s : State) (a : Agent) (c v : Nat) (w : Want) (code : Nat) : Nat × State :=
  let ham := a.ham.getD 256
  match s.market.faults.find? fun f => f.ctx = c ∧ f.page = v / 4096 ∧ f.acc = w.num ∧ f.ham = ham ∧ ham < 256 with
  | some f => (f.id, s)
  | none =>
    let id := Tab.get s.market.nextFid 0 c
    let parked := s.answeredFor ham c v w
    let refused := s.market.answered.any parked
    let s1 : State := { s with market := { s.market with
      faults := s.market.faults ++ [{ ctx := c, id := id, page := v / 4096, acc := w.num, ham := ham }],
      nextFid := Tab.put s.market.nextFid c ((id + 1) % 2 ^ 32)
      answered := s.market.answered.filter fun f => !parked f
      refuseNow := if refused then s.market.refuseNow ++ [(c, id)] else s.market.refuseNow } }
    if refused then (id, s1) else
    (id, s1.event c { va := BitVec.ofNat 64 v, cause := 1, agent := a.evNum, acc := w.num, fid := id, hamlet := a.ham.getD 0, site := a.site,
                      stream := a.unit, code := code })

/-- A read through a context's translation, within one page. -/
inductive VRes (α : Type) where
  | ok (v : α) (s : State)
  | wait (s : State)
  | fault (code : Nat) (s : State)
  | err (s : State)

/-- A read of n bytes at a virtual address that lie in one page. -/
def State.readVirt (s : State) (a : Agent) (c v n : Nat) : VRes (List Byte) :=
  match s.translate a c v .load with
  | .fault k t => .fault k t
  | .wait t => .wait t
  | .err t => .err t
  | .ok pa t =>
    match t.readPhys a pa n with
    | .ok b u => .ok b u
    | .wait u => .wait u
    | .err u => .err u

end Sys2Proof.Machine
end

