-- ==== Sys2Proof/Machine/Barrier.lean ====
section
/-! DEFINITION. Barrier objects and their updates (R304 to R306, R415), and the push of a continuation record to a market
queue (R317, R318). -/
namespace Sys2Proof.Machine
open Sys2Proof

/-- A barrier object (R304). -/
structure Bar where
  gen : Nat
  arrived : Nat
  expected : Nat
  count : W64
  status : W64
  link : W64
  deriving DecidableEq, Repr

/-- The object of 32 bytes; reserved bits are ignored (R304). -/
def Bar.ofBytes (b : List Byte) : Bar :=
  let w := leNat (b.take 8)
  { gen := w / 2 ^ 32 % 2 ^ 16, arrived := w / 2 ^ 16 % 2 ^ 16, expected := w % 2 ^ 16,
    count := BitVec.ofNat 64 (leNat ((b.drop 8).take 8)),
    status := BitVec.ofNat 64 (leNat ((b.drop 16).take 8)) &&& 0xFF1FFF1F,
    link := BitVec.ofNat 64 (leNat ((b.drop 24).take 8)) }

/-- The 32 bytes of an object; reserved bits are zero (R304). -/
def Bar.toBytes (x : Bar) : List Byte :=
  leBytes 8 (x.gen * 2 ^ 32 + x.arrived * 2 ^ 16 + x.expected) ++ leBytes 8 x.count.toNat ++ leBytes 8 x.status.toNat ++
  leBytes 8 x.link.toNat

/-- Status bits set by an update's error bits, and the error count, which stops at 255 (R304, R305). -/
def statusErr (st : W64) (e : Nat) : W64 :=
  if e = 0 then st
  else
    let c := (st.extractLsb' 8 8).toNat
    ((st ||| BitVec.ofNat 64 (e % 32)) &&& ~~~(0xFF00 : W64)) ||| BitVec.ofNat 64 (Nat.min (c + 1) 255 * 256)

/-- The status at a flip: the bits and count of the phase move up, and those below are cleared (R305). -/
def statusFlip (st : W64) : W64 :=
  BitVec.ofNat 64 ((st.extractLsb' 0 5).toNat * 2 ^ 16 + (st.extractLsb' 8 8).toNat * 2 ^ 24)

/-- One update of a barrier (R305): an arrival, an expectation or a delivery of n with error bits e; and whether it flips. -/
def Bar.update (x : Bar) (arrival : Bool) (n : W64) (e : Nat) : Bar × Bool :=
  let x1 :=
    if arrival then
      if x.arrived = x.expected then { x with status := x.status ||| 2 } else { x with arrived := x.arrived + 1 }
    else x
  let x2 := { x1 with count := x1.count + n, status := statusErr x1.status e }
  let x3 := if x2.arrived = x2.expected ∧ x2.count.slt 0 then { x2 with status := x2.status ||| 1 } else x2
  if x3.arrived = x3.expected ∧ x3.count = 0 then
    ({ x3 with gen := (x3.gen + 1) % 2 ^ 16, arrived := 0, status := statusFlip x3.status }, true)
  else (x3, false)

/-! ### Pushing a record -/

/-- A market queue. -/
def State.queue (s : State) (q : Nat) : MQ := Tab.get s.market.qs {} q
/-- The state with a market queue replaced. -/
def State.setQueue (s : State) (q : Nat) (x : MQ) : State := { s with market := { s.market with qs := Tab.put s.market.qs q x } }
/-- The lowest-numbered queue that satisfies a condition. -/
def State.findQueue (s : State) (f : MQ → Bool) : Option Nat := (List.range 64).find? fun q => f (s.queue q)
/-- The queue that a record's context and priority select (R317). -/
def State.selectQueue (s : State) (ctx prio : Nat) : Option Nat :=
  match s.findQueue fun x => x.en && decide (x.ctx = ctx ∧ x.prio = prio) with
  | some q => some q
  | none => s.findQueue fun x => x.en && decide (x.ctx = ctx)
/-- A queue's ring has no room for n more records (R318). -/
def MQ.lacks (x : MQ) (n : Nat) : Bool := decide (2 ^ x.log2 < x.ents.length + n)
/-- The physical address of an entry of a queue's ring (R317). -/
def MQ.slotPa (x : MQ) (k : Nat) : Nat := x.ring.toNat + 8 * (k % 2 ^ x.log2)
/-- A record appended to a queue: its address in the ring, and its push time (R317, R320). Beyond the next 16 entries of the queue the address
stands in the ring alone. -/
def State.append (s : State) (q : Nat) (r : QRec) : State :=
  let x := s.queue q
  let s1 := s.devWrite { code := 6 } (x.slotPa x.tail) (leBytes 8 r.addr.toNat)
  let e := if x.ents.length < 16 then r else { r with addr := 0, slot := some x.tail }
  s1.setQueue q { x with ents := x.ents ++ [e], tail := x.tail + 1 }

/-- What a push answers (R252, R317): pushed, no room, another context, a fault of the read, an error response, a wait. -/
inductive PushRes where
  | pushed (s : State)
  | full (s : State)
  | otherCtx (s : State)
  | fault (code : Nat) (s : State)
  | err (s : State)
  | wait (s : State)

/-- The push of the record at virtual address v in the address space of context c (R317). -/
def State.pushRecord (s : State) (a : Agent) (c : Nat) (v : W64) : PushRes :=
  match s.readVirt a c (v.toNat + 20) 2 with
  | .wait t => .wait t
  | .fault k t => .fault k t
  | .err t => .err t
  | .ok b t =>
    let w := leNat b
    if w % 64 ≠ c then .otherCtx t
    else
      match t.selectQueue c (w / 256 % 8) with
      | none => .full t
      | some q => if (t.queue q).lacks 1 then .full t else .pushed (t.append q { addr := v, pushed := t.cycle, ctx := c })

/-- The market as an agent; it reads in the address space of a context (R393). -/
def marketAgent : Agent := { code := 6 }

/-- The log entry of a record that is rejected or a push that is dropped: error kind 6 (R394). -/
def State.logRecord (s : State) (queue : Nat) (v : W64) (c : Nat) : State :=
  s.logErr { kind := 6, agent := 6, ctx := some c, detail := queue, extra := v.toNat }

/-- One try of a link push (R306): it stays held while the ring is full or its read waits, and is dropped where its context is killed. -/
def State.tryLink (s : State) (l : LinkPush) : State :=
  let hold (t : State) (f : Option Nat) : State :=
    { t with market := { t.market with links := t.market.links ++ [{ l with fault := f }] } }
  if s.market.killing.contains l.ctx || s.market.dead.contains l.ctx then s.logRecord 0 l.addr l.ctx
  else
  match s.pushRecord marketAgent l.ctx l.addr with
  | .pushed t => t
  | .full t => hold t none
  | .otherCtx t => t.logRecord 0 l.addr l.ctx
  | .err t => t.logRecord 0 l.addr l.ctx
  | .wait t => hold t none
  | .fault k t =>
    let r := t.reportFault marketAgent l.ctx (l.addr.toNat + 20) .load k
    hold r.2 (some r.1)

/-- The push of a barrier's link at a flip (R306): nothing for a zero link; logged as kind 7 where the link is not aligned or
the updating agent carries no context. -/
def State.linkPush (s : State) (a : Agent) (c : Option Nat) (barPa : Nat) (link : W64) : State :=
  if link = 0 then s
  else
    match c with
    | none => s.logErr { addr := barPa, kind := 7, agent := a.code, extra := link.toNat }
    | some c =>
      if link.extractLsb' 0 6 ≠ 0 then s.logErr { addr := barPa, kind := 7, agent := a.code, ctx := some c, extra := link.toNat }
      else s.tryLink { addr := link, ctx := c }

/-- An address belongs to this device, so that a flip of a barrier there is this home's (R304, R306). -/
def isHome (pa : Nat) : Bool :=
  match placeOf pa with
  | .pcie _ | .ualink _ _ => false
  | _ => true

/-- One update of the barrier at a physical address, atomic at its home, with the link push of a flip; it answers the
generation before the update (R251, R305). A barrier of a UALink peer is updated, and its link pushed, by the peer. -/
def State.barrierPhys (s : State) (a : Agent) (c : Option Nat) (pa : Nat) (arrival : Bool) (n : W64) (e : Nat) : MemRes W64 :=
  let f (b : List Byte) : Option (List Byte) := some ((Bar.ofBytes b).update arrival n e).1.toBytes
  match s.atomicPhys a pa 32 (.bar arrival n e) f with
  | .wait t => .wait t
  | .err t => .err t
  | .ok old t =>
    let x := Bar.ofBytes old
    let t' := if isHome pa && (x.update arrival n e).2 then t.linkPush a c pa x.link else t
    .ok (BitVec.ofNat 64 x.gen) t'

/-- An update that an agent owes and cannot make (R415): error kind 12, and event cause 7 where the context is valid. -/
def State.lostUpdate (s : State) (a : Agent) (c : Option Nat) (pa : Nat) (v : W64) : State :=
  let s1 := s.logErr { addr := pa, kind := 12, agent := a.code, ctx := c, ham := a.ham.getD 0, extra := v.toNat }
  match c with
  | none => s1
  | some c =>
    if s1.market.killing.contains c ∨ s1.market.descBad.contains c ∨ (Tab.get s1.market.desc [] c).isEmpty then s1
    else s1.event c { va := v, cause := 7, agent := a.evNum, hamlet := a.ham.getD 0 }

/-- A delivery or an arrival owed to the barrier at a virtual address; the id of the fault it waits on, if it faults (R415). A write to a green
waits for the record points of a running cut (R361). -/
def State.owedBarrier (s : State) (a : Agent) (c : Nat) (v : W64) (arrival : Bool) (n : W64) (e : Nat) :
    Option Nat × Bool × State :=
  match s.translate a c v.toNat .atomic with
  | .fault k t => let r := t.reportFault a c v.toNat .atomic k; (some r.1, false, r.2)
  | .wait t => (none, false, t)
  | .err t => (none, true, t.lostUpdate a (some c) 0 v)
  | .ok pa t =>
    if t.agentAfter a pa then (none, false, t)
    else
    match t.barrierPhys a (some c) pa arrival n e with
    | .ok _ u => (none, true, u)
    | .wait u => (none, false, u)
    | .err u => (none, true, u.lostUpdate a (some c) pa v)

/-- TJOIN's update of the join counter at a record (R252, R316): the new count, and whether the record is to be pushed; a
counter at 0 stays and answers 0xFFFF_FFFF. -/
def joinStep (old : Nat) : Nat × Option Nat × Bool :=
  if old = 0 then (0xFFFFFFFF, none, false) else (old - 1, some (old - 1), decide (old = 1))

end Sys2Proof.Machine
end

