-- ==== Sys2Proof/Machine/Spe.lean ====
section
/-! DEFINITION. The meanings of the scratchpad element's instructions and of its split requests (R144 to R165, R180, R182). -/
namespace Sys2Proof.Machine
open Sys2Proof

/-! ### Requests at a bank -/

/-- The hamlet and offset of an SPE address issued in hamlet h; none where R146 is broken. -/
def speAddr (h : Nat) (v : W32) : Option (Nat × Nat) :=
  let off := (v.extractLsb' 0 21).toNat
  let ham := (v.extractLsb' 21 8).toNat
  if v.extractLsb' 29 2 ≠ 0 then none
  else if v.getLsbD 31 then some (ham, off)
  else if ham ≠ 0 then none else some (h, off)

/-- The SPE of a site owns banks 2x and 2x + 1 of its own hamlet (R147). -/
def ownBank (h site : Nat) (t : Nat × Nat) : Bool := decide (t.1 = h ∧ bankOf t.2 / 2 = site % 8)

/-- The hamlet and offset that a request names; a request holds an address that obeys R146. -/
def SpeReq.target (r : SpeReq) : Nat × Nat := (speAddr r.srcH r.addr).getD (0, 0)

/-- The request needs its word full (some true) or empty (some false) (R159). -/
def SpeKind.wants : SpeKind → Option Bool
  | .itake | .iread => some true
  | .iput => some false
  | _ => none
/-- The request writes memory or a presence bit. -/
def SpeKind.writes : SpeKind → Bool
  | .ld | .iread => false
  | _ => true

/-- The 32-bit or 64-bit word in the data field: an integer, or bits [39:0] raw (R154, R156). -/
def wordField (size : Nat) (w : W64) : W40 := if size = 8 then w.setWidth 40 else intField (w.setWidth 32)

/-- The new word of an atomic, from the old word and the operands at the width (R156 to R158). -/
def atomicWord (r : SpeReq) (old : W64) : W64 :=
  let o := old.setWidth 32
  let b := low32 r.val
  let narrow (v : W32) : W64 := v.setWidth 64
  let wide := r.val.setWidth 64
  match r.kind with
  | .aadd => narrow (o + b)
  | .asub => narrow (o - b)
  | .amin => narrow (if b.slt o then b else o)
  | .amax => narrow (if o.slt b then b else o)
  | .aminu => narrow (if b.ult o then b else o)
  | .amaxu => narrow (if o.ult b then b else o)
  | .aand => if r.size = 8 then old &&& wide else narrow (o &&& b)
  | .aor => if r.size = 8 then old ||| wide else narrow (o ||| b)
  | .axor => if r.size = 8 then old ^^^ wide else narrow (o ^^^ b)
  | .aswap => if r.size = 8 then wide else narrow b
  | .acas =>
    if r.size = 8 then (if old = r.expv.setWidth 64 then wide else old)
    else narrow (if o = low32 r.expv then b else o)
  | .afadd => narrow (f32Round .rne ((f32Val (f32Round .rne (f40Val r.val))).add .rne (f32Val o)))
  | _ => old

/-- The flag of an atomic (R156 to R158). -/
def atomicFlag (r : SpeReq) (old new : W64) : Bool :=
  match r.kind with
  | .acas => if r.size = 8 then decide (old = r.expv.setWidth 64) else decide (old.setWidth 32 = low32 r.expv)
  | .afadd => decide ((new.setWidth 32 : W32).extractLsb' 23 8 = 0xFF)
  | _ => decide (new ≠ old)

/-- The value of a load (R154). -/
def loadField (size : Nat) (zext : Bool) (v : Nat) : W40 :=
  match size with
  | 1 => intField (if zext then BitVec.ofNat 32 v else (BitVec.ofNat 8 v).signExtend 32)
  | 2 => intField (if zext then BitVec.ofNat 32 v else (BitVec.ofNat 16 v).signExtend 32)
  | 4 => intField (BitVec.ofNat 32 v)
  | _ => (BitVec.ofNat 64 v).setWidth 40

/-- The agent of a request. -/
def SpeReq.agent (s : State) (r : SpeReq) : Agent := { code := 0, ctx := (s.ham r.srcH).ctx, ham := some r.srcH, site := r.site }

/-- A request that stands behind its issuer's record point in cut n (R361). -/
def SpeReq.behind (n : Nat) (r : SpeReq) : SpeReq := { r with after := some n }
/-- The request was issued after its issuer's record point in the running cut of its region (R361). -/
def SpeReq.isAfter (r : SpeReq) (s : State) : Bool :=
  match r.after, s.regionOf r.srcH with
  | some n, some (_, g) => (match g.cut with | some c => decide (c.seq = n) | none => false)
  | _, _ => false

/-- The posted requests on the word of a request that its SPE has still in its hamlet's held-write buffer, oldest first (R150, R277). -/
def State.heldOn (s : State) (r : SpeReq) : List SpeReq :=
  (s.ham r.srcH).held.filterMap fun e =>
    match e.op with
    | .spe q =>
      if q.posted && !e.done && decide (q.site = r.site ∧ q.target.1 = r.target.1 ∧ q.target.2 / 8 = r.target.2 / 8) then some q else none
    | _ => none

/-- A word with n bytes from byte k replaced by a value. -/
def putBytes (w : W64) (k n : Nat) (v : W64) : W64 :=
  let b := leBytes 8 w.toNat
  BitVec.ofNat 64 (leNat (b.take k ++ leBytes n v.toNat ++ b.drop (k + n)))
/-- n bytes of a word from byte k. -/
def getBytes (w : W64) (k n : Nat) : W64 := BitVec.ofNat 64 (leNat (((leBytes 8 w.toNat).drop k).take n))
/-- A green's word once a request on it has been performed (R155 to R159). -/
def SpeReq.onWord (q : SpeReq) (w : W64) : W64 :=
  let k := q.target.2 % 8
  match q.kind with
  | .ld | .itake | .iread | .iclr => w
  | .st => putBytes w k q.size (q.val.setWidth 64)
  | .iput => q.val.setWidth 64
  | _ => putBytes w k q.size (atomicWord q (getBytes w k q.size))

/-- The presence bit of a green offset as the newest completed cut recorded it (R291). -/
def Hamlet.cutPresent (x : Hamlet) (off : Nat) : Bool :=
  match x.cutBank with
  | some p => Tab.get p.2.snap.pres false (off / 8)
  | none => false

/-- A load or presence read by an SPE outside a held-mode region, which takes what a completed cut recorded (R291). -/
def State.outsideRead (s : State) (r : SpeReq) : Bool :=
  !r.kind.writes && s.heldMode r.target.1 && !s.sameRegion r.srcH r.target.1

/-- The presence bit that an SPE's read finds: its own latest held request on the word gives it, else the bank, or the newest completed cut
for a read from outside a held-mode region (R159, R277, R291). -/
def State.presentFor (s : State) (r : SpeReq) : Bool :=
  (s.heldOn r).foldl (fun b q => match q.kind with | .iput => true | .iclr => false | _ => b)
    (if s.outsideRead r then (s.ham r.target.1).cutPresent r.target.2 else s.present (greenPa r.target.1 r.target.2))

/-- A request performed at its bank, its presence permitting it: memory, the presence bit, the token it returns and its flag (R149, R153
to R159). A load and an IREAD find their SPE's own held writes (R277), laid over what a completed cut recorded where they come from outside a
held-mode region (R291). A refusal, and a sector that cannot be corrected (R386, R389), give a FAULT token of code 0x03. -/
def performSpe (s : State) (r : SpeReq) : State × Token × Bool × Bool :=
  let t := r.target
  let pa := greenPa t.1 t.2
  let a := r.agent s
  let bad (u : State) : State × Token × Bool × Bool := (u, faultTok 3 r.addr.toNat, false, true)
  let get (f : State → W64 → State × Token × Bool × Bool) : State × Token × Bool × Bool :=
    match s.arrayRead a pa r.size with
    | .ok b u => f u (BitVec.ofNat 64 (leNat b))
    | .wait u => bad u
    | .err u => bad u
  let see (f : State → W64 → State × Token × Bool × Bool) : State × Token × Bool × Bool :=
    match s.heldOn r, s.outsideRead r with
    | [], false => get f
    | l, out =>
      match if out then s.cutRead t.1 (t.2 - t.2 % 8) 8 else s.arrayRead a (pa - pa % 8) 8 with
      | .ok b u => f u (getBytes (l.foldl (fun w q => q.onWord w) (BitVec.ofNat 64 (leNat b))) (t.2 % 8) r.size)
      | .wait u => bad u
      | .err u => bad u
  let put (v : W64) (f : State → State) : State × Token × Bool × Bool :=
    match s.arrayWrite a pa r.size (cellsAt pa (leBytes r.size v.toNat)) with
    | .ok _ u => (f u, dataTok 0, false, false)
    | .wait u => bad u
    | .err u => bad u
  if s.greenRefused a t.1 t.2 r.size r.kind.writes then bad (s.logErr (refuseLog a pa 1))
  else
    match r.kind with
    | .ld => see fun u old => let v := loadField r.size r.zext old.toNat; (u, dataTok v, decide (v ≠ 0), false)
    | .st => put (if r.size = 8 then r.val.setWidth 64 else (low32 r.val).setWidth 64) id
    | .itake => get fun u old => (u.setPresent pa false, dataTok (wordField 8 old), r.deferred, false)
    | .iread => see fun u old => (u, dataTok (wordField 8 old), r.deferred, false)
    | .iput => put (r.val.setWidth 64) fun u => u.setPresent pa true
    | .iclr => (s.setPresent pa false, dataTok 0, false, false)
    | k => get fun u old =>
      let new := atomicWord r old
      let tok := if k = .afadd then f40Round .rne (f32Val (old.setWidth 32)) else wordField r.size old
      ({ u with mem := u.mem.writeLE pa r.size new.toNat }, dataTok tok, atomicFlag r old new, false)

/-- The word's presence permits the request (R159); a request that will be refused is never deferred. -/
def permitted (s : State) (r : SpeReq) : Bool :=
  let t := r.target
  match r.kind.wants with
  | none => true
  | some b => ((if r.kind = .iread then s.presentFor r else s.present (greenPa t.1 t.2)) == b) || s.greenRefused (r.agent s) t.1 t.2 r.size r.kind.writes

/-- Two records of one request: its deferral at a bank, and the cut that it stands behind, are no part of what names it. -/
def SpeReq.same (r q : SpeReq) : Bool := decide ({ r with deferred := false, after := none } = { q with deferred := false, after := none })

/-- The pending completion of a request with its result. -/
def Pending.answer (p : Pending) (r : SpeReq) (res : Token × Bool) : Pending := if p.req.same r then { p with result := some res } else p

/-- A value returned for a held SPE request, kept with its flag and tag. -/
def packRet (t : Token) (flag : Bool) : HeldRet := .value ((BitVec.ofBool flag ++ t.tag ++ t.data).setWidth 64)
/-- The token and flag of a kept value. -/
def unpackRet (x : HeldRet) : Token × Bool :=
  match x with
  | .value v => (⟨v.extractLsb' 40 4, v.extractLsb' 0 40⟩, v.getLsbD 44)
  | .trap _ _ => (⟨0, 0⟩, false)

/-- The held entry of a request acknowledged by its target (R182, R364). -/
def Held.answer (e : Held) (r : SpeReq) (res : Token × Bool) : Held :=
  match e.op with
  | .spe q => if q.same r && e.sent then { e with done := true, ret := packRet res.1 res.2 } else e
  | _ => e

/-- What its issuer learns of a request that its target has performed: the result of a split request, kept until its completion lands
(R151); for a posted one its refusal, which sets the element's access status (R149); and the acknowledgement of a held entry. A
request that the issuer's record of a running cut holds as pending and sent, and that is performed before the cut records its bank, is
recorded with its result (R180). -/
def State.returnSpe (s : State) (r : SpeReq) (res : Token × Bool) (refused : Bool) : State :=
  let x := s.ham r.srcH
  let e := Tab.get x.elems {} r.site
  let e1 : Elem :=
    if r.posted then (if refused then { e with access := e.access ||| 1 } else e) else { e with pend := e.pend.map fun p => p.answer r res }
  let cap := Tab.get x.capE {} r.site
  s.setHam r.srcH { x with
    elems := Tab.put x.elems r.site e1
    held := x.held.map fun h => h.answer r res
    capE := if cap.pend.any (fun p => p.req.same r) && !cap.sendQ.any r.same && x.capG.isNone then
        Tab.put x.capE r.site { cap with pend := cap.pend.map fun p => p.answer r res } else x.capE }

/-- A request performed at its bank, with its result sent back. -/
def State.performReturn (s : State) (r : SpeReq) : State :=
  let x := performSpe s r
  x.1.returnSpe r (x.2.1, x.2.2.1) x.2.2.2

/-- Two requests of one SPE to one bank, whose order the bank keeps (R148, R277). -/
def SpeReq.ordered (r q : SpeReq) : Bool :=
  decide (r.srcH = q.srcH ∧ r.site = q.site ∧ r.target.1 = q.target.1 ∧ bankOf r.target.2 = bankOf q.target.2)

/-- A request has to stand in the queue of after-writes of its target: it is an after-write (R361), or an earlier request of its SPE
to its bank stands there (R148). -/
def State.mustQueue (s : State) (r : SpeReq) : Bool :=
  (r.kind.writes && s.afterWait (some r.srcH) (r.isAfter s) r.target.1) || (s.ham r.target.1).afterQ.any fun q => q.ordered r

/-! ### The order of one SPE's requests (R148, R277, R280) -/

/-- An I-structure request, which the presence of its word orders at its bank (R159 to R161). -/
def SpeKind.istruct : SpeKind → Bool
  | .itake | .iput | .iread | .iclr => true
  | _ => false
/-- A request that acquires (R286). -/
def SpeKind.acquires : SpeKind → Bool
  | .itake | .iread => true
  | _ => false

/-- The requests that the SPE at a site has shipped, and that are neither performed nor deferred. -/
def flyingOf (hs : Tab Hamlet) (h site : Nat) : List SpeReq :=
  hs.flatMap fun p => (p.2.msgs ++ p.2.afterQ).filter fun r => decide (r.srcH = h ∧ r.site = site)
/-- Its requests that stand deferred at a bank (R160). -/
def deferredOf (hs : Tab Hamlet) (h site : Nat) : List SpeReq :=
  hs.flatMap fun p => p.2.defer.flatMap fun b => b.2.filter fun r => decide (r.srcH = h ∧ r.site = site)
/-- Its value-returning requests that wait in its hamlet's held entries (R182). Its posted ones there take their place in the order once they
are released (R292). -/
def heldOf (hs : Tab Hamlet) (h site : Nat) : List SpeReq :=
  (Tab.get hs {} h).held.filterMap fun e =>
    match e.op with
    | .spe q => if !q.posted && !e.done && decide (q.site = site) then some q else none
    | _ => none
/-- Its requests that have been issued and not yet sent. -/
def queuedOf (hs : Tab Hamlet) (h site : Nat) : List SpeReq := (Tab.get (Tab.get hs {} h).elems {} site).sendQ
/-- The requests of the SPE at a site that are still to be performed. -/
def unperformed (hs : Tab Hamlet) (h site : Nat) : List SpeReq :=
  queuedOf hs h site ++ flyingOf hs h site ++ deferredOf hs h site ++ heldOf hs h site

/-- Two requests name one word. -/
def SpeReq.onSame (r q : SpeReq) (n : Nat) : Bool := decide (r.target.1 = q.target.1 ∧ r.target.2 / n = q.target.2 / n)

/-- An earlier request q of its SPE, still to be performed, that request r has to follow: an acquire; every access, for a release; and one
of the same sector, but for a pair of I-structure requests on one word, which go by its presence (R160, R277, R280, R286; log entry
60). -/
def SpeReq.follows (r q : SpeReq) : Bool :=
  q.kind.acquires || decide (r.kind = .iput) || (r.onSame q 32 && !(r.kind.istruct && q.kind.istruct && r.onSame q 8))

/-- An IPUT that an earlier acquire of its SPE on the same word waits for (R160). -/
def State.feedsOwn (s : State) (r : SpeReq) : Bool :=
  decide (r.kind = .iput) && (unperformed s.hamlets r.srcH r.site).any fun q => q.kind.acquires && decide (q.issued < r.issued) && r.onSame q 8

/-- R280 or R148 keeps a request behind earlier ones of its SPE: it is performed once they are. One that an earlier acquire waits for follows
the requests on their way only, so that the two do not wait for each other (log entry 60). -/
def State.orderWaits (s : State) (r : SpeReq) : Bool :=
  let early (l : List SpeReq) : List SpeReq := l.filter fun q => decide (q.issued < r.issued)
  if s.feedsOwn r then !(early (flyingOf s.hamlets r.srcH r.site)).isEmpty
  else
    (early (unperformed s.hamlets r.srcH r.site)).any r.follows ||
    (early (queuedOf s.hamlets r.srcH r.site)).any (fun q => q.ordered r) ||
    (ownBank r.srcH r.site r.target && (early (s.ham r.srcH).msgs).any fun q => q.ordered r)

/-- A request whose turn has come at its bank: performed, or deferred (R160); it answers false where it has to wait at the bank's
input, all deferral entries being taken (R161). An acquire that R280 keeps behind an earlier one stands with the deferred requests. -/
def State.serve (s : State) (r : SpeReq) : Bool × State :=
  let t := r.target
  let x := s.ham t.1
  if permitted s r && !(r.kind.acquires && s.orderWaits r) then (true, s.performReturn r)
  else
    let q := Tab.get x.defer [] (bankOf t.2)
    if q.length < 8 then (true, s.setHam t.1 { x with defer := Tab.put x.defer (bankOf t.2) (q ++ [{ r with deferred := !permitted s r }]) })
    else (false, s)

/-- A request that arrives at a bank: it is served, or stands in the queue of after-writes (R148, R361); a read from outside a held-mode
region waits for the next completed cut first (R291). -/
def State.arrive (s : State) (r : SpeReq) : Bool × State :=
  let t := r.target
  let x := s.ham t.1
  if s.outsideRead r && !s.greenRefused (r.agent s) t.1 t.2 r.size false then
    let w := s.cutAwaited ({ r.agent s with unit := r.slot } : Agent).key t.1
    if w.1 then (let u := w.2.serve r; if u.1 then u else (false, s)) else w
  else if s.mustQueue r then (true, s.setHam t.1 { x with afterQ := x.afterQ ++ [r] })
  else s.serve r

/-- The messages of a hamlet in arrival order: each bank takes its first, or blocks its input with it (R147, R161); a read that waits for a
cut of the region, and the later messages of its SPE to its bank, stand aside (R148, R291). The messages that stay. `done` lists the banks
that have been served, `aside` the reads that wait. -/
def State.serveMsgs (s : State) : List SpeReq → List Nat → List SpeReq → State × List SpeReq
  | [], _, _ => (s, [])
  | r :: rest, done, aside =>
    let b := bankOf r.target.2
    if done.contains b || aside.any (fun q => q.ordered r) then let p := State.serveMsgs s rest done aside; (p.1, r :: p.2)
    else
      let x := s.arrive r
      if x.1 then State.serveMsgs x.2 rest (b :: done) aside
      else if s.outsideRead r then let p := State.serveMsgs x.2 rest done (r :: aside); (p.1, r :: p.2)
      else let p := State.serveMsgs x.2 rest (b :: done) aside; (p.1, r :: p.2)

/-- BANK_MESSAGE (R147): each bank of a hamlet performs, or defers, the first of the shipped requests that have come to it. -/
def execBankMessage (h : Nat) (s : State) : Out' :=
  let p := s.serveMsgs (s.ham h).msgs [] []
  .next (p.1.setHam h { p.1.ham h with msgs := p.2 })

/-- The oldest deferred request that its word's presence permits, and the others (R160); an after-write of a running cut waits (R361), and so
does an acquire behind an earlier one (R280, R284; log entry 60). -/
def pickDeferred (s : State) : List SpeReq → Option (SpeReq × List SpeReq)
  | [] => none
  | r :: rest =>
    if permitted s r && !(r.kind.writes && s.afterWait (some r.srcH) (r.isAfter s) r.target.1) && !(r.kind.acquires && s.orderWaits r) then
      some (r, rest)
    else (pickDeferred s rest).map fun p => (p.1, r :: p.2)

/-- DEFERRED_REQUEST_PERFORM (R160): a bank performs the oldest of its deferred requests that its word's presence permits. The device
makes this operation at the start of a cycle, before any other of the cycle changes a presence bit. -/
def execDeferredRequestPerform (h bank : Nat) (s : State) : Out' :=
  match pickDeferred s (Tab.get (s.ham h).defer [] bank) with
  | none => .next s
  | some p =>
    .next ((s.setHam h { s.ham h with defer := Tab.put (s.ham h).defer bank p.2 }).performReturn p.1)

/-- The output queues and ports in which a split request reserves an entry (R151). -/
def reserveOuts (f : FOp) : List Nat := dstOuts f.dst

/-- The element with the entries of a split request reserved. -/
def Elem.reserve (e : Elem) (f : FOp) (slot : Nat) : Elem :=
  (reserveOuts f).foldl (fun (e : Elem) q => e.pushOut q (.resv slot)) e

/-- A queue with the first reserved entry of a slot replaced. -/
def fillResv (x : QEnt) (slot : Nat) : List QEnt → List QEnt
  | [] => []
  | .resv k :: r => if k = slot then x :: r else .resv k :: fillResv x slot r
  | y :: r => y :: fillResv x slot r

/-- The result of a split request written to its destination: the reserved entries, or a register (R110, R151). -/
def Elem.complete (e : Elem) (f : FOp) (slot : Nat) (t : Token) : Elem :=
  let n := f.dst.toNat
  if n < 8 then { e with d := Tab.put e.d n t.data }
  else
    let x : QEnt := if n = 12 ∨ n = 13 then .bit (t.isData && decide (t.data ≠ 0)) else .tok t
    (reserveOuts f).foldl (fun (e : Elem) q => e.setOutQ q { e.outQ q with ents := fillResv x slot (e.outQ q).ents }) e

/-- The entries of a queue with a CUT ahead of the first one that a split request has reserved. -/
def cutBefore (n : W32) (l : List QEnt) : List QEnt :=
  let free := l.takeWhile fun x => match x with | .resv _ => false | _ => true
  free ++ .cut n :: l.drop free.length
/-- An element whose split request completes while a queue of its destination still waits to take the CUT of the running cut: the CUT
goes in now, ahead of the reserved entry, whose token is a later one (R359, R180; log entry 71). -/
def Elem.cutAhead (e : Elem) (f : FOp) (cut : Option Nat) : Elem :=
  match cut with
  | none => e
  | some n =>
    ((reserveOuts f).filter fun q => e.cutOut.contains q).foldl (fun (e : Elem) q =>
      { e.setOutQ q { e.outQ q with ents := cutBefore (BitVec.ofNat 32 n) (e.outQ q).ents } with cutOut := e.cutOut.erase q }) e
/-- The number of the cut that runs in a hamlet's region. -/
def State.cutNow (s : State) (h : Nat) : Option Nat :=
  match s.regionOf h with
  | some (_, r) => r.cut.map fun c => c.seq
  | none => none

/-- SPE_COMPLETION (R151): the result of a split request lands in its reserved entries with its predicate write, whose toggle takes
the value at the start of the cycle (R55). R151 makes a completion's write to d0–d7 the later one of its cycle and says nothing of
predicates: that its predicate write also lands after the firing's is the model's choice (DESIGN CHOICE, log entry 59). -/
def execSpeCompletion (h site slot : Nat) (s : State) : Out' :=
  let e := s.elem h site
  match e.pend.find? fun p => p.req.slot = slot && p.result.isSome with
  | none => .next s
  | some p =>
    match p.result with
    | none => .next s
    | some res =>
      let e1 := ((e.cutAhead p.req.op (s.cutNow h)).complete p.req.op slot res.1).predWrite (Tab.get (s.ham0 h).elems {} site) p.req.op res.2
      .next (s.setElem h site { e1 with pend := e.pend.filter fun q => q.req.slot ≠ slot })

/-! ### The firing of a request -/

/-- A slot of the element that issues may not fire for its completions (R151): one of its own is pending, or it returns a value and
8 are pending. -/
def State.completionsHold (s : State) (returns : Bool) : Bool :=
  (s.cur.pend.any fun p => decide (p.req.slot = s.curSlot)) || (returns && decide (8 ≤ s.cur.pend.length))

/-- What R280 makes a trough step of the issuing SPE wait for, as things stood at the start of the cycle: a step is performed in its firing's
cycle, so its slot waits for the SPE's pending acquires, and a release for all its requests (R286; log entry 60). -/
def State.troughOrder (s : State) (release : Bool) : Bool :=
  (unperformed s.hamlets0 s.curH s.curSite).any fun q => release || q.kind.acquires

/-- The word's presence permits the request as it stood at the start of the cycle (R159, R161). -/
def permitted0 (s : State) (r : SpeReq) : Bool :=
  match r.kind.wants with
  | none => true
  | some b =>
    (Tab.get s.pres0 false (greenPa r.target.1 r.target.2 / 8) == b) ||
      s.greenRefused (r.agent s) r.target.1 r.target.2 r.size r.kind.writes

/-- The needs of an SPE slot with a request (R151, R161, R274): no completion of its slot pending, fewer than 8 pending for a
value-returning one, a free deferral entry where its own word does not permit it at the start of the cycle, and a free held entry at the start
of the cycle for an outbound posted one. -/
def speNeed (s : State) (f : FOp) (c : OpClass) (x : XClass) (r : Option SpeReq) (posted : Bool) : Need :=
  let blocked :=
    match r with
    | none => false
    | some r =>
      let t := r.target
      let own := ownBank r.srcH r.site t
      (own && !permitted0 s r && decide (8 ≤ (Tab.get (s.ham0 t.1).defer [] (bankOf t.2)).length)) ||
      (r.posted && r.kind.writes && s.outbound r.srcH (greenPa t.1 t.2) && (s.ham0 r.srcH).heldFull)
  { baseNeed c x f with held := s.completionsHold (!posted) || blocked }

/-- A request of a held-mode region that goes to the held entries (R150, R274). -/
def State.toHeld (s : State) (r : SpeReq) : Bool := r.kind.writes && s.outbound r.srcH (greenPa r.target.1 r.target.2)

/-- A request on its way to its bank. -/
def State.ship (s : State) (r : SpeReq) : State :=
  let x := s.ham r.target.1
  s.setHam r.target.1 { x with msgs := x.msgs ++ [r] }

/-- A request sent: it waits in the held-write buffer, an IPUT as a release at hamlet scope (R286), comes to its SPE's own bank, or travels to
its bank (R147, R150, R182). -/
def State.sendSpe (s : State) (r : SpeReq) : State :=
  if s.toHeld r then
    let s1 := if r.posted then s else s.askCut r.srcH (s.elem r.srcH r.site).recorded
    s1.putHeld r.srcH (.spe r) (decide (r.kind = .iput)) (if r.kind = .iput then 1 else 0) (s.elem r.srcH r.site).recorded
  else if ownBank r.srcH r.site r.target then (let w := s.arrive r; if w.1 then w.2 else w.2.ship r)
  else s.ship r

/-- A request that has been issued and does not complete in its firing's cycle: it is sent, or kept until the requests that it has to follow
are performed. An acquire that its word does not permit is deferred at its bank meanwhile (R148, R160, R280; log entry 60). -/
def State.issueSpe (s : State) (r : SpeReq) : State :=
  if s.orderWaits r && !(r.kind.acquires && !s.toHeld r && !permitted s r) then
    let e := s.elem r.srcH r.site
    s.setElem r.srcH r.site { e with sendQ := e.sendQ ++ [r] }
  else s.sendSpe r

/-- A request that its SPE has kept goes on without a wait for one that is deferred or held: it is on its way as much as one that has been sent
(R180). -/
def State.keptMoves (s : State) (h site : Nat) : Bool :=
  ((s.elem h site).sendQ.any fun r => !(r.posted && s.toHeld r && (s.ham h).heldFull)) &&
  (deferredOf s.hamlets h site ++ heldOf s.hamlets h site).isEmpty
/-- An SPE's kept request leaves it. -/
def State.unkeep (s : State) (r : SpeReq) : State :=
  let e := s.elem r.srcH r.site
  s.setElem r.srcH r.site { e with sendQ := e.sendQ.filter fun q => decide (q.issued ≠ r.issued) }
/-- The requests that an SPE has kept are sent, in the order of their issue, each once those that it has to follow are performed and, where it
is an outbound posted one, an entry of the held-write buffer is free (R148, R274, R280). -/
def State.sendKept (s : State) (h site : Nat) : State :=
  (s.elem h site).sendQ.foldl (fun (t : State) r =>
    if t.orderWaits r || (r.posted && t.toHeld r && (t.ham h).heldFull) then t
    else (t.unkeep r).sendSpe r) s

/-- The firing of a green request (R145, R149, R151). A misaligned or malformed address stops the region and lands nothing.
Operands under R23 rules 1 to 3 make no request. A request to an own bank that its word permits completes at once; any
other is sent, its destination entries reserved. -/
def State.fireSpe (s : State) (f : FOp) (c : OpClass) (x : XClass) (kind : SpeKind) (size : Nat) (posted : Bool) (ops : List Token)
    (val : W40) : State :=
  let addr := low32 (s.cur.operand f.a).data
  let e := s.cur
  let r : SpeReq :=
    { kind := kind, srcH := s.curH, site := s.curSite, slot := s.curSlot, addr := addr, size := size, zext := f.x.getLsbD 2,
      val := val, expv := Tab.get e.d 0 f.dst.toNat, op := f, posted := posted, issued := s.cycle,
      after := if e.recorded then s.cutNow s.curH else none }
  match tagRule ops with
  | some t =>
    s.fire f (speNeed s f c x none posted) fun e =>
      if c.dstOk 0 then { e := e, toks := [t], dsts := [f.dst], flag := some false } else { e := e, flag := some false }
  | none =>
    let good := (speAddr s.curH addr).isSome && decide (addr.toNat % size = 0)
    if !good then
      if s.slotReady (speNeed s f c x none posted) then s.requestStop s.curH s.curSite 2 s.curSlot 0 0 addr else s
    else
      let n := speNeed s f c x (some r) posted
      if !s.slotReady n then s
      else
        let t := r.target
        if ownBank r.srcH r.site t && permitted s r && !s.mustQueue r && !s.orderWaits r then
          let w := performSpe s r
          let w1 := if posted && w.2.2.2 then w.1.setCur { w.1.cur with access := w.1.cur.access ||| 1 } else w.1
          w1.fire f n fun e =>
            if posted then { e := e, flag := some false } else { e := e, toks := [w.2.1], dsts := [f.dst], flag := some w.2.2.1 }
        else if posted then (s.fire f n fun e => { e := e, flag := some false }).issueSpe r
        else
          let s1 := s.fire f n fun e => { e := { e with pend := e.pend ++ [{ req := r }] }, flag := none }
          (s1.setCur (s1.cur.reserve f s.curSlot)).issueSpe r

/-- An atomic is posted when it returns nothing and writes no predicate (R151). -/
def atomicPosted (f : FOp) : Bool := decide (f.dst = 15) && !f.pwe
/-- The width of an atomic (R156). -/
def atomicSize (f : FOp) : Nat := if f.x = 1 then 8 else 4

/-- A bank atomic of class A2 (R156). -/
def State.fireAtomic (s : State) (f : FOp) (kind : SpeKind) : State :=
  s.fireSpe f .a2 .w kind (atomicSize f) (atomicPosted f) [s.cur.operand f.a, s.cur.operand f.b] (s.cur.operand f.b).data

/-- LD (R154). -/
def execLd (f : FOp) (s : State) : Out' :=
  .next (s.fireSpe f .a1 .sz .ld (2 ^ (f.x.toNat % 4)) false [s.cur.operand f.a] 0)
/-- ST (R155). -/
def execSt (f : FOp) (s : State) : Out' :=
  .next (s.fireSpe f .n2 .sz4 .st (2 ^ (f.x.toNat % 4)) true [s.cur.operand f.a, s.cur.operand f.b] (s.cur.operand f.b).data)
/-- AADD (R156). -/
def execAadd (f : FOp) (s : State) : Out' := .next (s.fireAtomic f .aadd)
/-- ASUB (R156). -/
def execAsub (f : FOp) (s : State) : Out' := .next (s.fireAtomic f .asub)
/-- AMIN (R156). -/
def execAmin (f : FOp) (s : State) : Out' := .next (s.fireAtomic f .amin)
/-- AMAX (R156). -/
def execAmax (f : FOp) (s : State) : Out' := .next (s.fireAtomic f .amax)
/-- AMINU (R156). -/
def execAminu (f : FOp) (s : State) : Out' := .next (s.fireAtomic f .aminu)
/-- AMAXU (R156). -/
def execAmaxu (f : FOp) (s : State) : Out' := .next (s.fireAtomic f .amaxu)
/-- AAND (R156). -/
def execAand (f : FOp) (s : State) : Out' := .next (s.fireAtomic f .aand)
/-- AOR (R156). -/
def execAor (f : FOp) (s : State) : Out' := .next (s.fireAtomic f .aor)
/-- AXOR (R156). -/
def execAxor (f : FOp) (s : State) : Out' := .next (s.fireAtomic f .axor)
/-- ASWAP (R156). -/
def execAswap (f : FOp) (s : State) : Out' := .next (s.fireAtomic f .aswap)
/-- ACAS (R157): the expected value is dn at the firing; the old word returns into dn. -/
def execAcas (f : FOp) (s : State) : Out' :=
  .next (s.fireSpe f .d3 .w .acas (atomicSize f) false [s.cur.operand f.a, s.cur.operand f.b] (s.cur.operand f.b).data)
/-- AFADD (R158). -/
def execAfadd (f : FOp) (s : State) : Out' :=
  .next (s.fireSpe f .a2 .z .afadd 4 (atomicPosted f) [s.cur.operand f.a, s.cur.operand f.b] (s.cur.operand f.b).data)
/-- ITAKE (R159). -/
def execItake (f : FOp) (s : State) : Out' := .next (s.fireSpe f .a1 .z .itake 8 false [s.cur.operand f.a] 0)
/-- IPUT (R159). -/
def execIput (f : FOp) (s : State) : Out' :=
  .next (s.fireSpe f .n2 .z .iput 8 true [s.cur.operand f.a, s.cur.operand f.b] (s.cur.operand f.b).data)
/-- IREAD (R159). -/
def execIread (f : FOp) (s : State) : Out' := .next (s.fireSpe f .a1 .z .iread 8 false [s.cur.operand f.a] 0)
/-- ICLR (R159). -/
def execIclr (f : FOp) (s : State) : Out' := .next (s.fireSpe f .n1 .z .iclr 8 true [s.cur.operand f.a] 0)

/-! ### Troughs (R162 to R165) -/

/-- Trough n of a hamlet. -/
def State.trough (s : State) (h n : Nat) : Trough := Tab.get (s.ham h).troughs {} n
/-- The state with a trough replaced. -/
def State.setTrough (s : State) (h n : Nat) (t : Trough) : State :=
  s.setHam h { s.ham h with troughs := Tab.put (s.ham h).troughs n t }
/-- Word 0 keeps its limits (R162). -/
def Trough.word0Ok (t : Trough) : Bool :=
  let n := t.count.toNat
  decide (t.base.toNat % 32 = 0 ∧ t.base.toNat < 0x200000 ∧ 5 ≤ t.log2.toNat ∧ t.log2.toNat ≤ 12 ∧ t.en.toNat ≤ 1 ∧ 1 ≤ n ∧
    n ≤ 4096 ∧ t.base.toNat + n * 2 ^ t.log2.toNat ≤ 0x200000)
/-- Word 1 keeps its limits against the slot count (R162). -/
def Trough.word1Ok (t : Trough) : Bool :=
  let n := t.count.toNat
  decide (t.free.toNat ≤ n ∧ t.filled.toNat ≤ n ∧ t.claimed.toNat ≤ n ∧ t.taken.toNat ≤ n ∧
    t.free.toNat + t.filled.toNat + t.claimed.toNat + t.taken.toNat = n)
/-- Word 2 keeps its limits against the slot count (R162). -/
def Trough.word2Ok (t : Trough) : Bool :=
  let n := t.count.toNat
  decide (t.ci.toNat < n ∧ t.mi.toNat < n ∧ t.ti.toNat < n ∧ t.fi.toNat < n)
/-- The descriptor is usable: enabled, and words 1 and 2 meet their limits (R162). -/
def Trough.usable (t : Trough) : Bool := t.en.getLsbD 0 && t.word1Ok && t.word2Ok
/-- The green offset of a slot (R162). -/
def Trough.slotAt (t : Trough) (i : W16) : Nat := t.base.toNat + i.toNat * 2 ^ t.log2.toNat
/-- The next index, modulo the slot count (R162). -/
def Trough.next (t : Trough) (i : W16) : W16 := if i.toNat + 1 = t.count.toNat then 0 else i + 1
/-- Slots free at the start of the cycle, less those claimed since (R165). -/
def Trough.freeNow (t : Trough) : Nat := t.free.toNat - t.freed
/-- Slots filled at the start of the cycle, less those taken since (R165). -/
def Trough.filledNow (t : Trough) : Nat := t.filled.toNat - t.committed
/-- Slots claimed at the start of the cycle, less those committed since (R165). -/
def Trough.claimedNow (t : Trough) : Nat := t.claimed.toNat - t.clm
/-- Slots taken at the start of the cycle, less those freed since (R165). -/
def Trough.takenNow (t : Trough) : Nat := t.taken.toNat - t.tkn
/-- Slots filled at the start of the cycle (R54, R165). -/
def Trough.filled0 (t : Trough) : Nat := t.filledNow + t.tkn
/-- Slots free at the start of the cycle (R54, R165). -/
def Trough.free0 (t : Trough) : Nat := t.freeNow + t.clm
/-- The trough at the start of a cycle: no step of it is counted. -/
def Trough.settle (t : Trough) : Trough := { t with committed := 0, freed := 0, clm := 0, tkn := 0 }
/-- One slot claimed (R164). -/
def Trough.claim (t : Trough) : Trough := { t with ci := t.next t.ci, free := t.free - 1, claimed := t.claimed + 1, clm := t.clm + 1 }
/-- The oldest claimed slot committed (R164). -/
def Trough.commit (t : Trough) : Trough :=
  { t with mi := t.next t.mi, claimed := t.claimed - 1, filled := t.filled + 1, committed := t.committed + 1 }
/-- The oldest filled slot taken (R164). -/
def Trough.take (t : Trough) : Trough := { t with ti := t.next t.ti, filled := t.filled - 1, taken := t.taken + 1, tkn := t.tkn + 1 }
/-- The oldest taken slot freed (R164). -/
def Trough.release (t : Trough) : Trough :=
  { t with fi := t.next t.fi, taken := t.taken - 1, free := t.free + 1, freed := t.freed + 1 }

/-- The trough that a trough instruction names, if its predicate is bound (R163). -/
def Elem.boundTrough (e : Elem) (f : FOp) : Option Nat := if f.x = 0 then e.bind4 else e.bind5

/-- A step of a trough has to wait (R361): its issuer has recorded in the running cut and not every agent has. -/
def State.troughWaits (s : State) : Bool :=
  s.afterWait (some s.curH) (s.cur.recorded && (s.cutNow s.curH).isSome) s.curH

/-- What holds a trough instruction: the completions of its element (R151), its own condition (R164), a cut that has recorded its
element (R361), and the order of R280 as at the start of the cycle (log entry 60). -/
def State.troughNeed (s : State) (f : FOp) (c : OpClass) (writes : Bool) (ready : Trough → Bool) : Need :=
  let t := s.trough s.curH ((s.cur.boundTrough f).getD 0)
  { baseNeed c .tb f with
    held := s.completionsHold (decide (c = .a0)) ||
      ((s.cur.boundTrough f).isSome && t.usable && (!ready t || (writes && s.troughWaits) || s.troughOrder (decide (c = .n1)))) }

/-- The firing of a trough instruction. `ready` holds it, `step` gives the trough after it with the value and flag it
returns, or none where the region stops with cause "trough" (R164); an unusable trough stops it too (R162). `writes` tells whether
it changes the trough. -/
def State.fireTrough (s : State) (f : FOp) (c : OpClass) (ops : List Token) (writes : Bool) (ready : Trough → Bool)
    (step : Trough → Option (Trough × W40 × Bool)) : State :=
  match tagRule ops with
  | some _ => s.fire f { baseNeed c .tb f with held := s.completionsHold (decide (c = .a0)) } fun e => { e := e, flag := some false }
  | none =>
    let n := (s.cur.boundTrough f).getD 0
    let t := s.trough s.curH n
    let need := s.troughNeed f c writes ready
    if !s.slotReady need then s
    else
      match (if (s.cur.boundTrough f).isSome && t.usable then step t else none) with
      | none => s.requestStop s.curH s.curSite 3 s.curSlot n 0 0
      | some w =>
        (s.setTrough s.curH n w.1).fire f need fun e =>
          if c = .a0 then Fire.one e f (dataTok w.2.1, w.2.2) else { e := e, flag := some w.2.2 }

/-- TCLAIM (R164). -/
def execTclaim (f : FOp) (s : State) : Out' :=
  .next (s.fireTrough f .a0 [] true (fun t => decide (0 < t.freeNow)) fun t => some (t.claim, intRes (t.slotAt t.ci), true))
/-- TCOMMIT (R164). -/
def execTcommit (f : FOp) (s : State) : Out' :=
  let a := s.cur.operand f.a
  .next (s.fireTrough f .n1 [a] true (fun _ => true) fun t =>
    if t.claimedNow = 0 ∨ uint a.data ≠ t.slotAt t.mi then none else some (t.commit, 0, false))
/-- TTAKE (R164). -/
def execTtake (f : FOp) (s : State) : Out' :=
  .next (s.fireTrough f .a0 [] true (fun t => decide (0 < t.filledNow)) fun t => some (t.take, intRes (t.slotAt t.ti), true))
/-- TFREE (R164). -/
def execTfree (f : FOp) (s : State) : Out' :=
  let a := s.cur.operand f.a
  .next (s.fireTrough f .n1 [a] true (fun _ => true) fun t =>
    if t.takenNow = 0 ∨ uint a.data ≠ t.slotAt t.fi then none else some (t.release, 0, false))
/-- TSTAT (R164): the counters as they stood at the start of the cycle. -/
def execTstat (f : FOp) (s : State) : Out' :=
  .next (s.fireTrough f .a0 [] false (fun _ => true) fun t =>
    some (t, intRes (t.filled0 % 8192 + 8192 * (t.free0 % 8192)), decide (t.filled0 ≠ 0)))

/-! ### Writes on their way (R240, R258, R277) -/

/-- The bytes of a write that an SPE's posted store stands for. -/
def storeCells (r : SpeReq) : List (Nat × Byte) := cellsAt (greenPa r.target.1 r.target.2) (leBytes r.size r.val.toNat)
/-- The cells that a held entry of the reeve will write. -/
def HeldOp.reeveCells (x : HeldOp) : List (Nat × Byte) :=
  match x with
  | .write 3 _ l => l
  | _ => []
/-- The cells that a held entry of the SE at a site will write. -/
def HeldOp.seCells (x : HeldOp) (site : Nat) : List (Nat × Byte) :=
  match x with
  | .write 1 st l => if st = site then l else []
  | _ => []

/-- The writes of a core that are still on their way, oldest first: its hamlet's held entries, then its store buffer (R240). -/
def State.ownWrites (s : State) (c : CoreId) : List (Nat × Byte) :=
  (match c with | .reeve h => (s.ham h).held.flatMap fun e => e.op.reeveCells | .beadle => []) ++
  ((s.coreOf c).storeBuf.flatMap fun e => cellsAt e.pa e.bytes)
/-- Memory as a core reads it: its own writes on their way laid over (R240, R258). -/
def State.seenBy (s : State) (c : CoreId) (m : Mem) : Mem := m.writeCells (s.ownWrites c)
/-- A byte of memory as an agent reads it: its own newest write, else what memory answered. -/
def newest (w : List (Nat × Byte)) (pa : Nat) (b : Byte) : Byte := w.foldl (fun (x : Byte) c => if c.1 = pa then c.2 else x) b
/-- Bytes read at an address with an agent's writes on their way laid over them. -/
def layOver (w : List (Nat × Byte)) (pa : Nat) (b : List Byte) : List Byte := b.zipIdx.map fun p => newest w (pa + p.2) p.1

end Sys2Proof.Machine
end

