-- ==== Sys2Proof/Machine/MeBase.lean ====
section
/-! DEFINITION. The parts of the matrix element that its own instructions, its operations and the streams share: plane counts and
slots (R184, R185), quantization (R187, R189, R190), the tile that a fill builds, the accumulators and the conditions on them
(R198, R199, R209). -/
namespace Sys2Proof.Machine
open Sys2Proof

/-! ### Planes and slots -/

/-- The plane count of a format; 0 where it is no operand (R184). -/
def fmtPlanes (id : Nat) : Nat :=
  match id with
  | 0 | 12 => 2
  | 2 | 4 | 14 | 16 => 3
  | 1 | 3 | 13 | 15 | 18 | 19 | 5 | 6 => 4
  | 9 | 17 | 7 | 8 => 8
  | 10 | 11 => 11
  | _ => 0
/-- An integer operand (R184). -/
def fmtIntOperand (id : Nat) : Bool := decide (5 ≤ id ∧ id ≤ 8)
/-- The number of slots of a master width (R185). -/
def slotCount (planes : Nat) : Nat :=
  match planes with
  | 2 => 6
  | 3 => 3
  | 4 => 2
  | _ => 1
/-- The first plane of a slot and the first beyond it (R185). -/
def slotPlanes (planes s : Nat) : Nat × Nat :=
  match planes with
  | 2 => (2 * s, 2 * s + 2)
  | 3 => (4 * s, 4 * s + 3)
  | 4 => (6 * s, 6 * s + 4)
  | p => (0, p)
/-- Two spans of planes overlap. -/
def planesMeet (x y : Nat × Nat) : Bool := decide (x.1 < y.2 ∧ y.1 < x.2)

/-- Row r of the row buffer. -/
def ME.row (x : ME) (r : Nat) : MeRow := Tab.get x.rows {} r
/-- Tile slot t. -/
def ME.tile (x : ME) (t : Nat) : Tile := Tab.get x.tiles {} t
/-- Accumulator n. -/
def ME.acc (x : ME) (n : Nat) : Acc := Tab.get x.accs {} n
/-- The ME with an accumulator replaced. -/
def ME.setAcc (x : ME) (n : Nat) (a : Acc) : ME := { x with accs := Tab.put x.accs n a }
/-- An element of an accumulator; an invalid accumulator reads +0 (R199). -/
def Acc.read (a : Acc) (r c : Nat) : W32 := if a.valid then Tab.get a.vals 0 (128 * r + c) else 0
/-- An accumulator whose content is written: valid and dirty (R199). -/
def Acc.wrote (a : Acc) (vals : Tab W32) : Acc := { a with vals := vals, valid := true, dirty := true }
/-- The content that a write into an accumulator starts from: an invalid one holds +0 (R199). -/
def Acc.content (a : Acc) : Tab W32 := if a.valid then a.vals else []
/-- A table with a row of 128 values written. -/
def putRow (t : Tab W32) (r : Nat) (vs : List W32) : Tab W32 :=
  (vs.zipIdx).foldl (fun (t : Tab W32) p => Tab.put t (128 * r + p.2) p.1) t

/-- Whether a tile holds a sparse fill (R195). -/
def Tile.sparse (t : Tile) : Bool := decide (t.npos ≠ 16)

/-! ### Quantization -/

/-- floor(log2) of a finite non-zero element. -/
def MeVal.log (v : MeVal) : Option Int := if v.nonfin ∨ v.m = 0 then none else some (floorLog2 v.m v.e)
/-- The largest floor(log2) over the finite non-zero elements of a group. -/
def groupLog (vs : List MeVal) : Option Int :=
  (vs.filterMap MeVal.log).foldl (fun (a : Option Int) b => match a with | none => some b | some x => some (if x < b then b else x)) none

/-- An element quantized to p planes on the grid 2^e, with its SAT and UFL counts (R187, R189, R190). -/
def quantOne (p : Nat) (g : Int) (v : MeVal) : MeVal × Nat × Nat :=
  if v.nonfin then ({ v with m := 0, e := 0 }, 0, 0)
  else
    let q := (roundGrid .rne false v.m v.e g).1
    if 2 ^ p ≤ q then ({ neg := v.neg, m := 2 ^ p - 1, e := 0 }, 1, 0)
    else ({ neg := v.neg, m := q, e := 0 }, 0, if v.m ≠ 0 ∧ q = 0 then 1 else 0)

/-- A group quantized afresh to p planes: its magnitudes, its exponent and its counts (R187, R189). -/
def quantGroup (p : Nat) (vs : List MeVal) : List MeVal × Int × Nat × Nat :=
  match groupLog vs with
  | none => (vs.map fun v => { v with m := 0, e := 0 }, 0, 0, 0)
  | some top =>
    let g := top - p + 1
    let r := vs.map (quantOne p g)
    (r.map fun x => x.1, g, (r.map fun x => x.2.1).foldl (· + ·) 0, (r.map fun x => x.2.2).foldl (· + ·) 0)

/-- A group of an integer format: exact, with exponent 0 (R187, R191). -/
def exactGroup (vs : List MeVal) : List MeVal × Int × Nat × Nat := (vs, 0, 0, 0)

/-- A group of stored B magnitudes at rung p, from master width P (R190). -/
def narrowGroup (p master : Nat) (vs : List MeVal) (eb : Int) : List MeVal × Int × Nat × Nat :=
  if master ≤ p then (vs, eb, 0, 0)
  else
    let r := vs.map (quantOne p ((master : Int) - p))
    (r.map fun x => x.1, eb + master - p, (r.map fun x => x.2.1).foldl (· + ·) 0, (r.map fun x => x.2.2).foldl (· + ·) 0)

/-! ### The values that feeds and fills receive -/

/-- An exact value as an element: an infinity or NaN is kept as non-finite (R186). -/
def MeVal.ofF (v : FVal) : MeVal :=
  match v with
  | .fin s m e => { neg := s, m := m, e := e }
  | _ => { nonfin := true }
/-- An integer as an element. -/
def MeVal.ofInt (n : Int) : MeVal := { neg := decide (n < 0), m := n.natAbs }

/-- Whether positions ascend strictly (R176). -/
def ascending : List Nat → Bool
  | a :: b :: r => decide (a < b) && ascending (b :: r)
  | _ => true

/-- One (column, group) of a fill: its magnitudes and exponent, with sat and ufl (R187). -/
def fillGroup (fmt : Nat) (vs : List MeVal) : List MeVal × Int × Nat × Nat :=
  if fmtIntOperand fmt then exactGroup vs else quantGroup (fmtPlanes fmt) vs

/-- A tile under construction: the tile, its sat and ufl events, and the number of the first illegal group. -/
structure FillAcc where
  t : Tile
  sat : Nat := 0
  ufl : Nat := 0
  bad : Option Nat := none

/-- A fill's group (column c, group g) added: N values at positions of the stream, N sparse positions (R176, R187). -/
def FillAcc.group (x : FillAcc) (fmt n : Nat) (bench : Bool) (recvd : Tab MeVal) (pos : Tab Nat) (c g : Nat) : FillAcc :=
  let at' (j : Nat) : Nat := 128 * (n * g + j) + c
  let ps := (List.range n).map fun j => if n = 16 then j else Tab.get pos 0 (at' j)
  let legal := ascending ps
  let vs := (List.range n).map fun j => Tab.get recvd {} (at' j)
  let vs' := if bench && !legal then vs.map fun _ => ({} : MeVal) else vs
  let q := fillGroup fmt vs'
  let t1 := (q.1.zipIdx).foldl (fun (t : Tile) p => { t with vals := Tab.put t.vals (128 * c + n * g + p.2) p.1 }) x.t
  let t2 := (ps.zipIdx).foldl (fun (t : Tile) p => { t with posn := Tab.put t.posn (128 * c + n * g + p.2) p.1 }) t1
  { t := { t2 with exps := Tab.put t2.exps (8 * c + g) q.2.1, invalid := t2.invalid || (!bench && !legal) },
    sat := x.sat + q.2.2.1, ufl := x.ufl + q.2.2.2,
    bad := if x.bad.isNone && !bench && !legal then some (8 * c + g) else x.bad }

/-- The tile of a complete fill, with its events and its first illegal group (R187, R176). -/
def fillTile (fmt n : Nat) (bench : Bool) (scale : W32) (recvd : Tab MeVal) (pos : Tab Nat) : FillAcc :=
  (List.range 1024).foldl (fun (x : FillAcc) k => x.group fmt n bench recvd pos (k / 8) (k % 8))
    { t := { full := true, fmt := fmt, npos := n, wscale := if fmt = 19 then scale else 0x3F800000 } }

/-- The macro with slot t of a format being filled: that slot and every other whose planes overlap it are empty (R185). -/
def ME.clearSlots (x : ME) (fmt t : Nat) : ME :=
  { x with tiles := x.tiles.mapVals fun k y =>
      if k = t || (y.full && planesMeet (slotPlanes (fmtPlanes y.fmt) k) (slotPlanes (fmtPlanes fmt) t)) then {} else y }

/-! ### The operation descriptor (R210) -/

/-- First row of block 0. -/
def descRow (d : W32) : Nat := (d.extractLsb' 0 5).toNat
/-- Rows per block. -/
def descM (d : W32) : Nat := (d.extractLsb' 5 5).toNat + 1
/-- Blocks. -/
def descNk (d : W32) : Nat := (d.extractLsb' 10 3).toNat + 1
/-- Slot offset. -/
def descOff (d : W32) : Nat := (d.extractLsb' 13 3).toNat
/-- First accumulator row. -/
def descA0 (d : W32) : Nat := (d.extractLsb' 16 5).toNat
/-- The descriptor passes R210 with a slot base. -/
def descOk (d : W32) (base : BitVec 3) : Bool :=
  decide (descNk d ≤ 6 ∧ descOff d ≤ 5 ∧ d.extractLsb' 21 11 = 0 ∧ descRow d + descM d * descNk d ≤ 32 ∧
    descA0 d + descM d ≤ 32 ∧ base.toNat + descOff d + descNk d ≤ 6)
/-- The first slot of an operation. -/
def MeOp.s0 (o : MeOp) : Nat := o.base.toNat + descOff o.desc
/-- The rows that an operation names. -/
def MeOp.rows (o : MeOp) : List Nat := (List.range (descM o.desc * descNk o.desc)).map fun i => descRow o.desc + i
/-- The slots that an operation names. -/
def MeOp.slots (o : MeOp) : List Nat := (List.range (descNk o.desc)).map fun i => o.s0 + i

/-- A row is held by the operation in flight (R198). -/
def ME.rowHeld (x : ME) (r : Nat) : Bool :=
  match x.att with
  | some a => a.op.rows.contains r
  | none => false
/-- The planes of a slot are held by the operation in flight (R198). -/
def ME.planesHeld (x : ME) (p : Nat × Nat) : Bool :=
  match x.att with
  | some a => a.op.slots.any fun t => planesMeet (slotPlanes (fmtPlanes (x.tile t).fmt) t) p
  | none => false

/-! ### Conditions on accumulators (R209) -/

/-- Pending: a queued or in-flight operation targets n. -/
def ME.pending (x : ME) (n : Nat) : Bool :=
  x.opq.any (fun o => decide (o.acc = n)) || (match x.att with | some a => decide (a.op.acc = n) | none => false)
/-- Under write: an ACCWR of n, or an ACCMOV with target n, runs. -/
def ME.underWrite (x : ME) (n : Nat) : Bool :=
  (match x.wr with | some w => decide (w.acc = n) | none => false) ||
  (match x.mv with | some m => decide (m.dst = n) | none => false)
/-- The sites of the stream elements of a hamlet (R4). -/
def seSites : List Nat := [0, 7, 56, 63]
/-- A stream of an element. -/
def Elem.stream (e : Elem) (n : Nat) : Stream := Tab.get e.streams {} n
/-- Bytes of a copied SCB as a number (R167). -/
def Stream.fld (x : Stream) (off n : Nat) : Nat := leNat ((x.scb.drop off).take n)
/-- The ME target of an SCB: the x of the ME, and the accumulator (R167). -/
def Stream.meX (x : Stream) : Nat := x.fld 22 1 % 8
/-- The accumulator of an SCB (R167). -/
def Stream.meAcc (x : Stream) : Nat := x.fld 22 1 / 8 % 4
/-- A command of a kind that holds the port of the ME at (x,3). -/
def Stream.holds (y : Stream) (k : StKind) (x : Nat) : Bool :=
  decide (y.st = .running) && decide (y.kind = k) && y.port && decide (y.meX = x)
/-- An SDRAIN of accumulator n of the ME at (x,3) of hamlet h runs. -/
def State.drainRuns (s : State) (h x n : Nat) : Bool :=
  seSites.any fun site => (List.range 4).any fun k =>
    let y := (s.elem h site).stream k
    y.holds .sdrain x && decide (y.meAcc = n)
/-- Under read: an ACCRD of n, an ACCMOV with source n or an SDRAIN of n runs. -/
def State.underRead (s : State) (h site n : Nat) : Bool :=
  let x := (s.elem h site).me
  (match x.rd with | some r => decide (r.acc = n) | none => false) ||
  (match x.mv with | some m => decide (m.src = n) | none => false) || s.drainRuns h (site % 8) n

end Sys2Proof.Machine
end

