-- ==== Sys2Proof/Machine/StreamBase.lean ====
section
/-! DEFINITION. What the streams of an SE share: the control block (R167, R168), positions and element addresses (R169 to R171),
reads and writes of elements with the fault policy (R172, R178), and the end of a command (R177). -/
namespace Sys2Proof.Machine
open Sys2Proof

/-- The state with a stream of an element replaced. -/
def State.setStream (s : State) (h site n : Nat) (x : Stream) : State :=
  s.setElem h site { s.elem h site with streams := Tab.put (s.elem h site).streams n x }
/-- A stream. -/
def State.stream (s : State) (h site n : Nat) : Stream := (s.elem h site).stream n
/-- The agent of a stream (R393). -/
def seAgent (s : State) (h site n : Nat) : Agent := { code := 1, ctx := (s.ham h).ctx, ham := some h, site := site, unit := n }
/-- The gather unit that reads the data of a stream's gather commands (R175, R309, R393). -/
def gatherAgent (s : State) (h site n : Nat) : Agent := { seAgent s h site n with code := 5 }

/-! ### The control block (R167) -/

/-- The format id. -/
def Stream.fmt (x : Stream) : Nat := x.fld 16 1 % 32
/-- The dimension count. -/
def Stream.dims (x : Stream) : Nat := x.fld 17 1
/-- The store rounding mode (R73). -/
def Stream.rmode (x : Stream) : StMode := StMode.ofCode (x.fld 18 1 % 4)
/-- The dither phase at the start (R80). -/
def Stream.phase0 (x : Stream) : Nat := x.fld 18 1 / 4 % 16
/-- A flag of the SCB. -/
def Stream.flag (x : Stream) (i : Nat) : Bool := (x.fld 20 2).testBit i
/-- The mode field: 0 inherit, 1 held, 2 free (R300). -/
def Stream.modeF (x : Stream) : Nat := x.fld 20 2 / 4 % 4
/-- The stream addresses a trough slot (R169). -/
def Stream.onTrough (x : Stream) : Bool := x.flag 13
/-- The trough of the SCB. -/
def Stream.trough (x : Stream) : Nat := x.fld 26 1 % 16
/-- First row, or tile slot. -/
def Stream.place (x : Stream) : Nat := x.fld 23 1 % 32
/-- Values of a group that a sparse fill stores; 16 for a dense one (R176). -/
def Stream.npos (x : Stream) : Nat :=
  match x.fld 23 1 / 32 % 4 with
  | 1 => 8
  | 2 => 4
  | _ => 16
/-- The count of dimension d. -/
def Stream.count (x : Stream) (d : Nat) : Nat := x.fld (32 + 4 * d) 4
/-- The stride of dimension d. -/
def Stream.stride (x : Stream) (d : Nat) : Int := (BitVec.ofNat 48 (x.fld (64 + 6 * d) 6)).toInt
/-- The product of the counts of the dimensions below d. -/
def Stream.span (x : Stream) (d : Nat) : Nat := ((List.range d).map x.count).foldl (· * ·) 1
/-- The number of positions. -/
def Stream.total (x : Stream) : Nat := x.span x.dims
/-- The index of dimension d at a position (R169). -/
def Stream.index (x : Stream) (p d : Nat) : Nat := p / x.span d % x.count d
/-- The command reads memory. -/
def StKind.reads (k : StKind) : Bool :=
  match k with
  | .sload | .sgather | .sfeed | .sbfill => true
  | _ => false
/-- The command moves data of an ME. -/
def StKind.matrix (k : StKind) : Bool :=
  match k with
  | .sfeed | .sbfill | .sdrain => true
  | _ => false

/-- Bits [63:57] of a virtual address equal bit 56 (R167). -/
def canonVa (v : Nat) : Bool := decide (v / 2 ^ 56 % 256 = 0 ∨ v / 2 ^ 56 % 256 = 255)

/-- The producer format id of the image's edge record for port 4 (feed) or 5 (fill) of an SE and an ME, if there is one
(R98, R176). -/
def State.edgeFmt (s : State) (h site port x : Nat) : Option Nat :=
  match s.regionOf h with
  | none => none
  | some (f, r) =>
    (r.edges.find? fun e => decide (e.pHam = h - f ∧ e.pSite = site ∧ e.pPort = port ∧ e.cHam = h - f ∧ e.cSite = 24 + x)).map
      fun e => e.pFmt

/-- The rows of a feed or drain: the product of the counts above dimension 0 (R176). -/
def Stream.rows (x : Stream) : Nat := x.span x.dims / Nat.max (x.count 0) 1

/-- A store to an MX or unit format runs consecutively from 0 (R170). -/
def Stream.consecutive (x : Stream) : Bool :=
  !x.flag 12 && (List.range x.dims).all fun d => decide (x.stride d = (x.span d : Int))

/-- The failing status bits of a command's control block (R66, R167, R168, R173, R176). Bits [7:6] of byte 18 and [7:5] of byte 22, for which
R167's table names no outcome, are ignored (DESIGN CHOICE, log entry 78). -/
def Stream.failing (s : State) (h site : Nat) (x : Stream) : W64 :=
  let bit (b : Bool) (k : Nat) : W64 := if b then BitVec.ofNat 64 (2 ^ k) else 0
  let k := x.kind
  let usedCounts := (List.range x.dims).map x.count
  let ind := x.flag 12
  let scb :=
    (!x.onTrough && !canonVa (x.fld 0 8)) || decide (x.fld 16 1 / 32 ≠ 0) || decide (x.dims = 0 ∨ 8 < x.dims) ||
    decide (x.modeF = 3) || decide (5 < x.fld 20 2 / 64 % 8) || decide (5 < x.fld 20 2 / 512 % 8) || decide (x.fld 20 2 / 2 ^ 14 ≠ 0) ||
    decide (x.fld 23 1 / 128 ≠ 0) || decide (x.fld 23 1 / 32 % 4 = 3) ||
    (ind && (!canonVa (x.fld 8 8) || !decide (x.fld 24 1 = 8 ∨ x.fld 24 1 = 21 ∨ x.fld 24 1 = 22) ||
      decide (x.dims ≤ x.fld 25 1 % 8) || decide (x.fld 25 1 / 8 ≠ 0))) ||
    (x.onTrough && decide (x.fld 26 1 / 16 ≠ 0)) || decide (x.fld 27 5 ≠ 0) || decide (x.fld 112 8 ≠ 0) ||
    (List.range 8).any (fun d => decide (x.dims ≤ d) && (decide (x.count d ≠ 0) || decide (x.fld (64 + 6 * d) 6 ≠ 0))) ||
    (decide (k = .sgather ∨ k = .sscatter) && !ind) ||
    (x.onTrough && !(s.trough h x.trough).usable)
  let badFmt :=
    decide (25 ≤ x.fmt) || (decide (k = .sfeed ∨ k = .sbfill) && decide (20 ≤ x.fmt)) || (decide (k = .sdrain) && decide (x.fmt = 19)) ||
    (decide (k = .sbfill) && decide (x.fmt = 18)) ||
    (match (if k = .sfeed then s.edgeFmt h site 4 x.meX else if k = .sbfill then s.edgeFmt h site 5 x.meX else none) with
      | some f => decide (f ≠ x.fmt)
      | none => false)
  let total := x.span x.dims
  let badShape :=
    usedCounts.any (fun c => decide (c = 0)) || decide (2 ^ 32 ≤ total) ||
    (decide (k = .sfeed ∨ k = .sdrain) && !decide (x.count 0 = 128 ∧ 1 ≤ x.rows ∧ x.rows + x.place ≤ 32)) ||
    (decide (k = .sbfill) && !decide (x.count 0 = 128 ∧ x.count 1 = 8 * x.npos ∧ total = 1024 * x.npos)) ||
    (!k.reads && (fmtMx x.fmt || fmtUnit x.fmt) && !x.consecutive)
  let badMode :=
    decide (x.modeF = 2) && s.heldMode h && (match s.regionOf h with | some (_, r) => !r.idem | none => false)
  let badTarget := decide (k = .sbfill) && decide (slotCount (fmtPlanes x.fmt) ≤ x.place)
  bit scb 7 ||| bit badFmt 4 ||| bit badShape 8 ||| bit badMode 9 ||| bit badTarget 12

/-! ### Elements in memory (R69 to R71, R169, R170) -/

/-- Where an element lies: its header's address and length, its first byte, its shift in that byte and its bytes. -/
structure ElemAt where
  hdr : Option (Nat × Nat)
  at' : Nat
  sh : Nat
  nb : Nat

/-- The address a byte offset beyond a base, modulo 2^64. -/
def addOff (base : Nat) (off : Int) : Nat := (((base : Int) + off) % (2 ^ 64 : Int)).toNat

/-- The bytes of a super-block (R70). -/
def superBytes (id : Nat) : Nat := 32 + 1024 * fmtBits id / 8

/-- The place of element k of a format counted from a base; none for a negative element of an MX or unit format (R170). -/
def elemAt (id base : Nat) (k : Int) : Option ElemAt :=
  let w := fmtBits id
  if fmtMx id then
    if k < 0 then none
    else
      let n := k.toNat
      let sb := base + n / 1024 * superBytes id
      let b := n % 1024 * w
      some { hdr := some (sb + n % 1024 / 32, 1), at' := sb + 32 + b / 8, sh := b % 8, nb := (b % 8 + w + 7) / 8 }
  else if fmtUnit id then
    if k < 0 then none
    else
      let n := k.toNat
      let u := base + n / unitLen id * (32 + unitLen id)
      some { hdr := some (u, 32), at' := u + 32 + n % unitLen id, sh := 0, nb := 1 }
  else
    let b : Int := k * w
    let sh := (b % 8).toNat
    some { hdr := none, at' := addOff base (b / 8), sh := sh, nb := (sh + w + 7) / 8 }

/-- The base that element numbers count from: the SCB's, or the slot of the trough (R169). -/
def Stream.base (x : Stream) : Nat := if x.onTrough then x.slot.getD 0 else x.fld 0 8

/-- An element of a trough stream lies inside its slot (R169). -/
def State.inSlot (s : State) (h : Nat) (x : Stream) (e : ElemAt) : Bool :=
  !x.onTrough ||
  decide (x.base ≤ e.at' ∧ e.at' + e.nb ≤ x.base + 2 ^ (s.trough h x.trough).log2.toNat)

/-- The outcome of a step at an element: done, waiting, a fault with its code, address and access, or status shape. -/
inductive SRes (α : Type) where
  | ok (v : α) (x : Stream) (s : State)
  | wait (s : State)
  | fault (code va : Nat) (w : Want) (s : State)
  | shape (s : State)

/-- The physical address of a stream's byte: a green offset for a trough stream, else translated (R169). -/
def State.seTranslate (s : State) (h site n : Nat) (x : Stream) (v : Nat) (w : Want) : XRes :=
  if x.onTrough then .ok (greenPa h v) s
  else s.translate (seAgent s h site n) ((s.ham h).ctx.getD 0) v w

/-- The address that a fault of a stream names (R169). -/
def Stream.faultVa (h : Nat) (x : Stream) (v : Nat) : Nat := if x.onTrough then greenPa h v else v

/-- The stream as it reads its index run, whose base is a virtual address also where the elements lie in a trough (R169). -/
def Stream.indexView (x : Stream) : Stream := { x with line := none, scb := x.scb.set 21 (x.scb.getD 21 0 &&& 0xDF) }

/-- The element numbers of positions of a stream with no indirect dimension (R169). -/
def Stream.directNumber (x : Stream) (p : Nat) : Int :=
  ((List.range x.dims).map fun d => (x.index p d : Int) * x.stride d).foldl (· + ·) 0
/-- The value of an index element (R68, R169). -/
def indexValue (fmt code : Nat) : Int :=
  match fmt with
  | 8 => code
  | 22 => (BitVec.ofNat 16 code).toInt
  | _ => (BitVec.ofNat 32 code).toInt
/-- The bytes of an index element. -/
def Stream.indexBytes (x : Stream) : Nat := fmtBits (x.fld 24 1) / 8
/-- The virtual address of the index that a position of an indirect stream takes (R169). -/
def Stream.indexAt (x : Stream) (p : Nat) : Nat := addOff (x.fld 8 8) (x.index p (x.fld 25 1 % 8) * x.indexBytes : Nat)
/-- The element number of a position of an indirect stream, with the code of its index (R169). -/
def Stream.indirectNumber (x : Stream) (p code : Nat) : Int :=
  let k := x.fld 25 1 % 8
  let others := ((List.range x.dims).filter (· ≠ k)).map fun d => (x.index p d : Int) * x.stride d
  others.foldl (· + ·) 0 + indexValue (x.fld 24 1) code * x.stride k

/-- The quadrant and bank group of a granary address, as one number. -/
def groupAt (pa : Nat) : Option Nat :=
  match placeOf pa with
  | .granary q off => some (4 * q + groupOf off)
  | _ => none
/-- The place of the sparse position that goes with a position of a fill: its byte in the index run and its shift there; none for a dense
fill (R176). -/
def Stream.posnAt (x : Stream) (p : Nat) : Option (Nat × Nat) :=
  if x.kind ≠ .sbfill ∨ x.npos = 16 then none
  else
    let i := (8 * (p % 128) + p / 128 / x.npos) * x.npos + p / 128 % x.npos
    some (addOff (x.fld 8 8) (i / 2 : Nat), 4 * (i % 2))
/-- The element of a position, as the tables, the ranges and the index run now give it. -/
def State.peekElem (s : State) (h site n : Nat) (x : Stream) (p : Nat) : Option ElemAt :=
  let k : Option Int :=
    if x.flag 12 then
      match s.seTranslate h site n x.indexView (x.indexAt p) .load with
      | .ok pa _ => some (x.indirectNumber p (s.mem.readLE pa x.indexBytes))
      | _ => none
    else some (x.directNumber p)
  k.bind fun i => elemAt x.fmt x.base i
/-- The reads that a run of positions makes: addresses in order, each with whether it is of the index run; then the sector and the header
that are kept. -/
structure Peek where
  at' : List (Bool × Nat) := []
  line : Option Nat := none
  hdr : Option Nat := none
/-- The reads of a position behind those before it: its sparse position, its index, its header where that is not the one kept, and its
element's sectors but for one that is kept. -/
def State.peekPos (s : State) (h site n : Nat) (x : Stream) (a : Peek) (p : Nat) : Peek :=
  let run := (x.posnAt p).toList.map (·.1) ++
    (if x.flag 12 then (splitSectors (x.indexBytes + 1) (x.indexAt p) x.indexBytes).map (·.1) else [])
  let b : Peek := { a with at' := a.at' ++ run.map fun v => (true, v) }
  match s.peekElem h site n x p with
  | none => b
  | some e =>
    let c : Peek := match e.hdr with
      | some (u, m) =>
        if b.hdr = some u ∧ !x.flag 12 then b
        else { at' := b.at' ++ (splitSectors (m + 1) u m).map fun q => (false, q.1), line := none, hdr := some u }
      | none => b
    (splitSectors (e.nb + 1) e.at' e.nb).foldl (fun (d : Peek) q =>
      if d.line = some (q.1 / 32) ∧ !x.flag 12 then d else { d with at' := d.at' ++ [(false, q.1)], line := some (q.1 / 32) }) c
/-- The sectors in a bank group that a stream still reads behind its access to v: those of the same position and of the positions that come
after it. -/
def State.sectorsAfter (s : State) (h site n v g : Nat) : Nat :=
  let x := s.stream h site n
  let all := ((List.range x.total).drop x.pos).foldl (fun a p => s.peekPos h site n x a p)
    { line := x.line.map fun q => q.1 / 32, hdr := x.hdr.map (·.1) }
  let rest := (all.at'.dropWhile fun q => decide (q.2 / 32 ≠ v / 32)).drop 1
  (rest.filter fun q =>
    match s.seTranslate h site n (if q.1 then x.indexView else x) q.2 .load with
    | .ok pa _ => decide (groupAt pa = some g)
    | _ => false).length
/-- A stream has the SE's port in this cycle, of those that wait at the windows of a quadrant, which share it in round robin (R172). -/
def State.portTurn (s : State) (h site n q : Nat) : Bool :=
  let waits := (List.range 4).filter fun k => (s.quad q).waiters.any fun w => decide (w / 4 = (seAgent s h site k).key)
  !waits.contains n || decide (waits.getD (s.cycle % waits.length) n = n)
/-- The agent of a stream's access at a physical address. Where it meets an open refresh window, what the stream reads behind it in that group
goes on reaching the window while that is open, at the rate of the port (R270, R271; DESIGN CHOICE, log entry 63). -/
def State.seReader (s : State) (h site n v pa : Nat) : Agent :=
  let a := seAgent s h site n
  match placeOf pa with
  | .granary q off =>
    if (s.quad q).openG = some (groupOf off) ∧ s.portTurn h site n q then
      { a with more := s.sectorsAfter h site n v (4 * q + groupOf off) }
    else a
  | _ => a

/-- The bytes of one sector piece: from the sector read last, or by one access of the whole sector, which is then kept for the
positions that follow; an indirect stream reads each position separately (R172, R175). -/
def State.sePiece (s : State) (h site n : Nat) (x : Stream) (v m : Nat) : SRes (List Byte) :=
  let base := v - v % 32
  let slice (b : List Byte) : List Byte := (b.drop (v % 32)).take m
  match x.line with
  | some (a, b) => if a = base ∧ !x.flag 12 then .ok (slice b) x s else miss
  | none => miss
where
  miss : SRes (List Byte) :=
    match s.seTranslate h site n x v .load with
    | .wait t => .wait t
    | .err t => .fault 3 (x.faultVa h v) .load t
    | .fault k t => .fault k (x.faultVa h v) .load t
    | .ok pa t =>
      match t.readPhys (t.seReader h site n v pa) (pa - pa % 32) 32 with
      | .ok b u => .ok ((b.drop (v % 32)).take m) { x with line := some (v - v % 32, b) } u
      | .wait u => .wait u
      | .err u => .fault 3 (x.faultVa h v) .load u

/-- The bytes of several sector pieces, in order. -/
def State.sePieces (s : State) (h site n : Nat) (x : Stream) : List (Nat × Nat) → List Byte → SRes (List Byte)
  | [], acc => .ok acc x s
  | p :: r, acc =>
    match s.sePiece h site n x p.1 p.2 with
    | .ok b y t => State.sePieces t h site n y r (acc ++ b)
    | .wait t => .wait t
    | .fault k v w t => .fault k v w t
    | .shape t => .shape t

/-- m bytes at an address of a stream. -/
def State.seBytes (s : State) (h site n : Nat) (x : Stream) (v m : Nat) : SRes (List Byte) :=
  s.sePieces h site n x (splitSectors (m + 1) v m) []

/-- The element number of a position: the sum of index times stride, the indirect dimension taking its value from the index
run (R169). The element's own sector stays the one kept. -/
def State.elemNumber (s : State) (h site n : Nat) (x : Stream) (p : Nat) : SRes Int :=
  if x.flag 12 then
    match s.seBytes h site n x.indexView (x.indexAt p) x.indexBytes with
    | .ok b _ t => .ok (x.indirectNumber p (leNat b)) x t
    | .wait t => .wait t
    | .fault c v w t => .fault c v w t
    | .shape t => .shape t
  else .ok (x.directNumber p) x s

/-- The raw element of a position: its number, its code and its header's bytes. -/
structure Raw where
  n : Int
  code : Nat
  hdr : List Byte

/-- The header of an element, kept while the positions stay in its block or unit; an indirect stream reads each position separately
(R175, R294). -/
def State.readHdr (s : State) (h site n : Nat) (x : Stream) (e : ElemAt) : SRes (List Byte) :=
  match e.hdr with
  | none => .ok [] x s
  | some (a, m) =>
    match x.hdr with
    | some (a', b) => if a' = a ∧ !x.flag 12 then .ok b x s else fetch a m
    | none => fetch a m
where
  fetch (a m : Nat) : SRes (List Byte) :=
    match s.seBytes h site n { x with line := none } a m with
    | .ok b _ t => .ok b { x with hdr := some (a, b) } t
    | .wait t => .wait t
    | .fault c v w t => .fault c v w t
    | .shape t => .shape t

/-- A refused fault of the stream stands at a position: it acts there, whatever the tables now hold (R352). -/
def Stream.refusedAt (x : Stream) (p : Nat) : Bool := x.refused && decide (x.fpos = p)

/-- The element of a position read (R169, R172). -/
def State.readElem (s : State) (h site n : Nat) (x : Stream) (p : Nat) : SRes Raw :=
  if x.refusedAt p then .fault x.fcode 0 .load s
  else
  match s.elemNumber h site n x p with
  | .wait t => .wait t
  | .fault c v w t => .fault c v w t
  | .shape t => .shape t
  | .ok k y t =>
    match elemAt y.fmt y.base k with
    | none => .shape t
    | some e =>
      if !t.inSlot h y e then .shape t
      else
        match t.readHdr h site n y e with
        | .wait u => .wait u
        | .fault c v w u => .fault c v w u
        | .shape u => .shape u
        | .ok hd z u =>
          match u.seBytes h site n z e.at' e.nb with
          | .wait q => .wait q
          | .fault c v w q => .fault c v w q
          | .shape q => .shape q
          | .ok b z' q =>
            .ok { n := k, code := leNat b / 2 ^ e.sh % 2 ^ fmtBits y.fmt, hdr := hd } z' q

/-- Reserved bytes of a unit header are set (R85). -/
def Raw.badHdr (r : Raw) : Bool := (r.hdr.drop 4).any fun b => decide (b ≠ 0)
/-- The element reads as NaN for a reserved code in service mode (R85). -/
def Raw.reserved (r : Raw) (fmt : Nat) (bench : Bool) : Bool :=
  !bench && ((decide (fmt = 11) && decide (r.code % 2 ^ 13 ≠ 0)) || (fmtUnit fmt && r.badHdr))
/-- The unit that an element of ids 18 and 19 lies in (R71). -/
def Raw.unit (r : Raw) (fmt : Nat) : Nat := r.n.toNat / unitLen fmt
/-- A format fault is counted at this element: once per element, or once per unit, of those that the command has not counted (R85;
log entry 83). -/
def Raw.counts (r : Raw) (fmt : Nat) (units : List Nat) (bench : Bool) : Bool :=
  r.reserved fmt bench && (decide (fmt = 11) || !units.contains (r.unit fmt))
/-- The scale of a unit's header. -/
def Raw.scale (r : Raw) : W32 := BitVec.ofNat 32 (leNat (r.hdr.take 4))

/-- The token of a loaded element (R72, R85). -/
def Raw.token (r : Raw) (fmt : Nat) (bench : Bool) : Token :=
  if r.reserved fmt bench then dataTok f40Nan
  else if fmtInt fmt then dataTok (intField (intOfCode fmt r.code))
  else if fmt = 24 then dataTok (BitVec.ofNat 40 r.code)
  else if fmtMx fmt then dataTok (f40Round .rne (mxValue fmt (leNat r.hdr) r.code))
  else if fmtUnit fmt then dataTok (f40Round .rne (unitValue r.scale r.code))
  else dataTok (f40Round .rne (elemValue fmt r.code))

/-- A finite FP32 scale. -/
def finite32 (w : W32) : Bool := decide (w.extractLsb' 23 8 ≠ 0xFF)

/-- The exact value of an element fed or filled; of a unit the E4M3 element alone (R186, R187, R85, R71). -/
def Raw.meVal (r : Raw) (fmt : Nat) (bench : Bool) : MeVal :=
  if r.reserved fmt bench then { nonfin := true }
  else if fmtInt fmt then MeVal.ofInt (intOfCode fmt r.code).toInt
  else if fmtMx fmt then MeVal.ofF (mxValue fmt (leNat r.hdr) r.code)
  else if fmtUnit fmt then (if finite32 r.scale then MeVal.ofF (elemValue fmt r.code) else { nonfin := true })
  else MeVal.ofF (elemValue fmt r.code)

/-- Bench mode of a hamlet's region. -/
def State.bench (s : State) (h : Nat) : Bool :=
  match s.regionOf h with
  | some (_, r) => r.bench
  | none => false

/-- k format faults counted by an SE, with status bit "format" (R85). -/
def State.formatFaults (s : State) (h site : Nat) (x : Stream) (k : Nat) : Stream × State :=
  if k = 0 then (x, s)
  else
    ({ x with wstat := x.wstat ||| 0x10 },
     s.setElem h site { s.elem h site with fmtFault := sat32 (s.elem h site).fmtFault k })
/-- The format fault of an element read, where it counts one; its unit is not counted again by the command (R85). -/
def State.formatFault (s : State) (h site : Nat) (x : Stream) (r : Raw) : Stream × State :=
  if r.counts x.fmt x.units (s.bench h) then
    s.formatFaults h site { x with units := if fmtUnit x.fmt then x.units ++ [r.unit x.fmt] else x.units } 1
  else (x, s)

/-! ### The end of a command (R168, R177) -/

/-- Whether a write of the SE to its own green has to wait for the record points of a running cut (R361). -/
def State.ownWait (s : State) (h site : Nat) : Bool := s.afterWait (some h) (s.elem h site).recorded h

/-- The status word: the bits of the command, with those of its conversion counters (R177). -/
def Stream.word (x : Stream) : W64 :=
  x.wstat ||| (if x.sat ≠ 0 then 0x20 else 0) ||| (if x.ufl ≠ 0 then 0x40 else 0)
/-- A status word with the position field replaced. -/
def withPos (w : W64) (p : Nat) : W64 := (w &&& 0xFFFFFFFF) ||| (BitVec.ofNat 64 p <<< 32)

/-- The status word written at the SCB; a refused write is lost and logged (R177). -/
def State.writeStatus (s : State) (h site n : Nat) (x : Stream) : State :=
  match s.writeBytesPhys (seAgent s h site n) false (greenPa h (x.scbOff + 120)) (leBytes 8 x.word.toNat) with
  | .ok _ t => t
  | .wait t => t
  | .err t => t

/-- A command that becomes current (R166). -/
def Stream.begin (x : Stream) (k : StKind) (off since : Nat) : Stream :=
  { st := .starting, kind := k, scbOff := off, since := since, status := x.status, lastPos := x.lastPos }

/-- A stream whose command has ended: it is idle, or its queued command becomes current (R166). -/
def Stream.ended (x : Stream) (pos : Nat) : Stream :=
  let y : Stream := { status := x.word, lastPos := pos, sat := x.sat, ufl := x.ufl }
  match x.queued with
  | some (k, off, since) => y.begin k off since
  | none => y

/-- A command ends with further status bits (R177); it waits while its status word would be an after-write (R361). `pos` is what SPOS reads
then; for one that ended neither done nor cancelled R179 names no value, and the model gives the position it had reached, 0 for one whose
check failed (DESIGN CHOICE, log entry 73). -/
def State.endStream (s : State) (h site n : Nat) (x : Stream) (bits : W64) (pos : Nat) : State :=
  let y := { x with wstat := x.wstat ||| bits }
  if s.ownWait h site then s
  else (s.writeStatus h site n y).setStream h site n (y.ended pos)

/-- A command stops on a fault at a position (R178). A feed or fill frees its port of the ME meanwhile (DESIGN CHOICE, log entry 73). -/
def State.stopStream (s : State) (h site n : Nat) (x : Stream) (p : Nat) : State :=
  if s.ownWait h site then s
  else
    let y := { x with wstat := x.wstat ||| 2, st := .stopped, pos := p, port := false, line := none, hdr := none }
    (s.writeStatus h site n y).setStream h site n y

/-- What a fault does to its stream (R178, R352): it waits under stall, with the fault reported; else it is recorded, and the
command goes on or stops. -/
inductive FaultAct where
  | waits (s : State)
  | goes (x : Stream)
  | stops (x : Stream)

/-- The first fault of a command sets its status fields (R178). -/
def Stream.noteFault (x : Stream) (code p : Nat) (bit : W64) : Stream :=
  if x.wstat &&& 0x2008 = 0 then
    { x with wstat := withPos ((x.wstat ||| bit) &&& ~~~0xFF0000 ||| BitVec.ofNat 64 (code % 256 * 2 ^ 16)) p }
  else { x with wstat := x.wstat ||| bit }

/-- A fault of a code met at a position by an access to v. One that was refused acts as under tag with on-fault stop (R352). -/
def State.seFault (s : State) (h site n : Nat) (x : Stream) (p code v : Nat) (w : Want) : FaultAct :=
  let tag := x.flag 0
  if code ≠ 3 ∧ !tag ∧ !x.refused then
    let r := s.reportFault (seAgent s h site n) ((s.ham h).ctx.getD 0) v w code
    .waits (r.2.setStream h site n { x with fault := some r.1, fcode := code, fpos := p })
  else
    let y := { x.noteFault code p 8 with refused := false }
    if x.kind.matrix || x.flag 1 || !tag || x.refused then .stops y else .goes y

/-! ### Positions (R171) -/

/-- The number of leading dimensions that a position completes. -/
def Stream.completed (x : Stream) (p : Nat) : Nat :=
  ((List.range x.dims).takeWhile fun d => decide (x.index p d + 1 = x.count d)).length
/-- The EOD token behind a position: the highest completed rank that the mask allows (R171). -/
def Stream.eodOf (x : Stream) (p : Nat) : Option Token :=
  let mask := x.fld 19 1
  let k := x.completed p
  let last := decide (p + 1 = x.total)
  let ranks := (List.range 8).filter fun r => mask.testBit r && (decide (r < k) || (last && decide (r = 7)))
  ranks.getLast?.map fun r => ⟨BitVec.ofNat 4 (r + 1), BitVec.ofNat 40 (p + 1)⟩
/-- The stream past a position: the dither phase advances each time dimension 1 completes (R80, R171). -/
def Stream.past (x : Stream) (p : Nat) : Stream :=
  { x with pos := p + 1, phase := if 2 ≤ x.completed p then x.phase + 1 else x.phase,
           eod := if x.kind = .sload ∨ x.kind = .sgather then x.eodOf p else none }
/-- The threshold of a dither store at a position (R79). -/
def Stream.threshold (x : Stream) (p : Nat) : Nat :=
  if x.kind = .sdrain then ditherT (x.place + p / 128) x.phase.toNat (p % 128)
  else ditherT (if 2 ≤ x.dims then x.index p 1 else 0) x.phase.toNat (x.index p 0)

/-- Whether the streams of an element act: its region runs; before a stopped cut only a gather goes on to its end (R181, R368). -/
def State.streamRuns (s : State) (h : Nat) (x : Stream) : Bool :=
  match s.regionOf h with
  | none => false
  | some (_, r) =>
    decide (r.st = .armed) && !r.frozen && r.fallow.isNone && (s.ham h).powered &&
    (x.gather.isSome || !x.gtoks.isEmpty ||
      (!r.pre && r.stopping.isNone && !(match r.cut with | some c => c.stopped | none => false)))

/-- A gather command of the stream is under way. One that waits on a translation fault is not: it is recorded as not issued, and its reads are
made afresh from its first position (R301, R353). -/
def Stream.gathering (x : Stream) : Bool := x.gather.isSome && x.fault.isNone
/-- A stream as a cut records it: what it has read ahead, and a gather that waits on a fault, are read again (R181, R353). -/
def Stream.recorded (x : Stream) : Stream :=
  { x with moved := false, fault := none, line := none, hdr := none, gather := none }

/-- A stream that may act now: it waits on no fault, unless it is to end, and has moved no token in this cycle. -/
def Stream.active (x : Stream) : Bool := decide (x.st = .running) && (x.fault.isNone || x.cancelling) && !x.moved

end Sys2Proof.Machine
end

