-- ==== Sys2Proof/Machine/Stream.lean ====
section
/-! DEFINITION. The meanings of the stream element's instructions and of its streams' steps: loads, stores, scatters and gathers
(R166 to R181, R309). -/
namespace Sys2Proof.Machine
open Sys2Proof

/-! ### Instructions (R166, R173, R179) -/

/-- The green offset of an SCB that a start names: 128-byte aligned, in R146 form with bit 31 = 0 (R166). -/
def scbAddr (v : W32) : Option Nat :=
  if v.extractLsb' 21 11 = 0 ∧ v.toNat % 128 = 0 then some v.toNat else none

/-- The flag of an instruction whose flag the spec does not state, drawn where a predicate takes it (log entry 11). -/
def State.openFlag (s : State) (f : FOp) : Bool × State :=
  if f.pwe && decide (f.pmode = 0) then (s.takeFree.1.getLsbD 0, s.takeFree.2) else (false, s)

/-- The stream that an instruction names (R96). -/
def streamNo (f : FOp) : Nat := f.x.toNat % 4

/-- The firing of a start (R166, R173, R176): the command becomes current, or is queued behind the current one. -/
def State.fireStart (s : State) (f : FOp) (k : StKind) : State :=
  let a := s.cur.operand f.a
  let n := (streamNo f)
  let need : Need := { baseNeed .n1 .sn f with held := (s.cur.stream n).queued.isSome }
  match tagRule [a] with
  | some _ => s.fire f need fun e => { e := e, flag := some false }
  | none =>
    match scbAddr (low32 a.data) with
    | none => if s.slotReady need then s.requestStop s.curH s.curSite 2 s.curSlot 0 0 (low32 a.data) else s
    | some off =>
      if !s.slotReady need then s
      else
        let w := s.openFlag f
        w.2.fire f need fun e =>
          let x := e.stream n
          let y := if x.st = .idle then x.begin k off w.2.cycle else { x with queued := some (k, off, w.2.cycle) }
          { e := { e with streams := Tab.put e.streams n y }, flag := some w.1 }

/-- SLOAD (R173). -/
def execSload (f : FOp) (s : State) : Out' := .next (s.fireStart f .sload)
/-- SSTORE (R173). -/
def execSstore (f : FOp) (s : State) : Out' := .next (s.fireStart f .sstore)
/-- SGATHER (R175). -/
def execSgather (f : FOp) (s : State) : Out' := .next (s.fireStart f .sgather)
/-- SSCATTER (R173). -/
def execSscatter (f : FOp) (s : State) : Out' := .next (s.fireStart f .sscatter)
/-- SFEED (R176). -/
def execSfeed (f : FOp) (s : State) : Out' := .next (s.fireStart f .sfeed)
/-- SBFILL (R176). -/
def execSbfill (f : FOp) (s : State) : Out' := .next (s.fireStart f .sbfill)
/-- SDRAIN (R176). -/
def execSdrain (f : FOp) (s : State) : Out' := .next (s.fireStart f .sdrain)

/-- The position that SPOS reads (R179). -/
def Stream.spos (x : Stream) : Nat :=
  match x.st with
  | .idle => x.lastPos
  | _ => x.pos
/-- A running stream for SWAIT: it has a current command that has not stopped (R166, R179). -/
def Stream.busy (x : Stream) : Bool := decide (x.st = .starting ∨ x.st = .running)
/-- Whether a status word has an error bit (R177). -/
def statusErrs (w : W64) : Bool := decide (w &&& 0x3FF8 ≠ 0)

/-- SWAIT (R179). -/
def execSwait (f : FOp) (s : State) : Out' :=
  let x := s.cur.stream (streamNo f)
  .next (s.fire f { baseNeed .n0 .sn f with held := x.busy } fun e =>
    { e := e, flag := some (decide (x.st = .stopped) || statusErrs x.status) })

/-- SCANCEL (R179): the queued command is discarded, and the current one is to end. -/
def execScancel (f : FOp) (s : State) : Out' :=
  let x := s.cur.stream (streamNo f)
  .next (s.fire f (baseNeed .n0 .sn f) fun e =>
    let y := if x.st = .idle then x else { x with queued := none, cancelling := true }
    { e := { e with streams := Tab.put e.streams (streamNo f) y }, flag := some (decide (x.st ≠ .idle)) })

/-- A stopped stream resumed at a position: it runs from there, with the phase that the completions of dimension 1 before it
give; a position beyond the run ends the command (R176, R179). -/
def Stream.resume (x : Stream) (p : Nat) : Stream :=
  if p < x.total then
    { x with
      st := .running, wstat := x.wstat &&& ~~~2, pos := p, out := [], eod := none, line := none, hdr := none, gather := none, gtoks := [], endAt := none,
      finished := false, rowsDone := Nat.min x.rowsDone (p / 128), block := if p = x.pos then x.block else [],
      phase := BitVec.ofNat 4 (x.phase0 + (if 2 ≤ x.dims then p / x.span 2 else 0)),
      unitScale := if p / unitLen x.fmt = x.pos / unitLen x.fmt then x.unitScale else none }
  else { x with wstat := (x.wstat ||| 0x400) &&& ~~~2, st := .running, finished := true }

/-- SRESUME (R179). -/
def execSresume (f : FOp) (s : State) : Out' :=
  let a := s.cur.operand f.a
  let x := s.cur.stream (streamNo f)
  .next (s.fire f (baseNeed .n1 .sn f) fun e =>
    match tagRule [a] with
    | some _ => { e := e, flag := some false }
    | none =>
      let y := if x.st = .stopped ∧ !x.cancelling then x.resume (low32 a.data).toNat else x
      { e := { e with streams := Tab.put e.streams (streamNo f) y }, flag := some (decide (x.st = .stopped)) })

/-- SPOS (R179). -/
def execSpos (f : FOp) (s : State) : Out' :=
  let x := s.cur.stream (streamNo f)
  .next (s.fire f (baseNeed .a0 .sn f) fun e =>
    Fire.one e f (dataTok (intField (BitVec.ofNat 32 x.spos)), decide (x.st = .stopped)))

/-! ### The start of a command (R166 to R169) -/

/-- A green request issued by an element of hamlet h before a cycle has yet to be performed (R166). -/
def State.requestsBefore (s : State) (h c : Nat) : Bool :=
  let mine (r : SpeReq) : Bool := decide (r.srcH = h ∧ r.issued < c)
  s.hamlets.any fun p =>
    p.2.msgs.any mine || p.2.afterQ.any mine || p.2.defer.any (fun q => q.2.any mine) || p.2.elems.any (fun q => q.2.sendQ.any mine) ||
    p.2.held.any (fun e => match e.op with | .spe r => mine r && !e.sent | _ => false)

/-- A stopped stream ends at once when it is cancelled, and a start cancelled before its SCB is read has performed nothing (R179). Its status
keeps the bit stopped, which SRESUME alone clears (R177). The first position not served is the faulting one, from which a resume would go on
(DESIGN CHOICE, log entry 73). -/
def State.cancelIdle (s : State) (h site n : Nat) (x : Stream) : State :=
  s.endStream h site n { x with wstat := withPos x.wstat x.pos } 4 x.pos

/-- STREAM_COMMAND_START (R166 to R168): the SCB is copied and checked; a command that fails a check performs nothing. -/
def execStreamCommandStart (h site n : Nat) (s : State) : Out' :=
  let x := s.stream h site n
  if x.st ≠ .starting ∨ !s.hamletRuns h then .next s
  else if x.cancelling then .next (s.cancelIdle h site n x)
  else if s.requestsBefore h x.since then .next s
  else
    match s.readPhys (seAgent s h site n) (greenPa h x.scbOff) 128 with
    | .wait t => .next t
    | .err t => .next (t.endStream h site n (x.noteFault 3 0 8) 0 0)
    | .ok b t =>
      let y : Stream := { x with scb := b }
      let bad := Stream.failing t h site y
      if bad ≠ 0 then .next (t.endStream h site n y bad 0)
      else .next (t.setStream h site n { y with st := .running, phase := BitVec.ofNat 4 y.phase0 })

/-- TROUGH_SLOT_ACQUIRE (R169): a store stream claims a slot of its trough and a load stream takes one, waiting while there is
none; an unusable trough ends the command. -/
def execTroughSlotAcquire (h site n : Nat) (s : State) : Out' :=
  let x := s.stream h site n
  if x.st ≠ .running ∨ !x.onTrough ∨ x.slot.isSome ∨ x.cancelling ∨ x.finished ∨ !s.hamletRuns h ∨ s.ownWait h site then .next s
  else
    let t := s.trough h x.trough
    if !t.usable then .next (s.endStream h site n x 0x80 0)
    else if x.kind.reads then
      if t.filledNow = 0 then .next s
      else .next ((s.setTrough h x.trough t.take).setStream h site n { x with slot := some (t.slotAt t.ti) })
    else if t.freeNow = 0 then .next s
    else .next ((s.setTrough h x.trough t.claim).setStream h site n { x with slot := some (t.slotAt t.ci) })

/-- Whether a command may serve positions: a trough stream holds its slot. -/
def Stream.ready (x : Stream) : Bool := !x.onTrough || x.slot.isSome

/-- The trough step behind the last access: the slot is freed or committed when it is the oldest of its kind (R164, R169); none
while it is not. What a trough that has become unusable does to a stream that holds its slot the spec leaves open: the command ends, and
the counters stay as they are (DESIGN CHOICE, log entry 64). -/
def State.troughEnd (s : State) (h : Nat) (x : Stream) : Option State :=
  match x.slot with
  | none => some s
  | some off =>
    let t := s.trough h x.trough
    if x.kind.reads then
      if !t.usable || decide (t.taken = 0) then some s
      else if t.slotAt t.fi = off then some (s.setTrough h x.trough t.release) else none
    else
      if !t.usable || decide (t.claimed = 0) then some s
      else if t.slotAt t.mi = off then some (s.setTrough h x.trough t.commit) else none

/-- A command that has served every position ends as done (R169, R177). -/
def State.doneStream (s : State) (h site n : Nat) (x : Stream) : State :=
  if s.ownWait h site then s
  else
    match s.troughEnd h x with
    | none => s
    | some t => t.endStream h site n x 1 x.total

/-- A cancelled command ends (R179). What becomes of a trough slot that it holds the spec leaves open, as of that of one which ends with
status shape: the slot stays claimed or taken (DESIGN CHOICE, log entry 64). -/
def State.cancelStream (s : State) (h site n : Nat) (x : Stream) : State :=
  s.endStream h site n { x with wstat := withPos x.wstat x.pos } 4 x.pos

/-! ### Loads (R172, R173, R178) -/

/-- A token written into oₙ by a stream. -/
def State.streamPush (s : State) (h site n : Nat) (t : Token) : State :=
  s.setElem h site ((s.elem h site).pushOut n (.tok t))

/-- The element of a position lies in the sector read last, so that a cancelled load still delivers it (R179). -/
def Stream.lineHas (x : Stream) (p : Nat) : Bool :=
  match x.line, elemAt x.fmt x.base (x.directNumber p) with
  | some (a, _), some e =>
    !x.flag 12 && decide (p < x.total ∧ e.at' / 32 = a / 32 ∧ (e.at' + e.nb - 1) / 32 = a / 32) &&
    (match e.hdr with | none => true | some (b, _) => (match x.hdr with | some (b', _) => decide (b' = b) | none => false))
  | _, _ => false

/-- One step of a load stream: the pending EOD, or the next position. -/
def State.loadStep (s : State) (h site n : Nat) (x : Stream) : State :=
  let p := x.pos
  let room := (s.elem h site).outRoom n
  match x.eod with
  | some t => if room then (s.streamPush h site n t).setStream h site n { x with eod := none, moved := true } else s
  | none =>
    if x.cancelling && !x.lineHas p then s.cancelStream h site n x
    else if x.total ≤ p then s.doneStream h site n x
    else if !room then s
    else
      match s.readElem h site n x p with
      | .wait t => t
      | .shape t => t.endStream h site n x 0x100 p
      | .ok r y t =>
        let w := t.formatFault h site y r
        (w.2.streamPush h site n (r.token x.fmt (t.bench h))).setStream h site n { w.1.past p with moved := true }
      | .fault c v w t =>
        match t.seFault h site n x p c v w with
        | .waits u => u
        | .goes y => (t.streamPush h site n (faultTok c p)).setStream h site n { y.past p with moved := true }
        | .stops y => if t.ownWait h site then s else (t.streamPush h site n (faultTok c p)).stopStream h site n y p

/-! ### Stores, scatters and drains (R73 to R84, R170, R172, R174) -/

/-- The bytes that an element's code covers: position, address, byte and mask. -/
def codeBytes (p : Nat) (e : ElemAt) (w code : Nat) : List (Nat × Nat × Byte × Byte) :=
  (List.range e.nb).map fun i =>
    (p, e.at' + i, BitVec.ofNat 8 (code * 2 ^ e.sh / 256 ^ i), BitVec.ofNat 8 ((2 ^ w - 1) * 2 ^ e.sh / 256 ^ i))

/-- The run of pending bytes that lie in the sector of the first, and the rest. -/
def headSector (out : List (Nat × Nat × Byte × Byte)) : List (Nat × Nat × Byte × Byte) × List (Nat × Nat × Byte × Byte) :=
  match out with
  | [] => ([], [])
  | x :: _ => out.span fun y => decide (y.2.1 / 32 = x.2.1 / 32)

/-- A sector's bytes with pending ones laid over those read: the new cells, by offset in the sector. -/
def mergeCells (run : List (Nat × Nat × Byte × Byte)) (old : List Byte) : Tab (Byte × Byte) :=
  run.foldl (fun (t : Tab (Byte × Byte)) y =>
    let k := y.2.1 % 32
    let was := Tab.get t (old.getD k 0, 0) k
    Tab.put t k ((was.1 &&& ~~~y.2.2.2) ||| (y.2.2.1 &&& y.2.2.2), was.2 ||| y.2.2.2)) []

/-- The outcome of a sector write. -/
inductive FlushRes where
  | done (x : Stream) (s : State)
  | wait (s : State)
  | fault (code va : Nat) (w : Want) (s : State)

/-- The pending bytes of one sector written as one masked access: held in a held-mode region where the target is outside it,
unless the stream's mode is free (R172, R274, R291, R300). A byte that the sector write covers in part is merged with the byte
as read (R170), which is the SE's own latest write where that is still held (R277). -/
def State.flushSector (s : State) (h site n : Nat) (x : Stream) : FlushRes :=
  let run := (headSector x.out).1
  let rest := (headSector x.out).2
  match run with
  | [] => .done x s
  | y :: _ =>
    let v := y.2.1
    match s.seTranslate h site n x v .store with
    | .wait t => .wait t
    | .err t => .fault 3 (x.faultVa h v) .store t
    | .fault k t => .fault k (x.faultVa h v) .store t
    | .ok pa t =>
      let base := pa - pa % 32
      let a := seAgent t h site n
      let partly := (mergeCells run []).any fun c => decide (c.2.2 ≠ 0xFF)
      let old : MemRes (List Byte) := if partly then t.readPhys a base 32 else .ok [] t
      match old with
      | .wait u => .wait u
      | .err u => .fault 3 (x.faultVa h v) .store u
      | .ok b u =>
        let own := (u.ham h).held.flatMap fun e => e.op.seCells site
        let cells := (mergeCells run (layOver own base b)).map fun c => (base + c.1, c.2.1)
        if u.outbound h base && decide (x.modeF ≠ 2) then
          match u.hold h (.write 1 site cells) (x.flag 5) (BitVec.ofNat 3 (x.fld 20 2 / 512)) (u.elem h site).recorded with
          | some q => .done { x with out := rest, line := none } q
          | none => .wait s
        else if (match placeOf base with | .green g _ => u.afterWait (some h) (u.elem h site).recorded g | _ => false) then .wait s
        else
          match u.writePhys a false base 32 cells with
          | .ok _ q => .done { x with out := rest, line := none } q
          | .wait q => .wait q
          | .err q => .fault 3 (x.faultVa h v) .store q

/-- Where the header of the unit of a position lies, which holds its scale (R71). -/
def Stream.unitHdr (x : Stream) (p : Nat) : Option Nat :=
  match elemAt x.fmt x.base p with
  | some { hdr := some (a, _), .. } => some a
  | _ => none
/-- A unit's header is among the pending bytes. -/
def Stream.hdrPending (x : Stream) : Bool :=
  fmtUnit x.fmt && x.out.any fun b => (x.unitHdr b.1).any fun a => decide (a ≤ b.2.1 ∧ b.2.1 < a + 32)

/-- One sector of the pending bytes written, with the fault policy: the element is left unwritten (R178). A stop that leaves a unit's header
unwritten leaves its scale to be taken again. -/
def State.flushStep (s : State) (h site n : Nat) (x : Stream) : State :=
  let p := match x.out with | y :: _ => y.1 | [] => x.pos
  let act : FlushRes := if x.refusedAt p then .fault x.fcode 0 .store s else s.flushSector h site n x
  match act with
  | .done y t => t.setStream h site n y
  | .wait t => t
  | .fault c v w t =>
    match t.seFault h site n x p c v w with
    | .waits u => u
    | .goes y => t.setStream h site n { y with out := (headSector x.out).2 }
    | .stops y =>
      if t.ownWait h site then s
      else t.stopStream h site n { y with out := [], unitScale := if x.hdrPending then none else y.unitScale } p

/-- The events of stored elements counted (R78, R177). -/
def Stream.count2 (x : Stream) (l : List Stored) : Stream :=
  { x with sat := sat32 x.sat (l.filter fun r => r.sat).length, ufl := sat32 x.ufl (l.filter fun r => r.ufl).length }

/-- The code of a value stored at a position in a format that forms no scale of its own (R73 to R77, R84). A drain converts the
FP32 value. -/
def Stream.storeCode (x : Stream) (v : W40) (t : Nat) : Stored :=
  if x.fmt = 24 then { code := v.toNat }
  else if fmtInt x.fmt then
    (if x.kind = .sdrain then storeFloatInt x.fmt x.rmode t (f40Val v) else storeInt x.fmt (low32 v).toInt)
  else if x.kind = .sdrain ∧ fmtUnit x.fmt then
    match f40Val v with
    | .fin s m e => storeFloat x.fmt x.rmode t ((FVal.fin s m e).quot (f32Val (x.unitScale.getD 0x3F800000)))
    | .inf _ => { code := 0x7F, sat := true }
    | .nan => { code := 0x7F }
  else storeFloat x.fmt x.rmode t (f40Val v)

/-- The pending bytes of element k of the run. -/
def Stream.elemBytes (x : Stream) (p k code : Nat) : List (Nat × Nat × Byte × Byte) :=
  match elemAt x.fmt x.base k with
  | some e => codeBytes p e (fmtBits x.fmt) code
  | none => []
/-- The pending scale byte of the block of element k. -/
def Stream.scaleByte (x : Stream) (p k code : Nat) : List (Nat × Nat × Byte × Byte) :=
  match elemAt x.fmt x.base k with
  | some { hdr := some (a, _), .. } => [(p, a, BitVec.ofNat 8 code, 0xFF)]
  | _ => []

/-- The block under collection written out: its elements, then its scale byte (R82, R83). Elements from index `pad` on are zero; they and
the scale go with position p and with the block's first position. -/
def Stream.emitBlock (x : Stream) (p blockNo pad : Nat) : Stream :=
  let vs := x.block.map fun b => (f40Val b.2.1, b.2.2)
  let sc := mxScale x.fmt (vs.map fun v => v.1)
  let st := mxElems x.fmt sc.1 sc.2 x.rmode vs
  let idx := x.block.map fun b => b.1
  let elems := ((idx.zip st).map fun q => x.elemBytes (32 * blockNo + q.1) (32 * blockNo + q.1) q.2.code).flatten
  let zeros := ((List.range 32).filter fun i => decide (pad ≤ i)).map fun i => x.elemBytes p (32 * blockNo + i) 0
  let scale := if x.block.isEmpty ∧ 32 ≤ pad then [] else x.scaleByte (32 * blockNo) (32 * blockNo) sc.1
  { (x.count2 st) with block := [], out := x.out ++ elems ++ zeros.flatten ++ scale }

/-- The end of an MX run: the open block is padded with zero elements, and the blocks that follow in its super-block get scale 0x7F and zero
elements (R82). Whether padding beyond a trough slot is an element that reaches beyond it (R169) the spec leaves open: the model writes the
padding (DESIGN CHOICE, log entry 73). -/
def Stream.padRun (x : Stream) : Stream :=
  let n := x.total
  let x1 := if n % 32 = 0 then x else x.emitBlock (n - 1) (n / 32) (n % 32)
  let first := (n + 31) / 32
  let last := if first % 32 = 0 then first else first - first % 32 + 32
  (List.range (last - first)).foldl (fun (y : Stream) i =>
    let b := first + i
    { y with out := y.out ++ ((List.range 32).map fun j => y.elemBytes (n - 1) (32 * b + j) 0).flatten ++
                    y.scaleByte (n - 1) (32 * b) 0x7F }) x1

/-- A store stream past a position: a complete MX block is written out, and a unit's scale ends with it. -/
def Stream.pastStore (x : Stream) (p : Nat) : Stream :=
  let y := x.past p
  if fmtMx x.fmt ∧ (p + 1) % 32 = 0 then y.emitBlock p (p / 32) 32
  else if fmtUnit x.fmt ∧ (p + 1) % unitLen x.fmt = 0 then { y with unitScale := none }
  else y

/-- The first pending sector has to be written before bytes at an address are taken. -/
def Stream.mustFlush (x : Stream) (at' : Nat) : Bool :=
  match x.out.getLast? with
  | none => false
  | some y => decide (y.2.1 / 32 ≠ at' / 32)

/-- The translations of an element's sectors for a store: a fault stops it before its bytes are taken (R178). -/
def State.checkStore (s : State) (h site n : Nat) (x : Stream) : List (Nat × Nat) → SRes Unit
  | [] => .ok () x s
  | p :: r =>
    match s.seTranslate h site n x p.1 .store with
    | .ok _ t => State.checkStore t h site n x r
    | .wait t => .wait t
    | .err t => .fault 3 (x.faultVa h p.1) .store t
    | .fault k t => .fault k (x.faultVa h p.1) .store t

/-- What a value does at its position: it is taken, waits, faults, ends the command with status shape, or a sector has to be
written first. -/
inductive TakeRes where
  | taken (x : Stream) (s : State)
  | flush
  | wait (s : State)
  | fault (code va : Nat) (w : Want) (s : State)
  | shape (s : State)

/-- A value taken for the position of a store (R74, R82, R84, R174). Every sector it goes to, an MX element's header among them, has to
lie in the trough slot, where there is one, and to translate. -/
def State.takeValue (s : State) (h site n : Nat) (x : Stream) (v : W40) : TakeRes :=
  let p := x.pos
  if x.refusedAt p then .fault x.fcode 0 .store s
  else if fmtMx x.fmt then
    if !x.out.isEmpty then .flush
    else
      match elemAt x.fmt x.base p with
      | none => .shape s
      | some e =>
        if !s.inSlot h x e then .shape s
        else
          let hdr := match e.hdr with | some (a, m) => splitSectors (m + 1) a m | none => []
          match s.checkStore h site n x (hdr ++ splitSectors (e.nb + 1) e.at' e.nb) with
          | .wait u => .wait u
          | .fault c a w u => .fault c a w u
          | .shape u => .shape u
          | .ok _ _ u => .taken ({ x with block := x.block ++ [(p % 32, v, x.threshold p)] }.pastStore p) u
  else
    match s.elemNumber h site n x p with
    | .wait t => .wait t
    | .fault c a w t => .fault c a w t
    | .shape t => .shape t
    | .ok k _ t =>
      match elemAt x.fmt x.base k with
      | none => .shape t
      | some e =>
        if !t.inSlot h x e then .shape t
        else if x.mustFlush e.at' then .flush
        else
          match t.checkStore h site n x (splitSectors (e.nb + 1) e.at' e.nb) with
          | .wait u => .wait u
          | .fault c a w u => .fault c a w u
          | .shape u => .shape u
          | .ok _ _ u =>
            let r := x.storeCode v (x.threshold p)
            .taken (({ x with out := x.out ++ codeBytes p e (fmtBits x.fmt) r.code }.count2 [r]).pastStore p) u

/-- A scale taken for the unit of a position, and laid down as its header (R71, R84): the header's sector has to translate as an element's
(R178). -/
def State.takeScale (s : State) (h site n : Nat) (x : Stream) (w : W32) : TakeRes :=
  let p := x.pos
  match x.unitHdr p with
  | none => .shape s
  | some a =>
    if x.refusedAt p then .fault x.fcode 0 .store s
    else if x.mustFlush a then .flush
    else
      match s.checkStore h site n x (splitSectors 33 a 32) with
      | .wait u => .wait u
      | .fault c v k u => .fault c v k u
      | .shape u => .shape u
      | .ok _ _ u =>
        .taken { x with unitScale := some w, out := x.out ++ ((leBytes 32 w.toNat).zipIdx).map fun q => (p, a + q.2, q.1, (0xFF : Byte)) } u

/-- The scale of a unit has to be taken before its element (R84). -/
def Stream.wantsScale (x : Stream) : Bool := fmtUnit x.fmt && x.unitScale.isNone

/-- The last bytes of a store stream written; then it ends. -/
def State.storeEnd (s : State) (h site n : Nat) (x : Stream) : State :=
  if !x.out.isEmpty then s.flushStep h site n x
  else if x.cancelling then s.cancelStream h site n x
  else s.doneStream h site n x

/-- The head token removed from iₙ by a stream. -/
def State.streamPop (s : State) (h site n : Nat) : State :=
  s.setElem h site ((s.elem h site).setInQ n ((s.elem h site).inQ n).pop)

/-- What comes of a value or a scale offered to a store stream: taken with `pop`, or what holds it. A fault under on-fault continue leaves it
unwritten, and the stream goes on as `skip` says. Before the command ends or acts on a fault at a position, the bytes taken for the positions
before it are written (R174, R178). An MX block that is not complete then is not written: its scale is not formed (DESIGN CHOICE, log entry
64). -/
def State.storeTake (s : State) (h site n : Nat) (x : Stream) (r : TakeRes) (skip : Stream → Stream) (pop stopPop : State → State) : State :=
  let p := x.pos
  match r with
  | .taken y t => (pop t).setStream h site n { y with moved := true }
  | .flush => s.flushStep h site n x
  | .wait t => t
  | .shape t => if x.out.isEmpty then t.endStream h site n x 0x100 p else s.flushStep h site n x
  | .fault c a w t =>
    if !x.out.isEmpty then s.flushStep h site n x
    else
    match t.seFault h site n x p c a w with
    | .waits u => u
    | .goes y => (pop t).setStream h site n { skip y with moved := true }
    | .stops y => if t.ownWait h site then s else (stopPop t).stopStream h site n y p

/-- A value offered to a store stream. -/
def State.storeValue (s : State) (h site n : Nat) (x : Stream) (v : W40) (pop : State → State) : State :=
  s.storeTake h site n x (s.takeValue h site n x v) (fun y => y.pastStore x.pos) pop pop

/-- A unit's scale offered to a store stream (R84). Where a fault of its header stops the stream, the scale's token is not taken, so that a
resume at the unit's first position finds it (DESIGN CHOICE, log entry 64). -/
def State.storeScale (s : State) (h site n : Nat) (x : Stream) (w : W32) (pop : State → State) : State :=
  s.storeTake h site n x (s.takeScale h site n x w) (fun y => { y with unitScale := some w }) pop id

/-- What a cancelled store or drain still writes: the bytes taken for its current sector, and no block under collection. The first position
not served is the first whose bytes are given up; padding stands for none (R82, R179). -/
def Stream.onlySector (x : Stream) : Stream :=
  let w := headSector x.out
  let open' := match x.block with | b :: _ => x.pos - x.pos % 32 + b.1 | [] => x.pos
  let low := w.2.foldl (fun m y => Nat.min m y.1) open'
  { x with block := [], out := w.1, pos := if x.finished && decide (low + 1 = x.total) then x.pos else low }

/-- One step of SSTORE or SSCATTER: a token taken from iₙ by its tag, or a sector written (R174). Two points of a unit's scale token are
left open by R84 and settled here (DESIGN CHOICE, log entry 64): the dither threshold that rounds it, which has no position of its own, is
that of the unit's first element; and an overflow or underflow in rounding it to FP32 is counted neither as sat nor as ufl. -/
def State.storeStep (s : State) (h site n : Nat) (x : Stream) : State :=
  let p := x.pos
  let e := s.elem h site
  let pop (t : State) : State := t.streamPop h site n
  if x.cancelling then s.storeEnd h site n x.onlySector
  else if x.total ≤ p then
    if fmtMx x.fmt ∧ !x.finished then s.setStream h site n { x.padRun with finished := true } else s.storeEnd h site n x
  else if !e.inPresent n then s
  else
    let t := e.headTok n
    let skip (y : Stream) : State := (pop s).setStream h site n { y.pastStore p with moved := true }
    if t.isHole then skip x
    else if t.isFault then skip (x.noteFault (t.data.extractLsb' 32 8).toNat p 0x2000)
    else if t.isMarker then (pop s).setStream h site n { x with moved := true }
    else if x.wantsScale then
      s.storeScale h site n x (BitVec.ofNat 32 (storeFloat 20 x.rmode (x.threshold p) (f40Val t.data)).code) pop
    else s.storeValue h site n x t.data pop

/-- A command cut short by SRESUME with a position beyond its run: its status word is written and it ends (R179). -/
def State.resumeEnd (s : State) (h site n : Nat) (x : Stream) : State := s.endStream h site n x 0 x.pos

/-- STREAM_POSITION (R172): a load delivers one token, a store takes one or writes one sector. -/
def execStreamPosition (h site n : Nat) (s : State) : Out' :=
  let x := s.stream h site n
  if decide (x.st = .stopped) && x.cancelling && s.hamletRuns h then .next (s.cancelIdle h site n x)
  else if x.wstat.getLsbD 10 && decide (x.st = .running) && s.hamletRuns h then .next (s.resumeEnd h site n x)
  else if !s.streamRuns h x || !x.active then .next s
  else if !x.ready then .next (if x.cancelling then s.cancelStream h site n x else s)
  else
    match x.kind with
    | .sload => .next (s.loadStep h site n x)
    | .sstore | .sscatter => .next (s.storeStep h site n x)
    | _ => .next s

/-! ### Gathers (R175, R294, R309) -/

/-- The first position beyond the gather command that starts at p: positions of up to 4,096 consecutive values of the indirect
index (R175). -/
def Stream.gatherEnd (x : Stream) (p : Nat) : Nat :=
  let k := x.fld 25 1 % 8
  let sp := x.span k
  let i := x.index p k
  p + ((Nat.min (x.count k) (i + 4096) - i) * sp - p % sp)

/-- The outcome of a gather's reads. -/
inductive GRes (α : Type) where
  | ok (v : α) (secs : List (Nat × List Byte)) (s : State)
  | wait (secs : List (Nat × List Byte)) (s : State)
  | fault (code va : Nat) (w : Want) (secs : List (Nat × List Byte)) (s : State)
  | target (s : State)
  | shape (s : State)

/-- The bytes of sector pieces of a gather: each distinct HBM sector is read once (R175, R294). -/
def State.gPieces (s : State) (h site n : Nat) (x : Stream) (secs : List (Nat × List Byte)) :
    List (Nat × Nat) → List Byte → GRes (List Byte)
  | [], acc => .ok acc secs s
  | p :: r, acc =>
    match s.seTranslate h site n x p.1 .load with
    | .wait t => .wait secs t
    | .err t => .fault 3 (x.faultVa h p.1) .load secs t
    | .fault k t => .fault k (x.faultVa h p.1) .load secs t
    | .ok pa t =>
      let base := pa - pa % 32
      if placeOf pa ≠ .hbm then .target t
      else
        match secs.find? fun q => decide (q.1 = base) with
        | some q => State.gPieces t h site n x secs r (acc ++ (q.2.drop (pa % 32)).take p.2)
        | none =>
          match t.readPhys (gatherAgent t h site n) base 32 with
          | .ok b u => State.gPieces u h site n x ((base, b) :: secs) r (acc ++ (b.drop (pa % 32)).take p.2)
          | .wait u => .wait secs u
          | .err u => .fault 3 (x.faultVa h p.1) .load secs u

/-- The token of one position of a gather command. -/
def State.gOne (s : State) (h site n : Nat) (x : Stream) (secs : List (Nat × List Byte)) (p : Nat) : GRes Raw :=
  if x.refusedAt p then .fault x.fcode 0 .load secs s
  else
  match s.elemNumber h site n x p with
  | .wait t => .wait secs t
  | .fault c v w t => .fault c v w secs t
  | .shape t => .shape t
  | .ok k _ t =>
    match elemAt x.fmt x.base k with
    | none => .shape t
    | some e =>
      let hp := match e.hdr with | some (a, m) => splitSectors (m + 1) a m | none => []
      match t.gPieces h site n x secs hp [] with
      | .wait c u => .wait c u
      | .fault c v w q u => .fault c v w q u
      | .target u => .target u
      | .shape u => .shape u
      | .ok hd secs1 u =>
        match u.gPieces h site n x secs1 (splitSectors (e.nb + 1) e.at' e.nb) [] with
        | .wait c q => .wait c q
        | .fault c v w q r => .fault c v w q r
        | .target q => .target q
        | .shape q => .shape q
        | .ok b secs2 q =>
          .ok { n := k, code := leNat b / 2 ^ e.sh % 2 ^ fmtBits x.fmt, hdr := hd } secs2 q

/-- What a gather command has come to before a position: its tokens, its format faults, and the units that the stream has counted. -/
structure GAcc where
  toks : List Token := []
  bad : Nat := 0
  units : List Nat

/-- A position delivered: a format fault is counted once per element, or once per unit (R85, R294). -/
def GAcc.add (a : GAcc) (r : Raw) (fmt : Nat) (bench : Bool) : GAcc :=
  let b := a.toks ++ [r.token fmt bench]
  if r.counts fmt a.units bench then
    { toks := b, bad := a.bad + 1, units := if fmtUnit fmt then a.units ++ [r.unit fmt] else a.units }
  else { a with toks := b }

/-- The tokens of a gather command are all known: they are delivered from here on, and its format faults are counted. -/
def State.gDone (s : State) (h site n : Nat) (x : Stream) (a : GAcc) : State :=
  let w := s.formatFaults h site x a.bad
  w.2.setStream h site n { w.1 with gather := none, gtoks := a.toks, units := a.units }

/-- The positions of a gather command from p on, `left` of them: its tokens, or what holds it. A fault under tag is a FAULT
token; with on-fault stop it is the last (R178). A position with no element ends the command once those before it are delivered (R170). -/
def State.gAll (s : State) (h site n : Nat) (x : Stream) (first len : Nat) (secs : List (Nat × List Byte)) :
    Nat → Nat → GAcc → State
  | 0, _, acc => s.gDone h site n x acc
  | left + 1, p, acc =>
    match s.gOne h site n x secs p with
    | .ok r secs' t => State.gAll t h site n x first len secs' left (p + 1) (acc.add r x.fmt (t.bench h))
    | .wait c t => t.setStream h site n { x with gather := some (first, len, c) }
    | .shape t => t.gDone h site n { x with endAt := some (0x100, p) } acc
    | .target t => t.endStream h site n { x with wstat := withPos x.wstat first } 0x1000 first
    | .fault c v w q t =>
      match t.seFault h site n x p c v w with
      | .waits u => u.setStream h site n { u.stream h site n with gather := some (first, len, q) }
      | .goes y => State.gAll t h site n y first len q left (p + 1) { acc with toks := acc.toks ++ [faultTok c p] }
      | .stops y => t.gDone h site n { y with finished := true } { acc with toks := acc.toks ++ [faultTok c p] }

/-- GATHER_COMMAND_SEND (R175, R309): the next gather command goes to the gather units. -/
def execGatherCommandSend (h site n : Nat) (s : State) : Out' :=
  let x := s.stream h site n
  if decide (x.kind ≠ .sgather) || !s.streamRuns h x || !x.active || !x.ready || !x.gtoks.isEmpty || x.eod.isSome then .next s
  else if x.endAt.isSome then
    .next (match x.endAt with | some (b, p) => s.endStream h site n { x with gather := none } b p | none => s)
  else if x.cancelling && x.gather.isNone then .next (s.cancelStream h site n x)
  else if x.total ≤ x.pos then .next (s.doneStream h site n x)
  else
    match x.gather with
    | some (first, len, secs) => .next (s.gAll h site n x first len secs len first { units := x.units })
    | none =>
      let len := Nat.min x.total (x.gatherEnd x.pos) - x.pos
      .next (s.gAll h site n x x.pos len [] len x.pos { units := x.units })

/-- GATHER_BURST_DELIVERY (R309): the next element of the command under way is delivered, in position order, or its EOD. -/
def execGatherBurstDelivery (h site n : Nat) (s : State) : Out' :=
  let x := s.stream h site n
  let room := (s.elem h site).outRoom n
  if decide (x.kind ≠ .sgather) || decide (x.st ≠ .running) || !s.streamRuns h x || x.moved || !room then .next s
  else
    match x.eod, x.gtoks with
    | some t, _ => .next ((s.streamPush h site n t).setStream h site n { x with eod := none, moved := true })
    | none, [] => .next s
    | none, t :: r =>
      if x.finished && r.isEmpty then
        if s.ownWait h site then .next s
        else .next ((s.streamPush h site n t).stopStream h site n { x with gtoks := [], finished := false, moved := true } x.pos)
      else .next ((s.streamPush h site n t).setStream h site n { x.past x.pos with gtoks := r, moved := true })

/-! ### Feeds, fills and drains (R176, R186, R187, R198, R314) -/

/-- The ME of a matrix command. -/
def State.meOf (s : State) (h : Nat) (x : Stream) : ME := (s.elem h (24 + x.meX)).me
/-- The state with that ME replaced. -/
def State.setMe (s : State) (h : Nat) (x : Stream) (m : ME) : State :=
  s.setElem h (24 + x.meX) { s.elem h (24 + x.meX) with me := m }

/-- The row or slot that a position goes to is free of the operation in flight (R198). -/
def State.placeFree (s : State) (h : Nat) (x : Stream) (row : Nat) : Bool :=
  if x.kind = .sfeed then !(s.meOf h x).rowHeld (x.place + row)
  else !(s.meOf h x).planesHeld (slotPlanes (fmtPlanes x.fmt) x.place)

/-- The rows that a feed has still to write, counted from its first. -/
def Stream.rowsLeft (x : Stream) : List Nat := (List.range x.rows).drop x.rowsDone
/-- Every row that a feed has still to write, or the slot of a fill, is free of the operation in flight (R198). -/
def State.placesFree (s : State) (h : Nat) (x : Stream) : Bool :=
  match x.kind with
  | .sfeed => x.rowsLeft.all fun r => s.placeFree h x r
  | .sbfill => s.placeFree h x 0
  | _ => true
/-- A command waits for the port of its ME alone: it runs, holds its trough slot, waits on no fault, and what it is to write is free of the
operation in flight (R176, R198). -/
def State.waitsPort (s : State) (h : Nat) (y : Stream) : Bool :=
  decide (y.st = .running) && y.ready && y.fault.isNone && !y.cancelling && s.placesFree h y
/-- The port of the ME is free for a feed or fill, and no command of a lower site or stream number waits for it (R176); an
accumulator is free for a drain (R209). -/
def State.portFree (s : State) (h site n : Nat) (x : Stream) : Bool :=
  if x.kind = .sdrain then !(s.meOf h x).pending x.meAcc && !(s.meOf h x).underWrite x.meAcc
  else
    seSites.all fun st => (List.range 4).all fun k =>
      let y := s.stream h st k
      !(y.holds x.kind x.meX) &&
      !(decide (st * 4 + k < site * 4 + n) && decide (y.kind = x.kind) && decide (y.meX = x.meX) && s.waitsPort h y)

/-- A feed or fill that takes its port leaves what it has still to write empty until it has written it whole (R176, R185, R301). -/
def State.emptyPlaces (s : State) (h : Nat) (x : Stream) : State :=
  let m := s.meOf h x
  match x.kind with
  | .sfeed => s.setMe h x { m with rows := x.rowsLeft.foldl (fun t r => Tab.del t (x.place + r)) m.rows }
  | .sbfill => s.setMe h x (m.clearSlots x.fmt x.place)
  | _ => s

/-- The sparse position that goes with a position of a fill, as read from the index run (R176). -/
def State.readPosn (s : State) (h site n : Nat) (x : Stream) (p : Nat) : SRes Nat :=
  match x.posnAt p with
  | none => .ok 0 x s
  | some (v, sh) =>
    match s.seBytes h site n x.indexView v 1 with
    | .ok b _ t => .ok (leNat b / 2 ^ sh % 16) x t
    | .wait t => .wait t
    | .fault c v w t => .fault c v w t
    | .shape t => .shape t

/-- Up to `left` positions of a feed or fill moved into the ME. -/
def State.feedMany (h site n : Nat) : Nat → State → State
  | 0, s => s
  | left + 1, s =>
    let x := s.stream h site n
    let p := x.pos
    if x.total ≤ p ∨ !s.placeFree h x (p / 128) then s
    else
      match s.readPosn h site n x p with
      | .wait t => t
      | .shape t => t.endStream h site n x 0x100 p
      | .fault c v w t => feedFault x p c v w t
      | .ok q _ t =>
        match t.readElem h site n x p with
        | .wait u => u
        | .shape u => u.endStream h site n x 0x100 p
        | .fault c v w u => feedFault x p c v w u
        | .ok r y u =>
          let w := u.formatFault h site y r
          let z := w.1
          State.feedMany h site n left (w.2.setStream h site n
            { z with pos := p + 1, recvd := Tab.put z.recvd p (r.meVal x.fmt (u.bench h)), recvPos := Tab.put z.recvPos p q,
                     recvScale := if fmtUnit x.fmt then Tab.put z.recvScale (p / 128) r.scale else z.recvScale })
where
  feedFault (x : Stream) (p c v : Nat) (w : Want) (t : State) : State :=
    match t.seFault h site n x p c v w with
    | .waits u => u
    | .goes y => t.setStream h site n y
    | .stops y => t.stopStream h site n y p

/-- A complete row written whole into the row buffer: it becomes full (R176, R186). -/
def State.writeRow (s : State) (h site n : Nat) (x : Stream) (r : Nat) : State :=
  if !s.placeFree h x r then s
  else
    let vals := (List.range 128).map fun c => (c, Tab.get x.recvd ({} : MeVal) (128 * r + c))
    let m := s.meOf h x
    let row : MeRow := { full := true, fmt := x.fmt, scale := Tab.get x.recvScale 0x3F800000 r, vals := vals }
    (s.setMe h x { m with rows := Tab.put m.rows (x.place + r) row }).setStream h site n { x with rowsDone := Nat.max x.rowsDone (r + 1) }
/-- A row of a feed that another feed has emptied since it was written: it is written again before the feed is done (R314). -/
def State.rowMissing (s : State) (h : Nat) (x : Stream) : Option Nat :=
  (List.range x.rows).find? fun r => !(Tab.get (s.meOf h x).rows ({} : MeRow) (x.place + r)).full

/-- A complete fill: the tile slot stops being empty (R187, R314). -/
def State.writeTile (s : State) (h site n : Nat) (x : Stream) : State :=
  if !s.placeFree h x 0 ∨ s.ownWait h site then s
  else
    let w := fillTile x.fmt x.npos (s.bench h) (Tab.get x.recvScale 0x3F800000 (8 * x.npos - 1)) x.recvd x.recvPos
    let m := (s.meOf h x).clearSlots x.fmt x.place
    let y := { x with sat := sat32 x.sat w.sat, ufl := sat32 x.ufl w.ufl }
    let z := match w.bad with
      | some g => { y with wstat := withPos (y.wstat ||| 0x800) g }
      | none => y
    (s.setMe h x { m with tiles := Tab.put m.tiles x.place w.t }).doneStream h site n z

/-- Positions that one 64-byte transfer covers. -/
def Stream.perTransfer (x : Stream) : Nat := Nat.max 1 (512 / fmtBits x.fmt)

/-- One step of a feed or fill. -/
def State.feedStep (s : State) (h site n : Nat) (x : Stream) : State :=
  if x.cancelling then s.cancelStream h site n x
  else if x.kind = .sfeed ∧ 128 * (x.rowsDone + 1) ≤ x.pos then s.writeRow h site n x x.rowsDone
  else if x.total ≤ x.pos then
    if x.kind = .sfeed then
      match s.rowMissing h x with
      | some r => s.writeRow h site n x r
      | none => s.doneStream h site n x
    else s.writeTile h site n x
  else State.feedMany h site n x.perTransfer s

/-- The value of an accumulator that a drain reads at a position, as the F40 pattern that holds it exactly. -/
def State.drainValue (s : State) (h : Nat) (x : Stream) (p : Nat) : W40 :=
  f40Round .rne (f32Val (((s.meOf h x).acc x.meAcc).read (x.place + p / 128) (p % 128)))

/-- Up to `left` positions of a drain converted and written (R84, R176). -/
def State.drainMany (h site n : Nat) : Nat → State → State
  | 0, s => s
  | left + 1, s =>
    let x := s.stream h site n
    let p := x.pos
    if x.total ≤ p ∨ x.fault.isSome ∨ x.st ≠ .running then s
    else if x.wantsScale then
      let vs := (List.range 128).map fun c => f40Val (s.drainValue h x (p - p % 128 + c))
      State.drainMany h site n left (s.storeScale h site n x (rowScale vs) id)
    else State.drainMany h site n left (s.storeValue h site n x (s.drainValue h x p) fun t => t)

/-- One step of a drain. -/
def State.drainStep (s : State) (h site n : Nat) (x : Stream) : State :=
  if x.cancelling then s.storeEnd h site n x.onlySector
  else if x.total ≤ x.pos then
    if fmtMx x.fmt ∧ !x.finished then s.setStream h site n { x.padRun with finished := true } else s.storeEnd h site n x
  else State.drainMany h site n (2 * x.perTransfer) s

/-- ME_PORT_TRANSFER (R176): a feed, fill or drain takes its port, or moves 64 bytes. -/
def execMePortTransfer (h site n : Nat) (s : State) : Out' :=
  let x := s.stream h site n
  if !x.kind.matrix || !s.streamRuns h x || !x.active || !x.ready then .next s
  else if !x.port && !x.cancelling then
    if s.portFree h site n x && s.placesFree h x then .next ((s.emptyPlaces h x).setStream h site n { x with port := true }) else .next s
  else if x.kind = .sdrain then .next (s.drainStep h site n x)
  else .next (s.feedStep h site n x)

end Sys2Proof.Machine
end

