-- ==== Sys2Proof/Machine/Me.lean ====
section
/-! DEFINITION. The meanings of the matrix element's instructions and of its operations' and transfers' steps (R183 to R222). -/
namespace Sys2Proof.Machine
open Sys2Proof

/-- The accumulator of an instruction's x (R212). -/
def accNo (f : FOp) : Nat := f.x.toNat % 4

/-- The firing of an ME instruction (R206): under R23 rules 1 to 3 it changes nothing of the ME. `body` gives the ME after it and
its flag, from the ME and uint(a). -/
def State.fireMe (s : State) (f : FOp) (c : OpClass) (x : XClass) (held : Bool) (body : ME → W32 → ME × Bool) : State :=
  let ops := if c.readsA then [s.cur.operand f.a] else []
  s.fire f { baseNeed c x f with held := held } fun e =>
    match tagRule ops with
    | some _ => { e := e, flag := some false }
    | none =>
      let r := body e.me (low32 (e.operand f.a).data)
      { e := { e with me := r.1 }, flag := some r.2 }

/-- The needs on accumulator n of an instruction that writes it (R209). -/
def State.writeHeld (s : State) (n : Nat) : Bool :=
  s.cur.me.pending n || s.cur.me.underWrite n || s.underRead s.curH s.curSite n
/-- The needs on accumulator n of an instruction that reads it (R209). -/
def State.readHeld (s : State) (n : Nat) : Bool := s.cur.me.pending n || s.cur.me.underWrite n

/-- An operation placed in the queue in a cycle with the settings as they stand (R208). -/
def ME.issue (x : ME) (sparse : Bool) (n : Nat) (d : W32) (cycle : Nat) : ME × Bool :=
  let op : MeOp :=
    { sparse := sparse, acc := n, desc := d, start := x.rungStart, ceil := x.rungCeil, bSat := x.bSat, bUfl := x.bUfl,
      bCnc := x.bCnc, shift := x.cncShift, base := x.slotBase, since := cycle }
  ({ x with opq := x.opq ++ [op] }, descOk d x.slotBase)

/-- MMA (R208, R213). -/
def execMma (f : FOp) (s : State) : Out' :=
  .next (s.fireMe f .n1 .ac (decide (4 ≤ s.cur.me.opq.length)) fun x d => x.issue false (accNo f) d s.cycle)
/-- MMAS (R208, R213). -/
def execMmas (f : FOp) (s : State) : Out' :=
  .next (s.fireMe f .n1 .ac (decide (4 ≤ s.cur.me.opq.length)) fun x d => x.issue true (accNo f) d s.cycle)

/-- ACCZ (R214). -/
def execAccz (f : FOp) (s : State) : Out' :=
  let n := accNo f
  .next (s.fireMe f .n0 .ac (s.writeHeld n) fun x _ => (x.setAcc n ((x.acc n).wrote []), (x.acc n).valid))

/-- The source that an ACCMOV names: none where bits [31:2] are not zero (R214). -/
def movSource (v : W32) : Option Nat := if v.extractLsb' 2 30 = 0 then some (v.toNat % 4) else none

/-- ACCMOV (R214). -/
def execAccmov (f : FOp) (s : State) : Out' :=
  let n := accNo f
  let a := s.cur.operand f.a
  let src := if (tagRule [a]).isSome then none else movSource (low32 a.data)
  let held := s.writeHeld n || s.cur.me.mv.isSome || (match src with | some k => s.readHeld k | none => false)
  .next (s.fireMe f .n1 .ac held fun x v =>
    match movSource v with
    | none => (x, false)
    | some k =>
      let r := if k = n then x.setAcc n { x.acc n with vals := (x.acc n).content, valid := true }
        else { x with mv := some { src := k, dst := n, row := 0, since := s.cycle } }
      (r, (x.acc k).valid))

/-- ACCRD (R214). -/
def execAccrd (f : FOp) (s : State) : Out' :=
  let n := accNo f
  .next (s.fireMe f .n0 .ac (s.readHeld n || s.cur.me.rd.isSome) fun x _ => ({ x with rd := some { acc := n, since := s.cycle } }, (x.acc n).valid))

/-- ACCWR (R214). -/
def execAccwr (f : FOp) (s : State) : Out' :=
  let n := accNo f
  .next (s.fireMe f .n1 .ac (s.writeHeld n || s.cur.me.wr.isSome) fun x v =>
    let row := (v.extractLsb' 0 5).toNat
    let rows := (v.extractLsb' 5 5).toNat + 1
    if v.extractLsb' 10 22 = 0 ∧ row + rows ≤ 32 then ({ x with wr := some { acc := n, row := row, left := rows, since := s.cycle } }, true)
    else (x, false))

/-- BSEL (R216). -/
def execBsel (f : FOp) (s : State) : Out' :=
  .next (s.fireMe f .n1 .z false fun x v =>
    if v.toNat ≤ 5 then ({ x with slotBase := v.extractLsb' 0 3 }, true) else (x, false))
/-- RUNG (R216). -/
def execRung (f : FOp) (s : State) : Out' :=
  .next (s.fireMe f .n1 .z false fun x v =>
    let st := v.extractLsb' 0 2
    let ce := v.extractLsb' 2 2
    if v.extractLsb' 4 28 ≠ 0 then (x, false)
    else if ce.toNat < st.toNat then ({ x with rungStart := ce, rungCeil := ce }, false)
    else ({ x with rungStart := st, rungCeil := ce }, true))
/-- MONSET (R216). -/
def execMonset (f : FOp) (s : State) : Out' :=
  .next (s.fireMe f .n1 .z false fun x v =>
    let val := v.extractLsb' 0 16
    if v.extractLsb' 16 14 ≠ 0 then (x, false)
    else
      match (v.extractLsb' 30 2).toNat with
      | 0 => ({ x with bSat := val }, true)
      | 1 => ({ x with bUfl := val }, true)
      | 2 => ({ x with bCnc := val }, true)
      | _ =>
        if v.extractLsb' 8 8 ≠ 0 ∨ v.extractLsb' 0 8 = 0 then (x, false)
        else ({ x with cncShift := v.extractLsb' 0 8 }, true))

/-- The queues that MONRD needs empty (R217). -/
def monrdEmpties (dst : BitVec 4) : List Nat :=
  let n := dst.toNat
  if 8 ≤ n ∧ n ≤ 11 then [n - 8] else if n = 14 then [0, 1, 2, 3] else []

/-- MONRD (R217): the monitor register as two integers, low half first. -/
def execMonrd (f : FOp) (s : State) : Out' :=
  let need : Need := { baseNeed .a0 .z f with empties := monrdEmpties f.dst }
  .next (s.fire f need fun e =>
    let m := e.me.monitor
    let lo := dataTok (intField (m.extractLsb' 0 32))
    let hi := dataTok (intField (m.extractLsb' 32 32))
    let flag := some (decide (m.extractLsb' 50 8 ≠ 0))
    let n := f.dst.toNat
    if n < 8 then { e := { e with d := Tab.put e.d (n ^^^ 1) hi.data }, toks := [lo], dsts := [f.dst], flag := flag }
    else if n = 12 ∨ n = 13 then { e := e, toks := [dataTok (if m = 0 then 0 else 1)], dsts := [f.dst], flag := flag }
    else { e := e, toks := [lo, hi], dsts := [f.dst], flag := flag })

/-- MONCLR (R218). -/
def execMonclr (f : FOp) (s : State) : Out' :=
  .next (s.fireMe f .n0 .z false fun x _ => ({ x with monitor := 0, status := 0 }, false))

/-- The flag of MWAIT (R219). -/
def mwaitFlag (x : ME) (n : Nat) : Bool :=
  decide ((x.status.extractLsb' 12 2).toNat = n) && x.status.getLsbD 0 && !x.status.getLsbD 1 && !x.status.getLsbD 3 &&
  !x.status.getLsbD 9
/-- MWAIT (R219). -/
def execMwait (f : FOp) (s : State) : Out' :=
  let n := accNo f
  .next (s.fireMe f .n0 .ac (s.readHeld n) fun x _ => (x, mwaitFlag x n))

/-- The ME status register: its recorded half with the live accumulator status (R201). -/
def ME.statusWord (x : ME) : W32 :=
  x.status.setWidth 32 |||
  ((List.range 4).map fun n =>
    let a := x.acc n
    BitVec.ofNat 32 (((if a.valid then 1 else 0) + (if a.dirty then 2 else 0) + (if a.infl then 4 else 0)) * 2 ^ (16 + 3 * n))).foldl
    (· ||| ·) 0

/-! ### Operations (R188 to R200, R208 to R211) -/

/-- Planes of a rung (R188). -/
def rungPlanes (r : Nat) : Nat :=
  match r with
  | 0 => 2
  | 1 => 4
  | 2 => 8
  | _ => 11

/-- The status bits that refuse an operation at its start (R195, R211). -/
def ME.refusal (x : ME) (o : MeOp) : W16 :=
  let bit (b : Bool) (k : Nat) : W16 := if b then BitVec.ofNat 16 (2 ^ k) else 0
  let rows := o.rows.map x.row
  let tiles := o.slots.map x.tile
  let full := tiles.filter fun t => t.full
  let fmts := ((rows.filter fun r => r.full).map fun r => r.fmt) ++ full.map fun t => t.fmt
  let operand :=
    !descOk o.desc o.base || rows.any (fun r => !r.full) || tiles.any (fun t => !t.full) ||
    (match full with | [] => false | t :: r => r.any fun u => decide (u.fmt ≠ t.fmt ∨ u.npos ≠ t.npos))
  let format := full.any (fun t => t.sparse != o.sparse) || (fmts.any fmtIntOperand && fmts.any fun k => !fmtIntOperand k)
  bit operand 7 ||| bit format 6 ||| bit (full.any fun t => t.invalid) 5

/-- The target rows of an operation as they stand before it (R192). -/
def ME.targetRows (x : ME) (o : MeOp) : Tab W32 :=
  (List.range (128 * descM o.desc)).map fun k => (k, (x.acc o.acc).read (descA0 o.desc + k / 128) (k % 128))

/-- ME_OPERATION_START (R208, R211): the head of the queue starts in a cycle after the one that placed it, or is refused with its status
written and its target untouched. -/
def execMeOperationStart (h site : Nat) (s : State) : Out' :=
  let e := s.elem h site
  let x := e.me
  if !s.hamletRuns h || x.att.isSome then .next s
  else
    match x.opq with
    | [] => .next s
    | o :: rest =>
      if s.underRead h site o.acc || x.underWrite o.acc || decide (s.cycle ≤ o.since) then .next s
      else
        let bad := x.refusal o
        let x' :=
          if bad ≠ 0 then
            { x with opq := rest, status := bad ||| 2 ||| BitVec.ofNat 16 (o.acc * 2 ^ 12), monitor := 0 }
          else
            { x.setAcc o.acc { x.acc o.acc with infl := true } with
              opq := rest,
              att := some { op := o, rung := o.start.toNat, integer := fmtIntOperand (x.tile o.s0).fmt, w := x.targetRows o } }
        .next (s.setElem h site { e with me := x' })

/-- A result rounded to FP32; a finite result beyond the largest value is that value, and counts one SAT (R193). -/
def clampRound (v : FVal) : W32 × Nat :=
  let r := f32Round .rne v
  match v with
  | .fin s _ _ => if finite32 r then (r, 0) else (if s then 0xFF7FFFFF else 0x7F7FFFFF, 1)
  | _ => (r, 0)

/-- The exact sum of terms with their own exponents, rounded to the 64-bit window of the largest (R192). The sign of a non-zero negative
sum that rounds to zero in that window the spec leaves open: it is −0 (DESIGN CHOICE, log entry 65). -/
def windowSum (ts : List (Int × Int)) : FVal :=
  let nz := ts.filter fun t => decide (t.1 ≠ 0)
  match nz with
  | [] => .fin false 0 0
  | t :: r =>
    let emin := r.foldl (fun (a : Int) b => if b.2 < a then b.2 else a) t.2
    let top := nz.foldl (fun (a : Int) b => let l := floorLog2 b.1.natAbs b.2; if a < l then l else a) (floorLog2 t.1.natAbs t.2)
    let v := nz.foldl (fun (a : Int) b => a + b.1 * (pow2 (b.2 - emin) : Nat)) 0
    let s := decide (v < 0)
    .fin s (roundGrid .rne s v.natAbs emin (top - 60)).1 (top - 60)

/-- The floor of log2 of a finite non-zero FP32 value. -/
def log32 (w : W32) : Option Int :=
  match f32Val w with
  | .fin _ m e => if m = 0 then none else some (floorLog2 m e)
  | _ => none

/-- Whether the addition of w and x counts one CNC (R194). floor(log2) of an infinity is not defined there: an addition to an infinite w,
or of an infinite x, counts none (DESIGN CHOICE, log entry 65). -/
def cancels (w x r : W32) (shift : Nat) : Bool :=
  match log32 w, log32 x with
  | some a, some b =>
    match f32Val r with
    | .fin _ m e => if m = 0 then true else decide (floorLog2 m e ≤ (if a < b then b else a) - shift)
    | _ => false
  | _, _ => false

/-- A signed magnitude. -/
def MeVal.int (v : MeVal) : Int := if v.neg then -(v.m : Int) else v.m

/-- One quantized group of an A row. -/
structure AGroup where
  q : List MeVal
  e : Int

/-- The groups of an A row at p planes, with SAT and UFL (R189, R191). -/
def rowGroups (integer : Bool) (p : Nat) (row : List MeVal) : List AGroup × Nat × Nat :=
  let gs := (List.range 8).map fun g =>
    let vs := (row.drop (16 * g)).take 16
    if integer then exactGroup vs else quantGroup p vs
  (gs.map fun g => { q := g.1, e := g.2.1 }, (gs.map fun g => g.2.2.1).foldl (· + ·) 0, (gs.map fun g => g.2.2.2).foldl (· + ·) 0)

/-- The groups of a B column at p planes: stored values with their positions and exponent, with SAT and UFL (R190, R195). -/
def colGroups (integer : Bool) (p : Nat) (t : Tile) (j : Nat) : List (List (MeVal × Nat) × Int) × Nat × Nat :=
  let gs := (List.range 8).map fun g =>
    let at' (k : Nat) : Nat := 128 * j + t.npos * g + k
    let vs := (List.range t.npos).map fun k => Tab.get t.vals {} (at' k)
    let ps := (List.range t.npos).map fun k => Tab.get t.posn 0 (at' k)
    let eb := Tab.get t.exps 0 (8 * j + g)
    let q := if integer then (vs, eb, 0, 0) else narrowGroup p (fmtPlanes t.fmt) vs eb
    ((q.1.zip ps, q.2.1), q.2.2.1, q.2.2.2)
  (gs.map fun g => g.1, (gs.map fun g => g.2.1).foldl (· + ·) 0, (gs.map fun g => g.2.2).foldl (· + ·) 0)

/-- What one position of a row gives: the new element of the working tile, SAT, UFL and CNC, and whether it is non-finite. -/
structure PosRes where
  w : W32
  sat : Nat := 0
  ufl : Nat := 0
  cnc : Nat := 0
  nonfin : Bool := false

/-- One position (i, j) of a block (R192 to R194). -/
def mePos (integer : Bool) (p : Nat) (first : Bool) (shift : Nat) (rowBad : Bool) (a : List AGroup) (sa sw : W32) (t : Tile) (j : Nat)
    (w : W32) : PosRes :=
  let b := colGroups integer p t j
  let cnt (n : Nat) : Nat := if first then n else 0
  if rowBad || b.1.any (fun g => g.1.any fun v => v.1.nonfin) then
    { w := 0x7FC00000, sat := cnt b.2.1, ufl := cnt b.2.2, nonfin := true }
  else
    let ts := (a.zip b.1).map fun g =>
      ((g.2.1.map fun v => (g.1.q.getD v.2 {}).int * v.1.int).foldl (· + ·) 0, g.1.e + g.2.2)
    let x := clampRound (((windowSum ts).mul (f32Val sa)).mul (f32Val sw))
    let r := clampRound ((f32Val w).add .rne (f32Val x.1))
    { w := r.1, sat := cnt b.2.1 + x.2 + r.2, ufl := cnt b.2.2, cnc := if cancels w x.1 r.1 shift then 1 else 0 }

/-- A 16-bit count that stops at its top (R194). -/
def cap16 (n : Nat) : Nat := Nat.min n 0xFFFF

/-- One row of the attempt in progress (R192, R197). -/
def ME.doRow (x : ME) (a : Attempt) : Attempt :=
  let o := a.op
  let m := descM o.desc
  let row := x.row (descRow o.desc + a.kb * m + a.i)
  let t := x.tile (o.s0 + a.kb)
  let vals := (List.range 128).map fun c => Tab.get row.vals {} c
  let g := rowGroups a.integer (rungPlanes a.rung) vals
  let bad := vals.any fun v => v.nonfin
  let cells := (List.range 128).map fun j =>
    mePos a.integer (rungPlanes a.rung) (decide (a.i = 0)) o.shift.toNat bad g.1 row.scale t.wscale t j (Tab.get a.w 0 (128 * a.i + j))
  let sum (f : PosRes → Nat) : Nat := (cells.map f).foldl (· + ·) 0
  let last := decide (a.i + 1 = m)
  { a with
    w := putRow a.w a.i (cells.map fun c => c.w)
    sat := if a.integer then 0 else cap16 (a.sat + g.2.1 + sum fun c => c.sat)
    ufl := if a.integer then 0 else cap16 (a.ufl + g.2.2 + sum fun c => c.ufl)
    cnc := if a.integer then 0 else cap16 (a.cnc + sum fun c => c.cnc)
    nonfin := a.nonfin || cells.any fun c => c.nonfin
    i := if last then 0 else a.i + 1
    check := last }

/-- ME_ROW (R197): one A row of a block. -/
def execMeRow (h site : Nat) (s : State) : Out' :=
  let e := s.elem h site
  match e.me.att with
  | some a =>
    if !s.hamletRuns h || a.check then .next s
    else .next (s.setElem h site { e with me := { e.me with att := some (e.me.doRow a) } })
  | none => .next s

/-- A replay counter of a context raised (R202). -/
def ME.countReplay (x : ME) (ctx n : Nat) : ME :=
  { x with replay := Tab.put x.replay (4 * ctx + n) (sat32 (Tab.get x.replay 0 (4 * ctx + n)) 1) }

/-- A committing attempt: the working tile goes to the target rows, with the status and the monitor register (R200, R201,
R213). -/
def ME.commit (x : ME) (a : Attempt) (ctx : Nat) : ME :=
  let o := a.op
  let acc := x.acc o.acc
  let vals := (List.range (descM o.desc)).foldl (fun (t : Tab W32) i =>
    putRow t (descA0 o.desc + i) ((List.range 128).map fun j => Tab.get a.w 0 (128 * i + j))) acc.content
  let bit (b : Bool) (k : Nat) : Nat := if b then 2 ^ k else 0
  let status := 1 + bit a.nonfin 2 + bit a.overr 3 + bit (decide (0 < a.replays)) 4 + bit a.integer 8 + o.acc * 2 ^ 12
  let mon := a.sat + a.ufl * 2 ^ 16 + a.cnc * 2 ^ 32 + (if a.integer then 0 else a.rung) * 2 ^ 48 + a.replays * 2 ^ 50
  let y := { x.setAcc o.acc { acc.wrote vals with infl := false } with
    att := none, status := BitVec.ofNat 16 status, monitor := BitVec.ofNat 64 mon }
  if a.overr then y.countReplay ctx 3 else y

/-- BLOCK_CHECK (R196): the counts are compared with the budgets at a K-block boundary. An excess below the ceiling discards the
working tile and replays one rung wider; the last check commits. -/
def execBlockCheck (h site : Nat) (s : State) : Out' :=
  let e := s.elem h site
  let x := e.me
  match x.att with
  | none => .next s
  | some a =>
    if !s.hamletRuns h || !a.check then .next s
    else
      let o := a.op
      let ctx := (s.ham h).ctx.getD 0
      let excess := !a.integer && decide (o.bSat.toNat < a.sat ∨ o.bUfl.toNat < a.ufl ∨ o.bCnc.toNat < a.cnc)
      let x' :=
        if excess && decide (a.rung < o.ceil.toNat) then
          { x.countReplay ctx a.rung with
            att := some { op := o, rung := a.rung + 1, replays := a.replays + 1, integer := a.integer, w := x.targetRows o } }
        else
          let b := { a with overr := a.overr || excess, kb := a.kb + 1, check := false }
          if a.kb + 1 = descNk o.desc then x.commit b ctx else { x with att := some b }
      .next (s.setElem h site { e with me := x' })

/-! ### Transfers (R214, R215, R220) -/

/-- ACCMOV_ROW (R214): one row of an accumulator move, from the cycle after its firing on. -/
def execAccmovRow (h site : Nat) (s : State) : Out' :=
  let e := s.elem h site
  let x := e.me
  match x.mv with
  | none => .next s
  | some m =>
    if !s.hamletRuns h || decide (s.cycle ≤ m.since) then .next s
    else
      let row := (List.range 128).map fun c => (x.acc m.src).read m.row c
      let x1 := x.setAcc m.dst ((x.acc m.dst).wrote (putRow (x.acc m.dst).content m.row row))
      .next (s.setElem h site { e with me := { x1 with mv := if m.row = 31 then none else some { m with row := m.row + 1 } } })

/-- The k-th token that ACCRD writes into queue q (R214). -/
def accrdTok (a : Acc) (q k : Nat) : Token :=
  let r := k / 33
  if k % 33 < 32 then dataTok (f40Round .rne (f32Val (a.read r (4 * (k % 33) + q))))
  else if r = 31 then ⟨2, 32⟩ else ⟨1, BitVec.ofNat 40 (r + 1)⟩

/-- ACCRD_TOKEN (R214): a read transfer writes its next token into a queue, at most one a cycle, where room remains. -/
def execAccrdToken (h site q : Nat) (s : State) : Out' :=
  let e := s.elem h site
  match e.me.rd with
  | none => .next s
  | some r =>
    let k := Tab.get r.sent 0 q
    if !s.hamletRuns h || decide (s.cycle ≤ r.since) || decide (4 ≤ q) || decide (1056 ≤ k) || !e.outRoom q || decide ((e.outQ q).fresh ≠ 0) then .next s
    else
      let e1 := e.pushOut q (.tok (accrdTok (e.me.acc r.acc) q k))
      let r1 := { r with sent := Tab.put r.sent q (k + 1) }
      let fin := (List.range 4).all fun j => decide (Tab.get r1.sent 0 j = 1056)
      .next (s.setElem h site { e1 with me := { e1.me with rd := if fin then none else some r1 } })

/-- The FP32 element of a token's value written by ACCWR (R214). -/
def accwrWord (v : W40) : W32 := (clampRound (f40Val v)).1

/-- A fully served row written into the accumulator; a position that no DATA token served keeps its content (R214). -/
def ME.accwrRow (x : ME) (w : WrX) (cycle : Nat) : ME :=
  let a := x.acc w.acc
  let row := (List.range 128).map fun c => Tab.get w.part (a.read w.row c) c
  let y := x.setAcc w.acc (a.wrote (putRow a.content w.row row))
  { y with wr := if w.left ≤ 1 then none else some { acc := w.acc, row := w.row + 1, left := w.left - 1, since := cycle } }

/-- ACCWR_TOKEN (R214): a write transfer takes the head of a queue; a row that is wholly served is written, and no token of the next row
is taken before the cycle after that. -/
def execAccwrToken (h site q : Nat) (s : State) : Out' :=
  let e := s.elem h site
  match e.me.wr with
  | none => .next s
  | some w =>
    let k := Tab.get w.served 0 q
    if !s.hamletRuns h || decide (s.cycle ≤ w.since) || decide (4 ≤ q) || decide (32 ≤ k) || !e.inPresent q || decide ((e.inQ q).gone ≠ 0) then .next s
    else
      let t := e.headTok q
      let e1 := e.setInQ q (e.inQ q).pop
      let x := if t.isFault then { e1.me with xfault := sat32 e1.me.xfault 1 } else e1.me
      let w1 : WrX :=
        if t.isMarker then w
        else
          { w with served := Tab.put w.served q (k + 1),
                   part := if t.isData then Tab.put w.part (4 * k + q) (accwrWord t.data) else w.part }
      let full := (List.range 4).all fun j => decide (Tab.get w1.served 0 j = 32)
      .next (s.setElem h site { e1 with me := if full then { x with wr := some w1 }.accwrRow w1 s.cycle else { x with wr := some w1 } })

/-- The ME at a region stop: queued operations are discarded, the operation in flight is abandoned and every transfer ends
(R204, R222). Of the status word R204 names bits [0], [1] and [9]; the others keep what they hold (DESIGN CHOICE, log entry 65). -/
def ME.abandon (x : ME) : ME :=
  let y := { x with opq := [], rd := none, wr := none, mv := none }
  match x.att with
  | none => y
  | some a =>
    { y.setAcc a.op.acc { y.acc a.op.acc with infl := false } with
      att := none, status := (x.status &&& ~~~3) ||| 0x200 }

/-- The ME at arming for a context (R183, R207): its replay counters are zero; those of other contexts stay (R202). -/
def ME.armed (x : ME) (ctx : Nat) : ME := { replay := x.replay.filter fun p => decide (p.1 / 4 ≠ ctx) }

end Sys2Proof.Machine
end

