-- ==== Sys2Proof/Machine/ReeveReq.lean ====
section
/-! DEFINITION. How a core reaches memory, and the requests of the atomic, barrier and task instructions, which a held-mode region
sends when their cut is complete (R238 to R241, R251, R252, R376). -/
namespace Sys2Proof.Machine
open Sys2Proof

/-- A core as an agent (R393). -/
def State.coreAgent (s : State) (c : CoreId) : Agent :=
  match c with
  | .reeve h => { code := 3, ctx := some (s.ham h).reeve.ctx, ham := some h }
  | .beadle => { code := 7 }
/-- The core that a number names: hamlets 0 to 255, then the beadle. -/
def coreOfNum (h : Nat) : CoreId := if h < 256 then .reeve h else .beadle

/-- The physical address of an access by a core: a reeve translates, the beadle uses physical addresses (R256). -/
def State.coreXlat (s : State) (c : CoreId) (v : Nat) (w : Want) : XRes :=
  match c with
  | .reeve h => s.translate (s.coreAgent c) (s.ham h).reeve.ctx v w
  | .beadle => .ok v s

/-- The check of a physical address before an access is sent: the error kind where R262 refuses it to every agent, or a reeve
names the management range or writes to the granary (R238). -/
def coreRefuses (c : CoreId) (pa : Nat) (write : Bool) : Option Nat :=
  match placeOf pa with
  | .unmapped => some 2
  | .mgmt => if c.isBeadle then none else some 1
  | .granary _ _ => if write && !c.isBeadle then some 1 else none
  | _ => none
/-- The counters and the log of an access refused by that check. -/
def State.refuseCore (s : State) (c : CoreId) (pa kind : Nat) : State :=
  let s1 := match placeOf pa with
    | .granary q _ => s.setQuad q { s.quad q with refused := sat32 (s.quad q).refused 1 }
    | _ => s
  s1.logErr (refuseLog (s.coreAgent c) pa kind)

/-- What a request of a core comes to: its value, a wait, a translation fault at an address, a trap at once, or an error response of its
target to an access at an address (R238). -/
inductive ReqRes where
  | done (v : W64) (s : State)
  | wait (s : State)
  | fault (v : Nat) (w : Want) (code : Nat) (s : State)
  | trap (cause : Nat) (val : W64) (s : State)
  | refused (ea : W64) (s : State)

/-- The new value of an atomic at a width of n bits; none where no write is made (R241). -/
def AmoOp.apply (op : AmoOp) {n : Nat} (old b expv : BitVec n) : Option (BitVec n) :=
  match op with
  | .add => some (old + b)
  | .swap => some b
  | .and => some (old &&& b)
  | .or => some (old ||| b)
  | .xor => some (old ^^^ b)
  | .min => some (if b.slt old then b else old)
  | .max => some (if old.slt b then b else old)
  | .cas => if old = expv then some b else none

/-- The new bytes of an atomic from the old ones. -/
def amoBytes (op : AmoOp) (word : Bool) (b expv : W64) (old : List Byte) : Option (List Byte) :=
  if word then (op.apply (BitVec.ofNat 32 (leNat old)) (b.setWidth 32) (expv.setWidth 32)).map fun v => leBytes 4 v.toNat
  else (op.apply (BitVec.ofNat 64 (leNat old)) b expv).map fun v => leBytes 8 v.toNat
/-- The old value as the instruction returns it (R241). -/
def amoOld (word : Bool) (old : List Byte) : W64 :=
  if word then (BitVec.ofNat 32 (leNat old)).signExtend 64 else BitVec.ofNat 64 (leNat old)

/-- An access of a core at a physical address where it may go: the body's answer, or an error (R238). -/
def State.corePhys (s : State) (c : CoreId) (ea : W64) (pa : Nat) (write : Bool) (body : State → MemRes W64) : ReqRes :=
  match coreRefuses c pa write with
  | some k => .trap 4 ea (s.refuseCore c pa k)
  | none =>
    match body s with
    | .ok v t => .done v t
    | .wait t => .wait t
    | .err t => .refused ea t

/-- A write to a green has to wait for the record points of a running cut (R361). -/
def State.coreAfter (s : State) (c : CoreId) (pa : Nat) : Bool :=
  match placeOf pa with
  | .green g _ =>
    (match c with
     | .reeve h => s.afterWait (some h) (s.ham h).capR.isSome g
     | .beadle => s.afterWait none false g)
  | _ => false

/-- A read-modify-write of a core at a virtual address. -/
def State.coreAtomic (s : State) (c : CoreId) (ea : W64) (body : Nat → State → MemRes W64) : ReqRes :=
  match s.coreXlat c ea.toNat .atomic with
  | .fault k t => .fault ea.toNat .atomic k t
  | .wait t => .wait t
  | .err t => .trap 4 ea t
  | .ok pa t => if t.coreAfter c pa then .wait t else t.corePhys c ea pa true (body pa)

/-- The atomic at ga (R241). -/
def State.reqAmo (s : State) (c : CoreId) (op : AmoOp) (word : Bool) (ga gb gd : W64) : ReqRes :=
  s.coreAtomic c ga fun pa t =>
    (t.atomicPhys (t.coreAgent c) pa (if word then 4 else 8) (.amo op word gb gd) (amoBytes op word gb gd)).map (amoOld word)

/-- BINIT of the barrier at ga (R251). -/
def State.reqBinit (s : State) (c : CoreId) (ga gb gd : W64) : ReqRes :=
  s.coreAtomic c ga fun pa t =>
    (t.atomicPhys (t.coreAgent c) pa 32 (.binit gb gd) fun _ =>
      some (Bar.toBytes { gen := 0, arrived := 0, expected := gb.toNat, count := 0, status := 0, link := gd })).map fun _ => gd

/-- BARV or BEXP of the barrier at ga (R251, R305). -/
def State.reqBar (s : State) (c : CoreId) (arrival : Bool) (ga gb : W64) : ReqRes :=
  s.coreAtomic c ga fun pa t => t.barrierPhys (t.coreAgent c) (t.coreAgent c).ctx pa arrival gb 0

/-- The context of a core. -/
def State.coreCtx (s : State) (c : CoreId) : Nat := (s.coreOf c).ctx

/-- TSPAWN of the record at ga: 0 pushed, 1 no room, 2 another context (R252, R317). -/
def State.reqSpawn (s : State) (c : CoreId) (ga : W64) : ReqRes :=
  match s.pushRecord (s.coreAgent c) (s.coreCtx c) ga with
  | .pushed t => .done 0 t
  | .full t => .done 1 t
  | .otherCtx t => .done 2 t
  | .fault k t => .fault (ga.toNat + 20) .load k t
  | .err t => .trap 4 ga t
  | .wait t => .wait t

/-- TJOIN of the record at ga: its join counter steps down, and the record is pushed when it reaches 0 (R252, R316). -/
def State.reqJoin (s : State) (c : CoreId) (ga : W64) : ReqRes :=
  let bytes (old : List Byte) : Option (List Byte) := (joinStep (leNat old)).2.1.map (leBytes 4)
  let r := s.coreAtomic c (ga + 16) fun pa t =>
    (t.atomicPhys (t.coreAgent c) pa 4 .join bytes).map fun old => BitVec.ofNat 64 (leNat old)
  match r with
  | .trap k _ t => .trap k ga t
  | .refused _ t => .trap 4 ga t
  | .done old t =>
    let v := BitVec.ofNat 64 (joinStep old.toNat).1
    if !(joinStep old.toNat).2.2 then .done v t
    else
      match t.pushRecord (s.coreAgent c) (s.coreCtx c) ga with
      | .pushed u | .full u => .done v u
      | .otherCtx u => .done v (u.logRecord 0 ga (s.coreCtx c))
      | .fault k _ => .fault (ga.toNat + 20) .load k s
      | .err u => .trap 4 ga u
      | .wait _ => .wait s
  | x => x

/-- TDONE's mark on the task of the reeve's region (R323). -/
def State.reqDone (s : State) (h : Nat) : State :=
  match s.regionOf h with
  | none => s
  | some (f, r) =>
    match r.task with
    | none => s
    | some t => s.setRegion f { r with task := some { t with tdone := if t.tdone.contains (h - f) then t.tdone else t.tdone ++ [h - f] } }

/-- A chain of blocks submitted for a context (R331). -/
def State.startChain (s : State) (ctx : Nat) (first : W64) : State :=
  let m := s.market
  { s with market := { m with chains := m.chains ++ [{ id := m.nextChain, ctx := ctx, cur := first }], nextChain := m.nextChain + 1 } }
/-- The chains of a context in flight. -/
def State.chainCount (s : State) (ctx : Nat) : Nat := (s.market.chains.filter fun x => decide (x.ctx = ctx)).length

/-- The issue checks of a submission whose first 16 bytes are given: the cause, 0 for accepted (R329, R331). `kind` none accepts
any kind. -/
def State.submitCause (s : State) (ctx : Nat) (kind : Option Nat) (b : List Byte) : Nat :=
  let k := leNat (b.take 1)
  let head := blockHeadCause (BitVec.ofNat 8 k) (BitVec.ofNat 8 (leNat ((b.drop 1).take 1)))
    (BitVec.ofNat 16 (leNat ((b.drop 2).take 2))) (BitVec.ofNat 64 (leNat ((b.drop 8).take 8)))
  if decide (k = 0 ∨ 10 < k) || (match kind with | some j => decide (k ≠ j) | none => false) then 1
  else if head ≠ 0 then head
  else if 16 ≤ s.chainCount ctx then 6
  else 0

/-- LAUNCH, LAUNCHI or GANG of the block at ga: the cause in gd (R252, R331). -/
def State.reqLaunch (s : State) (c : CoreId) (kind : Nat) (ga : W64) : ReqRes :=
  match s.readVirt (s.coreAgent c) (s.coreCtx c) ga.toNat 16 with
  | .wait t => .wait t
  | .fault k t => .fault ga.toNat .load k t
  | .err t => .done 5 t
  | .ok b t =>
    let cause := t.submitCause (s.coreCtx c) (some kind) b
    .done (BitVec.ofNat 64 cause) (if cause = 0 then t.startChain (s.coreCtx c) ga else t)

/-- A request performed (R241, R251, R252). -/
def State.perform (s : State) (c : CoreId) (r : RCall) : ReqRes :=
  match r.req with
  | .amo op word => s.reqAmo c op word r.ga r.gb r.gd
  | .binit => s.reqBinit c r.ga r.gb r.gd
  | .barv => s.reqBar c true r.ga r.gb
  | .bexp => s.reqBar c false r.ga r.gb
  | .tspawn => s.reqSpawn c r.ga
  | .tjoin => s.reqJoin c r.ga
  | .tdone => .done 0 (match c with | .reeve h => s.reqDone h | .beadle => s)
  | .launch k => s.reqLaunch c k r.ga

/-- What REFUSE of a fault of a request does to its instruction (R239, R317, R331): "access" where the read of a push has faulted. -/
def RCall.refuse (r : RCall) (pushRead : Bool) : OnRefuse :=
  match r.req with
  | .tspawn => .access
  | .tjoin => if pushRead then .access else .page
  | .launch _ => .code r.d
  | _ => .page
/-- The fault of a request was met by a read, which TJOIN makes only for its push (R317). -/
def ReqRes.byRead (x : ReqRes) : Bool :=
  match x with
  | .fault _ w _ _ => decide (w = .load)
  | _ => false

/-- The instruction waits on a translation fault, which is reported (R239). -/
def State.xlatWait (s : State) (c : CoreId) (v : Nat) (w : Want) (code : Nat) (ea : W64) (o : OnRefuse) : State :=
  let r := s.reportFault (s.coreAgent c) (s.coreCtx c) v w code
  r.2.setCore c { r.2.coreOf c with run := .xlat r.1 none ea o }

/-- The error response to an access of a core's instruction (R238): it returns before a later instruction issues, and the instruction traps;
or it is on its way while the core goes on, its register not written. Which of the two is free (DESIGN CHOICE, log entry 82). -/
def State.errorBack (s : State) (c : CoreId) (d : BitVec 5) (ea : W64) : State :=
  let t : State := { s with freeN := s.freeN + 1 }
  if Config.errorLate s.freeN then
    let k := t.coreOf c
    t.setCore c { k with pc := k.pc + 4, instret := k.instret + 1, owedErr := k.owedErr ++ [{ epc := k.pc, ea := ea, d := d }] }
  else t.takeTrap c 4 ea false

/-- The end of an instruction that made a request: its value is written, it waits, it traps, or its error response returns. -/
def State.finish (c : CoreId) (d : BitVec 5) (ea : W64) (o : OnRefuse) (r : ReqRes) : State :=
  match r with
  | .done v t => t.retire c d v
  | .wait t => t
  | .fault v w k t => t.xlatWait c v w k ea o
  | .trap k v t => t.takeTrap c k v false
  | .refused v t => t.errorBack c d v

/-- A request's instruction ends: BINIT writes no register, and TDONE ends the reeve's part of the task. -/
def State.finishCall (c : CoreId) (r : RCall) (x : ReqRes) : State :=
  match r.req, x with
  | .tdone, .done _ t => let u := t.retire c 0 0; u.setCore c { u.coreOf c with run := .done }
  | .binit, x => State.finish c 0 r.ga (r.refuse x.byRead) x
  | _, x => State.finish c r.d r.ga (r.refuse x.byRead) x

/-- The number of the cut that an instruction issued now by the reeve of a hamlet waits for (R376). -/
def State.nextCut (s : State) (h : Nat) : Nat := s.coveringCut h (s.ham h).capR.isSome

/-- The reeve waits for a cut, which is asked for (R376). -/
def State.waitCut (s : State) (h : Nat) (w : CutWaiter) : State :=
  let s1 := s.askCut h (s.ham h).capR.isSome
  s1.setCore (.reeve h) { (s.ham h).reeve with run := .cutWait (s.nextCut h) w }

/-- The issue of a request: in a held-mode region it waits for its cut; else it is performed at once. -/
def State.issueCall (s : State) (c : CoreId) (r : RCall) : State :=
  match c with
  | .beadle => State.finishCall c r (s.perform c r)
  | .reeve h =>
    let task := match r.req with | .tspawn | .tjoin | .tdone | .launch _ => true | _ => false
    if task then (if s.heldMode h then s.waitCut h (.call r) else State.finishCall c r (s.perform c r))
    else if !s.heldMode h then State.finishCall c r (s.perform c r)
    else
      match s.coreXlat c r.ga.toNat .atomic with
      | .fault k t => t.xlatWait c r.ga.toNat .atomic k r.ga (r.refuse false)
      | .wait t => t
      | .err t => t.takeTrap c 4 r.ga false
      | .ok pa t =>
        match coreRefuses c pa true with
        | some k => (t.refuseCore c pa k).takeTrap c 4 r.ga false
        | none => if t.outbound h pa then t.waitCut h (.call r) else State.finishCall c r (s.perform c r)

end Sys2Proof.Machine
end

