-- ==== Sys2Proof/Machine/Carter.lean ====
section
/-! DEFINITION. Bulk copies: the carter of a hamlet and the market's copy channel (R250, R415). -/
namespace Sys2Proof.Machine
open Sys2Proof

/-- The carter of a hamlet as an agent (R393). -/
def carterAgent (s : State) (h : Nat) : Agent := { code := 4, ctx := (s.ham h).ctx, ham := some h }

/-- The reeve and the carter of a hamlet may act: its region, if any, is not stopped by a warning, a pre-emption, a stopped cut
or the settling of held writes, and its parish has power (R259, R275, R365, R368). -/
def State.engineFree (s : State) (h : Nat) : Bool :=
  (s.ham h).powered && !s.greenGated h &&
  (match s.regionOf h with
   | none => true
   | some (_, r) =>
     !r.frozen && !r.pre && !r.killed && (r.stopping.isNone || r.free) && !(match r.cut with | some c => c.stopped | none => false))

/-- The carter of a hamlet may act: with its hamlet's other engines, or, while the held writes of its region settle, for the copy that a
taken cut covers (R275). -/
def State.carterFree (s : State) (h : Nat) : Bool :=
  s.engineFree h ||
  ((s.ham h).powered && !s.greenGated h &&
   (match (s.ham h).carter.cur with | some { cut := some n, .. } => decide (n < (s.ham h).cutSeq) | _ => false) &&
   (match s.regionOf h with | some (_, r) => r.stopping.isSome && !r.frozen && !r.pre && !r.killed | none => false))

/-- The outcome of the reads of a granule. -/
inductive CopyRead where
  | ok (b : List Byte) (s : State)
  | wait (s : State)
  | fault (v code : Nat) (s : State)
  | err (s : State)

/-- The bytes of virtual pieces, none of which crosses a 4 KiB page. -/
def State.copyRead (s : State) (a : Agent) (c : Nat) : List (Nat × Nat) → List Byte → CopyRead
  | [], acc => .ok acc s
  | p :: r, acc =>
    match s.readVirt a c p.1 p.2 with
    | .ok b t => State.copyRead t a c r (acc ++ b)
    | .wait t => .wait t
    | .fault k t => .fault p.1 k t
    | .err t => .err t

/-- The pieces of n bytes at v, cut at 4 KiB pages. -/
def pagePieces (v n : Nat) : List (Nat × Nat) :=
  let m := Nat.min n (4096 - v % 4096)
  if n = 0 then [] else if m = n then [(v, n)] else [(v, m), (v + m, n - m)]

/-- The bytes of the granule that a copy is at: up to the end of its 4 KiB destination granule (R250). -/
def CopyRun.granule (x : CopyRun) : Nat :=
  Nat.min (x.cmd.size - x.off) (4096 - (x.cmd.dst.toNat + x.off) % 4096)

/-- What one granule of a copy comes to. -/
inductive CopyStep where
  /-- the run goes on, with its new state -/
  | next (x : CopyRun) (s : State)
  /-- the first write waits for a cut (R250) -/
  | cut (s : State)
  | wait (s : State)

/-- One granule copied by an agent of a context: the source read, then each destination sector written whole. A translation
fault is reported and waits; an error response ends the command with its error bit (R250, R304). `hold` tells whether a write
to a physical address has to wait for a cut, and `after` for the record points of a running cut. -/
def State.granuleStep (s : State) (a : Agent) (c : Nat) (x : CopyRun) (hold after : State → Nat → Bool) : CopyStep :=
  let n := x.granule
  let src := (x.cmd.src.toNat + x.off) % 2 ^ 64
  let dst := (x.cmd.dst.toNat + x.off) % 2 ^ 64
  let ended (e : Nat) : CopyRun := { x with errs := x.errs ||| e, finished := true }
  match s.translate a c dst .store with
  | .wait t => .wait t
  | .err t => .next (ended 8) t
  | .fault k t => let r := t.reportFault a c dst .store k; .next { x with fault := some r.1 } r.2
  | .ok pa t =>
    if hold t pa then .cut t
    else if after t pa then .wait t
    else
      match t.copyRead a c (pagePieces src n) [] with
      | .wait u => .wait u
      | .err u => .next (ended 4) u
      | .fault v k u => let r := u.reportFault a c v .load k; .next { x with fault := some r.1 } r.2
      | .ok b u =>
        match u.writeBytesPhys a true pa b with
        | .wait q => .wait q
        | .err q => .next (ended 8) q
        | .ok _ q => .next { x with off := x.off + n, finished := decide (x.cmd.size ≤ x.off + n) } q

/-- The carter's copy under way replaced. -/
def State.setCopy (s : State) (h : Nat) (x : Option CopyRun) : State :=
  s.setHam h { s.ham h with carter := { (s.ham h).carter with cur := x } }

/-- The acquire of a command can be performed: the stores of the reeve that precede its issue have left the held-write buffer, each performed at
its target (R280, R286, R292). -/
def Hamlet.acquired (x : Hamlet) (c : CopyCmd) : Bool :=
  !c.acq || x.held.all fun e => match e.op with | .write 3 _ _ => e.done || decide (c.held ≤ e.idx) | _ => true

/-- CARTER_COMMAND (R250): the next queued command starts, with its acquire. -/
def execCarterCommand (h : Nat) (s : State) : Out' :=
  let k := (s.ham h).carter
  match k.cur, k.q with
  | none, x :: r =>
    if s.engineFree h && (s.ham h).acquired x then
      .next (s.setHam h { s.ham h with carter := { q := r, cur := some { cmd := x, finished := decide (x.size = 0) } } })
    else .next s
  | _, _ => .next s

/-- A copy of a held-mode region to a place outside it waits before its first write for a cut that covers every earlier access
(R250, R291). -/
def copyHold (h : Nat) (x : CopyRun) (s : State) (pa : Nat) : Bool :=
  s.outbound h pa && (match x.cut with | none => true | some n => decide ((s.ham h).cutSeq ≤ n))
/-- A copy into a green waits while a cut has recorded the carter and not every agent (R361). -/
def copyAfter (h : Nat) (s : State) (pa : Nat) : Bool :=
  match placeOf pa with
  | .green g _ => s.afterWait (some h) (s.ham h).capC.isSome g
  | _ => false

/-- CARTER_GRANULE (R250): one 4 KiB granule of the destination is copied. -/
def execCarterGranule (h : Nat) (s : State) : Out' :=
  match (s.ham h).carter.cur with
  | none => .next s
  | some x =>
    if x.finished || x.fault.isSome || !s.carterFree h then .next s
    else
      match s.granuleStep (carterAgent s h) ((s.ham h).ctx.getD 0) x (copyHold h x) (copyAfter h) with
      | .next y t => .next (t.setCopy h (some y))
      | .wait t => .next t
      | .cut t =>
        let late := (t.ham h).capR.isSome || (t.ham h).capC.isSome
        if x.cut.isSome then .next t else .next ((t.askCut h late).setCopy h (some { x with cut := some (t.coveringCut h late) }))

/-- A copy whose fault is refused: a command under way ends with its error bit (R352), and a delivery that cannot be made is given
up, so that the command ends without it (R415). -/
def CopyRun.refused (r : CopyRun) (bit : Nat) : CopyRun :=
  if r.finished then { r with fault := none, cmd := { r.cmd with comp := 0 } }
  else { r with fault := none, finished := true, errs := r.errs ||| bit }

/-- The barrier status bit that a refused fault leaves: a read or a write (R304, R352). -/
def State.refuseBit (s : State) (c id : Nat) : Nat :=
  match s.market.faults.find? fun f => decide (f.ctx = c ∧ f.id = id) with
  | some f => if f.acc = 0 then 4 else 8
  | none => 4

/-- The completion of a copy within a held-mode region goes to a barrier outside it: it waits for a cut that covers the copy, so that
no agent outside sees the delivery of a write that could still be lost (R291). -/
def State.completionHeld (s : State) (h : Nat) (x : CopyRun) : Bool :=
  match s.translate (carterAgent s h) ((s.ham h).ctx.getD 0) x.cmd.comp.toNat .atomic with
  | .ok pa t => t.outbound h pa && (match x.cut with | none => true | some n => decide ((s.ham h).cutSeq ≤ n))
  | _ => false

/-- CARTER_COMPLETION_UPDATE (R250, R305): the delivery to the completion barrier; then the command has ended. -/
def execCarterCompletionUpdate (h : Nat) (s : State) : Out' :=
  match (s.ham h).carter.cur with
  | none => .next s
  | some x =>
    if !x.finished || x.fault.isSome || !s.carterFree h then .next s
    else if x.cmd.comp = 0 then .next (s.setCopy h none)
    else if s.completionHeld h x then
      let late := (s.ham h).capC.isSome
      if x.cut.isSome then .next s
      else .next ((s.askCut h late).setCopy h (some { x with cut := some (s.coveringCut h late) }))
    else
      let r := s.owedBarrier (carterAgent s h) ((s.ham h).ctx.getD 0) x.cmd.comp false (-(BitVec.ofNat 64 x.cmd.size)) x.errs
      .next (r.2.2.setCopy h (if r.2.1 then none else some { x with fault := r.1 }))

/-- The delivery of a command discarded before it completes is owed, with error bit 4 (R305, R395, R415); one that waits on a fault
of a killed context is not made (R415). -/
def State.abandonCopy (s : State) (a : Agent) (c : Nat) (x : CopyRun) : State :=
  if x.cmd.comp = 0 then s
  else if x.finished && x.fault.isSome && s.market.killing.contains c then s.lostUpdate a (some c) 0 x.cmd.comp
  else
    { s with market := { s.market with owed := s.market.owed ++
        [{ ctx := c
           code := a.code
           ham := a.ham
           acts := [.deliver x.cmd.comp (-(BitVec.ofNat 64 x.cmd.size))]
           e := x.errs ||| 16
           fault := if x.finished then x.fault else none }] } }

/-- Every command of a carter discarded (R395). -/
def State.abandonCarter (s : State) (h : Nat) : State :=
  let k := (s.ham h).carter
  let all := (match k.cur with | some x => [x] | none => []) ++ k.q.map fun c => { cmd := c }
  let s1 := s.setHam h { s.ham h with carter := {} }
  all.foldl (fun (t : State) x => t.abandonCopy (carterAgent s h) ((s.ham h).ctx.getD 0) x) s1

end Sys2Proof.Machine
end

