-- ==== Sys2Proof/Machine/Shadow.lean ====
section
/-! DEFINITION. The shadow layer: slots and banks (R355, R356), running and stopped cuts (R358 to R363), held entries (R364), and
the restoring of a recorded state (R366, R367, R370). -/
namespace Sys2Proof.Machine
open Sys2Proof

/-! ### Slots (R355) -/

/-- The slot that cut n is written to: bank A for even n, bank B for odd n. -/
def Hamlet.bankOf (x : Hamlet) (n : Nat) : Option Nat :=
  (List.range 4).find? fun k => match (x.slot k).use with | .bank b => b == decide (n % 2 = 1) | _ => false
/-- The bytes before the CRC of a header: bytes 0 to 55 (R363). -/
def Header.bytes56 (x : Header) : List Byte :=
  let b (c : Bool) (n : Nat) : Nat := if c then n else 0
  leBytes 4 x.magic.toNat ++ leBytes 1 x.version.toNat ++
  leBytes 1 (b x.valid 1 + b x.stopped 2 + b x.bench 4 + b x.free 8 + b x.idem 16) ++ leBytes 1 x.ctx ++
  leBytes 1 (x.hidx + 8 * (x.hcount - 1)) ++ leBytes 8 x.seq ++ leBytes 8 x.image.toNat ++ leBytes 8 x.start ++
  leBytes 4 x.bytes.toNat ++ leBytes 20 0

/-- One bit of CRC-32C (Castagnoli). -/
def crcBit (c : Nat) : Nat := if c % 2 = 1 then c / 2 ^^^ 0x82F63B78 else c / 2
/-- CRC-32C of bytes (R363). -/
def crc32c (l : List Byte) : Nat :=
  (l.foldl (fun (c : Nat) b => (List.range 8).foldl (fun (d : Nat) _ => crcBit d) (c ^^^ b.toNat)) 0xFFFFFFFF) ^^^ 0xFFFFFFFF
/-- The header as it is written: magic, version and CRC with the rest (R363). -/
def Header.sealed (x : Header) : Header :=
  let y := { x with magic := 0x57444853, version := 1 }
  { y with crc := BitVec.ofNat 32 (crc32c y.bytes56) }
/-- A header is valid for the owner of its slot: magic, version, valid flag, context and CRC (R363). -/
def Header.validFor (x : Header) (ctx : Nat) : Bool :=
  x.valid && decide (x.magic = 0x57444853 ∧ x.version = 1 ∧ x.ctx = ctx ∧ x.crc = BitVec.ofNat 32 (crc32c x.bytes56))

/-- A valid bank: its header is valid for the slot's context, and no line of it is uncorrectable (R363, R388). -/
def ShSlot.ok (y : ShSlot) : Bool := y.snap.hdr.validFor y.ctx && y.bad.isNone
/-- A slot holds a valid bank of the context that holds the hamlet. -/
def Hamlet.validBank (x : Hamlet) (k : Nat) : Bool :=
  (match (x.slot k).use with | .bank _ => true | _ => false) && (x.slot k).ok && decide (x.ctx = some (x.slot k).ctx)
/-- The slot that holds a valid bank of cut n. -/
def Hamlet.cutSlot (x : Hamlet) (n : Nat) : Option Nat :=
  (List.range 4).find? fun k => x.validBank k && decide ((x.slot k).snap.hdr.seq = n)
/-- The largest sequence number of a hamlet's valid banks not above `top`. -/
def Hamlet.newest (x : Hamlet) : Option Nat :=
  ((List.range 4).filter x.validBank).foldl
    (fun (a : Option Nat) k =>
      let n := (x.slot k).snap.hdr.seq
      match a with | none => some n | some m => some (Nat.max m n)) none

/-! ### Errors of the shadow layer (R386, R388) -/

/-- The banks of the context that holds a hamlet are read, as a resume does (R366, R388). -/
def State.readBanks (s : State) (h : Nat) : State :=
  let mine (y : ShSlot) : Bool :=
    (match y.use with | .bank _ => true | _ => false) && decide ((s.ham h).ctx = some y.ctx) && y.snap.hdr.valid
  ((List.range 4).filter fun k => mine ((s.ham h).slot k)).foldl (fun (t : State) k => t.readLines h k 0 slotLines) s

/-! ### Starting a cut (R358, R359) -/

/-- An element at the start of a running cut: nothing of it is recorded. -/
def Elem.cutStart (e : Elem) : Elem :=
  { e with recorded := false, openIn := [], chan := [], cutOut := [], inq := e.inq.map fun (p : Nat × Queue) => (p.1, { p.2 with mark := none }) }

/-- A recorded state needs the value kept for an acknowledged entry: it holds the entry, or what waits for its value (R182, R376). -/
def Snap.needs (p : Snap) (k : Nat × HeldOp × HeldRet) : Bool :=
  p.held.any (fun e => decide (e.idx = k.1)) || (match p.reeve.run with | .heldWait i _ => decide (i = k.1) | _ => false) ||
  (match k.2.1 with
   | .spe r => p.elems.any fun e => e.2.pend.any fun q => r.same q.req && q.result.isNone
   | _ => false)
/-- Values kept for acknowledged entries that no valid bank needs any more are given up (R182, R376). -/
def Hamlet.dropKept (x : Hamlet) : Hamlet :=
  { x with kept := x.kept.filter fun k => x.slots.any fun p => p.2.snap.hdr.valid && p.2.snap.needs k }

/-- A hamlet at the start of cut n: the target bank's header is written as invalid (R359). The records that stand in the reeve's event
queue lie ahead of the boundary (R143). -/
def Hamlet.cutStart (x : Hamlet) (n : Nat) : Hamlet :=
  let y := { x with
    elems := x.elems.map fun (p : Nat × Elem) => (p.1, p.2.cutStart)
    reeve := { x.reeve with evMark := some x.reeve.evq.length }
    capR := none, capC := none, capE := [], capG := none, since := { all := false } }
  match x.bankOf n with
  | some k =>
    (y.setSlot k { x.slot k with snap := { (x.slot k).snap with hdr := { (x.slot k).snap.hdr with valid := false } } }).dropKept
  | none => y

/-- A change made to every hamlet of a region. -/
def State.eachHam (s : State) (first : Nat) (g : Nat → Hamlet → Hamlet) : State :=
  ((s.region first).hamlets first).foldl (fun (t : State) h => t.setHam h (g h (t.ham h))) s

/-- CUT_START (R359): cut number nextSeq of the region begins. None is begun while one is in progress, or in fallow (R395). -/
def State.startCut (s : State) (first : Nat) : State :=
  let r := s.region first
  if r.cut.isSome || r.fallow.isSome || r.frozen || r.placed then s
  else
    (s.eachHam first fun _ x => x.cutStart r.nextSeq).setRegion first
      { r with cut := some { seq := r.nextSeq, start := s.cycle }, cutAgain := false, nextSeq := r.nextSeq + 1, lastCutStart := s.cycle }

/-- The interval of a region's cuts expires in this cycle: a whole number of the lead reeve's intervals has passed since the last cut
started (R358; log entry 42). -/
def State.intervalExpires (s : State) (first : Nat) : Bool :=
  let t := s.cycle - (s.region first).lastCutStart
  decide (0 < t ∧ t % (s.ham first).reeve.shadowIval.toNat = 0)

/-- SHADOW_INTERVAL_EXPIRY (R358): the lead reeve's shadow_ival has expired since the last cut started. An expiry during a cut is
dropped. -/
def execShadowIntervalExpiry (first : Nat) (s : State) : Out' :=
  let r := s.region first
  if r.cut.isSome || r.stopping.isSome || r.pre || r.task.isNone then .next s
  else if s.intervalExpires first then .next (s.startCut first)
  else .next s

/-! ### Recording (R359, R360, R368, R376) -/

/-- The inputs of an element that a valid switch word feeds: i0 to i3 are 0 to 3, pq0 and pq1 are 4 and 5. -/
def Elem.routedIn (e : Elem) : List Nat := (List.range 6).filter fun n => swValid (e.swWord (if n < 4 then 16 + n else 24 + n))
/-- The output queues and ports that a valid switch word selects. -/
def Elem.routedOut (e : Elem) : List Nat := (List.range 6).filter e.outRouted

/-- The entries of a queue that belong to the cut: those ahead of a boundary mark (R359). -/
def Queue.ahead (q : Queue) : List QEnt :=
  (match q.mark with | some k => q.ents.take k | none => q.ents)

/-- The entries of an output queue from the first one that a split request has reserved: its CUT goes in ahead of them. -/
def Queue.fromResv (q : Queue) : List QEnt := q.ents.dropWhile fun x => match x with | .resv _ => false | _ => true

/-- An element as a running cut records it: its input queues ahead of any boundary, no lane register, and of an output queue only what stands
from a reserved entry on, whose tokens its CUT goes ahead of (R41, R151, R180; log entry 71). -/
def Elem.capture (e : Elem) : Elem :=
  { e with
    inq := e.inq.map fun (p : Nat × Queue) => (p.1, { ents := p.2.ahead })
    outq := e.outq.map fun (p : Nat × Queue) => (p.1, { ents := p.2.fromResv })
    lanes := [], recorded := false, openIn := [], chan := [], cutOut := [], fired := false,
    streams := e.streams.map fun (p : Nat × Stream) => (p.1, p.2.recorded) }

/-- A queue that has taken its CUT: behind the tokens that stand there, ahead of an entry that a split request has reserved, whose token is a
later one (R151, R180, R359). What follows the CUT cannot leave before it, and counts as of this cycle with it. -/
def Queue.takeCut (q : Queue) (n : W32) : Queue :=
  { q with ents := cutBefore n q.ents, fresh := Nat.max (q.fresh + 1) (1 + q.fromResv.length) }

/-- A CUT placed in each output queue that waits for one and has room (R359). A CUT placed at its element's record point stands in the queue
from the start of that cycle: behind one token it takes the second place, and a firing of the same cycle finds no room there. The spec judges
room at the start of the cycle (R29) and does not say which of the two has that place (DESIGN CHOICE, log entry 71). -/
def Elem.placeCuts (e : Elem) (n : W32) : Elem :=
  e.cutOut.foldl (fun (e : Elem) q =>
    if (e.outQ q).occ < 2 then { e.setOutQ q ((e.outQ q).takeCut n) with cutOut := e.cutOut.erase q } else e) e

/-- An element at its record point (R359, steps 2 to 4). -/
def Elem.record (e : Elem) (n : W32) : Elem :=
  let opened := e.routedIn.filter fun q => (e.inQ q).mark.isNone
  { e with
    recorded := true, openIn := opened, chan := [], cutOut := e.routedOut,
    inq := e.inq.map fun (p : Nat × Queue) => (p.1, { p.2 with mark := none }) }.placeCuts n

/-- A reeve as a running cut records it: the event records behind the boundary are posted again by the elements that posted them
(R143). -/
def Core.beforeMark (k : Core) : Core :=
  { k with evq := (match k.evMark with | some m => k.evq.take m | none => k.evq), evMark := none }

/-- A carter as a cut records it: a copy that waits on a translation fault is recorded as not issued (R353). -/
def Carter.notIssued (k : Carter) : Carter := { k with cur := k.cur.map fun x => { x with fault := none } }

/-- A reeve's waiting instruction as recorded: not issued, so that it issues again on resume (R259, R376). -/
def Core.notIssued (k : Core) : Core :=
  match k.run with
  | .wait _ _ _ _ | .bwait | .slew _ _ _ | .xlat _ _ _ _ | .cutWait _ _ | .cfgWait _ => { k with run := .running, offer := none }
  | _ => { k with offer := none }

/-- The reeve past an instruction that cut n covers, and whether a request becomes a held entry (R376). -/
def Core.pastCall (k : Core) (idx : Nat) (r : RCall) : Core :=
  { k with pc := k.pc + 4, instret := k.instret + 1, run := match r.req with | .tdone => .done | _ => .heldWait idx r.d }

/-- The reeve of a hamlet recorded by cut n: its capture, and the hamlet with a waiting request turned into a held entry tagged n
(R376). -/
def Hamlet.recordReeve (x : Hamlet) (n : Nat) : Core × Hamlet :=
  let k := x.reeve
  match k.run with
  | .cutWait m (.pfence d) =>
    if m = n then ({ (k.setReg d (BitVec.ofNat 64 n)) with pc := k.pc + 4, instret := k.instret + 1, run := .running, offer := none }, x)
    else (k.notIssued, x)
  | .cutWait m (.call r) =>
    if m = n then
      let k1 := k.pastCall x.heldNext r
      ({ k1 with offer := none },
       { x with reeve := k1, held := x.held ++ [{ op := .reeve r, tag := n, idx := x.heldNext }], heldNext := x.heldNext + 1 })
    else (k.notIssued, x)
  | _ => (k.notIssued, x)

/-- A green's listed bytes, by offset. -/
def State.greenCells (s : State) (h : Nat) : List (Nat × Byte) :=
  (s.mem.filter fun c => decide (greenPa h 0 ≤ c.1 ∧ c.1 < greenPa h 0x200000)).map fun c => (c.1 - greenPa h 0, c.2)
/-- A green's full words, by offset div 8. -/
def State.greenPres (s : State) (h : Nat) : Tab Bool :=
  (s.pres.filter fun c => decide (greenPa h 0 / 8 ≤ c.1 ∧ c.1 < greenPa h 0x200000 / 8)).map fun c => (c.1 - greenPa h 0 / 8, c.2)

/-- The stale bit of an item (R357). -/
def Stale.has (x : Stale) (i : Nat) : Bool := x.all != x.except.contains i
/-- The sectors of a green that cannot be corrected, by number (R386). -/
def State.greenLost (s : State) (h : Nat) : List Nat :=
  (s.ecc.filter fun c => decide (c.2 = .many ∧ greenPa h 0 / 32 ≤ c.1 ∧ c.1 < greenPa h 0x200000 / 32)).map fun c => c.1 - greenPa h 0 / 32
/-- The lines of a green that a cut records are read: what can be corrected is, and each error met is logged, with no agent (R357, R386; log
entry 62). -/
def State.readGreen (s : State) (h : Nat) (st : Stale) : State :=
  let hit := s.ecc.filter fun c =>
    decide (greenPa h 0 / 32 ≤ c.1 ∧ c.1 < greenPa h 0x200000 / 32) && st.has ((c.1 - greenPa h 0 / 32) / 8)
  (s.corrected hit).logCells { code := 10, ctx := (s.ham h).ctx, ham := some h } hit
/-- The stale bits of a hamlet for the bank that cut n is written to (R357). -/
def Hamlet.staleFor (x : Hamlet) (n : Nat) : Stale := if n % 2 = 1 then x.staleB else x.staleA

/-- The green state of a hamlet as a running cut records it: greens, presence bits, troughs, deferred requests (R356, R361). A request that its
SPE has issued behind its record point is none of the recorded state: its firing makes it again (R180). -/
def State.captureGreen (s : State) (h : Nat) : Snap :=
  let x := s.ham h
  { green := s.greenCells h, lost := s.greenLost h, pres := s.greenPres h, troughs := x.troughs.map fun p => (p.1, p.2.settle)
    defer := x.defer.map fun (p : Nat × List SpeReq) => (p.1, p.2.filter fun r => !(s.sameRegion r.srcH h && r.isAfter s))
    heldSpan := x.heldSpan }

/-- Every agent of a hamlet has passed its record point. -/
def Hamlet.allRecorded (x : Hamlet) : Bool :=
  x.capR.isSome && x.capC.isSome && (List.range 64).all fun i => (Tab.get x.elems {} i).recorded

/-- Once every agent of the region has passed its record point, the green state is captured (R361). -/
def State.captureGreens (s : State) (first : Nat) : State :=
  let hs := (s.region first).hamlets first
  if hs.all fun h => (s.ham h).allRecorded && (s.ham h).capG.isNone then
    let n := match (s.region first).cut with | some c => c.seq | none => 0
    let t := hs.foldl (fun (t : State) h => t.readGreen h ((t.ham h).staleFor n)) s
    hs.foldl (fun (u : State) h => u.setHam h { u.ham h with capG := some (t.captureGreen h) }) t
  else s

/-- A request of an SPE is performed or in transit: its completion is awaited before the record point (R180). -/
def State.inTransit (s : State) (h site : Nat) : Bool :=
  let mine (r : SpeReq) : Bool := decide (r.srcH = h ∧ r.site = site)
  (s.elem h site).pend.any (fun p => p.result.isSome) || s.keptMoves h site ||
  s.hamlets.any fun p => p.2.msgs.any mine || p.2.afterQ.any mine

/-- The record point of an element in a running cut (R359, R368). -/
def State.atRecordPoint (s : State) (h site : Nat) : Bool :=
  let e := s.elem h site
  match siteKind site with
  | .pe => true
  | .spe => !s.inTransit h site
  | .se => e.streams.all fun p => !p.2.gathering && p.2.gtoks.isEmpty
  | .me => seSites.all fun st => (s.elem h st).recorded || (List.range 4).all fun k =>
      let y := s.stream h st k
      !(y.port && decide (y.meX = site % 8))

/-- ELEMENT_RECORD (R359): an agent of a hamlet reaches its record point, captures its items and emits its CUTs. Agents 0 to 63 are
the elements, 64 the reeve, 65 the carter. A request that an SPE has kept is recorded so, and is sent behind the record point (R180, R361). -/
def execElementRecord (h agent : Nat) (s : State) : Out' :=
  match s.regionOf h with
  | none => .next s
  | some (f, r) =>
    match r.cut with
    | none => .next s
    | some c =>
      let x := s.ham h
      if c.stopped || r.frozen then .next s
      else if agent < 64 then
        let e := s.elem h agent
        if e.recorded || !s.atRecordPoint h agent then .next s
        else
          let s1 := s.setHam h { x with capE := Tab.put x.capE agent e.capture }
          .next ((s1.setElem h agent { e.record (BitVec.ofNat 32 c.seq) with sendQ := e.sendQ.map (SpeReq.behind c.seq) }).captureGreens f)
      else if agent = 64 then
        if x.capR.isSome || !x.reeve.storeBuf.isEmpty then .next s
        else
          let p := x.recordReeve c.seq
          .next ((s.setHam h { p.2 with capR := some p.1.beforeMark, reeve := { p.2.reeve with evMark := none } }).captureGreens f)
      else if x.capC.isSome then .next s
      else .next ((s.setHam h { x with capC := some x.carter.notIssued }).captureGreens f)

/-- AFTER_WRITE_PERFORM (R361): a write made after its issuer's record point is performed once every agent has recorded, and so are the
requests of its SPE to its bank that stand behind it, in the order of their issue (R148). -/
def execAfterWritePerform (h : Nat) (s : State) : Out' :=
  match (s.ham h).afterQ with
  | [] => .next s
  | r :: rest =>
    if r.kind.writes && s.afterWait (some r.srcH) (r.isAfter s) h then .next s
    else
      let w := (s.setHam h { s.ham h with afterQ := rest }).serve r
      .next (if w.1 then w.2 else s)

/-! ### Completing a cut (R359, R362, R363) -/

/-- The header of cut n in a hamlet (R363). -/
def Region.header (r : Region) (first h n start : Nat) (stopped : Bool) (bytes : W32) : Header :=
  { valid := true, stopped := stopped, bench := r.bench, free := r.free, idem := r.idem, ctx := r.ctx, hidx := h - first, hcount := r.n,
    seq := n, image := if r.st = .armed then r.image else 0, start := start, bytes := bytes }

/-- What a cut records of an accumulator: its content, without the bits that say what is to be recorded and what runs (R199). -/
def Acc.asRecorded (a : Acc) : Acc := { a with dirty := false, infl := false }
/-- An element whose cut is over. An accumulator that has changed since the cut captured it stays dirty (R199). -/
def Elem.cutDone (e cap : Elem) : Elem :=
  { e with
    recorded := false, openIn := [], chan := [], cutOut := [],
    me := { e.me with accs := e.me.accs.map fun p =>
      (p.1, { p.2 with dirty := p.2.dirty && decide (p.2.asRecorded ≠ (Tab.get cap.me.accs {} p.1).asRecorded) }) } }

/-- The accumulators' dirty bits after a capture (R199). -/
def clean (e : Elem) : Elem := { e with me := { e.me with accs := e.me.accs.map fun p => (p.1, { p.2 with dirty := false }) } }

/-- PFENCE completes with cut n: its register takes the number (R244, R376). -/
def Core.fenced (k : Core) (n : Nat) : Core :=
  match k.run with
  | .cutWait m (.pfence d) =>
    if m ≤ n then { (k.setReg d (BitVec.ofNat 64 n)) with pc := k.pc + 4, instret := k.instret + 1, run := .running } else k
  | _ => k

/-! ### Stale bits (R356, R357) -/

/-- An item's stale bit set. -/
def Stale.set (x : Stale) (i : Nat) : Stale :=
  if x.has i then x else { x with except := if x.all then x.except.erase i else x.except ++ [i] }
/-- The stale bits of several items set. -/
def Stale.setAll (x : Stale) (l : List Nat) : Stale := l.foldl Stale.set x

/-- The numbers of the items of a bank (R356): the 8,192 green lines, then the items below. -/
def troughItem (n : Nat) : Nat := 8192 + n
/-- The deferred requests of a bank. -/
def deferItem (b : Nat) : Nat := 8208 + b
/-- An element's state but for the large stores of an ME. -/
def elemItem (site : Nat) : Nat := 8224 + site
/-- The macro, the row buffer and the accumulators of the ME at a site. -/
def macroItem (site : Nat) : Nat := 8288 + site
/-- The row buffer of the ME at a site. -/
def rowsItem (site : Nat) : Nat := 8352 + site
/-- An accumulator of the ME at a site. -/
def accItem (site k : Nat) : Nat := 8416 + 16 * site + k
/-- The reeve's state. -/
def reeveItem : Nat := 9440
/-- The carter's state. -/
def carterItem : Nat := 9441

/-- A table that takes the entries with a stale bit from a capture and the others from the bank. -/
def Tab.over {α : Type} (new old : Tab α) (stale : Nat → Bool) : Tab α :=
  (old.filter fun p => !stale p.1).foldl (fun (t : Tab α) p => Tab.put t p.1 p.2) (new.filter fun p => stale p.1)

/-- The element at a site of a bank that records the items with a stale bit. -/
def Elem.over (new old : Elem) (st : Stale) (site : Nat) : Elem :=
  let base := if st.has (elemItem site) then new else old
  { base with me := { base.me with
      tiles := if st.has (macroItem site) then new.me.tiles else old.me.tiles
      rows := if st.has (rowsItem site) then new.me.rows else old.me.rows
      accs := (Tab.over new.me.accs old.me.accs fun k => st.has (accItem site k)).filter fun p => p.2.valid } }

/-- The content of a bank once a cut into it is complete: the items with a stale bit as captured, the others as the bank holds them
(R357). -/
def Snap.over (new old : Snap) (st : Stale) : Snap :=
  { new with
    green := Tab.over new.green old.green fun a => st.has (a / 256)
    lost := (old.lost.filter fun k => !st.has (k / 8)) ++ new.lost.filter fun k => st.has (k / 8)
    pres := Tab.over new.pres old.pres fun a => st.has (a / 32)
    troughs := Tab.over new.troughs old.troughs fun n => st.has (troughItem n)
    defer := Tab.over new.defer old.defer fun b => st.has (deferItem b)
    elems := new.elems.map fun p => (p.1, p.2.over (Tab.get old.elems {} p.1) st p.1)
    reeve := if st.has reeveItem then new.reeve else old.reeve
    carter := if st.has carterItem then new.carter else old.carter }

/-- The numbers at which two tables differ; `fuel` is the sum of their lengths. -/
def Tab.diff {α : Type} [DecidableEq α] : Nat → Tab α → Tab α → List Nat
  | 0, _, _ => []
  | _ + 1, [], [] => []
  | _ + 1, (i, _) :: p, [] => i :: p.map fun x => x.1
  | _ + 1, [], (j, _) :: q => j :: q.map fun x => x.1
  | k + 1, (i, v) :: p, (j, w) :: q =>
    if i = j then (if v = w then Tab.diff k p q else i :: Tab.diff k p q)
    else if i < j then i :: Tab.diff k p ((j, w) :: q) else j :: Tab.diff k ((i, v) :: p) q

/-- A hamlet whose cut n is complete: its bank takes the items of the snapshot whose stale bit for it is set, cut_seq moves on, and its
reeve's PFENCE returns. The bank's stale bits are those of the items that have changed since the cut recorded them (R357). -/
def Hamlet.commit (x : Hamlet) (n : Nat) (snap : Snap) (changed : Stale) : Hamlet :=
  let y := { x with
    elems := x.elems.map fun (p : Nat × Elem) => (p.1, p.2.cutDone (Tab.get snap.elems {} p.1))
    capR := none, capC := none, capE := [], capG := none, cutSeq := n + 1, reeve := x.reeve.fenced n }
  let z := if n % 2 = 1 then { y with staleB := changed } else { y with staleA := changed }
  match x.bankOf n with
  | some k =>
    let st := x.staleFor n
    z.setSlot k { x.slot k with
      snap := snap.over (x.slot k).snap st
      bad := (x.slot k).bad.filter fun l => !st.has l, weak := (x.slot k).weak.filter fun l => !st.has l.1 }
  | none => z

/-- The free value of the header's byte count (R363; log entry 11). -/
def State.headerBytes (s : State) : W32 × State := ((s.takeFree.1).setWidth 32, s.takeFree.2)

/-- The snapshot of a hamlet for running cut n (R356, R359): the captures, with the channel state of every input. -/
def State.runningSnap (s : State) (first h n start : Nat) (bytes : W32) : Snap :=
  let r := s.region first
  let x := s.ham h
  let g := x.capG.getD {}
  { hdr := (r.header first h n start false bytes).sealed
    elems := x.capE.map fun (p : Nat × Elem) => (p.1, { clean p.2 with replayIn := (Tab.get x.elems {} p.1).chan })
    troughs := g.troughs, green := g.green, lost := g.lost, pres := g.pres, defer := g.defer, reeve := x.capR.getD {}, carter := x.capC.getD {},
    held := x.held.filter fun e => decide (e.tag ≤ n), heldSpan := g.heldSpan, armed := decide (r.st = .armed) }

/-- Cut n of a region complete with a snapshot for each hamlet. -/
def State.commitCut (s : State) (first n start : Nat) (stopped : Bool) (snap : State → Nat → W32 → Snap) : State :=
  let hs := (s.region first).hamlets first
  let b := s.headerBytes
  let s1 := hs.foldl (fun (t : State) h =>
    t.setHam h ((t.ham h).commit n (snap s h b.1) (if stopped then { all := false } else (t.ham h).since))) b.2
  s1.setRegion first { s1.region first with cut := none, lastCutStart := if stopped ∧ (s.region first).cut.isNone then start else (s.region first).lastCutStart }

/-- The elements of a hamlet that a running cut has not recorded: not captured, or with an input that is still open (R359, step 5). -/
def Hamlet.unrecorded (x : Hamlet) : Nat :=
  ((List.range 64).filter fun i => let e := Tab.get x.elems {} i; !(e.recorded && e.openIn.isEmpty)).length

/-- The record count of the headcount tree of a region: zero while no cut runs (R40, R359). -/
def State.recordCount (s : State) (first : Nat) : Nat :=
  if (s.region first).cut.isNone then 0
  else ((s.region first).hamlets first).foldl (fun n h => n + (s.ham h).unrecorded) 0

/-- The items of a running cut beside the elements are recorded in a hamlet (R359, step 6). -/
def Hamlet.cutReady (x : Hamlet) : Bool := x.capR.isSome && x.capC.isSome && x.capG.isSome

/-- CUT_COMPLETE (R359): every item of every hamlet is recorded; the headers are written last, cut_seq moves on, PFENCE and the forced
requests are released. -/
def execCutComplete (first : Nat) (s : State) : Out' :=
  match (s.region first).cut with
  | none => .next s
  | some c =>
    if c.stopped || (s.region first).frozen || decide (s.recordCount first ≠ 0) ||
        !((s.region first).hamlets first).all (fun h => (s.ham h).cutReady) then .next s
    else .next (s.commitCut first c.seq c.start false fun t h b => t.runningSnap first h c.seq c.start b)

/-! ### Stopped cuts (R362, R369) -/

/-- A queue without CUTs and marks. -/
def Queue.purged (q : Queue) : Queue := { ents := q.ents.filter fun x => match x with | .cut _ => false | _ => true }
/-- An element without CUTs and marks. -/
def Elem.purged (e : Elem) : Elem :=
  { e with
    inq := e.inq.map fun (p : Nat × Queue) => (p.1, p.2.purged), outq := e.outq.map fun (p : Nat × Queue) => (p.1, p.2.purged)
    lanes := e.lanes.map fun (p : Nat × Queue) => (p.1, p.2.purged), recorded := false, openIn := [], chan := [], cutOut := [] }

/-- An element as a stopped cut records it: queues and lane registers as they stand (R41, R369). -/
def Elem.captureWhole (e : Elem) : Elem :=
  { clean e.purged with
    fired := false, streams := e.streams.map fun (p : Nat × Stream) => (p.1, p.2.recorded) }

/-- The SPEs of a hamlet stand at their stop points: none of their requests is performed or in transit (R180, R368). -/
def State.spesStill (s : State) (h : Nat) : Bool :=
  (List.range 8).all (fun x => !(s.elem h (32 + x)).pend.any (fun p => p.result.isSome) && !s.keptMoves h (32 + x)) &&
  s.hamlets.all fun p => (p.2.msgs ++ p.2.afterQ).all fun r => decide (r.srcH ≠ h)

/-- Every engine of the region stands at its stop point: store buffers drained, no SPE request performed or in transit, no gather
command under way (R368, R369). The tokens of a gather that its stream has yet to deliver are recorded with the stream (R181; log
entry 42). -/
def State.quiescent (s : State) (first : Nat) : Bool :=
  ((s.region first).hamlets first).all fun h =>
    (s.ham h).reeve.storeBuf.isEmpty && (s.ham h).afterQ.isEmpty && s.spesStill h &&
    seSites.all fun st => (List.range 4).all fun k => !(s.stream h st k).gathering

/-- The snapshot of a hamlet for a stopped cut (R369). -/
def State.stoppedSnap (s : State) (first h n start : Nat) (bytes : W32) : Snap :=
  let r := s.region first
  let x := s.ham h
  { hdr := (r.header first h n start true bytes).sealed
    elems := x.elems.map fun (p : Nat × Elem) => (p.1, p.2.captureWhole)
    troughs := x.troughs.map fun p => (p.1, p.2.settle), green := s.greenCells h, lost := s.greenLost h, pres := s.greenPres h,
    defer := x.defer, reeve := { (x.recordReeve n).1 with evMark := none }, carter := x.carter.notIssued, held := (x.recordReeve n).2.held,
    heldSpan := x.heldSpan, armed := decide (r.st = .armed) }

/-- Every held entry and every waiting request of a hamlet is covered by stopped cut n: each agent has stopped (R275, R369). -/
def Hamlet.covered (x : Hamlet) (n : Nat) : Hamlet :=
  { x with
    held := x.held.map fun (e : Held) => { e with tag := Nat.min e.tag n }
    carter := { x.carter with cur := x.carter.cur.map fun c => { c with cut := c.cut.map fun m => Nat.min m n } }
    reeve := match x.reeve.run with
      | .cutWait m w => { x.reeve with run := .cutWait (Nat.min m n) w }
      | _ => x.reeve }

/-- A stopped cut of a quiescent region: it completes a running cut under its number, or takes the next (R369). -/
def State.stoppedCut (s : State) (first : Nat) : State :=
  let r := s.region first
  let n := match r.cut with | some c => c.seq | none => r.nextSeq
  let start := match r.cut with | some c => c.start | none => s.cycle
  let sr := (r.hamlets first).foldl (fun (t : State) h => t.readGreen h ((t.ham h).staleFor n)) s
  let s0 := (if r.cut.isSome then sr else sr.setRegion first { r with nextSeq := r.nextSeq + 1 }).eachHam first fun _ x => x.covered n
  let s1 := s0.commitCut first n start true fun t h b => t.stoppedSnap first h n start b
  s1.eachHam first fun h x =>
    let p := { x with elems := x.elems.map fun (p : Nat × Elem) => (p.1, p.2.purged) }
    { ((s0.ham h).recordReeve n).2 with
      elems := p.elems, slots := p.slots, cutSeq := p.cutSeq, capR := none, capC := none, capE := [], capG := none,
      staleA := p.staleA, staleB := p.staleB,
      reeve := { (((s0.ham h).recordReeve n).2.reeve).fenced n with evMark := none } }

/-- STOPPED_CUT_TIMEOUT (R362): a running cut not complete 4,096 cycles after its start is completed as a stopped cut, once every
engine stands at its stop point; the region then fires again. -/
def execStoppedCutTimeout (first : Nat) (s : State) : Out' :=
  let r := s.region first
  match r.cut with
  | none => .next s
  | some c =>
    if s.cycle < c.start + 4096 ∨ r.frozen then .next s
    else
      let s1 := s.setRegion first { r with cut := some { c with stopped := true } }
      .next (if s1.quiescent first then s1.stoppedCut first else s1)

/-! ### Held entries (R364) -/

/-- The entry of a hamlet with an index changed. -/
def Hamlet.setHeld (x : Hamlet) (idx : Nat) (g : Held → Held) : Hamlet :=
  { x with held := x.held.map fun e => if e.idx = idx then g e else e }

/-- What a held request returns whose translation fault has been refused: a trap at its instruction (R238, R239), or cause 5 for its
register (R331). -/
def OnRefuse.ret (o : OnRefuse) (ea : W64) : HeldRet :=
  match o with
  | .page => .trap 5 ea
  | .access => .trap 4 ea
  | .code _ => .value 5

/-- The reeve of a hamlet takes what its held request has returned: its register takes the value, or it traps at its instruction (R238,
R376). -/
def State.heldReturn (s : State) (h : Nat) (d : BitVec 5) (r : HeldRet) : State :=
  let c := s.coreOf (.reeve h)
  match r with
  | .value v => s.setCore (.reeve h) { c.setReg d v with run := .running }
  | .trap k v => (s.setCore (.reeve h) { c with pc := c.pc - 4, instret := c.instret - 1, run := .running }).takeTrap (.reeve h) k v false

/-- One held entry performed at its target (R182, R364, R376). A reeve's request that gets an error response traps at its
instruction (R238); one whose translation faults waits on the fault id, and ends when it is refused (R349, R352). A posted SPE request
that its target queues or defers is acknowledged once it is performed. A write into another region's green waits for the record points of its
running cut (R361). -/
def State.sendEntry (s : State) (h : Nat) (e : Held) : State :=
  let sent (t : State) (v : HeldRet) : State := t.setHam h ((t.ham h).setHeld e.idx fun e => { e with sent := true, done := true, ret := v })
  match e.op with
  | .write code site cells =>
    match cells with
    | [] => sent s (.value 0)
    | c :: _ =>
      let base := c.1 - c.1 % 32
      let a : Agent := { code := code, ctx := (s.ham h).ctx, ham := some h, site := site, unit := 8, posted := decide (code = 3) }
      if s.agentAfter a base then s
      else
      match s.writePhys a false base 32 cells with
      | .ok _ t => sent t (.value 0)
      | .wait t => t
      | .err t => sent t (.value 0)
  | .spe r =>
    let w := (s.setHam h ((s.ham h).setHeld e.idx fun e => { e with sent := true })).arrive r
    if w.1 then w.2 else s
  | .reeve r =>
    if e.refused then sent s ((r.refuse e.joinAccess).ret r.ga)
    else
    match s.perform (.reeve h) r with
    | .done v t => sent t (.value v)
    | .wait t => t
    | .fault v w k t =>
      let q := t.reportFault (t.coreAgent (.reeve h)) (t.coreCtx (.reeve h)) v w k
      q.2.setHam h ((q.2.ham h).setHeld e.idx fun e => { e with fault := some q.1, joinAccess := decide (w = .load) })
    | .trap k v t => sent t (.trap k v)
    | .refused v t => sent t (.trap 4 v)

/-- The issuer of a held entry, by its class and site (R274). -/
def HeldOp.issuer (x : HeldOp) : Nat × Nat :=
  match x with
  | .write code site _ => (code, site)
  | .spe r => (0, r.site)
  | .reeve _ => (3, 0)
/-- A held request that acquires: what its issuer does behind it follows it (R280, R286). -/
def HeldOp.acquires (x : HeldOp) : Bool :=
  match x with
  | .write _ _ _ => false
  | .spe r => decide (r.kind = .itake ∨ r.kind = .iread)
  | .reeve _ => true
/-- The sectors that a held entry goes to; of a reeve's request, which is ordered whole, none. -/
def HeldOp.sectors (x : HeldOp) : List Nat :=
  match x with
  | .write _ _ l => l.map fun c => c.1 / 32
  | .spe r => [greenPa r.target.1 r.target.2 / 32]
  | .reeve _ => []
/-- Two I-structure requests on one word, which go by its presence (R160). -/
def HeldOp.oneWord (x y : HeldOp) : Bool :=
  match x, y with
  | .spe r, .spe q => r.kind.istruct && q.kind.istruct && r.onSame q 8
  | _, _ => false
/-- An earlier held entry has to be performed before a later one (R277, R292). Of one issuer the two are ordered by a release, an acquire or a
sector. Those of two issuers may have been ordered at issue by a synchronisation within the region, which the entries do not show, so the
model keeps every such pair in order but for two I-structure requests on one word (log entry 60). -/
def Held.before (d e : Held) : Bool :=
  if d.op.issuer = e.op.issuer then e.rel || d.op.acquires || e.op.acquires || d.op.sectors.any fun k => e.op.sectors.contains k
  else !d.op.oneWord e.op

/-- HELD_ENTRY_SEND (R364): of the entries not yet sent whose cut is complete, the first in issue order goes to its target; it waits
where its translation has faulted, and behind an entry sent before it that its target has yet to perform and R280 orders ahead of it (R292). -/
def execHeldEntrySend (h : Nat) (s : State) : Out' :=
  match (s.ham h).held.find? fun e => !e.sent && decide (e.tag < (s.ham h).cutSeq) with
  | none => .next s
  | some e =>
    let frozen := match s.regionOf h with | some (_, r) => r.frozen || r.fallow.isSome | none => false
    let waits := (s.ham h).held.any fun d => d.sent && !d.done && decide (d.idx < e.idx) && d.before e
    if e.fault.isSome || frozen || waits then .next s else .next (s.sendEntry h e)

/-- A held entry freed: the release index stands at the oldest entry that is left, and the header area names the entries released beyond it
(R364; log entry 72). -/
def Hamlet.freeEntry (x : Hamlet) (idx : Nat) : Hamlet :=
  let left := x.held.filter fun e => decide (e.idx ≠ idx)
  let rel := match left.head? with | some e => e.idx | none => x.heldNext
  { x with held := left, relIdx := rel, released := (x.released ++ [idx]).filter fun i => decide (rel ≤ i) }

/-- The target has acknowledged an entry: of those acknowledged the oldest is released, its value is kept, and it is freed; a reeve's response
writes its register (R364, R376). -/
def State.ackHeld (s : State) (h : Nat) : State :=
  let x := s.ham h
  match x.held.find? fun e => e.sent && e.done with
  | none => s
  | some e =>
      let y := x.freeEntry e.idx
      match e.op with
      | .write _ _ _ => s.setHam h y
      | .spe r =>
        if r.posted then s.setHam h y
        else s.setHam h { y with kept := y.kept ++ [(e.idx, e.op, e.ret)] }
      | .reeve _ =>
        let t := s.setHam h { y with kept := y.kept ++ [(e.idx, e.op, e.ret)] }
        match y.reeve.run with
        | .heldWait i d => if i = e.idx then t.heldReturn h d e.ret else t
        | _ => t
/-- HELD_ENTRY_ACK (R364). -/
def execHeldEntryAck (h : Nat) (s : State) : Out' := .next (s.ackHeld h)
/-- Every entry of a hamlet that its target has acknowledged is released (R364, R365). -/
def State.ackAll (s : State) (h : Nat) : State := (List.range (s.ham h).held.length).foldl (fun (t : State) _ => t.ackHeld h) s

/-! ### Restoring (R366, R367, R370) -/

/-- The replay counters of the contexts other than c stay as they stand (R202). -/
def Elem.keepReplay (e live : Elem) (c : Nat) : Elem :=
  let own (n : Nat) : Bool := decide (n / 4 = c)
  let mine := e.me.replay.filter fun p => own p.1
  { e with me := { e.me with replay := mine.foldl (fun (t : Tab W32) p => Tab.put t p.1 p.2) (live.me.replay.filter fun p => !own p.1) } }

/-- The in-flight bit of an element's accumulators: that of the operation under way has it (R199, R203). -/
def Elem.inFlight (e : Elem) : Elem :=
  let accs := e.me.accs.map fun (p : Nat × Acc) => (p.1, { p.2 with infl := false })
  match e.me.att with
  | none => { e with me := { e.me with accs := accs } }
  | some a => { e with me := { e.me with accs := Tab.put accs a.op.acc { Tab.get accs {} a.op.acc with infl := true } } }

/-- A hamlet restored from a snapshot: every item of the bank, but the instructions completed since device reset (R225) and the replay
counters of other contexts (R202) go on; the stale bits of the other bank are set and this bank's are clear (R357); held entries tagged with its
cut or lower that have not been released; values kept for acknowledged SPE requests are written where they were awaited. -/
def Hamlet.restore (x : Hamlet) (p : Snap) : Hamlet :=
  let held := (p.held.filter fun e => decide (x.relIdx ≤ e.idx) && !x.released.contains e.idx).map fun e =>
    { e with sent := false, done := false, fault := none, refused := false, ret := .value 0 }
  let fix (e : Elem) : Elem :=
    { e with pend := e.pend.map fun q =>
        match x.kept.find? fun k => (match k.2.1 with | .spe r => r.same q.req | _ => false) with
        | some k => { q with result := some (unpackRet k.2.2) }
        | none => q }
  { x with
    reeve := { p.reeve with instret := x.reeve.instret, evMark := none }
    elems := p.elems.map fun (q : Nat × Elem) => (q.1, ((fix q.2).keepReplay (Tab.get x.elems {} q.1) p.hdr.ctx).inFlight)
    troughs := p.troughs, carter := p.carter, defer := p.defer, held := held
    staleA := { all := decide (p.hdr.seq % 2 = 1) }, staleB := { all := decide (p.hdr.seq % 2 = 0) }, since := { all := false }
    heldSpan := p.heldSpan, cutSeq := p.hdr.seq + 1, capR := none, capC := none, capE := [], capG := none, afterQ := [], acks := [] }

/-- The state with the green of a hamlet replaced: its sectors are written whole, so that no error of them is left but those that the cut has
recorded (R386, R389; log entry 62). -/
def State.putGreen (s : State) (h : Nat) (green : List (Nat × Byte)) (pres : Tab Bool) (lost : List Nat) : State :=
  let keep (a : Nat) : Bool := decide (a < greenPa h 0 ∨ greenPa h 0x200000 ≤ a)
  { s with
    ecc := lost.foldl (fun (t : Tab CellErr) k => Tab.put t (greenPa h 0 / 32 + k) .many) (s.ecc.filter fun c => keep (32 * c.1))
    mem := Mem.writeCells (s.mem.filter fun c => keep c.1) (green.map fun c => (greenPa h c.1, c.2))
    pres := pres.foldl (fun (t : Tab Bool) c => Tab.put t (greenPa h 0 / 8 + c.1) c.2) (s.pres.filter fun c => keep (8 * c.1)) }

/-- The state with a hamlet restored from a snapshot, its green and presence bits with it. A reeve that awaits a held request which has been
released takes what was kept for it (R376). -/
def State.restoreHam (s : State) (h : Nat) (p : Snap) : State :=
  let t := (s.setHam h ((s.ham h).restore p)).putGreen h p.green p.pres p.lost
  match p.reeve.run with
  | .heldWait i d => (match (s.ham h).kept.find? fun k => decide (k.1 = i) with | some k => t.heldReturn h d k.2.2 | none => t)
  | _ => t

/-- The largest number for which every hamlet of a region holds a valid bank (R366). -/
def State.commonCut (s : State) (f : Nat) : Option Nat :=
  let hs := (s.region f).hamlets f
  let x := s.ham f
  let seqs := ((List.range 4).filter x.validBank).map fun k => (x.slot k).snap.hdr.seq
  (seqs.filter fun n => hs.all fun h => ((s.ham h).cutSlot n).isSome).foldl (fun (a : Option Nat) n =>
    match a with | none => some n | some m => some (Nat.max m n)) none

/-- A region restored from cut n of its hamlets: armed in the recorded modes with the restored state; the next cut is n + 1 (R366). -/
def State.restoreRegion (s : State) (first n : Nat) : State :=
  let hs := (s.region first).hamlets first
  let s1 := hs.foldl (fun (t : State) h =>
    let x := t.ham h
    let y := { x with slots := x.slots.map fun p =>
      (p.1, if decide (n < p.2.snap.hdr.seq) && (match p.2.use with | .bank _ => true | _ => false)
        then { p.2 with snap := { p.2.snap with hdr := { p.2.snap.hdr with valid := false } } } else p.2) }
    match y.cutSlot n with
    | some k => (t.setHam h y).restoreHam h (y.slot k).snap
    | none => t.setHam h y) s
  let r := s1.region first
  match (s1.ham first).cutSlot n with
  | none => s1
  | some k =>
    let p := ((s1.ham first).slot k).snap
    (s1.unseal first).setRegion first
      { r with st := if p.armed then .armed else (if r.st = .armed then .loaded else r.st)
               image := if p.armed then p.hdr.image else r.image
               bench := p.hdr.bench, free := p.hdr.free, idem := p.hdr.idem,
               cut := none, cutAgain := false, nextSeq := n + 1, frozen := false, fallow := none, pre := false, preCut := false, stops := [], stopping := none,
               lastCutStart := s.cycle, task := r.task.map fun t => { t with tdone := t.tdone.filter fun i => (s1.ham (first + i)).reeve.run == .done } }

/-- A token enters an input queue; one that enters an open input is its channel state (R359). -/
def Elem.enter (e : Elem) (q : Nat) (x : QEnt) : Elem :=
  let e1 := e.setInQ q ((e.inQ q).push x)
  if e.recorded && e.openIn.contains q then { e1 with chan := Tab.put e1.chan q (Tab.get e1.chan [] q ++ [x]) } else e1

/-- CHANNEL_STATE_REPLAY (R367): the next token of an input's recorded channel state is delivered into its queue as room allows. A cut
that runs meanwhile records it as any token that enters an open input (R359). -/
def execChannelStateReplay (h site q : Nat) (s : State) : Out' :=
  let e := s.elem h site
  match Tab.get e.replayIn [] q with
  | [] => .next s
  | t :: rest =>
    if s.hamletRuns h && decide ((e.inQ q).occ < e.depthOf q) then
      .next (s.setElem h site { e.enter q t with
        replayIn := if rest.isEmpty then Tab.del e.replayIn q else Tab.put e.replayIn q rest })
    else .next s

/-! ### A hamlet cut alone (R244, R248, R358) -/

/-- A cut of a hamlet that holds no region, taken at once when its store buffer is drained. -/
def State.loneCut (s : State) (h : Nat) : State :=
  let n := (s.ham h).cutSeq
  let b := (s.readGreen h ((s.ham h).staleFor n)).headerBytes
  let x := b.2.ham h
  let snap : Snap :=
    { hdr := ({ valid := true, stopped := true, free := true, ctx := x.ctx.getD 0, hcount := 1, seq := n, start := s.cycle, bytes := b.1 } : Header).sealed
      elems := x.elems.map fun (p : Nat × Elem) => (p.1, p.2.captureWhole)
      troughs := x.troughs.map fun p => (p.1, p.2.settle), green := s.greenCells h, lost := b.2.greenLost h, pres := s.greenPres h, defer := x.defer
      reeve := x.reeve.notIssued, carter := x.carter.notIssued, held := [], heldSpan := none }
  let y := if n % 2 = 1 then { x with cutSeq := n + 1, staleB := { all := false } } else { x with cutSeq := n + 1, staleA := { all := false } }
  b.2.setHam h (match x.bankOf n with | some k => y.setSlot k { x.slot k with snap := snap } | none => y)

end Sys2Proof.Machine
end

