-- ==== Sys2Proof/Machine/Image.lean ====
section
/-! DEFINITION. Fabric images: the checks of a load in their order (R86 to R102), the load report (R104), what a load leaves (R103),
and the geometry of routers (R34 to R38). -/
namespace Sys2Proof.Machine
open Sys2Proof

/-! ### Routers (R34 to R37) -/

/-- The router that a side of a site faces in a region of n hamlets: sides 0 N, 1 E, 2 S, 3 W (R3, R36). -/
def neighbor (n hidx site side : Nat) : Option (Nat × Nat) :=
  match side with
  | 0 => if site < 8 then none else some (hidx, site - 8)
  | 1 => if site % 8 = 7 then (if hidx + 1 < n then some (hidx + 1, site - 7) else none) else some (hidx, site + 1)
  | 2 => if 56 ≤ site then none else some (hidx, site + 8)
  | 3 => if site % 8 = 0 then (if hidx = 0 then none else some (hidx - 1, site + 7)) else some (hidx, site - 1)
  | _ => none
/-- The opposite side. -/
def opposite (side : Nat) : Nat := (side + 2) % 4
/-- The side that an output lane faces; none for the L lanes (R34). -/
def laneSide (l : Nat) : Option Nat :=
  if l < 16 then some (l / 4) else if l < 20 then none else if l < 28 then some ((l - 20) / 2) else none
/-- The number of an output lane on its side. -/
def laneNo (l : Nat) : Nat := if l < 20 then l % 4 else l % 2
/-- The output lane of a side and number, of the data or the predicate network. -/
def laneAt (net : Bool) (side k : Nat) : Nat := if net then 20 + 2 * side + k else 4 * side + k

/-! ### Reading an image -/

/-- The load report (R104). -/
def report (cause kind hidx site item : Nat) : W64 :=
  BitVec.ofNat 64 (cause + 16 * kind + 2 ^ 8 * hidx + 2 ^ 16 * site + 2 ^ 32 * item)
/-- The first failure of checks made in order. -/
def firstFail (l : List (Bool × W64)) : Option W64 := (l.find? fun c => c.1).map fun c => c.2

/-- The header's checks in offset order, for a region of n hamlets (R86, R102). -/
def headerFail (m : Mem) (a n : Nat) : Option W64 :=
  let rd (off k : Nat) : Nat := m.readLE (a + off) k
  let hd (cause off : Nat) : W64 := report cause 5 0 0 off
  firstFail
    [(decide (rd 0 4 ≠ 0x4D495A46), hd 5 0), (decide (rd 4 2 ≠ 1), hd 5 4), (decide (2 ≤ rd 6 2), hd 1 6),
     (decide (rd 8 1 = 0 ∨ 8 < rd 8 1 ∨ rd 8 1 ≠ n), hd 7 8), (decide (rd 9 1 ≠ 0), hd 1 9),
     (decide (rd 10 2 = 0 ∨ 64 * rd 8 1 < rd 10 2), hd 7 10), (decide (4096 < rd 12 2), hd 7 12), (decide (rd 14 2 ≠ 0), hd 1 14),
     (decide (rd 16 4 ≠ 64 + 264 * rd 10 2 + 16 * rd 12 2), hd 6 16), (decide (rd 20 12 ≠ 0), hd 1 20)]

/-- The number of a kind in a site record (R87). -/
def kindNum : Kind → Nat
  | .pe => 0
  | .spe => 1
  | .se => 2
  | .me => 3

/-- A trigger word breaks a limit of R44, R46 or R89. -/
def trigBad (w : W32) : Bool :=
  let t := unpackTrig w
  decide (t.rsvd ≠ 0) || (!t.aEn && (t.aNeg || decide (t.aIdx ≠ 0))) || (!t.bEn && (t.bNeg || decide (t.bIdx ≠ 0))) ||
  (decide (t.k ≠ 0) && decide (t.tagCls ≠ 3) && decide (t.tagCls ≠ 4)) || (decide (t.tagCls = 0) && decide (t.tagQ ≠ 0))

/-- A slot of a kind fails the load: an unused slot is zero, a used one holds a trigger word and an operation word within their
limits (R89, R90). -/
def slotBad (k : Kind) (trig op : W32) : Bool :=
  if !trig.getLsbD 31 then decide (trig ≠ 0 ∨ op ≠ 0)
  else trigBad trig || (match decodeOpWord k op with | .ok _ => false | .error _ => true)
/-- A trough instruction names p4 or p5 while the record binds no trough to it (R95): `b4` and `b5` are its bytes 260 and 261. -/
def troughUnbound (k : Kind) (trig op : W32) (b4 b5 : Nat) : Bool :=
  trig.getLsbD 31 && (match opClass k (fld op 25 7).toNat with | some (_, x) => decide (x = .tb) | none => false) &&
  decide ((if (unpackFOp op).x = 0 then b4 else b5) < 128)

/-- A switch word fails the load in its lane with cause "encoding" (R35). -/
def swBad (lane : Nat) (w : W16) : Bool :=
  if !swValid w then decide (w ≠ 0)
  else
    decide (5 ≤ swSide w) || (w.getLsbD 9 && decide (2 ≤ swLane w)) || decide (w.getLsbD 9 ≠ lanePred lane) ||
    decide (w.extractLsb' 0 9 ≠ 0)
/-- A valid switch word's lane or source faces no router of the region (R36). -/
def swNoRoute (n hidx site lane : Nat) (w : W16) : Bool :=
  swValid w &&
  ((match laneSide lane with | some d => (neighbor n hidx site d).isNone | none => false) ||
   (decide (swSide w < 4) && (neighbor n hidx site (swSide w)).isNone))

/-- The lowest row of a conflict matrix that holds a diagonal bit or a bit whose mirror is clear (R52, R104). -/
def conflictRow (row : Nat → Nat) : Option Nat :=
  (List.range 16).find? fun i => (row i).testBit i || (List.range 16).any fun j => (row i).testBit j && !(row j).testBit i

/-- The checks of the site record at address b, the one before it standing at `prev`, in order (R87, R102). Which item the report names for a
trough instruction on an unbound p4 or p5 (R95), and where its check stands, the spec leaves open: the model reports the slot, with the slots
(DESIGN CHOICE, log entry 74). -/
def recordFail (m : Mem) (b n : Nat) (prev : Option Nat) : Option W64 :=
  let rd (off k : Nat) : Nat := m.readLE (b + off) k
  let hidx := rd 0 1
  let site := rd 1 1
  let ok := decide (hidx < n ∧ site < 64)
  let at' (cause kind item : Nat) : W64 := if ok then report cause kind hidx site item else report cause kind 0 0 item
  let k := siteKind site
  let dep (i : Nat) : Nat := rd 4 2 / 16 ^ i % 16 + 1
  let bindBad (off : Nat) : Bool := if k = .spe then decide (rd off 1 / 16 % 8 ≠ 0) else decide (rd off 1 ≠ 0)
  let slots := (List.range 16).map fun i =>
    let trig := BitVec.ofNat 32 (rd (72 + 8 * i) 4)
    let op := BitVec.ofNat 32 (rd (76 + 8 * i) 4)
    (slotBad k trig op || troughUnbound k trig op (rd 260 1) (rd 261 1), at' 1 1 i)
  let consts := (List.range 4).map fun i => (decide (2 ^ 40 ≤ rd (8 + 8 * i) 8), at' 1 4 (8 + 8 * i))
  let row := conflictRow fun i => rd (40 + 2 * i) 2
  let sws := (List.range 30).map fun l => (swBad l (BitVec.ofNat 16 (rd (200 + 2 * l) 2)), at' 1 2 l)
  firstFail
    ([(decide (n ≤ hidx), at' 1 4 0), (decide (64 ≤ site), at' 1 4 1),
      (match prev with | some p => decide (64 * hidx + site ≤ p) | none => false, at' 1 4 0), (decide (rd 2 1 ≠ kindNum k), at' 3 4 2),
      (decide (rd 3 1 ≠ 0), at' 1 4 3), (decide (32 < dep 0 + dep 1 + dep 2 + dep 3), at' 1 4 4), (decide (rd 7 1 ≠ 0), at' 1 4 7)] ++
     consts ++ slots ++ [(row.isSome, at' 1 4 (40 + 2 * row.getD 0))] ++ sws ++
     [(bindBad 260, at' 1 4 260), (bindBad 261, at' 1 4 261), (decide (rd 262 2 ≠ 0), at' 1 4 262)])

/-- The site records' checks from record i on, `left` of them; or the table of their addresses by 64 × index + site. -/
def recordsFail (m : Mem) (a n : Nat) : Nat → Nat → Option Nat → Tab Nat → Except W64 (Tab Nat)
  | 0, _, _, t => .ok t
  | left + 1, i, prev, t =>
    let b := a + 64 + 264 * i
    match recordFail m b n prev with
    | some r => .error r
    | none =>
      let key := 64 * m.readLE b 1 + m.readLE (b + 1) 1
      recordsFail m a n left (i + 1) (some key) (Tab.put t key b)

/-- The switch word of an image for a site of index hidx; zero where the site has no record (R88). -/
def imageSw (m : Mem) (t : Tab Nat) (hidx site lane : Nat) : W16 :=
  match Tab.get t 0 (64 * hidx + site) with
  | 0 => 0
  | b => BitVec.ofNat 16 (m.readLE (b + 200 + 2 * lane) 2)

/-- The route checks over the whole region (R36, R102). -/
def routesFail (m : Mem) (n : Nat) (t : Tab Nat) : Option W64 :=
  firstFail ((t.map fun p => (List.range 30).map fun l =>
    (swNoRoute n (p.1 / 64) (p.1 % 64) l (BitVec.ofNat 16 (m.readLE (p.2 + 200 + 2 * l) 2)), report 2 2 (p.1 / 64) (p.1 % 64) l)).flatten)

/-- A source of a router: hamlet index, site, side (4 is the element), lane. -/
structure Src where
  hidx : Nat
  site : Nat
  side : Nat
  lane : Nat
  deriving DecidableEq, Repr

/-- The data lanes that select a source: the queues of the site they reach, and the sources they lead to (R38, R100). -/
def srcStep (m : Mem) (n : Nat) (t : Tab Nat) (x : Src) : List (Nat × Nat × Nat) × List Src :=
  let ls := (List.range 20).filter fun l =>
    let w := imageSw m t x.hidx x.site l
    swValid w && decide (swSide w = x.side ∧ swLane w = x.lane)
  ((ls.filter fun l => decide (16 ≤ l)).map fun l => (x.hidx, x.site, l - 16),
   (ls.map fun l =>
      match laneSide l with
      | some d => (match neighbor n x.hidx x.site d with | some p => [{ hidx := p.1, site := p.2, side := opposite d, lane := laneNo l }] | none => [])
      | none => ([] : List Src)).flatten)

/-- The input queues that a producer's local source lane reaches, every fan-out copy followed. -/
def reach (m : Mem) (n : Nat) (t : Tab Nat) : Nat → List Src → List Src → List (Nat × Nat × Nat)
  | 0, _, _ => []
  | _, _, [] => []
  | fuel + 1, seen, x :: rest =>
    if seen.contains x then reach m n t fuel seen rest
    else
      let w := srcStep m n t x
      w.1 ++ reach m n t fuel (x :: seen) (rest ++ w.2)

/-- The checks of edge record e at address b (R98 to R100, R102). -/
def edgeFail (m : Mem) (b n e : Nat) (t : Tab Nat) : Option W64 :=
  let rd (off k : Nat) : Nat := m.readLE (b + off) k
  let pOk := decide (rd 0 1 < n ∧ rd 1 1 < 64)
  let cOk := decide (rd 4 1 < n ∧ rd 5 1 < 64)
  let prod (cause : Nat) : W64 := if pOk then report cause 3 (rd 0 1) (rd 1 1) e else report cause 3 0 0 e
  let cons (cause : Nat) : W64 := if cOk then report cause 3 (rd 4 1) (rd 5 1) e else prod cause
  let data (p : Nat) : Bool := decide (p < 4)
  let pp := rd 2 1
  let cp := rd 6 1
  let pf := rd 3 1
  let cf := rd 7 1
  let pairOk :=
    if data pp && data cp then (decide (pf = 21 ∨ pf = 24)) && decide (cf = 21 ∨ cf = 24)
    else decide (pp = cp) && decide (pf ≤ 19 ∧ cf ≤ 19)
  let src : Src := { hidx := rd 0 1, site := rd 1 1, side := 4, lane := pp }
  firstFail
    [(decide (n ≤ rd 0 1), prod 1), (decide (64 ≤ rd 1 1), prod 1), (decide (6 ≤ pp), prod 1),
     (!data pp && decide (siteKind (rd 1 1) ≠ .se), prod 3), (decide (n ≤ rd 4 1), cons 1), (decide (64 ≤ rd 5 1), cons 1),
     (decide (6 ≤ cp), cons 1), (!data cp && decide (siteKind (rd 5 1) ≠ .me), cons 3), (decide (rd 8 8 ≠ 0), prod 1), (!pairOk, prod 1),
     (data pp && data cp && !(reach m n t (20 * 64 * 8 * 4) [] [src]).contains (rd 4 1, rd 5 1, cp), prod 2)]

/-- The edge records of an image. -/
def imageEdges (m : Mem) (a : Nat) : List Edge :=
  let first := a + 64 + 264 * m.readLE (a + 10) 2
  (List.range (m.readLE (a + 12) 2)).map fun e =>
    let rd (off : Nat) : Nat := m.readLE (first + 16 * e + off) 1
    { pHam := rd 0, pSite := rd 1, pPort := rd 2, pFmt := rd 3, cHam := rd 4, cSite := rd 5, cPort := rd 6, cFmt := rd 7 }
/-- The edge records' checks in order. -/
def edgesFail (m : Mem) (a n : Nat) (t : Tab Nat) : Option W64 :=
  let first := a + 64 + 264 * m.readLE (a + 10) 2
  (List.range (m.readLE (a + 12) 2)).findSome? fun e => edgeFail m (first + 16 * e) n e t

/-- The mismatching edges: number, producer id, consumer id (R101). -/
def mismatches (l : List Edge) : List (Nat × Nat × Nat) :=
  ((l.zipIdx).filter fun p => decide (p.1.pFmt ≠ p.1.cFmt)).map fun p => (p.2, p.1.pFmt, p.1.cFmt)

/-- The first address of a span that lies outside an arena, if any; the base where it is not 64-byte aligned (R104, R224). -/
def outsideArena (k : Core) (a n : Nat) : Option Nat :=
  if a % 64 ≠ 0 ∨ a < k.arenaBase.toNat then some a
  else if k.arenaBound.toNat < a + n then some (Nat.max a k.arenaBound.toNat) else none

/-- The outcome of the checks of an image at a for a region of n hamlets: the table of its site records, a report, or an address
outside the arena (R102). -/
inductive ImageRes where
  | good (t : Tab Nat)
  | bad (r : W64)
  | arena (pa : Nat)

/-- The checks of an image in their order (R102). -/
def checkImage (m : Mem) (k : Core) (a n : Nat) : ImageRes :=
  match outsideArena k a 64 with
  | some p => .arena p
  | none =>
    match headerFail m a n with
    | some r => .bad r
    | none =>
      match outsideArena k a (m.readLE (a + 16) 4) with
      | some p => .arena p
      | none =>
        match recordsFail m a n (m.readLE (a + 10) 2) 0 none [] with
        | .error r => .bad r
        | .ok t =>
          match routesFail m n t with
          | some r => .bad r
          | none => match edgesFail m a n t with | some r => .bad r | none => .good t

/-- An element as a load leaves it: its slots, constants, depths, conflict matrix, switch words and trough bindings; operation state
at its round start, not halted (R88, R103, R143). -/
def Elem.load (e : Elem) (m : Mem) (b : Nat) : Elem :=
  let rd (off k : Nat) : Nat := m.readLE (b + off) k
  let base := { e with slotSt := [], halted := false }
  if b = 0 then
    { base with slots := [], c := [], depth := [], conflict := [], sw := [], bind4 := none, bind5 := none }
  else
    let bind (off : Nat) : Option Nat := if 128 ≤ rd off 1 then some (rd off 1 % 16) else none
    { base with
      slots := (List.range 16).map fun i => (i, BitVec.ofNat 64 (rd (72 + 8 * i) 8))
      c := (List.range 4).map fun i => (i, BitVec.ofNat 40 (rd (8 + 8 * i) 8))
      depth := (List.range 6).map fun i => (i, (if i < 4 then rd 4 2 / 16 ^ i % 16 else rd 6 1 / 16 ^ (i - 4) % 16) + 1)
      conflict := (List.range 16).map fun i => (i, BitVec.ofNat 16 (rd (40 + 2 * i) 2))
      sw := (List.range 30).map fun l => (l, BitVec.ofNat 16 (rd (200 + 2 * l) 2))
      bind4 := bind 260, bind5 := bind 261 }

/-- Every element of a hamlet changed; absent entries are made. -/
def Hamlet.mapElems (x : Hamlet) (g : Nat → Elem → Elem) : Hamlet :=
  { x with elems := (List.range 64).map fun i => (i, g i (Tab.get x.elems {} i)) }

/-- The bytes of an image that a load reads: its total length, at least the header and at most a stage slot (R102, R381). -/
def imageSpan (m : Mem) (a : Nat) : Nat := Nat.min (Nat.max 64 (m.readLE (a + 16) 4)) 0x380000

/-- The read of an image's bytes by an agent: it waits as any read outside the greens, and a sector that cannot be corrected answers with an
error response (R381, R386). -/
def State.readImage (s : State) (a : Agent) (pa n : Nat) : MemRes (List Byte) :=
  let w := s.letIn a pa n
  if w.1 then w.2.arrayRead a pa n else .wait w.2

/-- A load into a region that is not armed, by the checks against a core's arena; `m` is memory as the load reads it (R102 to
R104). A load that fails leaves c0–c3 as they stand: R103 leaves registers "as a successful load would leave them" and keeps every part
of the new image out, so it does not say which constants stand then, nor which queue depths, conflict rows and trough bindings: the earlier
ones are the model's choice (DESIGN CHOICE, log entry 61). -/
def State.loadImage (s : State) (first : Nat) (k : Core) (m : Mem) (a : W64) : W64 × State :=
  let r := s.region first
  let fail (t : State) (rep : W64) : W64 × State :=
    (rep, (t.eachHam first fun _ x => x.mapElems fun _ e => { e with slots := [], sw := [], slotSt := [], halted := false }).setRegion first
      { r with st := .empty, failed := some rep, edges := [], mism := [] })
  match checkImage m k a.toNat r.n with
  | .arena pa =>
    fail (s.logErr { addr := pa, kind := 3, agent := 3, ctx := some k.ctx, ham := first }) (report 8 0 0 0 0)
  | .bad rep => fail s rep
  | .good t =>
    let edges := imageEdges m a.toNat
    (0, (s.eachHam first fun h x => x.mapElems fun i e => e.load m (Tab.get t 0 (64 * (h - first) + i))).setRegion first
      { r with st := .loaded, image := a, idem := m.read (a.toNat + 6) != 0, edges := edges, mism := mismatches edges, failed := none })

end Sys2Proof.Machine
end

