-- ==== Sys2Proof/Machine/Region.lean ====
section
/-! DEFINITION. A region: arming (R297), stops and their settling (R275, R414), the fallow configuration (R395, R396), and the items
and counters a reeve reads and writes (R246, R247). -/
namespace Sys2Proof.Machine
open Sys2Proof

/-! ### Arming (R24, R27, R297) -/

/-- The predicates of an SPE that show its bound troughs; an unbound one reads 0 (R27, R163). -/
def Elem.troughPreds (e : Elem) (tr : Tab Trough) : Elem :=
  let full (b : Option Nat) (g : Trough → W16) : Bool :=
    match b with | some n => decide (g (Tab.get tr {} n) ≠ 0) | none => false
  { e with p := Tab.put (Tab.put e.p 4 (full e.bind4 fun t => t.filled)) 5 (full e.bind5 fun t => t.free) }

/-- A stream at arming: idle; its counters and the status of its last command stay. -/
def Stream.armed (x : Stream) : Stream := { status := x.status, lastPos := x.lastPos, sat := x.sat, ufl := x.ufl }

/-- An element of a region of context ctx at its arm values (R24, R49, R133, R141, R183, R207): what the image gives stays. -/
def Elem.arm (e : Elem) (site : Nat) (tr : Tab Trough) (ctx : Nat) : Elem :=
  let x : Elem :=
    { c := e.c, depth := e.depth, slots := e.slots, conflict := e.conflict, sw := e.sw, bind4 := e.bind4, bind5 := e.bind5,
      access := e.access, fmtFault := e.fmtFault, me := e.me.armed ctx, streams := e.streams.map fun p => (p.1, p.2.armed) }
  if siteKind site = .spe then x.troughPreds tr else x

/-- The span of the held-write buffer that a hamlet carves: from held_base, held_size bytes, ending at the green's end at the latest
(R272). -/
def carve (base size : W64) : Nat × Nat := (base.toNat, Nat.min (base.toNat + size.toNat) 0x200000)

/-- Steps 3 to 6 of CFGARM (R297), which a swap makes too: modes, held-write buffers, arm values; the region is armed. R101 and R394 give the
log entry of a mismatch the edge number and both ids; that its hamlet and site are the producer's is the model's choice (DESIGN CHOICE, log
entry 74). -/
def State.armRegion (s : State) (first : Nat) (bench free : Bool) : State :=
  let s1 := s.eachHam first fun _ x =>
    { x.mapElems (fun i e => e.arm i x.troughs (s.region first).ctx) with
      heldSpan := if free then none else some (carve x.reeve.heldBase x.reeve.heldSize), readers := [] }
  let r := s1.region first
  let logs := if bench then r.mism else []
  logs.foldl (fun (t : State) m =>
      let e := r.edges.getD m.1 ⟨0, 0, 0, 0, 0, 0, 0, 0⟩
      t.logErr { kind := 5, agent := 3, ctx := some r.ctx, ham := first + e.pHam, site := e.pSite, detail := m.1, extra := m.2.1 + 256 * m.2.2 })
    (s1.setRegion first { r with st := .armed, bench := bench, free := free, faultStop := false, stops := [] })

/-- The quadrant of a region. -/
def State.regionQuad (s : State) (first : Nat) : Quad := s.quad (quadOf first)

/-- The answer of CFGARM: its report and the state, or a wait for the writes accepted at the granary (R245, R268, R297). -/
inductive ArmRes where
  | done (r : W64) (s : State)
  | wait (s : State)

/-- CFGARM of a region, which zeroes stopinfo (R101, R245, R297). -/
def State.tryArm (s : State) (first : Nat) (bench free : Bool) : ArmRes :=
  let r := s.region first
  match r.st with
  | .armed => .done (report 9 0 0 0 0) s
  | .empty => .done (r.failed.getD (report 10 0 0 0 0)) s
  | .loaded =>
    match r.mism with
    | m :: _ =>
      if bench then go
      else
        let e := r.edges.getD m.1 ⟨0, 0, 0, 0, 0, 0, 0, 0⟩
        .done (report 4 3 e.pHam e.pSite m.1) s
    | [] => go
where
  go : ArmRes :=
    let q := quadOf first
    let x := s.quad q
    if x.accepted.isEmpty then
      let t := (s.setQuad q { x with sealing := x.sealing.erase first }).armRegion first bench free
      .done 0 (t.setRegion first { t.region first with stopinfo := 0 })
    else .wait (s.setQuad q { x with sealing := if x.sealing.contains first then x.sealing else x.sealing ++ [first] })

/-! ### Stops (R204, R222, R275, R414) -/

/-- The bytes of a contained region's streams that would leave it are dropped, not written (R395). -/
def State.dropOutbound (s : State) (h site n : Nat) (x : Stream) : Stream :=
  match x.out, s.regionOf h with
  | y :: _, some (_, r) =>
    if r.fallow.isSome && !r.free && decide (x.modeF ≠ 2) then
      match s.seTranslate h site n x y.2.1 .store with
      | .ok pa _ => if s.inOwnGreens h pa then x else { x with out := (headSector x.out).2 }
      | _ => { x with out := (headSector x.out).2 }
    else x
  | _, _ => x

/-- One step of a stream whose region stops: as SCANCEL, with the tokens of reads already issued discarded (R414). -/
def State.settleStream (s : State) (h site n : Nat) : State :=
  let x := s.stream h site n
  match x.st with
  | .idle => s
  | .starting | .stopped => s.cancelIdle h site n { x with queued := none, cancelling := true }
  | .running =>
    let y := { x with cancelling := true, queued := none, moved := false }
    if x.kind.reads && !x.kind.matrix then
      let z := { y with eod := none, gather := none, gtoks := [], finished := false }
      (s.setStream h site n z).cancelStream h site n z
    else if !y.ready then s.cancelStream h site n y
    else
      let z := s.dropOutbound h site n y
      match x.kind with
      | .sstore | .sscatter | .sdrain => s.storeEnd h site n z.onlySector
      | _ => s.cancelStream h site n z

/-- Every stream of a hamlet settled one step. -/
def State.settleStreams (s : State) (h : Nat) : State :=
  seSites.foldl (fun (t : State) st => (List.range 4).foldl (fun (u : State) k => u.settleStream h st k) t) s

/-- A request comes from a hamlet of a list. -/
def SpeReq.from (r : SpeReq) (hs : List Nat) : Bool := hs.contains r.srcH

/-- The reserved entries of a slot freed, and its pending completion removed. -/
def Elem.unreserve (e : Elem) (slot : Nat) : Elem :=
  { e with
    outq := e.outq.map fun p => (p.1, { p.2 with ents := p.2.ents.filter fun x => decide (x ≠ .resv slot) })
    pend := e.pend.filter fun p => decide (p.req.slot ≠ slot) }

/-- A request that is removed unperformed: what it reserved is freed (R414), and a held entry it was sent from is acknowledged, so that
the settling can free it (R275). -/
def State.giveUp (s : State) (r : SpeReq) : State :=
  let x := s.ham r.srcH
  let e := Tab.get x.elems {} r.site
  s.setHam r.srcH { x with
    elems := if r.posted then x.elems else Tab.put x.elems r.site (e.unreserve r.slot)
    held := x.held.map fun y => y.answer r (⟨0, 0⟩, false) }

/-- The deferred requests of a region removed from every bank unperformed, their reserved entries freed (R414). -/
def State.dropDeferred (s : State) (hs : List Nat) : State :=
  let all := (s.hamlets.map fun p => (p.2.defer.map fun d => d.2.filter fun r => r.from hs).flatten).flatten
  let s1 : State := { s with hamlets := s.hamlets.map fun (p : Nat × Hamlet) =>
    (p.1, { p.2 with defer := p.2.defer.map fun (d : Nat × List SpeReq) => (d.1, d.2.filter fun r => !r.from hs) }) }
  all.foldl (fun (t : State) r => t.giveUp r) s1

/-- A request of a stopping region performed at its target; one that its word does not permit is removed as a deferred one (R414). -/
def State.landRequest (s : State) (r : SpeReq) : State := if permitted s r then s.performReturn r else s.giveUp r
/-- The requests of a region in transit land, those of one SPE to one bank in the order of their issue (R148, R414). -/
def State.landRequests (s : State) (hs : List Nat) : State :=
  let moving := (s.hamlets.map fun p => (p.2.afterQ ++ p.2.msgs).filter fun r => r.from hs).flatten
  let s1 : State := { s with hamlets := s.hamlets.map fun (p : Nat × Hamlet) =>
    (p.1, { p.2 with msgs := p.2.msgs.filter (fun r => !r.from hs), afterQ := p.2.afterQ.filter fun r => !r.from hs }) }
  moving.foldl (fun (t : State) r => t.landRequest r) s1
/-- The requests that an SPE of a stopping region has kept: outbound ones of a held-mode region go to the held entries as these have room, the
others land once those that they follow are performed (R275, R414). -/
def State.landKept (s : State) (h site : Nat) : State :=
  (s.elem h site).sendQ.foldl (fun (t : State) r =>
    if t.orderWaits r || (r.posted && t.toHeld r && (t.ham h).heldFull) then t
    else if t.toHeld r then (t.unkeep r).sendSpe r else (t.unkeep r).landRequest r) s

/-- Every result that has returned lands (R151, R414). -/
def State.landResults (s : State) (h site : Nat) : State :=
  let e := s.elem h site
  s.setElem h site ((List.range 16).foldl (fun (x : Elem) slot =>
    match x.pend.find? fun p => decide (p.req.slot = slot) && p.result.isSome with
    | some p =>
      let res := p.result.getD (⟨0, 0⟩, false)
      { (x.complete p.req.op slot res.1).predWrite (Tab.get (s.ham0 h).elems {} site) p.req.op res.2 with
        pend := x.pend.filter fun q => decide (q.req.slot ≠ slot) }
    | none => x) e)

/-- Every engine of a region has acknowledged a pre-emption (R369, step 2). -/
def State.allAcked (s : State) (first : Nat) : Bool :=
  ((s.region first).hamlets first).all fun h => (List.range 66).all fun a => (s.ham h).acks.contains a

/-- The agents of a stopping region act as R414 gives. -/
def State.settleAgents (s : State) (first : Nat) : State :=
  let hs := (s.region first).hamlets first
  let s1 := (s.dropDeferred hs).landRequests hs
  let s2 := hs.foldl (fun (t : State) h =>
    let u := (List.range 8).foldl (fun (u : State) x => (u.landKept h (32 + x)).landResults h (32 + x)) t
    (List.range 8).foldl (fun (u : State) x => u.setElem h (24 + x) { u.elem h (24 + x) with me := (u.elem h (24 + x)).me.abandon }) u) s1
  hs.foldl (fun (t : State) h => t.settleStreams h) s2

/-- The streams of a hamlet are idle. -/
def State.hamStreamsIdle (s : State) (h : Nat) : Bool :=
  seSites.all fun st => (List.range 4).all fun k => decide ((s.stream h st k).st = .idle)

/-- Every stream of a region is idle. -/
def State.streamsIdle (s : State) (first : Nat) : Bool := ((s.region first).hamlets first).all fun h => s.hamStreamsIdle h

/-- The held-write buffer of a hamlet returns to ordinary green, written as zero (R275). -/
def State.uncarve (s : State) (h : Nat) : State :=
  match (s.ham h).heldSpan with
  | none => s
  | some (b, e) =>
    { s.setHam h { s.ham h with heldSpan := none } with
      mem := s.mem.filter fun c => !(decide (greenPa h b ≤ c.1 ∧ c.1 < greenPa h e))
      ecc := s.ecc.filter fun c => !(decide (greenPa h b ≤ 32 * c.1 ∧ 32 * c.1 < greenPa h e)) }

/-- The reeve that waits for a stop or a swap returns with a value (R245). -/
def State.cfgReturn (s : State) (h : Nat) (v : W64) : State :=
  match (s.ham h).reeve.run with
  | .cfgWait d =>
    let t := s.retire (.reeve h) d v
    t.setCore (.reeve h) { t.coreOf (.reeve h) with run := .running }
  | _ => s

/-- The slot of a region's stage cache that holds the image of an address, and the image (R334). A slot with a line that cannot be corrected
holds none (log entry 62). -/
def State.stagedImage (s : State) (first : Nat) (a : W64) : Option (Nat × W64 × List Byte) :=
  let mine := (s.region first).task.map fun t => t.record
  (s.ham first).slots.findSome? fun p =>
    match p.2.use with
    | .stage r l =>
      if p.2.ctx = (s.region first).ctx ∧ mine = some r ∧ p.2.bad = none then (l.find? fun q => decide (q.1 = a)).map fun q => (p.1, q) else none
    | _ => none
/-- The memory that a swap reads an image from: the stage cache where it holds the address, else the arena (R334). -/
def State.stagedMem (s : State) (first : Nat) (a : W64) : Mem :=
  match s.stagedImage first a with
  | some q => s.mem.writeBytes a.toNat q.2.2
  | none => s.mem

/-- The read of an image by the lead reeve of a region: none of one whose header lies outside the arena; beyond the header only where its
fields and the arena pass (R102). It waits for its parish's budget and its home, and may get an error response (R262, R381, R386). -/
def State.imageIn (s : State) (first : Nat) (a : W64) : MemRes Unit :=
  let k := (s.ham first).reeve
  let m := s.seenBy (.reeve first) s.mem
  if (outsideArena k a.toNat 64).isSome then .ok () s
  else
    let short := (headerFail m a.toNat (s.region first).n).isSome || (outsideArena k a.toNat (m.readLE (a.toNat + 16) 4)).isSome
    (s.readImage (s.coreAgent (.reeve first)) a.toNat (if short then 64 else imageSpan m a.toNat)).map fun _ => ()
/-- The read of an image that a landing swap loads: from the stage cache, whose lines are corrected as they are read (R386), else as any read
of the arena (R245, R334, R381). -/
def State.swapIn (s : State) (first : Nat) (x : Stopping) : MemRes Unit :=
  match x.swap with
  | some a => (match s.stagedImage first a with | some q => .ok () (s.readLines first q.1 0 slotLines) | none => s.imageIn first a)
  | none => .ok () s

/-- A region whose stop lands: loaded, and stopinfo says why (R225, R414). -/
def State.disarm (s : State) (first : Nat) (info : W64) : State :=
  let s1 := ((s.region first).hamlets first).foldl (fun (t : State) h => t.uncarve h) s
  let c := (info.extractLsb' 0 4).toNat
  s1.setRegion first { s1.region first with
    st := .loaded, stopinfo := info, faultStop := decide (1 ≤ c ∧ c ≤ 3), stopping := none, stops := [], fallow := none }
/-- The read of a swap's image gets an error response: its reeve traps as a load does (R238, R262; log entry 62). -/
def State.cfgTrap (s : State) (h : Nat) (ea : W64) : State :=
  match (s.ham h).reeve.run with
  | .cfgWait _ => (s.setCore (.reeve h) { s.coreOf (.reeve h) with run := .running }).takeTrap (.reeve h) 4 ea false
  | _ => s

/-- A stop lands; a swap then loads its image and arms it in the same modes (R225, R245, R414). -/
def State.landStop (s : State) (first : Nat) (x : Stopping) : State :=
  let r := s.region first
  let s2 := s.disarm first x.info
  match x.swap with
  | none => s2.cfgReturn first 0
  | some a =>
    let w := s2.loadImage first (s2.ham first).reeve (s2.seenBy (.reeve first) (s2.stagedMem first a)) a
    if w.1 ≠ 0 then w.2.cfgReturn first w.1
    else
      let y := w.2.region first
      match y.mism with
      | m :: _ =>
        if r.bench then (w.2.armRegion first r.bench r.free).cfgReturn first 0
        else
          let e := y.edges.getD m.1 ⟨0, 0, 0, 0, 0, 0, 0, 0⟩
          w.2.cfgReturn first (report 4 3 e.pHam e.pSite m.1)
      | [] => (w.2.armRegion first r.bench r.free).cfgReturn first 0

/-- A stop lands once the image that a swap loads can be read. -/
def State.tryLand (s : State) (first : Nat) (x : Stopping) : State :=
  match s.swapIn first x with
  | .ok _ t => t.landStop first x
  | .wait t => t
  | .err t => (t.disarm first x.info).cfgTrap first (x.swap.getD 0)

/-- The agents of a settling region stand: what still moves waits for a free entry of a full held-write buffer (R275, R414). -/
def State.settleStill (s : State) (first : Nat) : Bool :=
  ((s.region first).hamlets first).all fun h =>
    s.spesStill h && (((s.ham h).reeve.storeBuf.isEmpty && s.hamStreamsIdle h) || (s.ham h).heldFull)

/-- The carter's copy of a hamlet waits for a cut, or goes on behind it (R250, R274). -/
def Hamlet.copyHeld (x : Hamlet) : Bool := match x.carter.cur with | some c => c.cut.isSome | none => false

/-- Something of a hamlet waits for a cut that is yet to be taken: a held entry, a request of the reeve, a copy (R275). -/
def Hamlet.uncovered (x : Hamlet) : Bool :=
  x.held.any (fun e => decide (x.cutSeq ≤ e.tag)) ||
  (match x.reeve.run with | .cutWait n _ => decide (x.cutSeq ≤ n) | _ => false) ||
  (match x.carter.cur with | some { cut := some n, .. } => decide (x.cutSeq ≤ n) | _ => false)

/-- Nothing of a held-mode region is left to settle (R275). -/
def State.settled (s : State) (first : Nat) : Bool :=
  ((s.region first).hamlets first).all fun h =>
    s.hamStreamsIdle h && (s.ham h).reeve.storeBuf.isEmpty && (s.ham h).held.isEmpty &&
      ((s.ham h).elems.all fun p => p.2.sendQ.isEmpty) && !(s.ham h).copyHeld && !(s.ham h).uncovered

/-- One step of a stop that has yet to land (R275, R414): its agents settle; a held-mode region then takes a stopped cut, and its held
entries are sent and its waiting requests are made; a writer that waited for a free entry takes one as it is freed and is covered by a
further cut; then the stop lands. A region in fallow has nothing held, and takes no cut (R395). -/
def State.settleStep (s : State) (first : Nat) : State :=
  match (s.region first).stopping with
  | none => s
  | some _ =>
    let s1 := s.settleAgents first
    let r := s1.region first
    match r.stopping with
    | none => s1
    | some x =>
      if r.free || r.fallow.isSome then (if s1.streamsIdle first then s1.tryLand first x else s1)
      else if x.cutDone && s1.settled first then s1.tryLand first x
      else if (!x.cutDone || (r.hamlets first).any fun h => (s1.ham h).uncovered) && s1.settleStill first then
        let s2 := s1.stoppedCut first
        s2.setRegion first { s2.region first with stopping := some { x with cutDone := true } }
      else s1

/-- The stops of a cycle applied at its end (R56). -/
def State.applyStops (s : State) (first : Nat) : State :=
  let r := s.region first
  match firstStop r.stops with
  | none => s
  | some x =>
    if r.stopping.isSome ∨ r.st ≠ .armed then s.setRegion first { r with stops := [] }
    else s.setRegion first { r with stops := [], stopping := some { info := x.2 } }

/-- A stop asked for from outside the elements takes effect at the end of the cycle, behind the stops of firings (R56). -/
def State.outsideStop (s : State) (first cause : Nat) : State :=
  let r := s.region first
  s.setRegion first { r with stops := r.stops ++ [(8 * 64 * 32, stopInfo cause 0 0 0 0 0)] }

/-! ### The fallow configuration (R395, R396) -/

/-- An element under the fallow configuration: no slot, no state of one; its ME and its requests are given up, its switch words stay. -/
def Elem.fallow (e : Elem) : Elem :=
  let x := e.pend.foldl (fun (x : Elem) p => x.unreserve p.req.slot) e
  { x.purged with slots := [], slotSt := [], halted := false, pend := [], sendQ := [], me := e.me.abandon, replayIn := [] }

/-- What a contained region keeps back for good: its held entries not yet sent are discarded, those already sent complete, and its requests
deferred at any bank are removed (R395). -/
def State.discardUnsent (s : State) (first : Nat) : State :=
  (s.eachHam first fun _ x => { x with held := x.held.filter fun e => e.sent }).dropDeferred ((s.region first).hamlets first)
/-- Every carter command of a region discarded, each with its delivery (R395). -/
def State.discardCopies (s : State) (first : Nat) : State :=
  ((s.region first).hamlets first).foldl (fun (t : State) h => t.abandonCarter h) s

/-- The fallow configuration placed over a region at one cycle boundary (R395): its cut is given up, held entries not yet sent, the stores
that would become held entries, and carter commands are discarded. -/
def State.startFallow (s : State) (first : Nat) : State :=
  let s1 := s.eachHam first fun h x =>
      { x.mapElems (fun _ e => e.fallow) with
        reeve := { x.reeve with evMark := none, storeBuf := x.reeve.storeBuf.filter fun e => !s.outbound h e.pa }
        capR := none, capC := none, capE := [], capG := none }
  let s2 := (s1.discardUnsent first).discardCopies first
  let r := s2.region first
  s2.setRegion first { r with
    st := .armed, fallow := some s.cycle, stopinfo := stopInfo 5 0 0 0 0 0, faultStop := false, stopping := none, stops := [], cut := none,
    cutAgain := false }

/-- The head of a queue discarded (R395). -/
def Queue.discard (q : Queue) : Queue := if q.fresh < q.ents.length then q.pop else q

/-- One cycle of a region in fallow: every element discards the head of each input queue, requests that a bank has deferred since are removed,
and streams end; a reeve that waits for CFGFALLOW returns when they have (R395). -/
def State.fallowStep (s : State) (first : Nat) : State :=
  if (s.region first).fallow.isNone then s
  else
    let s1 := (s.eachHam first fun _ x => { x with elems := x.elems.map fun (p : Nat × Elem) =>
      (p.1, { p.2 with inq := p.2.inq.map fun (q : Nat × Queue) => (q.1, q.2.discard) }) }).discardUnsent first
    let s2 := ((s.region first).hamlets first).foldl (fun (t : State) h => t.settleStreams h) s1
    if s2.streamsIdle first then s2.cfgReturn first 0 else s2

/-- No request that a region issued is outstanding (R396). -/
def State.noneOutstanding (s : State) (first : Nat) : Bool :=
  let hs := (s.region first).hamlets first
  s.streamsIdle first && hs.all (fun h => (s.ham h).held.isEmpty) &&
  s.hamlets.all fun p => (p.2.msgs ++ p.2.afterQ ++ (p.2.defer.map fun d => d.2).flatten).all fun r => !r.from hs

/-- A region released from the fallow configuration: it is empty, its greens and its context stay (R396). -/
def State.releaseFallow (s : State) (first : Nat) : State :=
  let s1 := ((s.region first).hamlets first).foldl (fun (t : State) h => t.setHam h { t.ham h with heldSpan := none }) s
  let s2 := s1.eachHam first fun _ x => x.mapElems fun _ e => { e with slots := [], sw := [] }
  let r := s2.region first
  s2.setRegion first { r with st := .empty, fallow := none, failed := none, edges := [], mism := [] }

/-- REGION_RELEASE (R396): the headcount tree reports zero tokens and nothing is outstanding. -/
def execRegionRelease (first : Nat) (s : State) : Out' :=
  if (s.region first).fallow.isSome && decide (s.headcount first = 0) && s.noneOutstanding first then .next (s.releaseFallow first)
  else .next s

/-- FALLOW_TIMEOUT (R396): 4,096 cycles from the boundary every queue and lane register is cleared, and the region is released. -/
def execFallowTimeout (first : Nat) (s : State) : Out' :=
  match (s.region first).fallow with
  | none => .next s
  | some t =>
    if s.cycle < t + 4096 ∨ s.headcount first = 0 then .next s
    else
      let s1 := s.eachHam first fun _ x => x.mapElems fun _ e => { e with inq := [], outq := [], lanes := [], replayIn := [] }
      .next (s1.releaseFallow first)

/-! ### Items and counters (R246, R247) -/

/-- The occupancy of a queue at the end of the previous cycle. -/
def Queue.count (q : Queue) : Nat := q.ents.length + q.gone - q.fresh

/-- The word of item 12 (R246). -/
def Elem.item12 (e : Elem) : Nat :=
  ((List.range 6).map fun i => if Tab.get e.p false i then 2 ^ i else 0).foldl (· + ·) 0 + (if e.halted then 256 else 0) +
  e.ptr.toNat * 2 ^ 12
/-- The word of item 13 (R246). -/
def Elem.item13 (e : Elem) : Nat :=
  ((List.range 6).map fun i => ((e.inQ i).count % 32) * 2 ^ (5 * i)).foldl (· + ·) 0 +
  ((List.range 6).map fun i => ((e.outQ i).count % 4) * 2 ^ (30 + 2 * i)).foldl (· + ·) 0

/-- A word of a trough descriptor (R162). -/
def Trough.word (t : Trough) (k : Nat) : W64 :=
  match k with
  | 0 => t.count ++ t.en ++ t.log2 ++ t.base
  | 1 => t.taken ++ t.claimed ++ t.filled ++ t.free
  | 2 => t.fi ++ t.ti ++ t.mi ++ t.ci
  | _ => 0
/-- The descriptor with a word replaced. -/
def Trough.withWord (t : Trough) (k : Nat) (v : W64) : Trough :=
  match k with
  | 0 => { t with base := v.extractLsb' 0 32, log2 := v.extractLsb' 32 8, en := v.extractLsb' 40 8, count := v.extractLsb' 48 16 }
  | 1 => { t with free := v.extractLsb' 0 16, filled := v.extractLsb' 16 16, claimed := v.extractLsb' 32 16, taken := v.extractLsb' 48 16 }
  | 2 => { t with ci := v.extractLsb' 0 16, mi := v.extractLsb' 16 16, ti := v.extractLsb' 32 16, fi := v.extractLsb' 48 16 }
  | _ => t
/-- A write of a word keeps the limits that apply to it (R162). -/
def Trough.writeOk (t : Trough) (k : Nat) (v : W64) : Bool :=
  let y := t.withWord k v
  match k with
  | 0 => y.word0Ok
  | 1 => y.word1Ok
  | 2 => y.word2Ok
  | _ => decide (v = 0)

/-- The item of an element (R246); none where there is no such item. -/
def Elem.item (e : Elem) (n : Nat) : Option W64 :=
  if n < 8 then some ((Tab.get e.d 0 n).setWidth 64)
  else if n < 12 then some ((Tab.get e.c 0 (n - 8)).setWidth 64)
  else if n = 12 then some (BitVec.ofNat 64 e.item12)
  else if n = 13 then some (BitVec.ofNat 64 e.item13)
  else if 16 ≤ n ∧ n < 32 then some (Tab.get e.slots 0 (n - 16))
  else none

/-- An armed region of the hamlet binds a trough (R162). -/
def State.troughBound (s : State) (h n : Nat) : Bool :=
  (match s.regionOf h with | some (_, r) => decide (r.st = .armed) | none => false) &&
  (List.range 8).any fun x => decide ((s.elem h (32 + x)).bind4 = some n) || decide ((s.elem h (32 + x)).bind5 = some n)

/-- A write of a trough descriptor's word: its result, 0, 9 or 1; one that is made lands at the end of the cycle (R162, R246, R313). -/
def State.writeTrough (s : State) (h n k : Nat) (v : W64) : W64 × State :=
  if s.troughBound h n then (9, s)
  else if (s.trough h n).writeOk k v then (0, { s with itemWrites := s.itemWrites ++ [.trough h n k v] })
  else (1, s)

/-- The element with item 0 to 7 or 12 written (R246). -/
def Elem.writeItem (e : Elem) (n : Nat) (v : W64) : Elem :=
  if n < 8 then { e with d := Tab.put e.d n (v.setWidth 40) }
  else { e with p := (List.range 6).foldl (fun (t : Tab Bool) i => Tab.put t i (v.getLsbD i)) e.p }

/-- The counter of an element that STALLRD names: its value and the element with it set; none where the kind lacks it. `clr` is
read-and-clear (R247). -/
def Elem.counter (e : Elem) (k : Kind) (ctx n : Nat) (clr : Bool) : Option (W64 × (W64 → Elem)) :=
  let w (v : W32) : W64 := v.setWidth 64
  if n < 4 then some (w (Tab.get e.stall 0 n), fun v => { e with stall := Tab.put e.stall n (v.setWidth 32) })
  else if k = .spe ∧ n = 4 then some (w e.access, fun v => { e with access := v.setWidth 32 })
  else if k = .se ∧ 8 ≤ n ∧ n < 16 then
    let i := (n - 8) / 2
    let x := Tab.get e.streams {} i
    if n % 2 = 0 then some (w x.sat, fun v => { e with streams := Tab.put e.streams i { x with sat := v.setWidth 32 } })
    else some (w x.ufl, fun v => { e with streams := Tab.put e.streams i { x with ufl := v.setWidth 32 } })
  else if k = .se ∧ n = 16 then some (w e.fmtFault, fun v => { e with fmtFault := v.setWidth 32 })
  else if k = .me ∧ n = 20 then some (w e.me.xfault, fun v => { e with me := { e.me with xfault := v.setWidth 32 } })
  else if k = .me ∧ 24 ≤ n ∧ n < 28 then
    some (w (Tab.get e.me.replay 0 (4 * ctx + (n - 24))), fun v =>
      { e with me := { e.me with replay := Tab.put e.me.replay (4 * ctx + (n - 24)) (v.setWidth 32) } })
  else if k = .me ∧ n = 28 ∧ !clr then some (w e.me.statusWord, fun _ => e)
  else if k = .me ∧ n = 29 ∧ !clr then some (e.me.monitor, fun _ => e)
  else none

/-- regstat of a hamlet (R225). -/
def State.regstat (s : State) (h : Nat) : Nat :=
  match s.regionOf h with
  | none => 0
  | some (_, r) =>
    (if r.st = .armed then 1 else 0) + (if r.bench then 2 else 0) + (if r.free then 4 else 0) + (if r.faultStop then 8 else 0)

end Sys2Proof.Machine
end

