-- ==== Sys2Proof/Machine/Preempt.lean ====
section
/-! DEFINITION. Pre-emption (R302, R368 to R370): stopping a region's engines, saving its context, and freeing hamlets. -/
namespace Sys2Proof.Machine
open Sys2Proof

/-- The first hamlets of the regions of one gang, or the region alone (R302). -/
def State.gangOf (s : State) (first : Nat) : List Nat :=
  match (s.region first).task with
  | some t =>
    (match t.gang with
     | some g => (s.regions.filter fun p => match p.2.task with
        | some u => decide (u.gang.map (fun x => x.1) = some g.1) && decide (p.2.ctx = (s.region first).ctx)
        | none => false).map fun p => p.1
     | none => [first])
  | none => [first]

/-- A region runs a task that can be pre-empted. One that a supply warning has stopped, that is in fallow, or whose dispatch has yet to be made,
stops with its gang: its engines acknowledge once it runs (R302, R365, R396). -/
def Region.mayPreempt (r : Region) : Bool :=
  (match r.task with | some t => !t.ending | none => false) && !r.pre && !r.killed

/-- A pre-emption asked for: every engine of every region of the gang is to stop at its point (R302, R369). -/
def State.preempt (s : State) (first : Nat) : State :=
  (s.gangOf first).foldl (fun (t : State) f =>
    if (t.region f).mayPreempt then
      (t.eachHam f fun _ x => { x with acks := [] }).setRegion f { t.region f with pre := true, preCut := false }
    else t) s

/-- PREEMPTION (R369): the bellman asks every engine of the region, and of its gang, to stop. -/
def execPreemption (first : Nat) (s : State) : Out' := .next (s.preempt first)

/-- An engine stands at its stop point (R368): the reeve with its store buffer drained, the carter between granules, an element as
for a running cut; an ME is between A-rows at every step. -/
def State.atStopPoint (s : State) (h agent : Nat) : Bool :=
  if agent = 64 then (s.ham h).reeve.storeBuf.isEmpty
  else if agent = 65 ∨ 66 ≤ agent then true
  else match siteKind agent with
    | .me => true
    | .se => (List.range 4).all fun k => !(s.stream h agent k).gathering
    | _ => s.atRecordPoint h agent

/-- An element at its stop point: a gather that waits on a fault is given up, and is issued again on resume (R353). -/
def Elem.atStop (e : Elem) : Elem :=
  { e with streams := e.streams.map fun (p : Nat × Stream) => (p.1, if p.2.fault.isSome then { p.2 with gather := none } else p.2) }

/-- ENGINE_STOP_ACK (R368): an engine stands at its stop point and acknowledges. -/
def execEngineStopAck (h agent : Nat) (s : State) : Out' :=
  match s.regionOf h with
  | none => .next s
  | some (_, r) =>
    let x := s.ham h
    if !r.pre || r.placed || r.preCut || r.frozen || r.fallow.isSome || 66 ≤ agent || x.acks.contains agent || !s.atStopPoint h agent then .next s
    else
      .next (s.setHam h { x with
        acks := x.acks ++ [agent]
        elems := if agent < 64 ∧ siteKind agent = .se then Tab.put x.elems agent (Tab.get x.elems {} agent).atStop else x.elems })

/-- A hamlet is free: no region, no context; its banks and the stage cache of the record named are given up, and its translations are
dropped (R323, R334, R345). -/
def State.freeHam (s : State) (h : Nat) (record : Option W64) : State :=
  let x := s.ham h
  let gone (y : ShSlot) : Bool := match y.use with
    | .bank _ => true
    | .stage r _ => decide (x.ctx = some y.ctx ∧ record = some r)
    | _ => false
  let s1 := s.setHam h { x with
    region := none, ctx := none
    reeve := { x.reeve with run := .idle, offer := none, storeBuf := [] }, carter := {}, held := [], heldSpan := none, acks := []
    capR := none, capC := none, capE := [], capG := none, afterQ := [], kept := [], relIdx := x.heldNext, released := []
    slots := x.slots.map fun (p : Nat × ShSlot) => (p.1, if gone p.2 then {} else p.2) }
  { s1 with market := { s1.market with
      tlb := s1.market.tlb.filter fun t => decide (t.ham ≠ h), ranges := s1.market.ranges.filter fun e => decide (e.ham ≠ h) } }

/-- The faults of a task that is parked are marked, so that a refusal acts at its resume; the refusals recorded for a task that is over
are given up (R353). -/
def State.parkFaults (s : State) (first : Nat) (r : Region) (resumes : Bool) : State :=
  let hs := r.hamlets first
  let record := r.task.map fun t => t.record
  let mine (f : FaultId) : Bool := decide (f.ctx = r.ctx) && hs.contains f.ham
  let m := s.market
  { s with market :=
    if resumes then { m with faults := m.faults.map fun (f : FaultId) => if mine f && f.parked.isNone then { f with parked := record } else f }
    else { m with answered := m.answered.filter fun f => !(mine f && decide (f.parked = record)) } }
/-- The faults of a task that resumes are its own again (R353). -/
def State.unparkFaults (s : State) (first : Nat) (r : Region) : State :=
  let record := r.task.map fun t => t.record
  { s with market := { s.market with faults := s.market.faults.map fun (f : FaultId) =>
      if f.ctx = r.ctx ∧ f.parked = record ∧ f.ham ∈ r.hamlets first then { f with parked := none } else f } }

/-- Every hamlet of a region freed, and the region gone; a region that is to resume keeps its stage cache (R334, R355). -/
def State.freeRegion (s0 : State) (first : Nat) (resumes : Bool := false) : State :=
  let s := s0.parkFaults first (s0.region first) resumes
  let record := if resumes then none else (s.region first).task.map fun t => t.record
  let s1 := ((s.region first).hamlets first).foldl (fun (t : State) h => t.freeHam h record) s
  { s1.unseal first with regions := Tab.del s1.regions first }

/-- The newest bank of a hamlet becomes the parked slot: with what the entries sent since the cut have returned (R369, step 6). -/
def State.parkHam (s : State) (first h : Nat) : State :=
  let x := s.ham h
  match x.newest with
  | none => s
  | some n =>
    match x.cutSlot n with
    | none => s
    | some k =>
      let snap := { s.stoppedSnap first h n s.cycle 0 with hdr := (x.slot k).snap.hdr }
      s.setHam h (x.setSlot k { use := .parked s.cycle, ctx := (x.slot k).ctx, snap := snap })

/-- Every engine of a region has acknowledged and nothing of it is under way (R369, step 2). -/
def State.engineStopped (s : State) (first : Nat) : Bool :=
  let r := s.region first
  r.pre && !r.placed && r.stopping.isNone && !r.frozen && r.fallow.isNone && s.quiescent first && s.allAcked first

/-- The entry that goes back to the front of its queue: the pre-empted task with the regions it left; the first record of its gang
still stands for it (R322, R333). -/
def requeued (l : List (Nat × Region)) : Option (Nat × QRec) :=
  match l with
  | (f, r) :: rest =>
    match r.task with
    | none => none
    | some t =>
      let recs := ((f, r) :: rest).filterMap fun p => p.2.task
      some (t.queue, { addr := t.lead.1, pushed := t.pushed, ctx := r.ctx, body := some ((recs.map fun u => u.body).flatten),
                       gang := t.gang.map fun _ => recs.map fun u => u.record, left := (f, r) :: rest, lead := some t.lead.2 })
  | [] => none

/-- The number of a region in its gang. -/
def Region.gangNo (r : Region) : Nat :=
  match r.task with
  | some t => (match t.gang with | some g => g.2 | none => 0)
  | none => 0
/-- Regions in the order of their numbers in a gang. -/
def insertRegion (p : Nat × Region) : List (Nat × Region) → List (Nat × Region)
  | [] => [p]
  | q :: r => if p.2.gangNo < q.2.gangNo then p :: q :: r else q :: insertRegion p r

/-- The context of a gang is saved: every region is parked, its hamlets are free, and its entry returns to its queue. -/
def State.parkGang (s : State) (g : List Nat) : State :=
  let left := (g.map fun f => (f, { s.region f with pre := false, preCut := false })).foldl
    (fun (l : List (Nat × Region)) p => insertRegion p l) []
  let s1 := g.foldl (fun (t : State) f =>
    (((t.region f).hamlets f).foldl (fun (u : State) h => u.parkHam f h) t).freeRegion f true) s
  match requeued left with
  | none => s1
  | some (q, e) => s1.setQueue q { s1.queue q with ents := e :: (s1.queue q).ents }

/-- The parked slot of a hamlet that was parked earliest. -/
def Hamlet.oldestParked (x : Hamlet) : Option Nat :=
  ((List.range 4).foldl (fun (a : Option (Nat × Nat)) k =>
    match (x.slot k).use with
    | .parked t => (match a with | some (u, j) => if t < u then some (t, k) else some (u, j) | none => some (t, k))
    | _ => a) none).map fun p => p.2

/-- The parked slots of a hamlet. -/
def Hamlet.parkedSlots (x : Hamlet) : List Nat := (List.range 4).filter fun k => match (x.slot k).use with | .parked _ => true | _ => false

/-- The context parked earliest on a hamlet is spilled, where no spill is under way (R371). -/
def Hamlet.spillOldest (x : Hamlet) : Hamlet :=
  match x.oldestParked with
  | some k => if x.spill.isSome then x else { x with spill := some { slot := k, ctx := (x.slot k).ctx } }
  | none => x

/-- The hamlets of a gang that hold two parked contexts already, at most as many as R355 allows. -/
def State.parkedFull (s : State) (g : List Nat) : List Nat :=
  (g.flatMap fun f => (s.region f).hamlets f).filter fun h => decide (2 ≤ (s.ham h).parkedSlots.length)

/-- CONTEXT_SAVED (R369): once every engine of the gang has stopped, each region takes a stopped cut; once the entries it covers have
been sent and acknowledged, the context is reported saved and parked. On a hamlet with two parked contexts the earlier one is spilled
first, so that there are never three (R355, log entry 67). -/
def execContextSaved (first : Nat) (s : State) : Out' :=
  let g := s.gangOf first
  if !(g.all fun f => s.engineStopped f) then .next s
  else if g.all fun f => (s.region f).preCut then
    if !(g.all fun f => ((s.region f).hamlets f).all fun h => (s.ham h).held.isEmpty) then .next s
    else
      match s.parkedFull g with
      | [] => .next (s.parkGang g)
      | l => .next (l.foldl (fun (t : State) h => t.setHam h (t.ham h).spillOldest) s)
  else
    .next (g.foldl (fun (t : State) f =>
      if (t.region f).preCut then t
      else let u := t.stoppedCut f; u.setRegion f { u.region f with preCut := true }) s)

end Sys2Proof.Machine
end

