-- ==== Sys2Proof/Machine/Power.lean ====
section
/-! DEFINITION. Power and heat: sensors, allowances and budgets (R379 to R381), gating and waking parishes (R384, R385, R410, R411),
and the refresh of the granary (R269, R270). -/
namespace Sys2Proof.Machine
open Sys2Proof

/-! ### Sensors and allowances (R380, R381) -/

/-- Sensor n. -/
def State.sensor (s : State) (n : Nat) : Sensor := Tab.get s.sensors {} n

/-- Any HBM sensor is at level 3. -/
def State.hbmHot (s : State) : Bool := (List.range 32).any fun i => decide (s.sensorLevel (32 + i) = 3)
/-- Level-3 nodispatch of a parish: its own sensor, its quadrant's granary sensor or an HBM sensor is at level 3 (R380). -/
def State.level3 (s : State) (p : Nat) : Bool :=
  decide (s.sensorLevel p = 3) || decide (s.sensorLevel (64 + p / 4) = 3) || s.hbmHot

/-- The effective allowance of a parish from the levels, PALLOW and the power cap (R381). -/
def State.aeffOf (s : State) (p : Nat) : Nat :=
  Nat.min (Nat.min (s.parish p).pallow.toNat (levelCap (s.sensorLevel p))) (Nat.min (levelCap (s.sensorLevel (64 + p / 4))) s.capP)
/-- A_eff recomputed for every parish (R381). -/
def State.newAllowances (s : State) : State :=
  (List.range 32).foldl (fun (t : State) p => t.setParish p { t.parish p with aeff := s.aeffOf p }) s

/-- The level after a reading (R380). -/
def Sensor.newLevel (x : Sensor) (t : W16) : Nat :=
  let th (k : Nat) : Int := match k with | 1 => x.t1.toInt | 2 => x.t2.toInt | _ => x.t3.toInt
  let up (l : Nat) : Nat := if l < 3 ∧ th (l + 1) ≤ t.toInt then l + 1 else l
  let down (l : Nat) : Nat := if 0 < l ∧ t.toInt < th l - x.hyst.toInt then l - 1 else l
  down (down (down (up (up (up x.level)))))

/-- A counter of 64 bits that stops at its top. -/
def sat64 (v : W64) : W64 := if v = BitVec.allOnes 64 then v else v + 1

/-- One sensor polled (R380). -/
def Sensor.poll (x : Sensor) (t : W16) : Sensor :=
  let l := x.newLevel t
  { x with read := t, polls := x.polls + 1, level := l, events := if l = x.level then x.events else sat64 x.events }

/-- SENSOR_POLL (R380, R413): every 50 µs every sensor is read; levels and allowances change together, between two cycles. A sensor without
a reading in the list reads as before. -/
def execSensorPoll (readings : List W16) (s : State) : Out' :=
  if s.cycle % 55000 ≠ 0 then .next { s with again := true }
  else
  let s1 : State := { s with sensors := (List.range 72).map fun n => (n, (s.sensor n).poll (readings.getD n (s.sensor n).read)) }
  .next s1.newAllowances

/-- POWER_CAP_UPDATE (R379): every 100 µs the energy of the window that has ended, in µJ, moves the power cap. -/
def execPowerCapUpdate (energy : W64) (s : State) : Out' :=
  if s.cycle % 110000 ≠ 0 then .next { s with again := true }
  else
  let lim := s.plimit.toNat * 100
  let p := if lim < energy.toNat then Nat.max 64 (s.capP - 16)
    else if 10 * energy.toNat < 9 * lim then Nat.min 255 (s.capP + 16) else s.capP
  .next ({ s with pkge := energy, capP := p } : State).newAllowances

/-- The parishes that host the gang of a region: those of its regions. -/
def State.gangParishes (s : State) (first : Nat) : List Nat := (s.gangOf first).map parishOf
/-- The applied allowance of a parish: the least of A_eff over the parishes of every gang with a region in it (R381). -/
def State.applied (s : State) (p : Nat) : Nat :=
  (s.regions.filter fun x => decide (parishOf x.1 = p)).foldl (fun (a : Nat) x =>
    (s.gangParishes x.1).foldl (fun (b : Nat) q => Nat.min b (s.parish q).aeff) a) (s.parish p).aeff

/-- A parish block as a new interval begins, with its applied allowance: its budget, less what requests used beyond the earlier ones
(R381). -/
def Parish.interval (x : Parish) (a : Nat) : Parish :=
  let b := Nat.max 4096 (x.pbudget.toNat * a / 255)
  { x with applied := a, b := b, left := b - x.debt, debt := x.debt - b, pwaitb := if x.waited then sat64 x.pwaitb else x.pwaitb, waited := false }

/-- A stack as a new interval begins: what it has delivered beyond the rate of the one that ends is charged to the new one, whose rate is given
(R380, log entry 2). -/
def Stack.interval (x : Stack) (rate : Nat) : Stack := { x with used := x.used - x.rate, rate := rate }
/-- BUDGET_INTERVAL (R380, R381): a new 1 µs interval; each parish gets its budget and each stack its rate. -/
def execBudgetInterval (s : State) : Out' :=
  let s1 := (List.range 32).foldl (fun (t : State) p => t.setParish p ((t.parish p).interval (s.applied p))) s
  .next ((List.range 8).foldl (fun (t : State) k => t.setStack k ((t.stack k).interval (s.stackRate k))) s1)

/-- HBM_RATE_CAP_GRANT (R380): the first request waiting at a stack is the next one to be served, where the capped rate leaves room. -/
def execHbmRateCapGrant (stack : Nat) (s : State) : Out' :=
  let x := s.stack stack
  match x.waiters with
  | [] => .next s
  | w :: r =>
    if x.used + 32 ≤ s.stackRate stack then .next (s.setStack stack { x with waiters := r, granted := x.granted ++ [w] }) else .next s

/-! ### Gating (R384, R410, R411) -/

/-- Bit n of PCTL. -/
def Parish.ctl (x : Parish) (n : Nat) : Bool := x.pctl.getLsbD n
/-- PCTL[5:0]. -/
def Parish.steps (x : Parish) : BitVec 6 := x.pctl.extractLsb' 0 6
/-- The highest set bit of PCTL[5:0]. -/
def Parish.highest (x : Parish) : Option Nat := [5, 4, 3, 2, 1, 0].find? fun n => x.ctl n
/-- PCTL with its low six bits replaced. -/
def Parish.withSteps (x : Parish) (v : BitVec 6) : W16 := (x.pctl &&& 0xFFC0) ||| v.setWidth 16

/-- The market places nothing in a parish: PCTL[0] set by the beadle, or level-3 nodispatch (R380, R384, R411). -/
def State.nodispatched (s : State) (p : Nat) : Bool :=
  let x := s.parish p
  (x.ctl 0 && !x.auto) || s.level3 p
/-- A parish is on, or in its hold. -/
def Parish.isOn (x : Parish) : Bool := decide (x.st ≤ 1) && !x.ctl 0
/-- R321 step 2 could wake the parish: autogating made it gated, and it has no level-3 nodispatch (R321, R411). -/
def State.wakable (s : State) (p : Nat) : Bool :=
  let x := s.parish p
  !x.isOn && x.auto && x.ctl 0 && !s.level3 p

/-- The carter of a hamlet has a copy of a spill under way (R371, R384). -/
def Hamlet.spilling (x : Hamlet) : Bool :=
  match x.spill with
  | some p => !p.stopped && p.fault.isNone
  | none => false
/-- A hamlet holds no task, region, carter command or held entry (R384). -/
def Hamlet.idle (x : Hamlet) : Bool := x.region.isNone && x.carter.cur.isNone && x.carter.q.isEmpty && x.held.isEmpty
/-- A parish is idle (R384). -/
def State.parishIdle (s : State) (p : Nat) : Bool := (List.range 8).all fun i => (s.ham (8 * p + i)).idle

/-- A wake request for a parish (R385). -/
def State.wake (s : State) (p : Nat) : State :=
  let x := s.parish p
  if x.st = 1 then s.setParish p { x with st := 0 }
  else if x.st = 2 ∧ !x.ctl 5 then s.setParish p { x with pctl := x.withSteps 0, ack := 0, st := 0, auto := false, gating := false }
  else if x.st = 2 ∨ x.st = 3 then
    { s.setParish p { x with st := 4, gating := false } with inrush := Tab.put s.inrush (p / 16) (Tab.get s.inrush [] (p / 16) ++ [p]) }
  else s

/-- A write of PCTL is refused (R384, R410): a bit set above one not acknowledged, a bit cleared that is not the highest set, a wake
under way, or the device's own gating. -/
def Parish.refuses (x : Parish) (v : W16) : Bool :=
  let old := x.steps
  let new := v.extractLsb' 0 6
  let set (n : Nat) : Bool := new.getLsbD n && !old.getLsbD n
  let cleared (n : Nat) : Bool := old.getLsbD n && !new.getLsbD n
  (decide (4 ≤ x.st ∧ x.st ≤ 6)) || x.gating ||
  ((List.range 6).any fun n => set n && (List.range n).any fun m => !x.ack.getLsbD m) ||
  ((List.range 6).any fun n => cleared n && decide (x.highest ≠ some n))

/-- Every task of a parish is to be pre-empted (R384). -/
def State.preemptParish (s : State) (p : Nat) : State :=
  (s.regions.filter fun r => decide (parishOf r.1 = p)).foldl (fun (t : State) r => t.preempt r.1) s

/-- A write of PCTL (R384, R410). -/
def State.pctlWrite (s : State) (p : Nat) (v : W16) : State :=
  let x := s.parish p
  if x.refuses v then s.setParish p { x with ordErr := true }
  else
    let new : BitVec 6 := v.extractLsb' 0 6
    let pctl : W16 := (new.setWidth 16) ||| (v &&& 0x100)
    let ack := x.ack &&& new
    let st := if new = 0 then 0 else if x.st = 3 ∧ ack.getLsbD 5 then 3 else 2
    let s1 := s.setParish p
      { x with pctl := pctl, ack := ack, st := st, ordErr := false, auto := x.auto && new.getLsbD 0, gating := x.gating && decide (new ≠ 0) }
    if new.getLsbD 1 && !x.ctl 1 then s1.preemptParish p else s1

/-- PCTL with bit n set. -/
def State.pctlSet (s : State) (p n : Nat) : State := s.pctlWrite p ((s.parish p).pctl ||| BitVec.ofNat 16 (2 ^ n))

/-- NODISPATCH (R384): the write that sets PCTL bit 0. -/
def execNodispatch (p : Nat) (s : State) : Out' := .next (s.pctlSet p 0)
/-- QUIESCE (R384): the write that sets PCTL bit 1; every task of the parish is pre-empted. -/
def execQuiesce (p : Nat) (s : State) : Out' := .next (s.pctlSet p 1)
/-- CLEAR (R384): the write that sets PCTL bit 2. -/
def execClear (p : Nat) (s : State) : Out' := .next (s.pctlSet p 2)
/-- RETAIN (R384): the write that sets PCTL bit 3. -/
def execRetain (p : Nat) (s : State) : Out' := .next (s.pctlSet p 3)
/-- CLOCK_GATE (R384): the write that sets PCTL bit 4. -/
def execClockGate (p : Nat) (s : State) : Out' := .next (s.pctlSet p 4)
/-- RAIL_GATE (R384): the write that sets PCTL bit 5. -/
def execRailGate (p : Nat) (s : State) : Out' := .next (s.pctlSet p 5)
/-- AUTOGATE_ENABLE (R384): the write that sets PCTL bit 8. -/
def execAutogateEnable (p : Nat) (s : State) : Out' := .next (s.pctlSet p 8)
/-- PCTL_STEP_UNDO (R384): the write that clears the highest set bit of PCTL[5:0]. -/
def execPctlStepUndo (p : Nat) (s : State) : Out' :=
  match (s.parish p).highest with
  | none => .next s
  | some n => .next (s.pctlWrite p ((s.parish p).pctl &&& ~~~BitVec.ofNat 16 (2 ^ n)))

/-- What the acknowledgement of bit n waits for (R384). -/
def State.stepDone (s : State) (p n : Nat) : Bool :=
  let hams := (List.range 8).map fun i => s.ham (8 * p + i)
  match n with
  | 0 => !(s.regions.any fun r => decide (parishOf r.1 = p) && r.2.placed)
  | 1 => hams.all fun x => x.region.isNone
  | 2 => s.parishIdle p && hams.all fun x => x.msgs.isEmpty && x.afterQ.isEmpty && x.reeve.storeBuf.isEmpty && !x.spilling
  | _ => true

/-- The queues, lane registers and element state of a parish discarded (R384). -/
def State.clearParish (s : State) (p : Nat) : State :=
  (List.range 8).foldl (fun (t : State) i => t.setHam (8 * p + i) { t.ham (8 * p + i) with elems := [] }) s

/-- PCTL_ACKNOWLEDGE (R384): the step under way completes; under autogating the next one begins. While the parish quiesces, a task that
could not be pre-empted before is pre-empted as soon as it can be. -/
def execPctlAcknowledge (p : Nat) (s : State) : Out' :=
  let x := s.parish p
  match x.highest with
  | none => .next s
  | some n =>
    if x.ack.getLsbD n then .next s
    else if !s.stepDone p n then .next (if n = 1 then s.preemptParish p else s)
    else
      let s1 := if n = 2 then s.clearParish p else s
      let y := { x with ack := x.ack ||| BitVec.ofNat 6 (2 ^ n) }
      if n = 5 then .next (s1.setParish p { y with st := if x.st = 2 then 3 else x.st, gating := false })
      else if x.gating then
        .next (s1.setParish p { y with pctl := x.pctl ||| BitVec.ofNat 16 (2 ^ (if n = 0 then 2 else n + 1)) })
      else .next (s1.setParish p y)

/-- The beginning and the end of a hold, once in a cycle (R384): an idle parish with PCTL[8] set and PCTL[5:0] zero enters state 1,
and leaves it when it is no longer idle. -/
def State.holdTick (s : State) (p : Nat) : State :=
  let x := s.parish p
  let idle := s.parishIdle p
  if x.st = 0 ∧ x.ctl 8 ∧ x.steps = 0 ∧ idle then s.setParish p { x with st := 1, holdStart := s.cycle }
  else if x.st = 1 ∧ (!idle ∨ !x.ctl 8) then s.setParish p { x with st := 0 }
  else s

/-- AUTOGATE_HOLD_EXPIRY (R384): a parish that has stayed idle for PHOLD µs is gated by the device: step 0 begins. -/
def execAutogateHoldExpiry (p : Nat) (s : State) : Out' :=
  let x := s.parish p
  if x.st = 1 ∧ x.holdStart + 1100 * x.phold.toNat ≤ s.cycle ∧ s.parishIdle p then
    .next (s.setParish p { x with st := 2, pctl := x.pctl ||| 1, auto := true, gating := true })
  else .next s

/-! ### Waking (R385) -/

/-- PWAKE (R382, R385): a write that posts a wake request. -/
def execPwake (p : Nat) (s : State) : Out' := .next (s.wake p)

/-- The parishes of a die that ramp. -/
def State.ramping (s : State) (die : Nat) : Nat :=
  ((List.range 16).filter fun i => decide ((s.parish (16 * die + i)).st = 5)).length

/-- INRUSH_RAMP_START (R385): the first parish of the die's FIFO starts its ramp, at most four ramping at once; one whose rail still
falls holds back those behind it. -/
def execInrushRampStart (die : Nat) (s : State) : Out' :=
  match Tab.get s.inrush [] die with
  | [] => .next s
  | p :: r =>
    if s.ramping die < 4 ∧ (s.parish p).ack.getLsbD 5 then
      .next { s.setParish p { s.parish p with st := 5, holdStart := s.cycle } with inrush := Tab.put s.inrush die r }
    else .next s

/-- INRUSH_RAMP_END (R385): after 3 µs the parish is restoring. -/
def execInrushRampEnd (p : Nat) (s : State) : Out' :=
  let x := s.parish p
  if x.st = 5 ∧ x.holdStart + 3300 ≤ s.cycle then .next (s.setParish p { x with st := 6, holdStart := s.cycle }) else .next s

/-- RESTORE_COMPLETE (R385): PCTL[5:0] is cleared and the parish is on. -/
def execRestoreComplete (p : Nat) (s : State) : Out' :=
  let x := s.parish p
  if x.st = 6 then .next (s.setParish p { x with st := 0, pctl := x.withSteps 0, ack := 0, auto := false }) else .next s

/-- PALLOW (R381): a write of PALLOW; A_eff is recomputed. -/
def execPallow (p : Nat) (v : Byte) (s : State) : Out' :=
  let s1 := s.setParish p { s.parish p with pallow := v }
  .next (s1.setParish p { s1.parish p with aeff := s1.aeffOf p })

/-! ### Refresh windows (R269, R270) -/

/-- The spacing of a quadrant's windows in the period in force (R269). -/
def Quad.spacing (x : Quad) : Nat := if x.hot then 4400 else 8800

/-- REFRESH_WINDOW_OPEN (R269): the next window of a quadrant opens on schedule; the opening of group 0's window chooses the period. -/
def execRefreshWindowOpen (quad : Nat) (s : State) : Out' :=
  let x := s.quad quad
  if s.cycle < x.next ∨ x.openG.isSome then .next s
  else
    let y := if x.group = 0 then { x with hot := decide (1 ≤ s.sensorLevel (64 + quad)) } else x
    .next (s.setQuad quad { y with openG := some x.group, next := x.next + y.spacing, group := (x.group + 1) % 4 })

/-- REFRESH_WINDOW_CLOSE (R270): 1,760 cycles after its opening the window closes; the accesses that wait are performed as they come to
the group, in arrival order. -/
def execRefreshWindowClose (quad : Nat) (s : State) : Out' :=
  let x := s.quad quad
  if x.openG.isSome && decide (x.next + 1760 ≤ s.cycle + x.spacing) then .next (s.setQuad quad { x with openG := none }) else .next s

/-! ### The management registers of this plane (R378 to R382) -/

/-- INRUSH (R379). -/
def State.inrushReg (s : State) : Nat :=
  let die (d : Nat) : Nat := Nat.min (s.ramping d) 7 + 8 * Nat.min (Tab.get s.inrush [] d).length 31
  die 0 + 256 * die 1
/-- PSTAT of a parish (R382, R384). -/
def State.pstat (s : State) (p : Nat) : Nat :=
  let x := s.parish p
  x.ack.toNat + 256 * x.st + (if x.ordErr then 2 ^ 15 else 0) + (if s.level3 p then 2 ^ 16 else 0)

/-- A register of the power plane read at an offset from the management base; none where no register is listed (R378). -/
def State.powerRead (s : State) (o : Nat) : Option W64 :=
  let n (v : Nat) : Option W64 := some (BitVec.ofNat 64 v)
  if o < 0x20 then
    match o with
    | 0 => n s.plimit.toNat
    | 8 => some s.slew
    | 16 => n s.inrushReg
    | _ => some s.pkge
  else if 0x1000 ≤ o ∧ o < 0x1000 + 32 * 72 then
    let x := s.sensor ((o - 0x1000) / 32)
    match (o - 0x1000) % 32 with
    | 0 => n (x.read.toNat + 2 ^ 16 * x.level + 2 ^ 32 * x.polls.toNat)
    | 8 => n (x.t1.toNat + 2 ^ 16 * x.t2.toNat + 2 ^ 32 * x.t3.toNat + 2 ^ 48 * x.hyst.toNat)
    | 16 => some x.events
    | _ => n 0
  else if 0x8000 ≤ o ∧ o < 0x8000 + 64 * 32 then
    let p := (o - 0x8000) / 64
    let x := s.parish p
    match (o - 0x8000) % 64 with
    | 0 => n (x.pallow.toNat + 256 * x.aeff + 2 ^ 16 * x.applied)
    | 8 => n (x.pbudget.toNat + 2 ^ 32 * x.b)
    | 16 => n x.pctl.toNat
    | 24 => n (s.pstat p)
    | 32 => n 0
    | 40 => n x.phold.toNat
    | 48 => some x.pwaitb
    | _ => n 0
  else if 0x18000 ≤ o ∧ o < 0x18000 + 8 * 64 then
    let q := s.queue ((o - 0x18000) / 8)
    n (q.popped.toNat + 2 ^ 32 * q.rejected.toNat)
  else none

/-- THRESH of a sensor written (R380): nothing where T1 < T2 < T3 does not hold; T1 of a granary sensor stays. -/
def Sensor.thresh (x : Sensor) (n : Nat) (v : W64) : Sensor :=
  let t1 : W16 := if 64 ≤ n then x.t1 else v.extractLsb' 0 16
  let t2 : W16 := v.extractLsb' 16 16
  let t3 : W16 := v.extractLsb' 32 16
  if t1.slt t2 && t2.slt t3 then { x with t1 := t1, t2 := t2, t3 := t3, hyst := v.extractLsb' 48 16 } else x

/-- A number held within limits. -/
def clampNat (lo hi v : Nat) : Nat := Nat.max lo (Nat.min hi v)

/-- A register of the power plane written at an offset from the management base; none where no register is listed (R378 to R382). -/
def State.powerWrite (s : State) (o : Nat) (v : W64) : Option State :=
  if o < 0x20 then
    match o with
    | 0 => some { s with plimit := BitVec.ofNat 16 (clampNat 100 1600 (v.toNat % 2 ^ 16)) }
    | 8 => some { s with slew := BitVec.ofNat 64 (Nat.min (v.toNat % 64) 32 + 2 ^ 16 * (v.toNat / 2 ^ 16 % 1024)) }
    | _ => some s
  else if 0x1000 ≤ o ∧ o < 0x1000 + 32 * 72 then
    let k := (o - 0x1000) / 32
    if (o - 0x1000) % 32 = 8 then some { s with sensors := Tab.put s.sensors k ((s.sensor k).thresh k v) } else some s
  else if 0x8000 ≤ o ∧ o < 0x8000 + 64 * 32 then
    let p := (o - 0x8000) / 64
    let x := s.parish p
    match (o - 0x8000) % 64 with
    | 0 =>
      let s1 := s.setParish p { x with pallow := v.extractLsb' 0 8 }
      some (s1.setParish p { s1.parish p with aeff := s1.aeffOf p })
    | 8 => some (s.setParish p { x with pbudget := BitVec.ofNat 32 (clampNat 4096 0x10000000 (v.toNat % 2 ^ 32)) })
    | 16 => some (s.pctlWrite p (v.extractLsb' 0 16))
    | 32 => some (if v.getLsbD 0 then s.wake p else s)
    | 40 => some (s.setParish p { x with phold := BitVec.ofNat 16 (Nat.max 20 (v.toNat % 2 ^ 16)) })
    | _ => some s
  else if 0x18000 ≤ o ∧ o < 0x18000 + 8 * 64 then some s
  else none

end Sys2Proof.Machine
end

