-- ==== Sys2Proof/Machine/Context.lean ====
section
/-! DEFINITION. Contexts: descriptors (R337 to R340), fault answers (R352, R353), held event records (R350), invalidations (R345 to
R348), and killing a context (R397). -/
namespace Sys2Proof.Machine
open Sys2Proof

/-! ### Descriptors (R337 to R340) -/

/-- A range entry at offset b of a descriptor breaks a limit (R340). -/
def rangeBad (d : List Byte) (b : Nat) : Bool :=
  let f (o n : Nat) : Nat := leNat ((d.drop (b + o)).take n)
  let base := f 0 8
  let limit := f 8 8
  let off := f 16 8
  let ctl := f 24 1
  decide (base % 65536 ≠ 0 ∨ limit % 65536 ≠ 0 ∨ off % 65536 ≠ 0) || decide (base / 2 ^ 56 ≠ 0 ∧ base / 2 ^ 56 ≠ 255) || decide (limit ≤ base) ||
  decide (2 ^ 56 ≤ (base + off) % 2 ^ 64 ∨ 2 ^ 56 ≤ (limit - 1 + off) % 2 ^ 64) || decide (ctl / 8 % 4 = 3 ∨ 32 ≤ ctl) || decide (f 25 7 ≠ 0)

/-- A descriptor of 2,048 bytes keeps every limit (R337, R338). An MSI address that is not aligned is no limit here, and a save area that is not
is one (DESIGN CHOICE, log entry 81). -/
def ctxDescOk (d : List Byte) : Bool :=
  let f (o n : Nat) : Nat := leNat ((d.drop o).take n)
  let zero (o n : Nat) : Bool := ((d.drop o).take n).all fun b => b == 0
  let hbm : Nat := 0x8000000000
  decide (f 0 8 / 2 ^ 60 = 10) && decide (f 8 8 % 4096 = 0 ∧ f 8 8 < hbm) && decide (f 16 8 % 4096 = 0 ∧ f 8 8 < f 16 8 ∧ f 16 8 ≤ hbm) &&
  decide (f 24 1 < 8) && zero 25 1 && decide (f 26 2 ≤ 32) && decide (f 28 4 = 1) && decide (1 ≤ f 64 8 ∧ f 64 8 ≤ 1000000) &&
  decide (f 72 8 % 4096 = 0 ∧ f 80 8 % 4096 = 0) && decide (f 88 8 % 4096 = 0 ∧ f 88 8 < hbm) && zero 96 8 &&
  decide (1 ≤ f 112 4 ∧ f 112 4 ≤ 2047) && zero 116 140 && zero 1280 768 &&
  (List.range (Nat.min (f 26 2) 32)).all fun r => !rangeBad d (256 + 32 * r)

/-- The energy refill of a context; 0 where it is not metered (R337, R375). -/
def State.refillOf (s : State) (c : Nat) : Nat := s.descField c 56 8
/-- The context's descriptor is known and valid. -/
def State.descKnown (s : State) (c : Nat) : Bool := !(Tab.get s.market.desc [] c).isEmpty

/-- The descriptor of a context as it stands in memory is taken, if it is valid (R338). An invalid one is not; the one last read stays in
use. The balance of a context read for the first time is one refill. -/
def State.takeDesc (s : State) (c : Nat) (d : List Byte) : MemRes Unit :=
  let m := s.market
  if ctxDescOk d then
    let refill := leNat ((d.drop 56).take 8)
    let bal := if s.descKnown c then m.balance else Tab.put m.balance c (Int.ofNat refill)
    .ok () { s with market := { m with
      desc := Tab.put m.desc c d, descBad := m.descBad.filter (fun k => decide (k ≠ c)), dead := m.dead.filter (fun k => decide (k ≠ c))
      balance := bal } }
  else .err { s with market := { m with descBad := if m.descBad.contains c then m.descBad else m.descBad ++ [c] } }
/-- The market reads the descriptor of a context (R338): valid, invalid, or a wait at its stack (R380). One that cannot be read is invalid
(log entry 62). -/
def State.readDesc (s : State) (c : Nat) : MemRes Unit :=
  match s.readPhys marketAgent (s.boot.ctxBase.toNat + 2048 * c) 2048 with
  | .wait t => .wait t
  | .err t => t.takeDesc c []
  | .ok d t => t.takeDesc c d

/-- The descriptor of a context read if none is known yet. -/
def State.needDesc (s : State) (c : Nat) : MemRes Unit := if s.descKnown c then .ok () s else s.readDesc c

/-! ### Faults (R349 to R353) -/

/-- EVENT_RECORD_RETRY (R350): the oldest record held for a context is tried again. -/
def execEventRecordRetry (ctx : Nat) (s : State) : Out' :=
  match Tab.get s.market.evHeld [] ctx with
  | [] => .next s
  | r :: rest =>
    if s.eventFull ctx || s.eventOnWay ctx then .next s else .next ((s.setEvents ctx rest).devPost (.event ctx r true))

/-- PAGE_WALK (R342): an access of the reeve of a hamlet to a virtual address walks the tables; a fault is reported. `acc` is 0 for a
read, 1 for a write, 2 for an atomic. -/
def execPageWalk (h : Nat) (va : W64) (acc : Nat) (s : State) : Out' :=
  let c : CoreId := .reeve h
  let w : Want := match acc with | 0 => .load | 1 => .store | _ => .atomic
  let ctx := s.coreCtx c
  match s.translate (s.coreAgent c) ctx va.toNat w with
  | .ok _ t => .next t
  | .wait t => .next t
  | .err t => .next t
  | .fault k t => .next (t.reportFault (t.coreAgent c) ctx va.toNat w k).2

/-- Every element of a hamlet changed. -/
def Hamlet.eachStream (x : Hamlet) (g : Stream → Stream) : Hamlet :=
  { x with elems := x.elems.map fun (p : Nat × Elem) => (p.1, { p.2 with streams := p.2.streams.map fun (q : Nat × Stream) => (q.1, g q.2) }) }

/-- An answer reaches a held entry whose send waits on the fault (R349, R352). -/
def Held.faultAnswer (e : Held) (id : Nat) (ok : Bool) : Held := if e.fault ≠ some id then e else { e with fault := none, refused := !ok }
/-- An answer reaches a read-back that waits on the fault (R352, R373). -/
def Frame.answer (f : Frame) (c id : Nat) (ok : Bool) : Frame :=
  if f.fault = some id ∧ f.ctx = c then { f with fault := none, stopped := !ok } else f

/-- An answer for fault `id` reaches the agents of a hamlet that wait on it: the reeve, the streams, the carter, the held entries, the
spill and the read-backs (R352). -/
def Hamlet.answer (x : Hamlet) (c id : Nat) (ok : Bool) (bit : Nat) : Hamlet :=
  let mine := decide (x.ctx = some c)
  let copy (r : CopyRun) : CopyRun :=
    if r.fault ≠ some id then r
    else if ok then { r with fault := none }
    else r.refused bit
  let y := if !mine then x else
    ({ x with
        reeve := match x.reeve.run with
          | .xlat i none ea o => if i = id then { x.reeve with run := .xlat i (some ok) ea o } else x.reeve
          | _ => x.reeve
        carter := { x.carter with cur := x.carter.cur.map copy }
        held := x.held.map fun e => e.faultAnswer id ok } : Hamlet).eachStream fun z =>
      if z.fault ≠ some id then z else if ok then { z with fault := none } else { z with fault := none, refused := true }
  let spill := match y.spill with
    | some p => if p.fault = some id ∧ p.ctx = c then some { p with fault := none, stopped := !ok } else some p
    | none => none
  { y with spill := spill, frames := y.frames.map fun (f : Frame) => f.answer c id ok }

/-- The log of a push that is not made (R306). -/
def State.dropLink (s : State) (l : LinkPush) : State := s.logRecord 0 l.addr l.ctx

/-- The update at the head of an owed list is not made (R415). -/
def Owed.lost (o : Owed) (s : State) : State :=
  let a : Agent := { code := o.code, ctx := some o.ctx, ham := o.ham }
  match o.acts with
  | [] => s
  | .complete v :: _ => s.lostUpdate a (some o.ctx) 0 (v &&& ~~~1)
  | .deliver b _ :: _ => s.lostUpdate a (some o.ctx) 0 b

/-- A chain whose fault is refused: its block ends with cause 5; where the fault was met on the block's own page, by its read or by the
write of its status, no status is written (R331, log entry 68). -/
def Chain.refused (k : Chain) : Chain :=
  let own := k.body.isNone || k.ended.isSome
  { k with fault := none, ended := some 5, mute := own }

/-- An answer reaches the market's own reads: pop reads, pushes, chains, owed updates and the ring's command (R331, R352, R415). -/
def State.answerMarket (s : State) (c id : Nat) (ok : Bool) (bit : Nat) : State :=
  let m := s.market
  let hit (k : Nat) (f : Option Nat) : Bool := decide (k = c ∧ f = some id)
  let copy (r : CopyRun) : CopyRun :=
    if r.fault ≠ some id then r
    else if ok then { r with fault := none }
    else r.refused bit
  let refusedLinks := if ok then [] else m.links.filter fun l => hit l.ctx l.fault
  let lost := if ok then [] else m.owed.filter fun o => hit o.ctx o.fault
  let m1 := { m with
    qs := m.qs.map fun (p : Nat × MQ) => (p.1, { p.2 with ents := p.2.ents.map fun (e : QRec) => if hit e.ctx e.fault then { e with fault := none } else e })
    links := (m.links.filter fun l => ok || !hit l.ctx l.fault).map fun (l : LinkPush) => if hit l.ctx l.fault then { l with fault := none } else l
    owed := m.owed.map fun (o : Owed) =>
      if !hit o.ctx o.fault then o else if ok then { o with fault := none } else { o with fault := none, acts := o.acts.tail }
    chains := m.chains.map fun (k : Chain) =>
      let k1 := if k.ctx = c then { k with copy := k.copy.map copy } else k
      if !hit k.ctx k.fault then k1 else if ok then { k1 with fault := none } else k1.refused
    ringFault := match m.ringFault with
      | some (k, i, r) => if k = c ∧ i = id then (if ok then none else some (k, i, true)) else some (k, i, r)
      | none => none }
  let s1 := refusedLinks.foldl (fun (t : State) l => t.dropLink l) { s with market := m1 }
  lost.foldl (fun (t : State) o => o.lost t) s1

/-- An entry of which the record at v fails is removed from the front of its queue, counted and logged; the context is told where its
event ring can be trusted (R319, R338). -/
def State.rejectHead (s : State) (q : Nat) (v : W64) (tell : Bool) : State :=
  let x := s.queue q
  match x.ents with
  | [] => s
  | _ :: rest =>
    let s1 := (s.setQueue q { x with ents := rest, rejected := sat32 x.rejected 1 }).logRecord q v x.ctx
    if tell then s1.event x.ctx { va := v, cause := 3, agent := 3 } else s1

/-- The pop reads that a refused fault ends: their records are treated as ones whose read got an error response, wherever in their queue
a task that was pre-empted since has put them (R319, R322). -/
def State.refusePops (s : State) (c id : Nat) : State :=
  let hit (e : QRec) : Bool := decide (e.ctx = c ∧ e.fault = some id)
  (List.range 64).foldl (fun (t : State) q =>
    ((t.queue q).ents.filter hit).foldl (fun (u : State) e =>
      let x := u.queue q
      ((u.setQueue q { x with ents := x.ents.erase e, rejected := sat32 x.rejected 1 }).logRecord q e.faultAt x.ctx).event x.ctx
        { va := e.faultAt, cause := 3, agent := 3 }) t) s

/-- A read-back as what its event names (R372, R388). -/
def Frame.asSpill (f : Frame) : Spill := { slot := f.slot, ctx := f.ctx, off := f.off, code := f.code }
/-- The cause 5 event of a spill or a read-back that stops (R372, R388). -/
def State.spillEvent (s : State) (h : Nat) (p : Spill) (code : Nat) : State :=
  s.event p.ctx { va := BitVec.ofNat 64 p.off, cause := 5, agent := 1, hamlet := h, code := code }

/-- Whether a fault id of a context is outstanding. -/
def State.faultOpen (s : State) (c id : Nat) : Bool := s.market.faults.any fun f => decide (f.ctx = c ∧ f.id = id)

/-- The deliveries of copies that wait on a fault of their barrier's address: the agent and the barrier (R415). -/
def State.lostCopies (s : State) (c id : Nat) : List (Agent × W64) :=
  (s.hamlets.filterMap fun (p : Nat × Hamlet) =>
    match p.2.carter.cur with
    | some r => if p.2.ctx = some c ∧ r.finished ∧ r.fault = some id then some (carterAgent s p.1, r.cmd.comp) else none
    | none => none) ++
  (s.market.chains.filterMap fun (k : Chain) =>
    match k.copy with
    | some r => if k.ctx = c ∧ r.finished ∧ r.fault = some id then some (marketAgent, r.cmd.comp) else none
    | none => none)

/-- A fault of a context answered: RESOLVE lets every agent that waits walk again, REFUSE ends the waits (R352). A REFUSE of a fault on which
a task waited that has been pre-empted since is recorded, and acts at its resume (R353); that of a spill or a read-back acts at once (R372). -/
def State.answerFault (s : State) (c id : Nat) (ok : Bool) : State :=
  let bit := s.refuseBit c id
  let f := s.market.faults.find? fun f => decide (f.ctx = c ∧ f.id = id)
  let stopped := if ok then [] else s.hamlets.flatMap fun p =>
    (match p.2.spill with | some x => if x.fault = some id ∧ x.ctx = c then [(p.1, x)] else [] | none => []) ++
    (p.2.frames.filter fun f => decide (f.fault = some id ∧ f.ctx = c)).map fun f => (p.1, f.asSpill)
  let parked := !ok && f.any fun x => x.parked.isSome
  let lost := if ok then [] else s.lostCopies c id
  let s1 : State := { s with market := { s.market with
    faults := s.market.faults.filter fun f => !decide (f.ctx = c ∧ f.id = id)
    answered := match parked, f with | true, some f => s.market.answered ++ [f] | _, _ => s.market.answered } }
  let s2 := (if ok then s1 else s1.refusePops c id).answerMarket c id ok bit
  let s3 : State := { s2 with hamlets := s2.hamlets.map fun (p : Nat × Hamlet) => (p.1, p.2.answer c id ok bit) }
  let s4 := lost.foldl (fun (t : State) l => t.lostUpdate l.1 (some c) 0 l.2) s3
  stopped.foldl (fun (t : State) p => t.spillEvent p.1 p.2 p.2.code) s4

/-! ### Invalidations (R345, R347, R348) -/

/-- The cached translations that an invalidation names dropped. -/
def State.dropTlb (s : State) (f : Tlb → Bool) : State :=
  { s with market := { s.market with tlb := s.market.tlb.filter fun t => !f t } }
/-- The range caches of a context dropped (R347). -/
def State.dropRanges (s : State) (c : Nat) : State :=
  { s with market := { s.market with ranges := s.market.ranges.filter fun e => decide (e.ctx ≠ c) } }

/-- The accesses of a context that were translated before an invalidation: marked, so that it waits until they are performed (R348). -/
def State.markOld (s : State) (c : Nat) (kill : Bool) : State :=
  let mark (x : Hamlet) : Hamlet :=
    if x.ctx = some c then { x with reeve := { x.reeve with storeBuf := x.reeve.storeBuf.map fun (e : StoreEnt) => { e with inv := true } } } else x
  let held := (s.hamlets.filter fun p => decide (p.2.ctx = some c)).map fun p => (p.1, p.2.heldNext)
  { s with hamlets := s.hamlets.map fun (p : Nat × Hamlet) => (p.1, mark p.2)
           market := { s.market with invWait := some { ctx := c, held := held, kill := kill } } }

/-- Every access marked has been performed (R348). -/
def State.oldDone (s : State) (w : InvWait) : Bool :=
  (s.hamlets.all fun p => decide (p.2.ctx ≠ some w.ctx) || ((p.2.reeve.storeBuf.all fun e => !e.inv) && p.2.held.all fun e => !e.inv)) &&
  w.held.all fun p => (s.ham p.1).held.all fun e => decide (p.2 ≤ e.idx)

/-! ### Killing a context (R397) -/

/-- The regions of a context, by first hamlet. -/
def State.regionsOf (s : State) (c : Nat) : List Nat := (s.regions.filter fun p => decide (p.2.ctx = c)).map fun p => p.1

/-- The reeves of a region stop and are never resumed; what has not left the hamlet is never performed (R397, R398). -/
def Hamlet.killReeve (x : Hamlet) : Hamlet := { x with reeve := { x.reeve with run := .idle, storeBuf := [], offer := none } }

/-- What a hamlet keeps for a killed context is given up: parked slots, spills, frames (R397). -/
def Hamlet.forget (x : Hamlet) (c : Nat) : Hamlet :=
  let drop (y : ShSlot) : Bool := decide (y.ctx = c) && match y.use with | .parked _ => true | .stage _ _ => true | _ => false
  { x with
    slots := x.slots.map fun (p : Nat × ShSlot) => (p.1, if drop p.2 then {} else p.2)
    spill := match x.spill with | some p => if p.ctx = c then none else some p | none => none
    frames := x.frames.filter fun f => decide (f.ctx ≠ c) }

/-- The market's part of a kill: the context's queues are disabled and emptied, its pushes dropped and logged, its fault ids dropped, so
that a command of the ring that waits on one ends as refused, its chains discarded, and an update that waits on a fault is not made (R397, R415). -/
def State.killMarket (s : State) (c : Nat) : State :=
  let m := s.market
  let links := m.links.filter fun l => decide (l.ctx = c)
  let copies := (m.chains.filter fun k => decide (k.ctx = c)).filterMap fun k => k.copy
  let lost := m.owed.filter fun o => decide (o.ctx = c) && o.fault.isSome
  let m1 := { m with
    qs := m.qs.map fun (p : Nat × MQ) => (p.1, if p.2.ctx = c then { p.2 with en := false, ents := [] } else p.2)
    links := m.links.filter fun l => decide (l.ctx ≠ c)
    chains := m.chains.filter fun k => decide (k.ctx ≠ c)
    staged := m.staged.filter fun x => decide (x.1 ≠ c)
    faults := m.faults.filter fun f => decide (f.ctx ≠ c)
    ringFault := m.ringFault.map fun f => if f.1 = c then (c, f.2.1, true) else f
    answered := m.answered.filter fun f => decide (f.ctx ≠ c)
    refuseNow := m.refuseNow.filter fun f => decide (f.1 ≠ c)
    owed := m.owed.filter fun o => !(decide (o.ctx = c) && o.fault.isSome)
    killing := m.killing ++ [c] }
  let s1 := links.foldl (fun (t : State) l => t.dropLink l) { s with market := m1 }
  let s2 := lost.foldl (fun (t : State) (o : Owed) => (List.range o.acts.length).foldl (fun (u : State) i =>
    ({ o with acts := o.acts.drop i } : Owed).lost u) t) s1
  copies.foldl (fun (t : State) x => t.abandonCopy marketAgent c x) s2

/-- A region contained by a kill (R395, R397). One that is in fallow already gives up what it has taken on since (R398). -/
def State.killRegion (s : State) (f : Nat) : State :=
  let s1 := s.eachHam f fun _ x => x.killReeve
  let s2 := s1.setRegion f { s1.region f with killed := true, task := none, placed := false, pre := false, frozen := false, reload := false }
  if (s.region f).fallow.isSome then (s2.discardUnsent f).discardCopies f else s2.startFallow f

/-- A context killed (R397). `rollback` writes event cause 4 first. -/
def State.killContext (s : State) (c : Nat) (rollback : Bool) : State :=
  if s.market.killing.contains c then s
  else
    let s1 := if rollback then s.eventFree c { va := 0, cause := 4, agent := 3 } else s
    let s2 := (s1.regionsOf c).foldl (fun (t : State) f => t.killRegion f) (s1.killMarket c)
    { s2 with hamlets := s2.hamlets.map fun (p : Nat × Hamlet) => (p.1, p.2.forget c) }

/-- The status of the translation command at the ring's head is written, and then head (R347). -/
def State.endXlat (s : State) (status : Nat) : State :=
  let t := s.endCommand marketAgent s.boot.xlRing.toNat status
  { t with market := { t.market with invWait := none } }

/-- KILL_COMPLETE (R397): every region of the context is released and every access that left its hamlets is acknowledged, the deliveries it
owes among them (R398, R415): its hamlets become free, and the kill is logged and reported. Its number names no context until a descriptor is
read for it again: a push that names it meanwhile is dropped (R306). -/
def execKillComplete (ctx : Nat) (s : State) : Out' :=
  let rs := s.regionsOf ctx
  if !s.market.killing.contains ctx || s.market.owed.any (fun o => decide (o.ctx = ctx)) ||
      !(rs.all fun f => decide ((s.region f).st = .empty) && s.noneOutstanding f) then .next s
  else
    let s1 := rs.foldl (fun (t : State) f => t.freeRegion f) s
    let bad := s.market.descBad.contains ctx
    let s2 := ({ s1 with market := { s1.market with
        killing := s1.market.killing.filter (fun k => decide (k ≠ ctx))
        dead := if s1.market.dead.contains ctx then s1.market.dead else s1.market.dead ++ [ctx] } } : State).logErr
      { kind := 11, agent := 6, ctx := some ctx, detail := if bad then 6 else 4 }
    if bad then
      match s2.market.invWait with
      | some w => .next (if w.ctx = ctx ∧ w.kill then s2.endXlat 5 else s2)
      | none => .next s2
    else .next (s2.eventFree ctx { va := 0, cause := 6, agent := 3 })

end Sys2Proof.Machine
end

