-- ==== Sys2Proof/Machine/Market.lean ====
section
/-! DEFINITION. The market: pop reads (R315, R319), decisions and placement (R320 to R322, R371), offers (R325), dispatch (R323, R324,
R334, R370), expert entries (R328), the end of a task, and the updates it owes (R306, R323, R415). -/
namespace Sys2Proof.Machine
open Sys2Proof

/-! ### Records (R315, R319) -/

/-- A field of a record. -/
def recField (b : List Byte) (off n : Nat) : Nat := leNat ((b.drop off).take n)
/-- Record i of the bytes that a pop read returned. -/
def recAt (b : List Byte) (i : Nat) : List Byte := (b.drop (64 * i)).take 64
/-- The hamlets that a record needs (R315, R321). -/
def recHams (b : List Byte) : Nat := recField b 24 4 % 8 + 1
/-- The priority field of a record. -/
def recPrio (b : List Byte) : Nat := recField b 21 1 % 8
/-- Flag n of a record. -/
def recFlag (b : List Byte) (n : Nat) : Bool := (recField b 22 2).testBit n

/-- A record keeps its limits in its queue's context (R315). -/
def State.recordOk (s : State) (c : Nat) (b : List Byte) : Bool :=
  let code := recField b 0 8
  decide (code % 4 = 0 ∧ code < s.descField c 16 8 - s.descField c 8 8) && decide (recField b 20 1 = c) && decide (recField b 21 1 < 8) &&
  decide (recField b 22 2 < 4) && decide (recField b 24 4 < 8) && decide (recField b 30 2 = 0)

/-- The records of an entry: its own, or those of its gang. -/
def QRec.records (e : QRec) : List W64 :=
  match e.gang with
  | some l => l
  | none => [e.addr]

/-- The record by which an entry competes: the first of its gang, where some of its regions have ended too (R333). -/
def QRec.first (e : QRec) (b : List Byte) : List Byte := e.lead.getD (recAt b 0)

/-- The head of a queue replaced. -/
def State.setHead (s : State) (q : Nat) (e : QRec) : State :=
  let x := s.queue q
  s.setQueue q { x with ents := match x.ents with | _ :: r => e :: r | [] => [] }

/-- What the pop read of an entry's records comes to (R319). -/
inductive PopRes where
  | ok (b : List Byte) (s : State)
  | wait (s : State)
  /-- the record at v fails -/
  | bad (v : W64) (s : State)
  /-- the record at v meets a fault of a code at an address -/
  | fault (v : W64) (va code : Nat) (s : State)

/-- The records of an entry read and checked, in order (R315, R319). -/
def State.popRecords (s : State) (c : Nat) : List W64 → List Byte → PopRes
  | [], b => .ok b s
  | v :: r, b =>
    match s.copyRead marketAgent c [(v.toNat, 64)] [] with
    | .wait t => .wait t
    | .err t => .bad v t
    | .fault va k t => .fault v va k t
    | .ok x t => if t.recordOk c x then State.popRecords t c r (b ++ x) else .bad v t

/-- The address of an entry of a queue read back from the ring. -/
def QRec.at' (e : QRec) (v : W64) : QRec := { e with addr := v, slot := none, gang := e.gang.map fun l => v :: l.tail }
/-- An entry of a queue that has come among its next 16 and whose address is still in the ring: it is read back (R317). One that cannot be read
is rejected, with no address to name (log entry 62). -/
def State.refill (s : State) (q : Nat) : State :=
  let x := s.queue q
  match (x.ents.take 16).find? fun e => e.slot.isSome with
  | none => s
  | some e =>
    let pa := x.slotPa (e.slot.getD 0)
    let set (t : State) (l : List QRec) : State := t.setQueue q { t.queue q with ents := x.ents.flatMap fun y => if y.slot = e.slot then l else [y] }
    if s.devWaits pa 8 then s
    else
      match s.readPhys { marketAgent with unit := 12 } pa 8 with
      | .wait t => t
      | .ok b t => set t [e.at' (BitVec.ofNat 64 (leNat b))]
      | .err t =>
        let u := set t []
        ((u.setQueue q { u.queue q with rejected := sat32 x.rejected 1 }).logRecord q 0 x.ctx).event x.ctx { va := 0, cause := 3, agent := 3 }

/-- POP_READ (R319): the record that has become the head of a queue is read and checked; of a gang, every record. The head of a stopped queue is
read too, and a gang with a record that fails is removed whole and counts one rejection (DESIGN CHOICE, log entry 80). -/
def execPopRead (q : Nat) (s : State) : Out' :=
  match (s.queue q).ents with
  | [] => .next s
  | e :: _ =>
    if e.body.isSome || e.fault.isSome || e.slot.isSome || !s.boot.go then .next s
    else
      match s.needDesc e.ctx with
      | .wait t => .next t
      | .err t => .next (t.rejectHead q e.addr false)
      | .ok _ t =>
        match t.popRecords e.ctx e.records [] with
        | .wait t => .next t
        | .bad v t => .next (t.rejectHead q v true)
        | .fault v va k t =>
          let r := t.reportFault marketAgent e.ctx va .load k
          .next (r.2.setHead q { e with fault := some r.1, faultAt := v })
        | .ok b t => .next (t.setHead q { e with body := some b })

/-! ### Expert entries (R328) -/

/-- A replication push: as TSPAWN pushes, held where it cannot be made at once (R306, R328). -/
def State.replicate (s : State) (v : W64) (c : Nat) : State := s.tryLink { addr := v, ctx := c }

/-- One record counted by an expert entry; at its threshold the entry pushes its replication record, once in a window. -/
def State.countExpert (s : State) (c n id : Nat) : State :=
  let x := Tab.get s.market.experts {} n
  if x.threshold = 0 ∨ x.id.toNat ≠ id then s
  else
    let y := { x with count := sat32 x.count 1 }
    let hit := decide (x.threshold.toNat ≤ y.count.toNat) && !x.fired
    let s1 : State := { s with market := { s.market with experts := Tab.put s.market.experts n { y with fired := x.fired || hit } } }
    if hit then s1.replicate x.record c else s1

/-- A record leaves its queue by placement or TPOP: records with flag 0 are counted (R318, R319, R328). -/
def State.poppedRecord (s : State) (c : Nat) (b : List Byte) : State :=
  if recFlag b 0 then (s.market.experts.map fun p => p.1).foldl (fun (t : State) n => t.countExpert c n (recField b 28 2)) s else s
/-- Every record of an entry leaves its queue (R328). -/
def State.poppedRecords (s : State) (c n : Nat) (b : List Byte) : State :=
  (List.range n).foldl (fun (t : State) i => t.poppedRecord c (recAt b i)) s

/-- EXPERT_WINDOW_END (R328): at the end of its window an entry's count returns to 0. -/
def execExpertWindowEnd (e : Nat) (s : State) : Out' :=
  let x := Tab.get s.market.experts {} e
  if s.cycle < x.start + 1100 * x.window.toNat then .next s
  else .next { s with market := { s.market with experts := Tab.put s.market.experts e { x with count := 0, start := s.cycle, fired := false } } }

/-! ### Places (R321, R322, R355) -/

/-- A shadow slot holds nothing. -/
def ShSlot.isFree (y : ShSlot) : Bool := match y.use with | .free => true | _ => false
/-- A shadow slot is a stage cache. -/
def ShSlot.isStage (y : ShSlot) : Bool := match y.use with | .stage _ _ => true | _ => false
/-- The slots of a hamlet that a placement may take: free ones before stage caches, which a context that needs the slot discards
(R355). -/
def Hamlet.openSlots (x : Hamlet) : List Nat :=
  ((List.range 4).filter fun k => (x.slot k).isFree) ++ ((List.range 4).filter fun k => (x.slot k).isStage)
/-- The slot where the task of a record of a context is parked; the recorded reeve names the record (R370, log entry 69). -/
def Hamlet.parkedSlot (x : Hamlet) (c : Nat) (record : W64) : Option Nat :=
  (List.range 4).find? fun k =>
    (match (x.slot k).use with | .parked _ => true | _ => false) && decide ((x.slot k).ctx = c ∧ (x.slot k).snap.reeve.record = record)
/-- The shadow slots of a hamlet can take a context (R355): a task that resumes from its parked slot there needs one more, any other two.
`resumes` are the records of the entry's tasks that were pre-empted; a new record has none, and does not take the slot of another task of its
context, which that resumes from (R370, log entry 69). -/
def Hamlet.slotsTake (x : Hamlet) (c : Nat) (resumes : List W64) : Bool :=
  if resumes.any fun r => (x.parkedSlot c r).isSome then decide (1 ≤ x.openSlots.length) else decide (2 ≤ x.openSlots.length)
/-- No task runs on a hamlet that has power. -/
def Hamlet.vacant (x : Hamlet) : Bool := x.region.isNone && x.powered
/-- A hamlet is free for a context (R321, R355). -/
def State.freeFor (s : State) (h c : Nat) (resumes : List W64) : Bool := (s.ham h).vacant && (s.ham h).slotsTake c resumes

/-- The hamlets f to f + n − 1. -/
def span (f n : Nat) : List Nat := (List.range n).map fun i => f + i
/-- A place: n hamlets from f, all free for a context and none taken. -/
def State.fits (s : State) (c : Nat) (resumes : List W64) (taken : List Nat) (f n : Nat) : Bool :=
  (span f n).all fun h => s.freeFor h c resumes && !taken.contains h
/-- The first hamlets of the places of n hamlets in a parish; only the one left where a task was pre-empted (R295, R370). -/
def spots (p n : Nat) (left : Option Nat) : List Nat :=
  match left with
  | some f => if f / 8 = p then [f] else []
  | none => (List.range (9 - n)).map fun i => 8 * p + i

/-- Of parishes given in rising number, the one with the greatest allowance, the lowest of equals (R321). -/
def State.coolest (s : State) (ps : List Nat) : Option Nat :=
  ps.foldl (fun (a : Option Nat) p =>
    match a with
    | none => some p
    | some q => if (s.parish q).aeff < (s.parish p).aeff then some p else some q) none

/-- A parish where the market may place now: on, not gated, without nodispatch. -/
def State.placeable (s : State) (p : Nat) : Bool := (s.parish p).isOn && !s.nodispatched p

/-- The first hamlet of the region that a pre-empted task left. -/
def leftAt (left : Option (Nat × W64)) : Option Nat := left.map fun p => p.1
/-- The record of a pre-empted task. -/
def leftRecs (left : Option (Nat × W64)) : List W64 := (left.map fun p => p.2).toList

/-- The record of a region's task. -/
def recordOf (r : Region) : W64 := match r.task with | some t => t.record | none => 0

/-- The place that step 1 of R321 takes. -/
def State.findPlace (s : State) (c : Nat) (taken : List Nat) (n : Nat) (left : Option (Nat × W64)) : Option Nat :=
  let fit (p : Nat) : Option Nat := (spots p n (leftAt left)).find? fun f => s.fits c (leftRecs left) taken f n
  match s.coolest ((List.range 32).filter fun p => s.placeable p && (fit p).isSome) with
  | none => none
  | some p => fit p
/-- The parish that step 2 of R321 wakes. -/
def State.wakePlace (s : State) (c : Nat) (taken : List Nat) (n : Nat) (left : Option (Nat × W64)) : Option Nat :=
  (List.range 32).find? fun p => s.wakable p && (spots p n (leftAt left)).any fun f => s.fits c (leftRecs left) taken f n

/-- What an entry asks for: the hamlets of each region, and the place each left with the record of its task. -/
def QRec.wants (e : QRec) (b : List Byte) : List (Nat × Option (Nat × W64)) :=
  (List.range e.records.length).map fun i => (recHams (recAt b i), (e.left[i]?).map fun p => (p.1, recordOf p.2))

/-- The places of every region of an entry, each in turn by R321; none where one finds none. -/
def State.findPlaces (s : State) (c : Nat) : List (Nat × Option (Nat × W64)) → List Nat → Option (List Nat)
  | [], _ => some []
  | w :: r, taken =>
    match s.findPlace c taken w.1 w.2 with
    | none => none
    | some f => (State.findPlaces s c r (taken ++ span f w.1)).map fun l => f :: l

/-- Step 2 of R321 for every region of an entry that step 1 does not place. -/
def State.wakeFor (s : State) (c : Nat) : List (Nat × Option (Nat × W64)) → List Nat → State
  | [], _ => s
  | w :: r, taken =>
    match s.findPlace c taken w.1 w.2 with
    | some f => State.wakeFor s c r (taken ++ span f w.1)
    | none =>
      match s.wakePlace c taken w.1 w.2 with
      | some p => State.wakeFor (s.wake p) c r taken
      | none => State.wakeFor s c r taken

/-- The hamlets of a place that are not free for a context. -/
def State.needed (s : State) (c f n : Nat) (resumes : List W64) : Nat := ((span f n).filter fun h => !s.freeFor h c resumes).length
/-- The better of two places: fewer hamlets to become free, then greater allowance, then lower parish, then lower f (R322). -/
def State.betterPlace (s : State) (c n : Nat) (resumes : List W64) (a : Option Nat) (f : Nat) : Option Nat :=
  match a with
  | none => some f
  | some g =>
    let x := s.needed c f n resumes
    let y := s.needed c g n resumes
    if x < y then some f else if y < x then some g
    else if (s.parish (g / 8)).aeff < (s.parish (f / 8)).aeff then some f else some g
/-- The reserved place of every region of an entry; none where one of them could be placed nowhere (R302, R322). -/
def State.reservePlaces (s : State) (c : Nat) (flag : Bool) : List (Nat × Option (Nat × W64)) → List Nat → Option (List Nat)
  | [], _ => some []
  | w :: r, taken =>
    let ps := (List.range 32).filter fun p => s.placeable p || (flag && s.wakable p)
    let fs := ((ps.map fun p => spots p w.1 (leftAt w.2)).flatten).filter fun f => (span f w.1).all fun h => !taken.contains h
    match fs.foldl (fun (a : Option Nat) f => s.betterPlace c w.1 (leftRecs w.2) a f) none with
    | none => none
    | some f => (State.reservePlaces s c flag r (taken ++ span f w.1)).map fun l => span f w.1 ++ l
/-- The hamlets that an entry reserves: none where it has no place that is considered (R322). -/
def State.reserveFor (s : State) (e : QRec) (b : List Byte) : List Nat :=
  (s.reservePlaces e.ctx (recFlag (e.first b) 1) (e.wants b) []).getD []

/-! ### The decision (R320, R322, R339) -/

/-- The priority after the context's ceiling (R339). -/
def State.clampPrio (s : State) (c prio : Nat) : Nat := if s.descKnown c then Nat.min prio (s.descField c 24 1 % 8) else prio
/-- The effective priority of an entry whose first record is b (R320, R339): one more for each millisecond since its push. -/
def State.effPrio (s : State) (e : QRec) (b : List Byte) : Nat :=
  Nat.min 7 (s.clampPrio e.ctx (recPrio (e.first b)) + (s.cycle - e.pushed) / 1100000)
/-- The context may be served: its balance, where it is metered, is above 0 (R374). -/
def State.mayServe (s : State) (c : Nat) : Bool :=
  !s.market.killing.contains c && (!s.descKnown c || decide (s.refillOf c = 0) || decide (0 < Tab.get s.market.balance 0 c))
/-- The head of a queue that takes part in decisions, with its record (R318 to R320). -/
def State.headOf (s : State) (q : Nat) : Option (QRec × List Byte) :=
  let x := s.queue q
  match x.ents with
  | [] => none
  | e :: _ =>
    match e.body with
    | some b => if x.en && !x.stopped && e.fault.isNone && s.mayServe e.ctx then some (e, b) else none
    | none => none
/-- The effective priority of a queue's head; 0 where it has none. -/
def State.headPrio (s : State) (q : Nat) : Nat :=
  match s.headOf q with
  | some (e, b) => s.effPrio e b
  | none => 0

/-- The weight of a context: that of its lowest-numbered enabled queue (R320). -/
def State.weightOf (s : State) (c : Nat) : Nat :=
  match s.findQueue fun x => x.en && decide (x.ctx = c) with
  | some q => (s.queue q).weight
  | none => 0
/-- The first context from cur that owns a queue of T and has credit (R320). -/
def State.credited (s : State) (t : List Nat) : Option Nat :=
  ((List.range 64).map fun i => (s.market.cur + i) % 64).find? fun c =>
    (t.any fun q => decide ((s.queue q).ctx = c)) && decide (0 < Tab.get s.market.credit 0 c)
/-- The context that R320 serves, with the credits refilled where none has any. -/
def State.pickContext (s : State) (t : List Nat) : Option Nat × State :=
  match s.credited t with
  | some c => (some c, s)
  | none =>
    let s1 : State := { s with market := { s.market with credit := (List.range 64).map fun c => (c, s.weightOf c) } }
    (s1.credited t, s1)

/-- The hamlets that the reservation keeps from a queue's head. -/
def State.keptFrom (s : State) (q : Nat) : List Nat :=
  match s.market.resv with
  | some r => if r.queue = q then [] else r.hamlets
  | none => []

/-- A region formed for record i of an entry on n hamlets from f; it waits for its dispatch (R295, R321). -/
def State.formRegion (s : State) (q : Nat) (e : QRec) (b : List Byte) (gang : Option Nat) (i f : Nat) : State :=
  let rb := recAt b i
  let task : Task :=
    { record := e.records.getD i e.addr, body := rb, queue := q, prio := recPrio (e.first b), pushed := e.pushed,
      comps := [BitVec.ofNat 64 (recField rb 40 8)], gang := gang.map fun g => (g, i), lead := (e.addr, e.first b) }
  let old := (e.left[i]?).map fun p => p.2
  let r : Region := match old with
    | some r => { r with placed := true, resume := true, task := r.task.map fun t => { t with gang := gang.map fun g => (g, i) } }
    | none => { n := recHams rb, ctx := e.ctx, task := some task, placed := true }
  (span f r.n).foldl (fun (t : State) h => t.setHam h { t.ham h with region := some f, ctx := some e.ctx })
    { s with regions := Tab.put s.regions f r }

/-- An entry placed: it leaves its queue, and each of its regions is formed (R320, R321, R333). -/
def State.placeHead (s : State) (q : Nat) (e : QRec) (b : List Byte) (fs : List Nat) : State :=
  let x := s.queue q
  let m := s.market
  let gang := if e.gang.isSome then some m.gangs else none
  let y := { x with ents := x.ents.tail, popped := sat32 x.popped e.records.length }
  let s1 : State := { s.setQueue q y with
    market := { (s.setQueue q y).market with
      gangs := if e.gang.isSome then m.gangs + 1 else m.gangs
      resv := match m.resv with | some r => if r.queue = q then none else some r | none => none } }
  let s2 := (fs.zipIdx).foldl (fun (t : State) p => t.formRegion q e b gang p.2 p.1) s1
  s2.poppedRecords e.ctx e.records.length b

/-- The credit of a served context steps down; cur moves on when it is used up (R320). -/
def State.spendCredit (s : State) (c : Nat) : State :=
  let n := Tab.get s.market.credit 0 c - 1
  { s with market := { s.market with credit := Tab.put s.market.credit c n, cur := if n = 0 then (c + 1) % 64 else s.market.cur } }

/-- What a try to place a head comes to. -/
inductive TryRes where
  | placed (s : State)
  | rejected (s : State)
  | failed (s : State)
  /-- the read of the descriptor waits at its stack (R380) -/
  | waits (s : State)

/-- A try to place the head of a queue (R321, R338). -/
def State.tryHead (s : State) (q : Nat) (e : QRec) (b : List Byte) : TryRes :=
  match s.findPlaces e.ctx (e.wants b) (s.keptFrom q) with
  | none => .failed (if recFlag (e.first b) 1 then s.wakeFor e.ctx (e.wants b) (s.keptFrom q) else s)
  | some fs =>
    match s.readDesc e.ctx with
    | .ok _ t => .placed (t.placeHead q e b fs)
    | .err t => .rejected (t.rejectHead q e.addr false)
    | .wait t => .waits t

/-- Where only parked slots keep a head from its place, the context parked earliest on each hamlet concerned is spilled (R371). -/
def State.startSpills (s : State) (c : Nat) (resumes : List W64) (hs : List Nat) : State :=
  if hs.all fun h => (s.ham h).region.isNone && (s.ham h).powered then
    hs.foldl (fun (t : State) h => if (t.ham h).slotsTake c resumes then t else t.setHam h (t.ham h).spillOldest) s
  else s

/-- The pre-emptions of a reserving head whose queue is pre-emptive: every task in the reserved hamlets of a lower priority field
(R322, R339). -/
def State.preemptFor (s : State) (prio : Nat) (hs : List Nat) : State :=
  hs.foldl (fun (t : State) h =>
    match t.regionOf h with
    | some (f, r) =>
      (match r.task with
       | some k => if t.clampPrio r.ctx k.prio < prio then t.preempt f else t
       | none => t)
    | none => t) s

/-- The reservation of a head that cannot be placed (R322). -/
def State.reserve (s : State) (q : Nat) (e : QRec) (b : List Byte) : State :=
  let mine := s.effPrio e b
  let held := match s.market.resv with
    | some r => decide (r.queue ≠ q) && (s.headOf r.queue).isSome && decide (mine ≤ s.headPrio r.queue)
    | none => false
  if held then s
  else
    let hs := s.reserveFor e b
    let s1 : State := { s with market := { s.market with resv := some { queue := q, head := e.addr, pushed := e.pushed, hamlets := hs } } }
    let s2 := if (s.queue q).preempt then s1.preemptFor (s.clampPrio e.ctx (recPrio (e.first b))) hs else s1
    s2.startSpills e.ctx (e.left.map fun p => recordOf p.2) hs

/-- The entry is the head that holds the reservation (R322). -/
def Reservation.isFor (r : Reservation) (e : QRec) : Bool := decide (r.head = e.addr ∧ r.pushed = e.pushed)

/-- The reservation as a decision begins: gone with its head, its place chosen afresh (R322). -/
def State.freshReservation (s : State) : State :=
  match s.market.resv with
  | none => s
  | some r =>
    match s.headOf r.queue with
    | none => { s with market := { s.market with resv := none } }
    | some (e, b) =>
      { s with market := { s.market with resv := if r.isFor e then some { r with hamlets := s.reserveFor e b } else none } }

/-- Heads are tried by R320 until one is placed or rejected; one that cannot be placed gives way to the next. -/
def State.tryHeads (s : State) : Nat → List Nat → State
  | 0, _ => s
  | n + 1, cand =>
    let top := cand.foldl (fun (a : Nat) q => Nat.max a (s.headPrio q)) 0
    let t := cand.filter fun q => decide (s.headPrio q = top)
    let c := s.pickContext t
    match c.1 with
    | none => c.2
    | some k =>
      match t.find? fun q => decide ((s.queue q).ctx = k) with
      | none => c.2
      | some q =>
        match c.2.headOf q with
        | none => c.2
        | some (e, b) =>
          match c.2.tryHead q e b with
          | .placed u => u.spendCredit k
          | .rejected u => u
          | .waits u => u
          | .failed u => State.tryHeads (u.reserve q e b) n (cand.erase q)

/-! ### Offers (R325) -/

/-- A head that may be offered: one hamlet, of the top priority, no free hamlet to take it, not pre-empted. -/
def State.offerable (s : State) (top q : Nat) : Bool :=
  match s.headOf q with
  | none => false
  | some (e, b) =>
    decide (e.records.length = 1) && e.left.isEmpty && decide (recHams b = 1) && decide (s.effPrio e b = top) &&
    (s.findPlace e.ctx (s.keptFrom q) 1 none).isNone
/-- The reeve of a hamlet runs a task of a context. -/
def State.runsFor (s : State) (h c : Nat) : Bool :=
  let k := (s.ham h).reeve
  decide ((s.ham h).ctx = some c) && (match k.run with | .idle => false | .rom => false | .done => false | .halted => false | _ => true)
/-- The largest effective priority among the heads (R320). -/
def State.topPrio (s : State) : Nat :=
  ((List.range 64).filter fun q => (s.headOf q).isSome).foldl (fun (a : Nat) q => Nat.max a (s.headPrio q)) 0
/-- An offer of the record at v of queue q to the reeve of a hamlet stands (R325). -/
def State.offerStands (s : State) (top h q : Nat) (v : W64) : Bool :=
  s.offerable top q && (match (s.queue q).ents with | e :: _ => decide (e.addr = v) | [] => false) && s.runsFor h (s.queue q).ctx
/-- Offers whose record no longer stands as they were made are withdrawn. -/
def State.withdraw (s : State) (top : Nat) : State :=
  { s with hamlets := s.hamlets.map fun (p : Nat × Hamlet) =>
      match p.2.reeve.offer with
      | none => p
      | some (q, v) => if s.offerStands top p.1 q v then p else (p.1, { p.2 with reeve := { p.2.reeve with offer := none } }) }
/-- The record offered to the reeve of a hamlet, while its offer stands (R325). -/
def State.offerNow (s : State) (h : Nat) : Option (Nat × W64) :=
  (s.ham h).reeve.offer.filter fun o => s.offerStands s.topPrio h o.1 o.2
/-- Each offerable head goes to the lowest-numbered running reeve of its context not yet offered one. -/
def State.makeOffers (s : State) (top : Nat) : State :=
  let offered (t : State) (q : Nat) : Bool := t.hamlets.any fun p => match p.2.reeve.offer with | some (k, _) => decide (k = q) | none => false
  (List.range 64).foldl (fun (t : State) q =>
    if !t.offerable top q || offered t q then t
    else
      match (t.queue q).ents, (List.range 256).find? fun h => t.runsFor h (t.queue q).ctx && (t.ham h).reeve.offer.isNone with
      | e :: _, some h => t.setCore (.reeve h) { t.coreOf (.reeve h) with offer := some (q, e.addr) }
      | _, _ => t) s
/-- The offers as a decision leaves them (R325). -/
def State.updateOffers (s : State) : State :=
  (s.withdraw s.topPrio).makeOffers s.topPrio

/-- MARKET_DECISION (R320 to R322, R325): one head is placed, reserved for, or offered. -/
def execMarketDecision (s : State) : Out' :=
  if !s.boot.go then .next s
  else
    let s1 := s.freshReservation
    let cand := (List.range 64).filter fun q => (s1.headOf q).isSome
    .next ((s1.tryHeads cand.length cand).updateOffers)

/-! ### Dispatch (R323, R324, R334, R355, R370) -/

/-- A green written as zero, every word empty. -/
def State.zeroGreen (s : State) (h : Nat) : State := s.putGreen h [] [] []
/-- A hamlet scrubbed for another context (R324). -/
def State.scrub (s : State) (h : Nat) : State :=
  let x := s.ham h
  (s.zeroGreen h).setHam h { x with troughs := [], reeve := { instret := x.reeve.instret } }

/-- The banks of a context that takes a hamlet (R355): the parked slot of the task that resumes, by the parity of its cut, and the lowest slots
that are open. -/
def Hamlet.takeBanks (x : Hamlet) (c : Nat) (resumes : Option W64) : Hamlet :=
  match resumes.bind (x.parkedSlot c), x.openSlots with
  | some k, j :: _ =>
    let isB := decide ((x.slot k).snap.hdr.seq % 2 = 1)
    (x.setSlot k { x.slot k with use := .bank isB }).setSlot j { use := .bank (!isB), ctx := c }
  | none, j :: k :: _ => (x.setSlot (Nat.min j k) { use := .bank false, ctx := c }).setSlot (Nat.max j k) { use := .bank true, ctx := c }
  | _, _ => x

/-- A cut interval held within its limits; 0 is the default (R225, R337). -/
def ivalHeld (v : W64) : W64 := if v = 0 then 262144 else BitVec.ofNat 64 (clampNat 4096 1048576 v.toNat)
/-- held_base as it is held: bits [15:0] and [63:21] zero (R225). -/
def baseHeld (v : W64) : W64 := v &&& 0x1F0000
/-- held_size as it is held: whole 64 KiB, from 64 KiB to 512 KiB (R225). -/
def sizeHeld (v : W64) : W64 := BitVec.ofNat 64 (clampNat 65536 524288 (v.toNat / 65536 * 65536))

/-- The reeve of a hamlet at the dispatch of a record (R223, R225). -/
def State.dispatchCore (s : State) (k : Core) (c : Nat) (record : W64) (b : List Byte) : Core :=
  let f (o : Nat) : W64 := BitVec.ofNat 64 (s.descField c o 8)
  { g := [(1, BitVec.ofNat 64 (recField b 8 8)), (2, record)]
    pc := f 8 + BitVec.ofNat 64 (recField b 0 8), run := .running, ctx := c, arenaBase := f 8, arenaBound := f 16, tvec := f 8
    shadowIval := ivalHeld (f 32), heldBase := baseHeld (f 40), heldSize := sizeHeld (f 48), instret := k.instret, evq := k.evq
    record := record }

/-- The elements of a region formed anew: no slot and no switch word. What an ME keeps until it is armed stays: its accumulators with their
valid and dirty bits, its replay counters, its slot base, its settings and its transfer fault counter (R199, R202, R222, R296). -/
def Elem.formed (e : Elem) : Elem :=
  { me := e.me.abandon
    streams := e.streams.map fun p => (p.1, p.2.armed), access := e.access, fmtFault := e.fmtFault }

/-- A hamlet dispatched for a record (R323). -/
def State.dispatchHam (s : State) (c : Nat) (record : W64) (b : List Byte) (h : Nat) : State :=
  let x := s.ham h
  s.setHam h { (x.mapElems fun _ e => e.formed) with
    reeve := s.dispatchCore x.reeve c record b, lastCtx := some c, cutSeq := 0, held := [], heldNext := 0, relIdx := 0, released := [], kept := []
    heldSpan := none, capR := none, capC := none, capE := [], capG := none, staleA := {}, staleB := {}, since := { all := false } }

/-- The image addresses attached to a record of a context; none where nothing is (R334). -/
def State.attached (s : State) (c : Nat) (record : W64) : Option (List W64) :=
  (s.market.staged.find? fun x => decide (x.1 = c ∧ x.2.1 = record)).map fun x => x.2.2.filter fun a => a != 0
/-- The agent that reads the images for a stage cache of a hamlet: the market, charged to the hamlet's parish (R334, R381). -/
def stageAgent (h : Nat) : Agent := { code := 6, ham := some h, unit := 10 }
/-- The reads of the images attached to a record, for a region's stage cache. They wait together for the parish's budget and their home
(R334, R380, R381); one with a sector that cannot be corrected is not cached (R386, log entry 62). -/
def State.stageReads (s : State) (first c : Nat) (record : W64) : MemRes (List (W64 × List Byte)) :=
  match s.attached c record with
  | none | some [] => .ok [] s
  | some (a :: l) =>
    let span (x : W64) : Nat := imageSpan s.mem x.toNat
    let w := s.letIn (stageAgent first) a.toNat (((a :: l).map span).sum)
    if !w.1 then .wait w.2
    else
      let r := (a :: l).foldl (fun (u : List (W64 × List Byte) × State) x =>
        match u.2.arrayRead (stageAgent first) x.toNat (span x) with
        | .ok b t => (u.1 ++ [(x, b)], t)
        | .wait t => (u.1, t)
        | .err t => (u.1, t)) ([], w.2)
      .ok r.1 r.2
/-- The images read for a record placed in a slot of the lead hamlet that no context occupies, where there is one; the attachment ends
(R334). -/
def State.loadStage (s : State) (first c : Nat) (record : W64) (images : List (W64 × List Byte)) : State :=
  match s.attached c record with
  | none => s
  | some _ =>
    let s1 : State := { s with market := { s.market with staged := s.market.staged.filter fun y => !decide (y.1 = c ∧ y.2.1 = record) } }
    let y := s1.ham first
    match (List.range 4).find? fun k => (y.slot k).isFree with
    | none => s1
    | some k => s1.setHam first (y.setSlot k { use := .stage record images, ctx := c })

/-- The slots of the image that a header names loaded again into the elements of a restored region, which acts from then on (R356, R366). The
read waits for the parish's budget and its home; an image that cannot be read or no longer passes its checks is not loaded (R381, R386, log
entry 62). -/
def State.reloadImage (s0 : State) (first : Nat) : State :=
  let r := s0.region first
  let go (t : State) : State := t.setRegion first { t.region first with frozen := false, reload := false }
  if !r.reload then s0
  else
    match s0.readImage { code := 7, ctx := some r.ctx, ham := some first } r.image.toNat (imageSpan s0.mem r.image.toNat) with
    | .wait s => s
    | .err s => go s
    | .ok _ s =>
      match checkImage s.mem (s.ham first).reeve r.image.toNat r.n with
      | .good t =>
        let edges := imageEdges s.mem r.image.toNat
        go ((s.eachHam first fun h x => x.mapElems fun i e =>
          let l := e.load s.mem (Tab.get t 0 (64 * (h - first) + i))
          { e with slots := l.slots, depth := l.depth, conflict := l.conflict, sw := l.sw, bind4 := l.bind4, bind5 := l.bind5 }).setRegion first
          { r with edges := edges, mism := mismatches edges })
      | _ => go s

/-- A frame holds the spilled state of a region's task (R373, log entry 69). -/
def Frame.isOf (x : Frame) (r : Region) : Bool := decide (x.ctx = r.ctx ∧ x.snap.reeve.record = recordOf r)

/-- A spilled frame of a gang that resumes is still to be read back: the gang resumes only as a whole (R302, R373). -/
def State.readsBack (s : State) (first : Nat) : Bool :=
  (s.gangOf first).any fun f =>
    (s.region f).resume && ((s.region f).hamlets f).any fun h => (s.ham h).frames.any fun x => x.isOf (s.region f)

/-- DISPATCH (R323, R324, R358, R370): the hamlets are scrubbed where they pass to another context, the banks taken, the reeves started,
and cut 0 asked for, which is taken before the first fetch; a parked region is restored instead, or, where its slots hold no valid bank,
its context is killed (R388). It waits for the read-back of its gang's spilled frames (R302, R373), and for the images that it stages (R334,
R381). -/
def execDispatch (first : Nat) (s : State) : Out' :=
  let r := s.region first
  match r.task with
  | none => .next s
  | some t =>
    let hs := r.hamlets first
    if !r.placed || r.frozen || s.readsBack first then .next s
    else
    match s.stageReads first r.ctx t.record with
    | .wait u => .next u
    | .err u => .next u
    | .ok images s0 =>
      let s1 := hs.foldl (fun (u : State) h => if (u.ham h).lastCtx = some r.ctx then u else u.scrub h) s0
      let s2 := (s1.eachHam first fun _ x =>
        { x.takeBanks r.ctx (if r.resume then some t.record else none) with lastCtx := some r.ctx }).loadStage first r.ctx t.record images
      if r.resume then
        let s3 := (hs.foldl (fun (u : State) h => u.readBanks h) (s2.unparkFaults first r)).setRegion first { r with placed := false, resume := false }
        match s3.commonCut first with
        | none => .next (s3.killContext r.ctx true)
        | some n => .next (let s4 := s3.restoreRegion first n; if r.pre then s4.preempt first else s4)
      else
        let s3 := hs.foldl (fun (u : State) h => u.dispatchHam r.ctx t.record t.body h) s2
        .next (s3.setRegion first { r with placed := false, cutAgain := true })

/-! ### The end of a task (R323, R353) -/

/-- The completion actions of a task's records are owed, in order (R323, R353). -/
def State.oweCompletions (s : State) (c : Nat) (t : Task) : State :=
  let acts := (t.comps.filter fun a => a != 0).map OwedAct.complete
  if acts.isEmpty then s
  else { s with market := { s.market with owed := s.market.owed ++ [{ ctx := c, acts := acts, e := if t.abandoned then 16 else 0 }] } }

/-- One step of a task that has ended: the region is stopped as CFGSTOP does; when it has stopped and nothing of its reeves and carters
is under way, the hamlets become free and the completion actions are owed (R323). -/
def State.taskStep (s : State) (first : Nat) : State :=
  let r := s.region first
  match r.task with
  | none => s
  | some t =>
    let hs := r.hamlets first
    if !t.ending && !((List.range r.n).all fun i => t.tdone.contains i) || r.placed || r.pre || r.frozen then s
    else if !t.ending then s.setRegion first { r with task := some { t with ending := true } }
    else if r.stopping.isSome || r.fallow.isSome then s
    else if r.st = .armed then
      s.setRegion first { r with stopping := some { info := stopInfo 4 0 0 0 0 0 }, stops := [] }
    else if r.cut.isSome then s
    else if hs.all fun h => (s.ham h).carter.cur.isNone && (s.ham h).carter.q.isEmpty && (s.ham h).reeve.storeBuf.isEmpty && (s.ham h).held.isEmpty then
      (s.freeRegion first).oweCompletions r.ctx t
    else s

/-! ### Updates owed, links (R306, R323, R415) -/

/-- TJOIN of a record by the market: the fault it waits on, whether it is over, and the state. -/
def State.owedJoin (s : State) (a : Agent) (c : Nat) (v : W64) : Option Nat × Bool × State :=
  let bytes (old : List Byte) : Option (List Byte) := (joinStep (leNat old)).2.1.map (leBytes 4)
  match s.translate a c (v.toNat + 16) .atomic with
  | .fault k t => let r := t.reportFault a c (v.toNat + 16) .atomic k; (some r.1, false, r.2)
  | .wait t => (none, false, t)
  | .err t => (none, true, t.lostUpdate a (some c) 0 v)
  | .ok pa t =>
    if t.agentAfter a pa then (none, false, t)
    else
    match t.atomicPhys a pa 4 .join bytes with
    | .wait u => (none, false, u)
    | .err u => (none, true, u.lostUpdate a (some c) pa v)
    | .ok old u =>
      if !(joinStep (leNat old)).2.2 then (none, true, u)
      else
        match u.pushRecord a c v with
        | .pushed w => (none, true, w)
        | .full w => (none, true, w)
        | .otherCtx w => (none, true, w.logRecord 0 v c)
        | .err w => (none, true, w.lostUpdate a (some c) pa v)
        | .wait _ => (none, false, s)
        | .fault k _ => let r := s.reportFault a c (v.toNat + 20) .load k; (some r.1, false, r.2)

/-- The address of an owed update has no translation. -/
def State.owedFaults (s : State) (a : Agent) (c : Nat) (x : OwedAct) : Bool :=
  let v := match x with
    | .complete v => if v.getLsbD 0 then (v &&& ~~~1).toNat + 16 else v.toNat
    | .deliver b _ => b.toNat
  match s.translate a c v .atomic with
  | .fault _ _ => true
  | _ => false

/-- One owed list served: its first update is made, waits, or is lost; for a context that is being killed none waits on a fault (R415). Its
address is used as it stands, aligned or not (R323; DESIGN CHOICE, log entry 80). -/
def State.serveOwed (s : State) (o : Owed) : State :=
  let a : Agent := { code := o.code, ctx := some o.ctx, ham := o.ham }
  let back (t : State) (x : Owed) : State := if x.acts.isEmpty then t else { t with market := { t.market with owed := t.market.owed ++ [x] } }
  if o.fault.isSome then back s o
  else
    match o.acts with
    | [] => s
    | act :: rest =>
      match s.needDesc o.ctx with
      | .wait t => back t o
      | .ok _ d | .err d =>
      if s.market.killing.contains o.ctx && d.owedFaults a o.ctx act then back (o.lost d) { o with acts := rest }
      else
      let r : Option Nat × Bool × State :=
        match act with
        | .complete v => if v.getLsbD 0 then d.owedJoin a o.ctx (v &&& ~~~1) else d.owedBarrier a o.ctx v true 0 o.e
        | .deliver b n => d.owedBarrier a o.ctx b false n o.e
      back r.2.2 (if r.2.1 then { o with acts := rest } else { o with fault := r.1 })
/-- Every owed list served once. -/
def State.owedStep (s : State) : State :=
  s.market.owed.foldl (fun (t : State) o => t.serveOwed o) { s with market := { s.market with owed := [] } }

/-- LINK_PUSH_RETRY (R306): the held pushes are tried again, in order; one whose context is killed is dropped. -/
def execLinkPushRetry (s : State) : Out' :=
  .next (s.market.links.foldl (fun (t : State) l =>
    if t.market.killing.contains l.ctx then t.dropLink l
    else if l.fault.isSome then { t with market := { t.market with links := t.market.links ++ [l] } }
    else
      match t.needDesc l.ctx with
      | .wait u => { u with market := { u.market with links := u.market.links ++ [l] } }
      | .ok _ u | .err u => u.tryLink l) { s with market := { s.market with links := [] } })

/-- Faults refused while their context was parked act on the faults that followed its resume (R353). -/
def State.refuseParked (s : State) : State :=
  s.market.refuseNow.foldl (fun (t : State) p => t.answerFault p.1 p.2 false) { s with market := { s.market with refuseNow := [] } }

/-! ### Spills (R371 to R373) -/

/-- The size of the body of a frame: a shadow slot (R355). -/
def slotBytes : Nat := 0x380000
/-- The virtual address of the frame of slot s of hamlet h of a context (R371). -/
def State.frameAddr (s : State) (c h slot : Nat) : Nat := s.descField c 72 8 + 0x400000 * (4 * h + slot)
/-- The carter of a hamlet as the agent of a spill. -/
def spillAgent (c h : Nat) : Agent := { code := 4, ctx := some c, ham := some h }

/-- Bytes written by the carter at virtual pieces, none of which crosses a 4 KiB page; the pieces already written are written again when it
is tried again, and one into a green waits for a cut as any write does (R361). A spill is no COPY, and may not write the granary (R268). -/
def State.copyWrite (s : State) (a : Agent) (c : Nat) : List (Nat × Nat) → List Byte → CopyRead
  | [], _ => .ok [] s
  | p :: r, b =>
    match s.translate a c p.1 .store with
    | .fault k t => .fault p.1 k t
    | .wait t => .wait t
    | .err t => .err t
    | .ok pa t =>
      if t.agentAfter a pa then .wait t
      else
        match t.writeBytesPhys a false pa (b.take p.2) with
        | .ok _ u => State.copyWrite u a c r (b.drop p.2)
        | .wait u => .wait u
        | .err u => .err u

/-- The bytes of a header at offset 0 of a frame (R363, R371). -/
def Header.bytes64 (x : Header) : List Byte := x.bytes56 ++ leBytes 4 x.crc.toNat ++ leBytes 4 0

/-- A step of a spill: bytes written at an offset of its frame. -/
def State.spillWrite (s : State) (h : Nat) (p : Spill) (off : Nat) (b : List Byte) (next : State → State) : State :=
  let at' := s.frameAddr p.ctx h p.slot + off
  let set (t : State) (q : Spill) : State := t.setHam h { t.ham h with spill := some q }
  let stop (t : State) (code : Nat) : State := (set t { p with stopped := true }).spillEvent h p code
  if s.descField p.ctx 80 8 < 0x400000 * (4 * h + p.slot) + off + b.length then stop s 0
  else
    match s.copyWrite (spillAgent p.ctx h) p.ctx (pagePieces at' b.length) b with
    | .ok _ t => next t
    | .wait t => t
    | .err t => stop t 3
    | .fault v k t =>
      let r := t.reportFault (spillAgent p.ctx h) p.ctx v .store k
      set r.2 { p with fault := some r.1, code := k }

/-- The carter of a hamlet may move a frame: its parish is not gated (R384), and no supply warning has stopped its region (R365). -/
def State.spillRuns (s : State) (h : Nat) : Bool :=
  !s.greenGated h && !(match s.regionOf h with | some (_, r) => r.frozen | none => false)

/-- SPILL_GRANULE (R371, R372, R388): one 4 KiB granule of a parked slot goes to the save area; one with a line that cannot be corrected
stops the spill. -/
def execSpillGranule (h : Nat) (s : State) : Out' :=
  match (s.ham h).spill with
  | none => .next s
  | some p =>
    if p.stopped || p.fault.isSome || !s.spillRuns h || decide (64 + slotBytes ≤ p.off) then .next s
    else
      let line := (p.off - 64) / 256
      let s1 := s.readLines h p.slot line 16
      if (((s.ham h).slot p.slot).bad.any fun l => decide (line ≤ l ∧ l < line + 16)) then
        .next ((s1.setHam h { s1.ham h with spill := some { p with stopped := true } }).spillEvent h p 3)
      else
      let b := (List.range 4096).map fun i => Config.spillBody ((s.ham h).slot p.slot).snap.hdr.seq (p.off + i)
      .next (s1.spillWrite h p p.off b fun t => t.setHam h { t.ham h with spill := some { p with off := p.off + 4096 } })

/-- SPILL_HEADER_WRITE (R371): the frame header is written last; then the slot is freed. -/
def execSpillHeaderWrite (h : Nat) (s : State) : Out' :=
  match (s.ham h).spill with
  | none => .next s
  | some p =>
    if p.stopped || p.fault.isSome || !s.spillRuns h || decide (p.off < 64 + slotBytes) then .next s
    else
      let snap := ((s.ham h).slot p.slot).snap
      .next (s.spillWrite h p 0 snap.hdr.bytes64 fun t =>
        let x := t.ham h
        t.setHam h { (x.setSlot p.slot {}) with
          spill := none, frames := x.frames ++ [{ ctx := p.ctx, slot := p.slot, seq := snap.hdr.seq, snap := snap }] })

/-- The 64 bytes of a frame header are valid for a context and carry a number (R363, R373). -/
def frameValid (b : List Byte) (c seq : Nat) : Bool :=
  let f (o n : Nat) : Nat := leNat ((b.drop o).take n)
  decide (f 0 4 = 0x57444853 ∧ f 4 1 = 1 ∧ f 5 1 % 2 = 1 ∧ f 6 1 = c ∧ f 8 8 = seq) && decide (f 56 4 = crc32c (b.take 56))

/-- A record whose frame cannot be restored: its gang is dissolved and what the hamlets keep for it given up, and the record is counted as
rejected, logged and reported (R373). -/
def State.rejectPlaced (s : State) (h : Nat) : State :=
  match s.regionOf h with
  | none => s
  | some (f, r) =>
    match r.task with
    | none => s
    | some t =>
      let g := s.gangOf f
      let hs := g.flatMap fun k => (s.region k).hamlets k
      let s1 := hs.foldl (fun (u : State) k => u.setHam k ((u.ham k).forget r.ctx)) (g.foldl (fun (u : State) k => u.freeRegion k) s)
      let x := s1.queue t.queue
      ((s1.setQueue t.queue { x with rejected := sat32 x.rejected 1 }).logRecord t.queue t.record r.ctx).event r.ctx
        { va := t.record, cause := 3, agent := 3 }

/-- A read-back goes on with a frame replaced, or with the frame gone. -/
def State.setFrame (s : State) (h : Nat) (f : Frame) (g : Option Frame) : State :=
  let y := s.ham h
  s.setHam h { y with frames := (y.frames.filter fun k => decide (k ≠ f)) ++ g.toList }

/-- A slot taken for a read-back, which it fills (R373). -/
def State.fillSlot (s : State) (h k ctx : Nat) (p : Snap) : State := s.setHam h ((s.ham h).setSlot k { use := .parked s.cycle, ctx := ctx, snap := p })

/-- SPILL_READ_BACK (R373, R388): the carter reads the frame of a spilled context, its header first, then a granule at a time, into a slot
that no context occupies. An error response stops it, and the slot stays occupied. -/
def execSpillReadBack (h ctx : Nat) (s : State) : Out' :=
  let x := s.ham h
  match x.frames.find? fun f => decide (f.ctx = ctx) && (match s.regionOf h with | some (_, r) => r.placed && r.resume && f.isOf r | none => false) with
  | none => .next s
  | some f =>
    if !s.spillRuns h || f.fault.isSome || f.stopped then .next s
    else
      let a := spillAgent ctx h
      let at' := s.frameAddr ctx h f.slot + f.off
      let n := if f.off = 0 then 64 else 4096
      match s.copyRead a ctx (pagePieces at' n) [] with
      | .wait t => .next t
      | .err t => .next ((t.setFrame h f (some { f with stopped := true })).spillEvent h f.asSpill 3)
      | .fault v k t => let r := t.reportFault a ctx v .load k; .next (r.2.setFrame h f (some { f with fault := some r.1, code := k }))
      | .ok b t =>
        if f.off = 0 then
          if frameValid b ctx f.seq then
            match (t.ham h).openSlots with
            | [] => .next t
            | k :: _ => .next ((t.setFrame h f (some { f with off := 64, fills := some k })).fillSlot h k ctx {})
          else .next ((t.setFrame h f none).rejectPlaced h)
        else if f.off + 4096 < 64 + slotBytes then .next (t.setFrame h f (some { f with off := f.off + 4096 }))
        else .next ((t.setFrame h f none).fillSlot h (f.fills.getD 0) ctx f.snap)

/-! ### Energy (R374, R375) -/

/-- The share of hamlet i of a parish in the energy that its regulator reports (R374): an eighth of the static part, and of the dynamic
part as much as its activity count has of the parish's. A share that is no whole number of µJ takes a free value of 0 or 1 µJ beyond its
whole part, and where every count is 0 a free part of the dynamic energy (log entries 11 and 37). -/
def energyShare (r : EnergyReport) (i : Nat) (s : State) : Nat × State :=
  let total := ((List.range 8).map fun k => r.activity.getD k 0).sum
  let num := r.still * total + 8 * r.dynamic * r.activity.getD i 0
  let f := s.takeFree
  if total = 0 then (r.still / 8 + f.1.toNat % (r.dynamic + 2), f.2)
  else if num % (8 * total) = 0 then (num / (8 * total), s)
  else (num / (8 * total) + f.1.toNat % 2, f.2)

/-- Energy charged to the context that holds a hamlet (R374); one that is not metered is not charged (R375). -/
def State.charge (s : State) (h e : Nat) : State :=
  match (s.ham h).ctx with
  | some c =>
    if s.refillOf c = 0 then s
    else { s with market := { s.market with balance := Tab.put s.market.balance c (Tab.get s.market.balance 0 c - Int.ofNat e) } }
  | none => s

/-- The energy that the regulator of a parish reports, charged to its hamlets (R374). -/
def State.chargeParish (s : State) (p : Nat) (r : EnergyReport) : State :=
  (List.range 8).foldl (fun (t : State) i => let x := energyShare r i t; x.2.charge (8 * p + i) x.1) s

/-- The contexts with no energy left are pre-empted (R374). -/
def State.preemptSpent (s : State) : State :=
  (s.regions.map fun p => p.1).foldl (fun (t : State) f =>
    let c := (t.region f).ctx
    if t.refillOf c ≠ 0 ∧ Tab.get t.market.balance 0 c ≤ 0 then t.preempt f else t) s

/-- ENERGY_UPDATE (R374): the reports of the parishes' regulators, by parish number, are charged at the end of their 1 µs interval; a
context whose balance is then 0 or below is pre-empted. -/
def execEnergyUpdate (reports : List EnergyReport) (s : State) : Out' :=
  if (s.cycle + 1) % 1100 ≠ 0 then .next { s with again := true }
  else .next ((reports.zipIdx).foldl (fun (t : State) p => t.chargeParish p.2 p.1) s).preemptSpent

/-- QUOTA_REFILL (R375): at a refill period boundary the balance takes one refill, up to one refill. -/
def execQuotaRefill (ctx : Nat) (s : State) : Out' :=
  let r := Int.ofNat (s.refillOf ctx)
  let b := Tab.get s.market.balance 0 ctx
  if s.refillOf ctx = 0 then .next s
  else .next { s with market := { s.market with balance := Tab.put s.market.balance ctx (min (b + r) r) } }

/-- The CSR quota of a context (R225, R375). -/
def State.quota (s : State) (c : Nat) : W64 :=
  if s.refillOf c = 0 then 0x7FFFFFFFFFFFFFFF else BitVec.ofInt 64 (Tab.get s.market.balance 0 c)

end Sys2Proof.Machine
end

