-- ==== Sys2Proof/Machine/Queues.lean ====
section
/-! DEFINITION. The market ring and its queue commands (R326, R327, R330), command blocks and their chains (R329, R331 to R335). -/
namespace Sys2Proof.Machine
open Sys2Proof

/-! ### The rings (R326) -/

/-- The head and the tail in the first 16 bytes of a command ring; a tail more than 126 ahead is read as head + 126 (R326). -/
def ringEnds (b : List Byte) : Nat × Nat :=
  let head := leNat ((b.drop 8).take 8)
  (head, Nat.min (leNat (b.take 8)) (head + 126))
/-- A ring's tail read by its reader: whether commands stand before it; the read waits at its stack (R326, R380). A ring whose first sector
cannot be read has none (log entry 62). -/
def State.ringWaits (s : State) (a : Agent) (base : Nat) : MemRes Bool :=
  if s.devWaits base 4096 then .wait s else
  match s.readPhys a base 16 with
  | .wait t => .wait t
  | .err t => .ok false t
  | .ok b t => .ok (decide ((ringEnds b).1 < (ringEnds b).2)) t

/-- What the reader of a ring finds at its head: no command, a wait, one that cannot be read, or a command's four doublewords. -/
inductive RingRes where
  | empty (s : State)
  | wait (s : State)
  | bad (s : State)
  | cmd (w : W64 × W64 × W64 × W64) (s : State)

/-- The command at the head of a ring, once the status and head of the one before it stand in it (R326, R327, R380). -/
def State.ringNext (s : State) (a : Agent) (base : Nat) : RingRes :=
  if s.devWaits base 4096 then .wait s else
  match s.readPhys a base 16 with
  | .wait t => .wait t
  | .err t => .empty t
  | .ok b t =>
    let r := ringEnds b
    if r.2 ≤ r.1 then .empty t
    else
      match t.readPhys a (base + 64 + 32 * (r.1 % 126)) 32 with
      | .wait u => .wait u
      | .err u => .bad u
      | .ok e u =>
        let w (k : Nat) : W64 := BitVec.ofNat 64 (leNat ((e.drop (8 * k)).take 8))
        .cmd (w 0, w 1, w 2, w 3) u

/-- The status of the queue command at the ring's head is written, and then head (R326). -/
def State.endQueue (s : State) (status : Nat) : State :=
  let t := s.endCommand marketAgent s.boot.mktRing.toNat status
  { t with market := { t.market with ringFault := none } }

/-- The poll of one of the market's rings: the tail is read, and where commands stand before it, the one at the head is performed next. -/
def State.pollRing (s : State) (base : Nat) (x : Turn) : State :=
  if !s.boot.go then s
  else
    match s.ringWaits marketAgent base with
    | .wait t => t
    | .err t => t
    | .ok stand t => if stand then { t with agenda := t.agenda ++ [x] } else t

/-- MARKET_RING_POLL (R326). -/
def execMarketRingPoll (s : State) : Out' := .next (s.pollRing s.boot.mktRing.toNat .queueCmd)

/-! ### Queue commands (R327, R330) -/

/-- A queue command performed before GO does nothing (R401). -/
def State.command (s : State) (f : State → State) : Out' := .next (if s.boot.go then f s else s)

/-- QUEUE_NOP (R327): no operand and no queue is named. One that has an operand ends with status 3 (DESIGN CHOICE, log entry 80). -/
def execQueueNop (c : QCmd) (s : State) : Out' :=
  s.command fun s => s.endQueue (if c.queue ≠ 0 ∨ c.a ≠ 0 ∨ c.b ≠ 0 ∨ c.c ≠ 0 then 3 else 0)

/-- The descriptor that QCONF writes, if its fields are in range (R330). -/
def qconfOf (a b c : W64) : Option MQ :=
  let f (lo n : Nat) : Nat := b.toNat / 2 ^ lo % 2 ^ n
  if a.toNat % 4096 ≠ 0 ∨ 0x8000000000 ≤ a.toNat ∨ f 0 5 < 6 ∨ 20 < f 0 5 ∨ f 5 3 ≠ 0 ∨ f 14 2 ≠ 0 ∨ f 19 1 ≠ 0 ∨ f 20 4 = 0 ∨ f 26 38 ≠ 0 ∨
      c ≠ 0 then none
  else some { conf := true, ring := a, log2 := f 0 5, ctx := f 8 6, prio := f 16 3, weight := f 20 4, preempt := b.getLsbD 24, en := b.getLsbD 25 }

/-- QCONF (R330): the descriptor is written, empty and unstopped; status 9 unless the queue is empty and stopped, or disabled. The
counters of R318 go on. -/
def execQconf (c : QCmd) (s : State) : Out' :=
  s.command fun s =>
    let q := c.queue.toNat
    let x := s.queue q
    if x.en ∧ ¬(x.ents.isEmpty ∧ x.stopped) then s.endQueue 9
    else
      match qconfOf c.a c.b c.c with
      | none => s.endQueue 3
      | some y => (s.setQueue q { y with popped := x.popped, rejected := x.rejected }).endQueue 0

/-- A read of the ring's command that faulted: it waits for its answer (R330, R349). One for a context that is being killed ends as refused,
as its fault ids are dropped (R397; log entry 38). -/
def State.ringWait (s : State) (c v : Nat) (code : Nat) : State :=
  if s.market.killing.contains c then s.endQueue 5
  else
  let r := s.reportFault marketAgent c v .load code
  { r.2 with market := { r.2.market with ringFault := some (c, r.1, false) } }

/-- A command whose read waits on a fault: refused, it ends with status 5; while it waits, nothing happens. -/
def State.afterFault (s : State) (f : State → State) : State :=
  match s.market.ringFault with
  | some (_, _, true) => s.endQueue 5
  | some (_, _, false) => s
  | none => f s

/-- QPUSH (R317, R330): the record is pushed in the context of the queue named. -/
def execQpush (c : QCmd) (s : State) : Out' :=
  s.command fun s => s.afterFault fun s =>
    let x := s.queue c.queue.toNat
    if c.b ≠ 0 ∨ c.c ≠ 0 then s.endQueue 3
    else if !x.conf then s.endQueue 9
    else if c.a.extractLsb' 0 6 ≠ 0 then s.endQueue 4
    else
      match s.needDesc x.ctx with
      | .wait t => t
      | .err t => t.endQueue 5
      | .ok _ t =>
        match t.pushRecord marketAgent x.ctx c.a with
        | .pushed t => t.endQueue 0
        | .full t => t.endQueue 6
        | .otherCtx t => t.endQueue 8
        | .err t => t.endQueue 5
        | .fault k t => t.ringWait x.ctx (c.a.toNat + 20) k
        | .wait t => t

/-- QSTOP (R330). -/
def execQstop (c : QCmd) (s : State) : Out' :=
  s.command fun s =>
    if c.a ≠ 0 ∨ c.b ≠ 0 ∨ c.c ≠ 0 then s.endQueue 3
    else (s.setQueue c.queue.toNat { s.queue c.queue.toNat with stopped := true }).endQueue 0
/-- QSTART (R330). -/
def execQstart (c : QCmd) (s : State) : Out' :=
  s.command fun s =>
    if c.a ≠ 0 ∨ c.b ≠ 0 ∨ c.c ≠ 0 then s.endQueue 3
    else (s.setQueue c.queue.toNat { s.queue c.queue.toNat with stopped := false }).endQueue 0

/-- QCHAIN (R330, R331): a chain submitted for a context; its first block may be of any kind. -/
def execQchain (c : QCmd) (s : State) : Out' :=
  s.command fun s => s.afterFault fun s =>
    let ctx := c.b.toNat % 64
    if c.queue ≠ 0 ∨ 64 ≤ c.b.toNat ∨ c.c ≠ 0 then s.endQueue 3
    else if c.a.extractLsb' 0 6 ≠ 0 then s.endQueue 4
    else
      match s.needDesc ctx with
      | .wait t => t
      | .err t => t.endQueue 5
      | .ok _ t =>
        match t.readVirt marketAgent ctx c.a.toNat 16 with
        | .wait t => t
        | .err t => t.endQueue 5
        | .fault k t => t.ringWait ctx c.a.toNat k
        | .ok b t =>
          let cause := t.submitCause ctx none b
          (if cause = 0 then t.startChain ctx c.a else t).endQueue cause

/-- QEXPERT (R328, R330): the entry is written and its count zeroed. A misaligned replication record ends it with status 3 (DESIGN CHOICE, log
entry 80). -/
def execQexpert (c : QCmd) (s : State) : Out' :=
  s.command fun s =>
    let f (lo n : Nat) : Nat := c.a.toNat / 2 ^ lo % 2 ^ n
    if c.queue ≠ 0 ∨ f 8 8 ≠ 0 ∨ f 48 16 = 0 ∨ c.b.extractLsb' 0 6 ≠ 0 ∨ c.c ≠ 0 then s.endQueue 3
    else
      let x : Expert := { id := BitVec.ofNat 16 (f 16 16), threshold := BitVec.ofNat 16 (f 32 16), window := BitVec.ofNat 16 (f 48 16),
                          record := c.b, start := s.cycle }
      ({ s with market := { s.market with experts := Tab.put s.market.experts (f 0 8) x } } : State).endQueue 0

/-! ### Chains (R329, R331) -/

/-- Chain k. -/
def State.chainOf (s : State) (k : Nat) : Option Chain := s.market.chains.find? fun x => decide (x.id = k)
/-- The state with a chain replaced. -/
def State.setChain (s : State) (x : Chain) : State :=
  { s with market := { s.market with chains := s.market.chains.map fun (y : Chain) => if y.id = x.id then x else y } }
/-- The chain is over. -/
def State.dropChain (s : State) (k : Nat) : State :=
  { s with market := { s.market with chains := s.market.chains.filter fun y => decide (y.id ≠ k) } }

/-- A cause that ends its chain (R331). -/
def endsChain (cause : Nat) : Bool := decide ((1 ≤ cause ∧ cause ≤ 6) ∨ cause = 8)

/-- The block of a chain ends with a cause: its status is written, last; then the chain follows next, or is over (R329, R331). A status
that cannot be written waits on its fault; where the write gets an error response, the block has ended with cause 5, and the chain with it. -/
def State.endBlock (s : State) (x : Chain) (next : W64) (cause : Nat) : State :=
  let follow (t : State) : State :=
    if endsChain cause ∨ next = 0 then t.dropChain x.id
    else t.setChain { id := x.id, ctx := x.ctx, cur := next }
  if x.mute then follow s
  else match s.translate marketAgent x.ctx (x.cur.toNat + 4) .store with
  | .wait t => t.setChain { x with ended := some cause }
  | .err t => t.dropChain x.id
  | .fault k t =>
    let r := t.reportFault marketAgent x.ctx (x.cur.toNat + 4) .store k
    r.2.setChain { x with ended := some cause, fault := some r.1 }
  | .ok pa t =>
    if t.channelAfter pa then t.setChain { x with ended := some cause }
    else
      match t.writeBytesPhys marketAgent false pa (leBytes 4 cause) with
      | .ok _ u => follow u
      | .wait u => u.setChain { x with ended := some cause }
      | .err u => u.dropChain x.id

/-- The block of a chain waits on a translation fault (R331). -/
def State.chainFault (s : State) (x : Chain) (v : Nat) (w : Want) (code : Nat) : State :=
  let r := s.reportFault marketAgent x.ctx v w code
  r.2.setChain { x with fault := some r.1 }

/-- A block's common part holds for every kind: the chain exists, is not waiting, and has not ended its block. The body gives its
state. -/
def State.block (s : State) (k : Nat) (b : Block) (f : Chain → State → State) : Out' :=
  match s.chainOf k with
  | none => .next s
  | some x =>
    if !s.boot.go || x.fault.isSome then .next s
    else
      match x.ended with
      | some c => .next (s.endBlock x b.next c)
      | none => .next (f x s)

/-- The low n bytes of a payload doubleword are the only ones that may be non-zero. -/
def onlyLow (v : W64) (n : Nat) : Bool := decide (v.toNat < 2 ^ (8 * n))

/-- The queue that record i of an array is pushed to, read in order (R317, R331). -/
inductive PickRes where
  | ok (qs : List (Nat × W64)) (s : State)
  | ends (cause : Nat) (s : State)
  | fault (v code : Nat) (s : State)
  | wait (s : State)

/-- The records of an array from i on, `left` of them, each with its queue. -/
def State.pickQueues (s : State) (c base : Nat) : Nat → Nat → List (Nat × W64) → PickRes
  | 0, _, acc => .ok acc s
  | left + 1, i, acc =>
    let v := (base + 64 * i) % 2 ^ 64
    match s.readVirt marketAgent c (v + 20) 2 with
    | .wait t => .wait t
    | .err t => .ends 5 t
    | .fault k t => .fault (v + 20) k t
    | .ok b t =>
      let w := leNat b
      if w % 64 ≠ c then .ends 8 t
      else
        match t.selectQueue c (w / 256 % 8) with
        | none => .ends 6 t
        | some q => State.pickQueues t c base left (i + 1) (acc ++ [(q, BitVec.ofNat 64 v)])

/-- Records pushed in array order, or none when a ring lacks room for all of them (R331, R332); or the records as one gang (R333). -/
def State.pushArray (s : State) (x : Chain) (next base : W64) (n : Nat) (gang : Bool) (cause : Nat) : State :=
  if base.extractLsb' 0 6 ≠ 0 then s.endBlock x next 3
  else
    match s.pickQueues x.ctx base.toNat n 0 [] with
    | .wait t => t
    | .ends k t => t.endBlock x next k
    | .fault v k t => t.chainFault x v .load k
    | .ok l t =>
      match gang, l with
      | true, (q, v) :: _ =>
        if (t.queue q).lacks 1 then t.endBlock x next 6
        else (t.append q { addr := v, pushed := t.cycle, ctx := x.ctx, gang := some (l.map fun p => p.2) }).endBlock x next cause
      | _, _ =>
        if (List.range 64).any fun q => (t.queue q).lacks (l.filter fun p => decide (p.1 = q)).length && l.any fun p => decide (p.1 = q) then
          t.endBlock x next 6
        else
          (l.foldl (fun (u : State) p => u.append p.1 { addr := p.2, pushed := u.cycle, ctx := x.ctx }) t).endBlock x next cause

/-- LAUNCH_BLOCK (R331, R332). -/
def execLaunchBlock (k : Nat) (b : Block) (s : State) : Out' :=
  s.block k b fun x s =>
    if 65535 < b.p24.toNat ∨ b.p32 ≠ 0 ∨ b.p40 ≠ 0 ∨ b.p48 ≠ 0 ∨ b.p56 ≠ 0 then s.endBlock x b.next 3
    else s.pushArray x b.next b.p16 b.p24.toNat false 0

/-- GANG_BLOCK (R331, R333). -/
def execGangBlock (k : Nat) (b : Block) (s : State) : Out' :=
  s.block k b fun x s =>
    if b.p24 = 0 ∨ 256 < b.p24.toNat ∨ b.p32 ≠ 0 ∨ b.p40 ≠ 0 ∨ b.p48 ≠ 0 ∨ b.p56 ≠ 0 then s.endBlock x b.next 3
    else s.pushArray x b.next b.p16 b.p24.toNat true 0

/-- A chain's read of a barrier's word 0: the generation, or what the block comes to (R331). -/
def State.chainGen (s : State) (x : Chain) (next bar : W64) (go : Nat → State → State) : State :=
  match s.readVirt marketAgent x.ctx bar.toNat 8 with
  | .wait t => t
  | .err t => t.endBlock x next 5
  | .fault k t => t.chainFault x bar.toNat .load k
  | .ok w t => go (leNat w / 2 ^ 32 % 2 ^ 16) t

/-- The records of a LAUNCHI pushed; a count above the capacity is clamped (R331, R335). A capacity above 65,535 stands (DESIGN CHOICE, log
entry 80). -/
def State.launchPush (s : State) (x : Chain) (b : Block) (n : Nat) : State :=
  s.pushArray x b.next b.p16 (Nat.min n b.p24.toNat) false (if b.p24.toNat < n then 7 else 0)

/-- The count word of a LAUNCHI read by its one acquire, and its records pushed (R331, R335). -/
def State.launchCount (s : State) (x : Chain) (b : Block) : State :=
  match s.readVirt marketAgent x.ctx b.p32.toNat 8 with
  | .wait t => t
  | .err t => t.endBlock x b.next 5
  | .fault k t => t.chainFault x b.p32.toNat .load k
  | .ok w t =>
    let n := leNat w % 2 ^ 32
    let y := { x with ready := true, count := some n }
    (t.setChain y).launchPush y b n

/-- LAUNCHI_BLOCK (R331, R335): waits for the dependence, reads the count, and pushes as LAUNCH; once the dependence has shown it is not
tested again, and once the count is read it is not read again. -/
def execLaunchiBlock (k : Nat) (b : Block) (s : State) : Out' :=
  s.block k b fun x s =>
    if !onlyLow b.p24 4 || b.p32.extractLsb' 0 3 != 0 || b.p40.extractLsb' 0 5 != 0 || !onlyLow b.p48 2 || b.p56 != 0 then
      s.endBlock x b.next 3
    else
      match x.count with
      | some n => s.launchPush x b n
      | none =>
        if b.p40 = 0 ∨ x.ready = true then s.launchCount x b
        else s.chainGen x b.next b.p40 fun g t =>
          let y := { x with ready := true }
          if g = b.p48.toNat then t else (t.setChain y).launchCount y b

/-- COPY_BLOCK (R250, R331): bytes copied on the market's copy channel, a granule at a time; it ends when its completion update is
made. -/
def execCopyBlock (k : Nat) (b : Block) (s : State) : Out' :=
  s.block k b fun x s =>
    match x.copy with
    | none =>
      if b.p48 ≠ 0 ∨ b.p56 ≠ 0 ∨ 2 ^ 40 ≤ b.p32.toNat ∨ b.p40.extractLsb' 0 5 ≠ 0 then s.endBlock x b.next 3
      else
        let cmd : CopyCmd := { src := b.p16, dst := b.p24, size := b.p32.toNat, comp := b.p40, acq := b.flags.getLsbD 0,
                               rel := b.flags.getLsbD 1, scope := b.flags.extractLsb' 2 3 }
        s.setChain { x with copy := some { cmd := cmd, finished := decide (b.p32 = 0) } }
    | some r =>
      if r.fault.isSome then s
      else if !r.finished then
        match s.granuleStep marketAgent x.ctx r (fun _ _ => false) State.channelAfter with
        | .next y t => t.setChain { x with copy := some y }
        | .wait t => t
        | .cut t => t
      else if r.cmd.comp = 0 then s.endBlock x b.next 0
      else
        let w := s.owedBarrier marketAgent x.ctx r.cmd.comp false (-(BitVec.ofNat 64 r.cmd.size)) r.errs
        if w.2.1 then w.2.2.endBlock { x with copy := none } b.next 0
        else w.2.2.setChain { x with copy := some { r with fault := w.1 } }

/-- An atomic update of a barrier by a chain: its answer ends the block (R331). -/
def State.chainAtomic (s : State) (x : Chain) (next bar : W64) (f : Nat → State → MemRes Unit) : State :=
  match s.translate marketAgent x.ctx bar.toNat .atomic with
  | .wait t => t
  | .err t => t.endBlock x next 5
  | .fault k t => t.chainFault x bar.toNat .atomic k
  | .ok pa t =>
    if t.channelAfter pa then t
    else
    match f pa t with
    | .ok _ u => u.endBlock x next 0
    | .wait u => u
    | .err u => u.endBlock x next 5

/-- BINIT_BLOCK (R251, R331). -/
def execBinitBlock (k : Nat) (b : Block) (s : State) : Out' :=
  s.block k b fun x s =>
    if b.p16.extractLsb' 0 5 ≠ 0 ∨ b.p24 = 0 ∨ 65535 < b.p24.toNat ∨ b.p40 ≠ 0 ∨ b.p48 ≠ 0 ∨ b.p56 ≠ 0 then s.endBlock x b.next 3
    else s.chainAtomic x b.next b.p16 fun pa t =>
      (t.atomicPhys marketAgent pa 32 (.binit b.p24 b.p32) fun _ =>
        some (Bar.toBytes { gen := 0, arrived := 0, expected := b.p24.toNat, count := 0, status := 0, link := b.p32 })).map fun _ => ()

/-- SIGNAL (R251, R331): an arrival with a byte count. -/
def execSignal (k : Nat) (b : Block) (s : State) : Out' :=
  s.block k b fun x s =>
    if b.p16.extractLsb' 0 5 ≠ 0 ∨ b.p32 ≠ 0 ∨ b.p40 ≠ 0 ∨ b.p48 ≠ 0 ∨ b.p56 ≠ 0 then s.endBlock x b.next 3
    else s.chainAtomic x b.next b.p16 fun pa t => (t.barrierPhys marketAgent (some x.ctx) pa true b.p24 0).map fun _ => ()

/-- WAITB (R251, R331): waits until the barrier's generation is another. -/
def execWaitb (k : Nat) (b : Block) (s : State) : Out' :=
  s.block k b fun x s =>
    if b.p16.extractLsb' 0 5 ≠ 0 ∨ !onlyLow b.p24 2 ∨ b.p32 ≠ 0 ∨ b.p40 ≠ 0 ∨ b.p48 ≠ 0 ∨ b.p56 ≠ 0 then s.endBlock x b.next 3
    else s.chainGen x b.next b.p16 fun g t => if g = b.p24.toNat then t else t.endBlock x b.next 0

/-- STAGE (R331, R334): up to four image addresses are attached to the record it names, in place of what an earlier STAGE attached to it (DESIGN
CHOICE, log entry 80). -/
def execStage (k : Nat) (b : Block) (s : State) : Out' :=
  s.block k b fun x s =>
    if b.p16.extractLsb' 0 6 ≠ 0 ∨ b.p56 ≠ 0 then s.endBlock x b.next 3
    else
      let keep := s.market.staged.filter fun y => !decide (y.1 = x.ctx ∧ y.2.1 = b.p16)
      ({ s with market := { s.market with staged := keep ++ [(x.ctx, b.p16, [b.p24, b.p32, b.p40, b.p48])] } } : State).endBlock x b.next 0

/-- PERSIST (R331): a cut of every held-mode region of the context, as PFENCE asks for it; it ends when all are complete. -/
def execPersist (k : Nat) (b : Block) (s : State) : Out' :=
  s.block k b fun x s =>
    if b.p16 ≠ 0 ∨ b.p24 ≠ 0 ∨ b.p32 ≠ 0 ∨ b.p40 ≠ 0 ∨ b.p48 ≠ 0 ∨ b.p56 ≠ 0 then s.endBlock x b.next 3
    else
      match x.persist with
      | none =>
        let fs := (s.regionsOf x.ctx).filter fun f => s.heldMode f
        let waits := fs.map fun f => (f, (s.region f).coverCut (s.ham f).capR.isSome)
        (fs.foldl (fun (t : State) f => t.askCut f (t.ham f).capR.isSome) s).setChain { x with persist := some waits }
      | some l =>
        if l.all fun p => decide (p.2 < (s.ham p.1).cutSeq) || !s.heldMode p.1 then s.endBlock x b.next 0 else s

/-- FENCE_BLOCK (R331): acquire or release of the chain, with no access of its own. -/
def execFenceBlock (k : Nat) (b : Block) (s : State) : Out' :=
  s.block k b fun x s =>
    if b.p16 ≠ 0 ∨ b.p24 ≠ 0 ∨ b.p32 ≠ 0 ∨ b.p40 ≠ 0 ∨ b.p48 ≠ 0 ∨ b.p56 ≠ 0 then s.endBlock x b.next 3
    else s.endBlock x b.next 0

/-- A block from its 64 bytes (R329). -/
def blockOfBytes (a : W64) (l : List Byte) : Block :=
  let f (o n : Nat) : Nat := leNat ((l.drop o).take n)
  let w (o : Nat) : W64 := BitVec.ofNat 64 (f o 8)
  { addr := a, flags := BitVec.ofNat 16 (f 2 2), next := w 8, p16 := w 16, p24 := w 24, p32 := w 32, p40 := w 40, p48 := w 48, p56 := w 56 }

/-- The read of a chain's next block, and its common checks (R329, R331). A bad block ends the chain with its cause. -/
def State.fetchBlock (s : State) (x : Chain) : State :=
  match s.readVirt marketAgent x.ctx x.cur.toNat 64 with
  | .wait t => t
  | .err t => t.endBlock x 0 5
  | .fault k t => t.chainFault x x.cur.toNat .load k
  | .ok l t =>
    let f (o n : Nat) : Nat := leNat ((l.drop o).take n)
    let cause := blockHeadCause (BitVec.ofNat 8 (f 0 1)) (BitVec.ofNat 8 (f 1 1)) (BitVec.ofNat 16 (f 2 2)) (BitVec.ofNat 64 (f 8 8))
    if cause ≠ 0 then t.endBlock x 0 cause else t.setChain { x with body := some l }

/-- The block that a chain is at, as an instruction; none where it has yet to be read. -/
def State.chainInstr (s : State) (k : Nat) : Option Instr :=
  match s.chainOf k with
  | none => none
  | some x => x.body.bind fun l => blockOp (leNat (l.take 1)) k (blockOfBytes x.cur l)
/-- A chain reads its next block where it has none. -/
def State.chainFetch (s : State) (k : Nat) : State :=
  match s.chainOf k with
  | none => s
  | some x =>
    if x.fault.isSome || x.body.isSome || !s.boot.go then s
    else
      match x.ended with
      | some c => s.endBlock x 0 c
      | none => s.fetchBlock x

/-! ### Translation commands (R347, R348, R352, R353) -/

/-- TRANSLATION_RING_POLL (R347). -/
def execTranslationRingPoll (s : State) : Out' := .next (s.pollRing s.boot.xlRing.toNat .xlatCmd)

/-- XLATE_NOP (R347). -/
def execXlateNop (c : XCmd) (s : State) : Out' :=
  s.command fun s => s.endXlat (if c.a ≠ 0 ∨ c.b ≠ 0 ∨ c.c ≠ 0 then 3 else 0)

/-- An invalidation: the entries are dropped, and it ends when every access translated before has been performed (R348). -/
def State.invalidate (s : State) (c : Nat) (f : Tlb → Bool) (fin : State → State) : State :=
  match s.market.invWait with
  | none =>
    let t := (s.dropTlb fun e => decide (e.ctx = c) && f e).markOld c false
    (match t.market.invWait with
     | some w => if t.oldDone w then fin t else t
     | none => t)
  | some w => if w.kill || !s.oldDone w then s else fin (s.dropTlb fun e => decide (e.ctx = c) && f e)

/-- INVVA (R347, R348). -/
def execInvva (c : XCmd) (s : State) : Out' :=
  s.command fun s =>
    let lo := c.a.toNat
    let hi := lo + 4096 * c.b.toNat
    if lo % 4096 ≠ 0 ∨ c.b = 0 ∨ 2 ^ 20 < c.b.toNat ∨ 2 ^ 17 ≤ c.c.toNat then s.endXlat 3
    else s.invalidate c.ctx.toNat
      (fun e => decide (e.va < hi ∧ lo < e.va + e.size) && (e.glob || c.c.getLsbD 16 || decide (e.asid = c.c.toNat % 2 ^ 16))) fun t => t.endXlat 0

/-- INVASID (R347, R348). -/
def execInvasid (c : XCmd) (s : State) : Out' :=
  s.command fun s =>
    if c.a ≠ 0 ∨ c.b ≠ 0 ∨ 2 ^ 16 ≤ c.c.toNat then s.endXlat 3
    else s.invalidate c.ctx.toNat (fun e => e.glob || decide (e.asid = c.c.toNat)) fun t => t.endXlat 0

/-- Every stopped spill and read-back of a context starts again from its recorded offset (R372). -/
def State.restartSpills (s : State) (c : Nat) : State :=
  { s with hamlets := s.hamlets.map fun (p : Nat × Hamlet) =>
      (p.1, { p.2 with
        spill := p.2.spill.map fun x => if x.ctx = c then { x with stopped := false } else x
        frames := p.2.frames.map fun f => if f.ctx = c then { f with stopped := false } else f }) }

/-- INVCTX (R347, R397): every entry of the context is dropped and its descriptor read again; an invalid one kills the context, and the
command completes with the kill. With a valid one it ends as every invalidation does (R348). -/
def execInvctx (c : XCmd) (s : State) : Out' :=
  s.command fun s =>
    let k := c.ctx.toNat
    if c.a ≠ 0 ∨ c.b ≠ 0 ∨ c.c ≠ 0 then s.endXlat 3
    else if s.market.invWait.isSome then s.invalidate k (fun _ => true) fun t => t.endXlat 0
    else
      match ((s.dropTlb fun e => decide (e.ctx = k)).dropRanges k).readDesc k with
      | .wait t => t
      | .ok _ t => (t.restartSpills k).invalidate k (fun _ => true) fun t => t.endXlat 0
      | .err t =>
        let u := t.killContext k false
        { u with market := { u.market with invWait := some { ctx := k, held := [], kill := true } } }

/-- RESOLVE (R352): the agents that wait on the fault walk again. -/
def execResolve (c : XCmd) (s : State) : Out' :=
  s.command fun s =>
    if c.b ≠ 0 ∨ c.c ≠ 0 ∨ 2 ^ 32 ≤ c.a.toNat then s.endXlat 3
    else if !s.faultOpen c.ctx.toNat c.a.toNat then s.endXlat 4
    else (s.answerFault c.ctx.toNat c.a.toNat true).endXlat 0
/-- REFUSE (R352): the waits on the fault end. -/
def execRefuse (c : XCmd) (s : State) : Out' :=
  s.command fun s =>
    if c.b ≠ 0 ∨ c.c ≠ 0 ∨ 2 ^ 32 ≤ c.a.toNat then s.endXlat 3
    else if !s.faultOpen c.ctx.toNat c.a.toNat then s.endXlat 4
    else (s.answerFault c.ctx.toNat c.a.toNat false).endXlat 0

/-- A reeve whose task is ended from outside: it issues nothing more; a request of it that waits for a cut, or for the answer to one, completes
where the region's held writes settle (R275, R353). -/
def Core.released (k : Core) (settles : Bool) : Core :=
  match settles, k.run with
  | true, .cutWait _ (.call _) | true, .heldWait _ _ => { k with offer := none }
  | _, _ => { k with run := .idle, offer := none }
/-- A hamlet whose task is ended from outside: its reeve issues nothing more, and its carter's commands are discarded, but for a copy that waits
for a cut in a region whose held writes settle (R275, R353). -/
def State.releaseHam (s : State) (h : Nat) : State :=
  let settles := s.heldMode h
  let cur := (s.ham h).carter.cur
  let kept := if settles && (s.ham h).copyHeld then cur else none
  let s1 := if kept.isSome then s.setHam h { s.ham h with carter := { (s.ham h).carter with cur := none } } else s
  let s2 := (s1.abandonCarter h).setCopy h kept
  s2.setCore (.reeve h) ((s2.ham h).reeve.released settles)

/-- The task of a region ended from outside: its reeves stop, its carters' commands are discarded, what is kept for a resume that has not
happened is given up, and its completions carry bit 4 (R353). What waits for a cut in a held-mode region is covered and sent first (R275). -/
def State.releaseTask (s : State) (f : Nat) : State :=
  let hs := (s.region f).hamlets f
  let s1 := hs.foldl (fun (t : State) h => t.releaseHam h) s
  let r := s1.region f
  let s2 := if r.resume then hs.foldl (fun (t : State) h => t.setHam h ((t.ham h).forget r.ctx)) s1 else s1
  s2.setRegion f { r with
    task := r.task.map fun t => { t with abandoned := true, ending := true }, pre := false, preCut := false, placed := false }

/-- A RELEASE has done what needs no further answer: the region is gone and its completion actions are made, or the context waits on a
translation fault, which a later command answers (R347, R353). -/
def State.releaseDone (s : State) (c f : Nat) : Bool :=
  (match (s.region f).task with
    | some t => !(t.abandoned && decide ((s.region f).ctx = c))
    | none => true) && !(s.market.owed.any fun o => decide (o.ctx = c ∧ o.e = 16)) || s.market.faults.any fun x => decide (x.ctx = c)

/-- RELEASE (R353): the task of the region of the hamlet named ends; the command ends when it has. -/
def execRelease (c : XCmd) (s : State) : Out' :=
  s.command fun s =>
    let k := c.ctx.toNat
    match s.market.invWait with
    | some w =>
      (match w.release with
       | some f => if s.releaseDone w.ctx f then s.endXlat 0 else s
       | none => s)
    | none =>
    if 256 ≤ c.a.toNat ∨ c.b ≠ 0 ∨ c.c ≠ 0 then s.endXlat 3
    else
      match s.readDesc k with
      | .wait d => d
      | .err d => d.endXlat 5
      | .ok _ d =>
      if (d.ham c.a.toNat).ctx ≠ some k then d.endXlat 5
      else
        match (d.ham c.a.toNat).region with
        | none => (d.freeHam c.a.toNat none).endXlat 0
        | some f =>
          let t := d.releaseTask f
          { t with market := { t.market with invWait := some { ctx := k, held := [], release := some f } } }

end Sys2Proof.Machine
end

