-- ==== Sys2Proof/Machine/Recover.lean ====
section
/-! DEFINITION. Supply warnings and power loss (R299, R365, R366, R377), uncorrectable hamlet state (R387), and the vertical bus
(R390, R391). -/
namespace Sys2Proof.Machine
open Sys2Proof

/-- The first hamlets of the regions that lie in a quadrant. -/
def State.quadRegions (s : State) (q : Nat) : List Nat := (s.regions.filter fun p => decide (quadOf p.1 = q)).map fun p => p.1

/-- A region stopped by a supply warning: its agents act no more, a cut in progress is abandoned and its bank stays invalid, and no
further held entry is sent (R365). -/
def State.freeze (s : State) (f : Nat) : State :=
  let s1 := s.eachHam f fun _ x =>
    { x with capR := none, capC := none, capE := [], capG := none, reeve := { x.reeve with evMark := none }
             elems := x.elems.map fun (p : Nat × Elem) => (p.1, p.2.purged) }
  let r := s1.region f
  let n := match r.cut with | some c => c.seq | none => r.nextSeq
  s1.setRegion f { r with frozen := true, cut := none, cutAgain := false, reload := false, nextSeq := n }

/-- Every hamlet of a quadrant loses or gets back its power. -/
def State.powerQuad (s : State) (q : Nat) (on : Bool) : State :=
  (List.range 32).foldl (fun (t : State) i => t.setHam (32 * q + i) { t.ham (32 * q + i) with powered := on }) s

/-- SUPPLY_WARNING (R365, R377): a regulator warns of its domain's failure. Domains 0 to 7 are the quadrant rails; 8 and 9 the granary
layers, 10 and 11 the shadow layers, 12 the manor, 13 to 20 the HBM rails and 21 and 22 the inputs of the dies: with one of these the
device is off. Before that, the release indexes are written past the held entries acknowledged by then (R365). -/
def execSupplyWarning (domain : Nat) (s : State) : Out' :=
  if domain < 8 then
    let s1 := (s.quadRegions domain).foldl (fun (t : State) f => t.freeze f) s
    .next { s1.powerQuad domain false with darkQuads := if s.darkQuads.contains domain then s.darkQuads else s.darkQuads ++ [domain] }
  else
    let s1 := (s.regions.map fun p => p.1).foldl (fun (t : State) f => t.freeze f) s
    let s2 := (s1.hamlets.map fun p => p.1).foldl (fun (t : State) h => t.ackAll h) s1
    .next { s2 with off := true }

/-- The requests of a region's SPEs that are lost with the power. -/
def State.loseRequests (s : State) (f : Nat) : State :=
  let hs := (s.region f).hamlets f
  { s with hamlets := s.hamlets.map fun (p : Nat × Hamlet) => (p.1,
      { p.2 with msgs := p.2.msgs.filter (fun r => !r.from hs), afterQ := p.2.afterQ.filter (fun r => !r.from hs)
                 defer := if hs.contains p.1 then p.2.defer else p.2.defer.map fun (d : Nat × List SpeReq) => (d.1, d.2.filter fun r => !r.from hs) }) }

/-- A region restored from its newest valid cut, or its context killed (R299, R366); the cut it resumes from. It acts again once its image is
read again. A region whose dispatch has yet to be made has nothing to restore; one whose context is killed is never resumed, and what its
elements and engines held is gone (R397). -/
def State.recover (s : State) (f : Nat) : Option Nat × State :=
  let r := s.region f
  if r.placed then (none, s.setRegion f { r with frozen := false })
  else if r.killed then
    (none, ((s.loseRequests f).eachHam f fun _ x =>
        { x with elems := [], carter := {}, held := [], reeve := { x.reeve with run := .idle, storeBuf := [] } }).setRegion f { r with frozen := false })
  else
  let s0 := (r.hamlets f).foldl (fun (t : State) h => t.readBanks h) s
  match s.commonCut f with
  | none => (none, s0.killContext r.ctx true)
  | some n =>
    if r.free && !r.idem then (none, s0.killContext r.ctx true)
    else
      let s1 := (s0.loseRequests f).restoreRegion f n
      let s2 := if (s1.region f).st = .armed then s1.setRegion f { s1.region f with frozen := true, reload := true } else s1
      (some n, if r.pre then s2.preempt f else s2)

/-- POWER_RETURN (R366): the beadle restores each affected region, or kills its context. -/
def execPowerReturn (domain : Nat) (s : State) : Out' :=
  let fs := if domain < 8 then s.quadRegions domain else s.regions.map fun p => p.1
  let s1 : State := if domain < 8 then { s.powerQuad domain true with darkQuads := s.darkQuads.erase domain } else { s with off := false }
  .next (fs.foldl (fun (t : State) f => if (t.region f).frozen && !(t.region f).reload && !(s.darkQuads.contains (quadOf f) && decide (8 ≤ domain)) then (t.recover f).2 else t) s1)

/-- UNCORRECTABLE_HAMLET_STATE (R387): handled as a power loss of the hamlet's region; the array log names the cut resumed from. -/
def execUncorrectableHamletState (h site : Nat) (s : State) : Out' :=
  let entry (t : State) (ctx : Option Nat) (extra : Nat) : State :=
    t.logIn .array { kind := 3, ctx := ctx, ham := h, site := site, extra := extra }
  match s.regionOf h with
  | none => .next (entry s (s.ham h).ctx (2 ^ 64 - 1))
  | some (f, r) =>
    let w := (s.freeze f).recover f
    .next (entry w.2 (some r.ctx) (match w.1 with | some n => n | none => 2 ^ 64 - 1))

/-- VERTICAL_BUS_TRANSFER (R390, R391): the 512-byte block at a quadrant offset crosses its group; `bad` lists the lanes whose parity
fails in each attempt. What is delivered is decoded by its check bits (R386); it, or the error response, goes to the requester. -/
def execVerticalBusTransfer (quad off : Nat) (bad : List (List Nat)) (s : State) : Out' :=
  let group := off / 512 % 64
  let pa := granaryBase + quad * 0x20000000 + off / 512 * 512
  let refuse (t : State) : State := { t with out := t.out ++ [.reply false []] }
  let deliver (t : State) : State :=
    match t.arrayRead { code := 10 } pa 512 with
    | .ok b u => { u with out := u.out ++ [.reply true b] }
    | .wait u => refuse u
    | .err u => refuse u
  let w := s.busSend quad group pa bad
  .next (if w.1 then deliver w.2 else refuse w.2)

end Sys2Proof.Machine
end

