-- ==== Sys2Proof/Machine/Shake.lean ====
section
/-! DEFINITION. SHAKE256 (R407, R408): the Keccak permutation on 25 lanes, and a digest of at most one block. -/
namespace Sys2Proof.Machine
open Sys2Proof

/-- The round constants of Keccak-f[1600]. -/
def keccakRc : List W64 :=
  [0x0000000000000001, 0x0000000000008082, 0x800000000000808A, 0x8000000080008000, 0x000000000000808B, 0x0000000080000001,
   0x8000000080008081, 0x8000000000008009, 0x000000000000008A, 0x0000000000000088, 0x0000000080008009, 0x000000008000000A] ++
  [0x000000008000808B, 0x800000000000008B, 0x8000000000008089, 0x8000000000008003, 0x8000000000008002, 0x8000000000000080,
   0x000000000000800A, 0x800000008000000A, 0x8000000080008081, 0x8000000000008080, 0x0000000080000001, 0x8000000080008008]

/-- The rotation of lane x + 5y. -/
def keccakRot : List Nat :=
  [0, 1, 62, 28, 27, 36, 44, 6, 55, 20, 3, 10, 43, 25, 39, 41, 45, 15, 21, 8, 18, 2, 61, 56, 14]

/-- A lane of a state. -/
def laneOf (a : List W64) (i : Nat) : W64 := a.getD i 0

/-- The column parities mixed in. -/
def keccakTheta (a : List W64) : List W64 :=
  let c := (List.range 5).map fun x => laneOf a x ^^^ laneOf a (x + 5) ^^^ laneOf a (x + 10) ^^^ laneOf a (x + 15) ^^^ laneOf a (x + 20)
  let d := (List.range 5).map fun x => laneOf c ((x + 4) % 5) ^^^ (laneOf c ((x + 1) % 5)).rotateLeft 1
  (List.range 25).map fun i => laneOf a i ^^^ laneOf d (i % 5)

/-- Rotation and permutation: lane (x, y) goes to (y, 2x + 3y). -/
def keccakRhoPi (a : List W64) : List W64 :=
  (List.range 25).map fun j =>
    let x := (j % 5 + 3 * (j / 5)) % 5
    let i := x + 5 * (j % 5)
    (laneOf a i).rotateLeft (keccakRot.getD i 0)

/-- The nonlinear step. -/
def keccakChi (b : List W64) : List W64 :=
  (List.range 25).map fun i =>
    let y := i / 5 * 5
    laneOf b i ^^^ (~~~(laneOf b ((i + 1) % 5 + y)) &&& laneOf b ((i + 2) % 5 + y))

/-- One round. -/
def keccakRound (a : List W64) (rc : W64) : List W64 :=
  match keccakChi (keccakRhoPi (keccakTheta a)) with
  | l :: r => (l ^^^ rc) :: r
  | [] => []

/-- The permutation. -/
def keccakF (a : List W64) : List W64 := keccakRc.foldl keccakRound a

/-- A block of 136 bytes absorbed. -/
def absorbBlock (a : List W64) (b : List Byte) : List W64 :=
  keccakF ((List.range 25).map fun i =>
    if i < 17 then laneOf a i ^^^ BitVec.ofNat 64 (leNat ((b.drop (8 * i)).take 8)) else laneOf a i)

/-- A message absorbed block by block, the last one padded; `fuel` is at least the number of blocks. -/
def absorb (fuel : Nat) (a : List W64) (m : List Byte) : List W64 :=
  match fuel with
  | 0 => a
  | k + 1 =>
    if m.length < 136 then
      let pad := m ++ [0x1F] ++ List.replicate (136 - m.length) 0
      let b := (pad.take 135) ++ [pad.getD 135 0 ||| 0x80]
      absorbBlock a b
    else absorb k (absorbBlock a (m.take 136)) (m.drop 136)

/-- The first n bytes, n at most 136, of SHAKE256 of a message. -/
def shake256 (m : List Byte) (n : Nat) : List Byte :=
  ((absorb (m.length / 136 + 1) (List.replicate 25 0) m).flatMap fun l => leBytes 8 l.toNat).take n

end Sys2Proof.Machine
end

