-- ==== Sys2Proof/Machine/Boot.lean ====
section
/-! DEFINITION. The boot block (R400, R401), boot and measurement (R407, R408), the service ring (R409), and CENSUS (R399). -/
namespace Sys2Proof.Machine
open Sys2Proof

/-! ### Device reset (R256, R407, R408) -/

/-- The parts of a firmware image in flash at an offset: header bytes 0 to 1,983 and the body. -/
def imageSigned (flash : Mem) (a : Nat) : List Byte := flash.readBytes a 1984 ++ flash.readBytes (a + 5312) (flash.readLE (a + 12) 4)

/-- The ROM accepts the firmware image at a flash offset (R407). -/
def romAccepts (flash : Mem) (a : Nat) : Bool :=
  let zero (o n : Nat) : Bool := (flash.readBytes (a + o) n).all fun b => b == 0
  let key := flash.readBytes (a + 32) 1952
  let len := flash.readLE (a + 12) 4
  let entry := flash.readLE (a + 16) 4
  decide (flash.readLE a 4 = 0x4C444542 ∧ flash.readLE (a + 4) 2 = 1) && decide (shake256 key 64 = Config.keyHash) &&
  decide (len ≤ 0x1000000 ∧ entry % 4 = 0 ∧ entry < len) && decide (Config.secVer.toNat ≤ flash.readLE (a + 8) 4) &&
  zero 6 2 && zero 20 12 && zero 5293 19 && Config.mlDsaVerify key (imageSigned flash a) (flash.readBytes (a + 1984) 3309)

/-- The device right after reset, with what reset does not reach: boot flash, memory, the shadow layer's slots, and what has left the
package (log entry 18). -/
def State.resetDevice (s : State) : State :=
  { State.reset with
    mem := s.mem, ecc := s.ecc, flash := s.flash, out := s.out, freeN := s.freeN, agenda := s.agenda, waiting := s.waiting
    hamlets := s.hamlets.map fun (p : Nat × Hamlet) => (p.1, { slots := p.2.slots }) }

/-- The firmware at a flash offset measured, copied to the firmware store and started (R256, R407, R408). -/
def State.bootFrom (s : State) (a : Nat) : State :=
  let m0 := shake256 (imageSigned s.flash a) 64
  let seed := shake256 (Config.uds ++ m0) 32
  let len := s.flash.readLE (a + 12) 4
  let rounded := (len + 4095) / 4096 * 4096
  let entry := s.flash.readLE (a + 16) 4
  { s with
    mem := s.mem.writeBytes storeBase (s.flash.readBytes (a + 5312) len)
    boot := { s.boot with meas := [(0, m0)], seed := seed, idkey := Config.mlDsaPublic seed, entry := entry, bodyLen := rounded }
    beadle := s.beadle.romJump (BitVec.ofNat 64 entry).toNat rounded }

/-- DEVICE_RESET (R407): the ROM reads the image at flash offset 0, or the one at 16 MiB; with neither accepted the beadle halts, every
link is down, and the device stays in reset: it does nothing more until the next device reset. -/
def execDeviceReset (s : State) : Out' :=
  let t := s.resetDevice
  if romAccepts t.flash 0 then .next (t.bootFrom 0)
  else if romAccepts t.flash 0x1000000 then .next (t.bootFrom 0x1000000)
  else .next { t with beadle := { t.beadle with run := .halted }, ualDown := List.range 18, inReset := true }

/-! ### The boot block (R400, R401) -/

/-- Measurement register i (R400, R408). -/
def Boot.measure (b : Boot) (i : Nat) : List Byte := Tab.get b.meas (List.replicate 64 0) i

/-- Every base of offsets 8 to 56 is set (R401). -/
def Boot.basesSet (b : Boot) : Bool :=
  [b.ctxBase, b.mktRing, b.xlRing, b.alog, b.blog, b.elog, b.svcRing].all fun v => v != 0

/-- The log entries held on chip written to a log's ring, with the count of those lost (R392, R401). -/
def State.flushLog (s : State) (n : LogName) : State :=
  let l := s.log n
  let t := l.held.foldl (fun (t : State) e => t.devPost (.log n e true)) (s.setLog n {})
  if l.lost = 0 then t else t.devPost (.lost n l.lost)

/-- The manor starts: cores 0 to 15 in machine mode at MRESET (R402). -/
def State.startManor (s : State) : State :=
  { s with manor := (List.range 16).map fun n => (n, { s.manorCore n with started := true, machine := true, pc := s.boot.mreset }) }
/-- A write of BOOTCTL: its bits only ever set; go and manor release need every base (R400, R401). -/
def State.bootctl (s : State) (v : W64) : State :=
  let b := s.boot
  if (v.getLsbD 1 || v.getLsbD 2) && !b.basesSet then s
  else
    let s0 : State := { s with boot := { b with lock := b.lock || v.getLsbD 0, go := b.go || v.getLsbD 1, manor := b.manor || v.getLsbD 2 } }
    let s1 := if v.getLsbD 2 && !b.manor then s0.startManor else s0
    if v.getLsbD 1 && !b.go then
      let s2 : State := { s1 with market := { s1.market with cur := 0, credit := [] } }
      ((s2.flushLog .array).flushLog .bus).flushLog .error
    else s1

/-- LOCK (R400): the write that sets BOOTCTL bit 0. -/
def execLock (s : State) : Out' := .next (s.bootctl 1)
/-- GO (R401): the write that sets BOOTCTL bit 1. -/
def execGo (s : State) : Out' := .next (s.bootctl 2)
/-- MANOR_RELEASE (R401, R402): the write that sets BOOTCTL bit 2. -/
def execManorRelease (s : State) : Out' := .next (s.bootctl 4)

/-- MEXT (R408): measurement register i takes the digest of itself and the 64 bytes at MEXTSRC; i = 0 is ignored (R400). Bytes that cannot
be read leave the register as it is (log entry 62). -/
def execMext (i : Nat) (s : State) : Out' :=
  if i = 0 ∨ 8 ≤ i then .next s
  else
    match s.readPhys { code := 7 } s.boot.mextSrc.toNat 64 with
    | .wait t => .next t.tryAgain
    | .err t => .next t
    | .ok d t => .next { t with boot := { s.boot with meas := Tab.put s.boot.meas i (shake256 (s.boot.measure i ++ d) 64) } }

/-- The offset of the boot block from the management base. -/
def bootOff : Nat := 0x28000

/-- A register of the boot block read at an offset from the management base (R400). -/
def State.bootRead (s : State) (o : Nat) : Option W64 :=
  let b := s.boot
  let from8 (l : List Byte) (k : Nat) : W64 := BitVec.ofNat 64 (leNat ((l.drop k).take 8))
  if o < bootOff then none
  else
    let k := o - bootOff
    if 0x100 ≤ k ∧ k < 0x300 then some (from8 (b.measure ((k - 0x100) / 64)) ((k - 0x100) % 64))
    else if 0x400 ≤ k ∧ k < 0x400 + 1952 then some (from8 b.idkey (k - 0x400))
    else
      match k with
      | 0 => some (BitVec.ofNat 64 ((if b.lock then 1 else 0) + (if b.go then 2 else 0) + (if b.manor then 4 else 0)))
      | 8 => some b.ctxBase
      | 16 => some b.mktRing
      | 24 => some b.xlRing
      | 32 => some b.alog
      | 40 => some b.blog
      | 48 => some b.elog
      | 56 => some b.svcRing
      | 64 => some b.linkId
      | 72 => some b.mreset
      | 80 => some b.svcMsiA
      | 88 => some b.svcMsiD
      | 96 => some b.mextSrc
      | 104 => some 0
      | 112 => some Config.secVer
      | _ => none

/-- A base that a write of the boot block takes: in HBM and aligned (R400). -/
def baseOk (v : W64) (align : Nat) : Bool := decide (v.toNat % align = 0 ∧ v.toNat < 0x8000000000)

/-- A register of the boot block written at an offset from the management base; while it is locked, a write to offsets 8 to 88 is
logged and changes nothing (R400). -/
def State.bootWrite (s : State) (o : Nat) (v : W64) : Option State :=
  let b := s.boot
  let set (ok : Bool) (c : Boot) : Option State := some (if ok then { s with boot := c } else s)
  if o < bootOff then none
  else
    let k := o - bootOff
    if 0x100 ≤ k ∧ k < 0x300 ∨ 0x400 ≤ k ∧ k < 0x400 + 1952 then some s
    else if b.lock ∧ 8 ≤ k ∧ k ≤ 88 then some (s.logErr { addr := mgmtBase + o, kind := 1, agent := 7 })
    else
      match k with
      | 0 => some (s.bootctl v)
      | 8 => set (baseOk v 4096) { b with ctxBase := v }
      | 16 => set (baseOk v 4096) { b with mktRing := v }
      | 24 => set (baseOk v 4096) { b with xlRing := v }
      | 32 => set (baseOk v 65536) { b with alog := v }
      | 40 => set (baseOk v 65536) { b with blog := v }
      | 48 => set (baseOk v 65536) { b with elog := v }
      | 56 => set (baseOk v 4096) { b with svcRing := v }
      | 64 => set (decide (v.toNat % 512 ≤ 287)) { b with linkId := v &&& 0x1FF }
      | 72 => set true { b with mreset := v }
      | 80 => set true { b with svcMsiA := v }
      | 88 => set true { b with svcMsiD := v }
      | 96 => set true { b with mextSrc := v }
      | 104 => (match execMext (v.toNat % 8) s with | .next t => some t | _ => some s)
      | 112 => some s
      | _ => none

/-- A management register read by the beadle; none where no register is listed (R378). -/
def State.mgmtRead (s : State) (pa : Nat) : Option W64 :=
  match s.powerRead (pa - mgmtBase) with
  | some v => some v
  | none => s.bootRead (pa - mgmtBase)
/-- A management register written by the beadle; none where no register is listed (R378). -/
def State.mgmtWrite (s : State) (pa : Nat) (v : W64) : Option State :=
  match s.powerWrite (pa - mgmtBase) v with
  | some t => some t
  | none => s.bootWrite (pa - mgmtBase) v
/-- A write of MEXT waits, as the read of the digest does at its stack (R380, R408). -/
def State.mextWait (s : State) (pa : Nat) (v : W64) : Option State :=
  if pa = mgmtBase + bootOff + 104 ∧ v.toNat % 8 ≠ 0 then
    match s.readPhys { code := 7 } s.boot.mextSrc.toNat 64 with
    | .wait t => some t
    | _ => none
  else none

/-! ### The service ring (R409) -/

/-- The beadle's firmware as it serves its ring (R409). -/
def serviceAgent : Agent := { code := 7 }
/-- The status and head of the service ring's command written, and then the MSI of SVCMSI (R403, R409). -/
def State.endService (s : State) (status : Nat) : State :=
  (s.endCommand serviceAgent s.boot.svcRing.toNat status).msi none s.boot.svcMsiA (s.boot.svcMsiD.setWidth 32)

/-- Bytes 0 to 591 of an attestation report, with the 64 bytes of the nonce (R409). -/
def State.reportBody (s : State) (nonce : List Byte) : List Byte :=
  leBytes 4 0x54544153 ++ leBytes 2 1 ++ leBytes 2 s.boot.linkId.toNat ++ leBytes 8 Config.secVer.toNat ++ nonce ++
  ((List.range 8).flatMap fun i => s.boot.measure i)

/-- ATTEST (R409): the report is written at an output address, then the status and head, then the MSI; an access that gets an error response
ends the command with status access. -/
def execAttest (nonce out : W64) (s : State) : Out' :=
  if 0x8000000000 < nonce.toNat + 64 ∨ 0x8000000000 < out.toNat + 3901 then .next (s.endService 5)
  else
    match s.readPhys serviceAgent nonce.toNat 64 with
    | .wait t => .next t.tryAgain
    | .err t => .next (t.endService 5)
    | .ok n t =>
      let body := t.reportBody n
      let sig := Config.mlDsaSign t.boot.seed body
      let bytes := body ++ (List.range 3309).map fun i => sig.getD i 0
      match t.writeBytesPhys serviceAgent true out.toNat bytes with
      | .wait u => .next u.tryAgain
      | .err u => .next (u.endService 5)
      | .ok _ u => .next (u.endService 0)

/-- SERVICE_RING_POLL (R409): the firmware reads the tail, and serves the command at the head; one that cannot be read ends with status
access (log entry 62). -/
def execServiceRingPoll (s : State) : Out' :=
  if s.boot.svcRing = 0 then .next s
  else
    match s.ringNext serviceAgent s.boot.svcRing.toNat with
    | .empty t => .next t
    | .wait t => .next t.tryAgain
    | .bad t => .next (t.endService 5)
    | .cmd e t =>
      if e.1.extractLsb' 0 8 ≠ 1 then .next (t.endService 1)
      else if e.1.extractLsb' 8 24 ≠ 1 ∨ e.2.2.2 ≠ 0 then .next (t.endService 3)
      else execAttest e.2.1 e.2.2.1 t

/-- REGISTER_WRITE (R378, R404, R406): a write of a management register by the beadle, or of 8 bytes of a PCIe window by the manor: of a function of
the package, an Ethernet port's register, or what lies outside the package. -/
def execRegisterWrite (addr : Nat) (v : W64) (s : State) : Out' :=
  match placeOf addr with
  | .mgmt =>
    match s.mextWait addr v with
    | some t => .next t.tryAgain
    | none =>
      match s.mgmtWrite addr v with
      | some t => .next t
      | none => .next (s.logErr { addr := addr, kind := 2, agent := 7 })
  | .pcie _ =>
    match s.pregAt addr with
    | some r => .next (s.pregWrite r v)
    | none => .next { s with out := s.out ++ [.pcie (cellsAt addr (leBytes 8 v.toNat))] }
  | _ => .next s

/-! ### CENSUS (R399) -/

/-- The reeve state of a census record. -/
def censusRun (k : Core) : Nat :=
  match k.run with
  | .idle | .rom | .done => 0
  | .running => 1
  | .halted => 3
  | _ => 2

/-- The 32-byte record of a hamlet, its fields in the order R399 gives (log entry 19). -/
def State.censusHam (s : State) (h : Nat) : List Byte :=
  let x := s.ham h
  let r := s.regionOf h
  let uses := (List.range 4).map fun k => match (x.slot k).use with | .free => 0 | .bank _ => 1 | .parked _ => 2 | .stage _ _ => 3
  let parked := (List.range 4).filterMap fun k => match (x.slot k).use with | .parked _ => some ((x.slot k).ctx + 128) | _ => none
  let b := leBytes 1 (match x.ctx with | some c => c + 128 | none => 0) ++ leBytes 1 (match r with | some (f, _) => f | none => 0) ++
    leBytes 1 (match r with | some (_, y) => y.n | none => 0) ++ leBytes 1 (s.regstat h) ++
    leBytes 1 (match r with | some (_, y) => (y.stopinfo.extractLsb' 0 4).toNat | none => 0) ++
    leBytes 4 (match r with | some (f, _) => s.headcount f | none => 0) ++ leBytes 2 x.held.length ++ leBytes 4 (x.cutSeq - 1) ++
    leBytes 1 ((uses.zipIdx.map fun p => p.1 * 4 ^ p.2).foldl (· + ·) 0) ++ leBytes 1 (parked.getD 0 0) ++ leBytes 1 (parked.getD 1 0) ++
    leBytes 1 (censusRun x.reeve)
  b ++ List.replicate (32 - b.length) 0
/-- The 16-byte record of a parish (R399). -/
def State.censusParish (s : State) (p : Nat) : List Byte :=
  let x := s.parish p
  let spares := ((List.range 16).map fun g => (4 - (Tab.get (s.quad (p / 4)).spares [] (16 * (p % 4) + g)).length) * 8 ^ g).foldl (· + ·) 0
  leBytes 2 (s.pstat p % 65536) ++ leBytes 1 x.aeff ++ leBytes 1 x.applied ++ leBytes 1 (s.sensorLevel p) ++ leBytes 1 0 ++ leBytes 6 spares ++
  leBytes 4 0
/-- The 16-byte record of a context, its fields in the order R399 gives (log entry 19). -/
def State.censusCtx (s : State) (c : Nat) : List Byte :=
  let count (g : Hamlet → Nat) : Nat := (s.hamlets.map fun p => g p.2).foldl (· + ·) 0
  leBytes 1 (if s.descKnown c && !s.market.descBad.contains c then 1 else 0) ++ leBytes 1 (s.regionsOf c).length ++
  leBytes 2 (count fun x => ((List.range 4).filter fun k => (match (x.slot k).use with | .parked _ => true | _ => false) && decide ((x.slot k).ctx = c)).length) ++
  leBytes 2 (count fun x => (x.frames.filter fun f => decide (f.ctx = c)).length) ++ leBytes 8 (s.quota c).toNat ++
  leBytes 2 (s.market.faults.filter fun f => decide (f.ctx = c)).length

/-- The tail and the lost count of each of some logs, 4 bytes each, as a CENSUS reads them in HBM (R392, R399). Where the sector that holds
them cannot be corrected (R386), both take free values (log entry 62). -/
def State.readLogs (s : State) (a : Agent) : List LogName → MemRes (List Byte)
  | [] => .ok [] s
  | n :: r =>
    match s.readPhys a (s.logBase n) 24 with
    | .wait t => .wait t
    | .ok d t => (State.readLogs t a r).map fun l => d.take 4 ++ (d.drop 16).take 4 ++ l
    | .err t =>
      let f := t.takeFree
      (State.readLogs f.2 a r).map fun l => leBytes 8 f.1.toNat ++ l

/-- The 9,792 bytes of the summary, the 24 bytes of the logs as they were read (R399). -/
def State.census (s : State) (logs : List Byte) : List Byte :=
  leBytes 4 0x5355534E ++ leBytes 4 1 ++ leBytes 8 s.cycle ++ leBytes 8 s.cycle ++ logs ++
  leBytes 2 s.plimit.toNat ++ leBytes 1 s.capP ++ leBytes 1 0 ++ leBytes 2 s.inrushReg ++ leBytes 10 0 ++
  ((List.range 256).flatMap s.censusHam) ++ ((List.range 32).flatMap s.censusParish) ++ ((List.range 64).flatMap s.censusCtx)

end Sys2Proof.Machine
end

