-- ==== Sys2Proof/Machine/Links.lean ====
section
/-! DEFINITION. Requests that reach the package from outside or through the green window (R263, R291, R404, R405), and the Ethernet
ports (R406). -/
namespace Sys2Proof.Machine
open Sys2Proof

/-- How far the pieces of an access have come: all performed, with the bytes read; the pieces that are left, with the bytes read so far or
still to be written; or an error response. -/
inductive BusRes where
  | ok (bytes : List Byte) (s : State)
  | wait (left : List (Nat × Nat)) (bytes : List Byte) (s : State)
  | err (s : State)

/-- A read of physical pieces, each performed whole (R267). -/
def State.busRead (s : State) (a : Agent) : List (Nat × Nat) → List Byte → BusRes
  | [], acc => .ok acc s
  | p :: r, acc =>
    match s.readPhys a p.1 p.2 with
    | .ok b t => State.busRead t a r (acc ++ b)
    | .wait t => .wait (p :: r) acc t
    | .err t => .err t
/-- A write of bytes over physical pieces, each performed whole (R267). -/
def State.busWrite (s : State) (a : Agent) : List (Nat × Nat) → List Byte → BusRes
  | [], b => .ok b s
  | p :: r, b =>
    match s.writeBytesPhys a false p.1 (b.take p.2) with
    | .ok _ t => State.busWrite t a r (b.drop p.2)
    | .wait t => .wait (p :: r) b t
    | .err t => .err t

/-- The pieces of an access at its sector boundaries. -/
def pieces (pa n : Nat) : List (Nat × Nat) := splitSectors (n / 32 + 2) pa n

/-- What a waiting event has still to perform: its pieces and their bytes; those given where it has not begun. -/
def State.partOf (s : State) (i : PartKey) (l : List (Nat × Nat)) (b : List Byte) : List (Nat × Nat) × List Byte :=
  match s.partly.find? fun p => decide (p.1 = i) with
  | some p => p.2
  | none => (l, b)
/-- The event has nothing left to perform. -/
def State.partDone (s : State) (i : PartKey) : State := { s with partly := s.partly.filter fun p => decide (p.1 ≠ i) }
/-- The event waits with pieces left: those performed are not performed again (R267). -/
def State.partWait (s : State) (i : PartKey) (l : List (Nat × Nat)) (b : List Byte) : State :=
  let t := s.partDone i
  { t with partly := t.partly ++ [(i, l, b)] }.tryAgain

/-- The reads of an event: what follows them, with the bytes read, or with none after an error response. -/
def State.busReads (s : State) (i : PartKey) (a : Agent) (l : List (Nat × Nat)) (k : Option (List Byte) → State → State) : State :=
  let p := s.partOf i l []
  match s.busRead a p.1 p.2 with
  | .ok b t => k (some b) (t.partDone i)
  | .wait l' b t => t.partWait i l' b
  | .err t => k none (t.partDone i)
/-- The writes of an event: what follows them, told whether every one was performed. While that waits in its turn, no piece is left. -/
def State.busWrites (s : State) (i : PartKey) (a : Agent) (l : List (Nat × Nat)) (bytes : List Byte) (k : Bool → State → State) : State :=
  let p := s.partOf i l bytes
  match s.busWrite a p.1 p.2 with
  | .ok _ t => let u := k true (t.partDone i); if u.again then u.partWait i [] [] else u
  | .wait l' b t => t.partWait i l' b
  | .err t => k false (t.partDone i)

/-- The atomic operation of a number, in the order of R241. -/
def amoOfNum (n : Nat) : AmoOp :=
  match n with
  | 0 => .add
  | 1 => .swap
  | 2 => .and
  | 3 => .or
  | 4 => .xor
  | 5 => .min
  | 6 => .max
  | _ => .cas

/-- The agent of a request. -/
def busAgent (r : BusReq) : Agent := { code := r.agent, ctx := r.ctx, ham := r.ham, site := r.site, unit := 9 }

/-- A write to a green waits for the record points of a running cut (R361). -/
def State.busAfter (s : State) (r : BusReq) : Bool :=
  (r.write || r.atom.isSome || r.bar.isSome) && s.agentAfter (busAgent r) r.pa

/-- The request of event i performed at its home, and its answer (R262, R266, R267, R284). A peer's update of a barrier of this device is
one atomic here (R304, R311); it carries no context unless the request names one (R306). -/
def State.busAccess (s : State) (i : PartKey) (r : BusReq) : State :=
  let a := busAgent r
  let reply (t : State) (ok : Bool) (b : List Byte) : State := { t with out := t.out ++ [.reply ok b] }
  if s.busAfter r then s.tryAgain
  else
    match r.bar, r.atom with
    | some (arrival, n, e), _ =>
      (match s.barrierPhys a r.ctx r.pa arrival n e with
       | .ok gen t => reply t true (leBytes 8 gen.toNat)
       | .wait t => t.tryAgain
       | .err t => reply t false [])
    | none, some (op, expv) =>
      let word := decide (r.bytes.length = 4)
      let b := BitVec.ofNat 64 (leNat r.bytes)
      (match s.atomicPhys a r.pa (if word then 4 else 8) (.amo (amoOfNum op) word b expv) (amoBytes (amoOfNum op) word b expv) with
       | .ok old t => reply t true old
       | .wait t => t.tryAgain
       | .err t => reply t false [])
    | none, none =>
      if r.write then s.busWrites i a (pieces r.pa r.bytes.length) r.bytes fun ok t => reply t ok []
      else s.busReads i a (pieces r.pa r.len) fun b t => reply t b.isSome (b.getD [])

/-- WINDOW_ACCESS (R263, R291): an agent's access through the green window, served or refused at the owning bank. -/
def execWindowAccess (r : BusReq) (s : State) : Out' := .next (s.busAccess (.window r) r)

/-- The bytes that a request covers. -/
def reqSize (r : BusReq) : Nat := if r.bar.isSome then 32 else if r.write ∨ r.atom.isSome then r.bytes.length else r.len

/-- A request lies in HBM or the green window. -/
def inDmaSpace (pa n : Nat) : Bool := decide (pa + n ≤ 0x8000000000) || decide (greenBase ≤ pa ∧ pa + n ≤ greenBase + 0x20000000)
/-- A request of an endpoint of root port p lies within its DMA window (R404). -/
def State.dmaOk (s : State) (p pa n : Nat) : Bool :=
  let d := Tab.get s.dma (0, 0) p
  decide (d.1.toNat ≤ pa ∧ pa + n ≤ d.2.toNat) && inDmaSpace pa n

/-- A write of an endpoint of a root port waits for its access: what the endpoint sends behind it waits too (R403). -/
def State.pcieBehind (s : State) (port : Nat) : Bool :=
  s.waiting.any fun i => match i with | .pcieEndpointRequest p _ msi r => decide (p = port) && !msi && r.write | _ => false

/-- PCIE_ENDPOINT_REQUEST (R403, R404): a translated request is unsupported; an MSI goes to an interrupt file, behind the endpoint's own
writes; any other request has to lie in the port's DMA window. -/
def execPcieEndpointRequest (port : Nat) (translated msi : Bool) (r : BusReq) (s : State) : Out' :=
  let unsupported (t : State) : State := { t with out := t.out ++ [.reply false []] }
  if translated then .next (unsupported s)
  else if msi then
    if s.pcieBehind port then .next s.tryAgain
    else
      let t := s.msiFrom 9 none (BitVec.ofNat 64 r.pa) (BitVec.ofNat 32 (leNat r.bytes))
      .next (if (Config.interruptFile (BitVec.ofNat 64 r.pa)).isSome then t else unsupported t)
  else if !s.dmaOk port r.pa (reqSize r) then .next (unsupported (s.logErr { addr := r.pa, kind := 2, agent := 9 }))
  else .next (s.busAccess (.pcie port r) { r with agent := 9, ctx := none, ham := none })

/-- UALINK_REQUEST (R405): a peer's request, by the physical address that its window names here; none arrives while every port is down. -/
def execUalinkRequest (r : BusReq) (s : State) : Out' :=
  if (List.range 18).all fun i => s.ualDown.contains i then .next s
  else if inDmaSpace r.pa (reqSize r) then .next (s.busAccess (.ualink r) { r with agent := 9, ctx := none, ham := none })
  else .next ({ s with out := s.out ++ [.reply false []] } : State)

/-- UALINK_PORT_DOWN (R405): the port's sectors move to the next live port. A request is answered in the step that sends it, so that none is
outstanding on the port to be sent again (log entry 46). -/
def execUalinkPortDown (port : Nat) (s : State) : Out' :=
  .next { s with ualDown := if s.ualDown.contains port then s.ualDown else s.ualDown ++ [port] }
/-- UALINK_PORT_UP (R405): the port takes back its sectors. -/
def execUalinkPortUp (port : Nat) (s : State) : Out' := .next { s with ualDown := s.ualDown.filter fun p => decide (p ≠ port) }

/-! ### Ethernet (R406) -/

/-- The port as an agent (R393). -/
def portAgent (p : Nat) : Agent := { code := 9, unit := 16 + p }

/-- DOORBELL (R406): the producer index of a queue pair advances. -/
def execDoorbell (port : Nat) (v : W64) (s : State) : Out' :=
  .next (s.doorbell port v)

/-- A read of local memory by a port: it has to lie in the DMA window of its root port (R404, R406). -/
def State.portRead (s : State) (port pa n : Nat) : MemRes (List Byte) :=
  if s.dmaOk (port / 2) pa n then s.readPhys (portAgent port) pa n else .err (s.logErr { addr := pa, kind := 2, agent := 9 })

/-- A field of a table entry. -/
def field (b : List Byte) (o n : Nat) : Nat := leNat ((b.drop o).take n)

/-- A queue-pair entry as the port reads it (R406). -/
structure QPair where
  valid : Bool
  dest : RdmaTo
  ring : Nat
  log2 : Nat
  cons : Nat

/-- The queue pair of the 64 bytes of its entry. -/
def QPair.ofBytes (b : List Byte) : QPair :=
  { valid := decide (field b 22 1 % 2 = 1)
    dest := { ip := b.take 16, mac := (b.drop 16).take 6, flags := BitVec.ofNat 16 (field b 22 2), qpn := BitVec.ofNat 32 (field b 24 4),
              psn := BitVec.ofNat 32 (field b 28 4) }
    ring := field b 32 8, log2 := field b 40 4, cons := field b 44 4 }

/-- The address of a queue pair's entry. -/
def State.qpAddr (s : State) (port qp : Nat) : Nat := (s.port port).reg 0x20 + 64 * qp

/-- A work request (R406). -/
structure Work where
  op : Nat
  rkey : W32
  pa : Nat
  remote : W64
  len : Nat
  bar : Nat

/-- The work request of its 64 bytes. -/
def Work.ofBytes (b : List Byte) : Work :=
  { op := field b 0 4, rkey := BitVec.ofNat 32 (field b 4 4), pa := field b 8 8, remote := BitVec.ofNat 64 (field b 16 8), len := field b 24 8
    bar := field b 32 8 }

/-- The request in flight on a queue pair: its entry and its work request. -/
def Eth.inFlight (x : Eth) (qp : Nat) : Option (QPair × Work) :=
  match Tab.get x.flight [] qp with
  | [] => none
  | b => some (QPair.ofBytes (b.take 64), Work.ofBytes (b.drop 64))

/-- A work request has ended: −length is delivered to its barrier with error bits, and the consumer index moves on (R406, R415). A write to a
green waits for the record points of a running cut (R361); a barrier outside the port's DMA window cannot be updated (R404). -/
def State.endWork (s : State) (port qp : Nat) (q : QPair) (w : Work) (e : Nat) : State :=
  let a := portAgent port
  let done (t : State) : State :=
    let x := t.port port
    ({ t with eth := Tab.put t.eth port { x with flight := Tab.del x.flight qp } } : State).devWrite a (t.qpAddr port qp + 44) (leBytes 4 (q.cons + 1))
  if s.agentAfter a (s.qpAddr port qp + 44) then s.tryAgain
  else if w.bar = 0 then done s
  else if !s.dmaOk (port / 2) w.bar 32 then
    done ((s.logErr { addr := w.bar, kind := 2, agent := 9 }).lostUpdate a none w.bar 0)
  else if s.agentAfter a w.bar then s.tryAgain
  else
    match s.barrierPhys a none w.bar false (-(BitVec.ofNat 64 w.len)) e with
    | .ok _ t => done t
    | .wait t => t.tryAgain
    | .err t => done (t.lostUpdate a none w.bar 0)

/-- The error bits of a work request that fails (R406); those of a reserved op, which is neither READ nor WRITE, are a free choice of
the two (log entry 11). -/
def State.workErr (s : State) (w : Work) : Nat × State :=
  if w.op = 2 then (4, s) else if w.op = 1 then (8, s) else (if s.takeFree.1.getLsbD 0 then 4 else 8, s.takeFree.2)
/-- A work request has failed. -/
def State.failWork (s : State) (port qp : Nat) (q : QPair) (w : Work) : State := let e := s.workErr w; e.2.endWork port qp q w e.1

/-- A work request of a queue pair begins: a reserved op, a length out of range or local memory that the port may not reach ends it; else it
is sent to the remote queue pair that the entry names (R406). -/
def State.startWork (s : State) (port qp : Nat) (entry work : List Byte) : State :=
  let q := QPair.ofBytes entry
  let w := Work.ofBytes work
  let send (t : State) (read : Bool) (b : List Byte) : State :=
    let x := t.port port
    { t with out := t.out ++ [.rdma port qp q.dest read w.remote w.rkey w.len b]
             eth := Tab.put t.eth port { x with flight := Tab.put x.flight qp (entry ++ work) } }
  if (w.op ≠ 1 ∧ w.op ≠ 2) ∨ 2 ^ 31 < w.len then s.failWork port qp q w
  else if !s.dmaOk (port / 2) w.pa w.len then (s.logErr { addr := w.pa, kind := 2, agent := 9 }).failWork port qp q w
  else if w.op = 2 then send s true []
  else
    s.busReads (.work port qp false) (portAgent port) (pieces w.pa w.len) fun b t =>
      match b with
      | some b => send t false b
      | none => t.failWork port qp q w

/-- RDMA_WORK_REQUEST (R406): the port reads the entry of a queue pair and the work request that it is at, and sends it, where none is in
flight and the producer index shows one. A table that it cannot read gives none. -/
def execRdmaWorkRequest (port qp : Nat) (s : State) : Out' :=
  let x := s.port port
  if !((Tab.get x.regs 0 0).getLsbD 0) || decide (x.reg 0x28 ≤ qp) || (x.inFlight qp).isSome then .next s
  else
    match s.portRead port (s.qpAddr port qp) 64 with
    | .wait t => .next t.tryAgain
    | .err t => .next t
    | .ok entry t =>
      let q := QPair.ofBytes entry
      if !q.valid || decide (Tab.get x.prod 0 qp = q.cons % 65536) then .next t
      else
        match t.portRead port (q.ring + 64 * (q.cons % 2 ^ q.log2)) 64 with
        | .wait u => .next u.tryAgain
        | .err u => .next u
        | .ok work u => .next (u.startWork port qp entry work)

/-- RDMA_COMPLETION (R406): the responder acknowledges the last byte, or answers with a NAK; the bytes that a READ returns are written
first, and to a green behind the record points of a running cut (R361). -/
def execRdmaCompletion (port qp : Nat) (nak : Bool) (payload : List Byte) (s : State) : Out' :=
  match (s.port port).inFlight qp with
  | none => .next s
  | some (q, w) =>
    if nak then .next (s.failWork port qp q w)
    else if w.op = 2 then
      if s.agentAfter (portAgent port) w.pa then .next s.tryAgain
      else
        .next (s.busWrites (.work port qp true) (portAgent port) (pieces w.pa w.len)
          ((List.range w.len).map fun i => payload.getD i 0) fun ok t => t.endWork port qp q w (if ok then 0 else 4))
    else .next (s.endWork port qp q w 0)

/-- RETRY_TIMEOUT (R406): the delivery is made with an error bit. -/
def execRetryTimeout (port qp : Nat) (s : State) : Out' :=
  match (s.port port).inFlight qp with
  | none => .next s
  | some (q, w) => .next (s.failWork port qp q w)

/-- The physical address of an incoming request, if an entry of the region table grants it by rkey, range and access (R406). -/
def rdmaGrant (table : List Byte) (count : Nat) (write : Bool) (rkey : W32) (addr : W64) (len : Nat) : Option Nat :=
  (List.range count).findSome? fun i =>
    let b := (table.drop (32 * i)).take 32
    let base := field b 0 8
    let bit := if write then 1 else 0
    if field b 24 4 = rkey.toNat ∧ base ≤ addr.toNat ∧ addr.toNat + len ≤ base + field b 8 8 ∧ (field b 28 4).testBit bit then
      some (field b 16 8 + (addr.toNat - base))
    else none

/-- The region entry that grants an incoming request, looked for among those left, each read by itself (R406): the physical address that it
gives, or none. One that cannot be read grants nothing. What is read is not read again while the request waits. -/
inductive GrantRes where
  | found (pa : Nat) (s : State)
  | none (s : State)
  | wait (left : List (Nat × Nat)) (s : State)
/-- The look-up of a grant. -/
def State.findGrant (s : State) (port : Nat) (write : Bool) (rkey : W32) (addr : W64) (len : Nat) : List (Nat × Nat) → GrantRes
  | [] => .none s
  | p :: r =>
    match s.portRead port p.1 p.2 with
    | .wait t => .wait (p :: r) t
    | .err t => State.findGrant t port write rkey addr len r
    | .ok b t =>
      match rdmaGrant b 1 write rkey addr len with
      | some pa => .found pa t
      | none => State.findGrant t port write rkey addr len r
/-- The grant of an event, kept once it is found (R406). -/
def State.grantOf (s : State) (i : PartKey) (port : Nat) (write : Bool) (rkey : W32) (addr : W64) (len : Nat) : GrantRes :=
  let x := s.port port
  let p := s.partOf i ((List.range (x.reg 0x38)).map fun k => (x.reg 0x30 + 32 * k, 32)) []
  match p.2 with
  | [] => s.findGrant port write rkey addr len p.1
  | b => .found (leNat b) s

/-- The NAK of a remote access error, and that of an invalid request (R406). -/
def nakAccess : Nat := 1
def nakInvalid : Nat := 2

/-- RDMA_INCOMING_REQUEST (R406): a remote WRITE (op 1) or READ (op 2) is checked against the region entries and performed; a failed check or
a refusal is answered with a NAK of remote access error, and any other request with one of invalid request. -/
def execRdmaIncomingRequest (port op : Nat) (rkey : W32) (addr : W64) (len : Nat) (payload : List Byte) (s : State) : Out' :=
  let x := s.port port
  let reply (t : State) (nak : Nat) (b : List Byte) : State := { t with out := t.out ++ [.rdmaReply port nak b] }
  let write := decide (op = 1)
  let key : PartKey := .lookup port op rkey addr len payload
  if !((Tab.get x.regs 0 0).getLsbD 0) then .next s
  else if op ≠ 1 ∧ op ≠ 2 then .next (reply s nakInvalid [])
  else
    match s.grantOf key port write rkey addr len with
    | .wait l t => .next (t.partWait key l [])
    | .none t => .next (reply (t.partDone key) nakAccess [])
    | .found pa t0 =>
      let t := t0.partDone key
      let hold (u : State) : State := if u.again then u.partWait key [] (leBytes 8 pa) else u
      if !t.dmaOk (port / 2) pa len then .next (reply (t.logErr { addr := pa, kind := 2, agent := 9 }) nakAccess [])
      else if write then
        if t.agentAfter (portAgent port) pa then .next (hold t.tryAgain)
        else
          .next (hold (t.busWrites (.incoming port op rkey addr len payload) (portAgent port) (pieces pa len)
            ((List.range len).map fun i => payload.getD i 0) fun ok u => reply u (if ok then 0 else nakAccess) []))
      else
        .next (hold (t.busReads (.incoming port op rkey addr len payload) (portAgent port) (pieces pa len) fun b u =>
          reply u (if b.isSome then 0 else nakAccess) (b.getD [])))

end Sys2Proof.Machine
end

