-- ==== Sys2Proof/Machine/Reeve.lean ====
section
/-! DEFINITION. The instructions of the reeve and the beadle (R223 to R259), and the operations of a core that are no instruction:
the store buffer, the end of a wait, a trap for a late error. -/
namespace Sys2Proof.Machine
open Sys2Proof

/-! ### Issue -/

/-- A running cut waits for the reeve's store buffer to drain: the reeve issues nothing (R249). -/
def State.cutDrains (s : State) (h : Nat) : Bool :=
  !(s.ham h).reeve.storeBuf.isEmpty && (s.ham h).capR.isNone && (match s.regionOf h with | some (_, r) => r.cut.isSome | none => false)

/-- The task of a hamlet's region has been ended from outside (R353). -/
def State.taskAbandoned (s : State) (h : Nat) : Bool :=
  match s.regionOf h with
  | some (_, r) => r.task.any fun t => t.abandoned
  | none => false

/-- A core may issue an instruction: it runs, its hamlet's engines are free to act, and its task has not been ended from outside. -/
def State.canIssue (s : State) (c : CoreId) : Bool :=
  (match (s.coreOf c).run with | .running => true | _ => false) &&
  (match c with | .reeve h => s.engineFree h && !s.cutDrains h && !s.taskAbandoned h | .beadle => true)

/-- An instruction issued by the core that the state names; a core that cannot issue changes nothing. -/
def State.issue (s : State) (f : CoreId → State) : Out' := .next (if s.canIssue s.core then f s.core else s)

/-- A general register of a core. -/
def State.reg (s : State) (c : CoreId) (r : BitVec 5) : W64 := (s.coreOf c).reg r

/-- The instruction word of an instruction, as tval holds it (R228). -/
def wordOf (i : Instr) : W64 :=
  match encodeReeve i with
  | some w => w.setWidth 64
  | none => 0

/-- Trap "illegal instruction" (R228). -/
def State.illegal (s : State) (c : CoreId) (i : Instr) : State := s.takeTrap c 1 (wordOf i) false

/-- An instruction that the beadle has not: trap "fabric" there (R256). -/
def State.onReeve (s : State) (i : Instr) (f : Nat → State) : Out' :=
  s.issue fun c =>
    match c with
    | .reeve h => f h
    | .beadle => s.takeTrap c 8 (wordOf i) false

/-! ### Integer operations (R233, R234) -/

/-- `OP gd, ga, gb`. -/
def State.alu (s : State) (d a b : BitVec 5) (f : W64 → W64 → W64) : Out' :=
  s.issue fun c => s.retire c d (f (s.reg c a) (s.reg c b))
/-- `OP gd, ga, imm`, with the immediate sign-extended. -/
def State.aluImm (s : State) (d a : BitVec 5) (i : BitVec 16) (f : W64 → W64 → W64) : Out' :=
  s.issue fun c => s.retire c d (f (s.reg c a) (i.signExtend 64))

/-- 1 for true, 0 for false. -/
def flag64 (b : Bool) : W64 := if b then 1 else 0
/-- The shift count of a register operand: gb[5:0]. -/
def shiftOf (v : W64) : Nat := (v.extractLsb' 0 6).toNat

/-- The high half of a signed product. -/
def mulHigh (x y : W64) : W64 := BitVec.ofInt 64 (x.toInt * y.toInt / 2 ^ 64)
/-- The high half of an unsigned product. -/
def mulHighU (x y : W64) : W64 := BitVec.ofNat 64 (x.toNat * y.toNat / 2 ^ 64)
/-- Signed division, truncated towards zero; all ones for a divisor of 0 (R233). -/
def divS (x y : W64) : W64 := if y = 0 then BitVec.allOnes 64 else BitVec.ofInt 64 (x.toInt.tdiv y.toInt)
/-- Unsigned division; all ones for a divisor of 0 (R233). -/
def divU (x y : W64) : W64 := if y = 0 then BitVec.allOnes 64 else x / y
/-- The remainder of `divS`, with the sign of the dividend; the dividend for a divisor of 0 (R233). -/
def remS (x y : W64) : W64 := if y = 0 then x else BitVec.ofInt 64 (x.toInt.tmod y.toInt)
/-- The remainder of `divU`; the dividend for a divisor of 0 (R233). -/
def remU (x y : W64) : W64 := if y = 0 then x else x % y

/-- ADD (R233). -/
def execReeveAdd (d a b : BitVec 5) (s : State) : Out' := s.alu d a b fun x y => x + y
/-- SUB (R233). -/
def execReeveSub (d a b : BitVec 5) (s : State) : Out' := s.alu d a b fun x y => x - y
/-- AND (R233). -/
def execReeveAnd (d a b : BitVec 5) (s : State) : Out' := s.alu d a b fun x y => x &&& y
/-- OR (R233). -/
def execReeveOr (d a b : BitVec 5) (s : State) : Out' := s.alu d a b fun x y => x ||| y
/-- XOR (R233). -/
def execReeveXor (d a b : BitVec 5) (s : State) : Out' := s.alu d a b fun x y => x ^^^ y
/-- SLL (R233). -/
def execSll (d a b : BitVec 5) (s : State) : Out' := s.alu d a b fun x y => x <<< shiftOf y
/-- SRL (R233). -/
def execSrl (d a b : BitVec 5) (s : State) : Out' := s.alu d a b fun x y => x >>> shiftOf y
/-- SRA (R233). -/
def execReeveSra (d a b : BitVec 5) (s : State) : Out' := s.alu d a b fun x y => x.sshiftRight (shiftOf y)
/-- SLT (R233). -/
def execSlt (d a b : BitVec 5) (s : State) : Out' := s.alu d a b fun x y => flag64 (x.slt y)
/-- SLTU (R233). -/
def execSltu (d a b : BitVec 5) (s : State) : Out' := s.alu d a b fun x y => flag64 (x.ult y)
/-- MUL (R233). -/
def execReeveMul (d a b : BitVec 5) (s : State) : Out' := s.alu d a b fun x y => x * y
/-- MULH (R233). -/
def execReeveMulh (d a b : BitVec 5) (s : State) : Out' := s.alu d a b mulHigh
/-- MULHU (R233). -/
def execReeveMulhu (d a b : BitVec 5) (s : State) : Out' := s.alu d a b mulHighU
/-- DIV (R233). -/
def execDiv (d a b : BitVec 5) (s : State) : Out' := s.alu d a b divS
/-- DIVU (R233). -/
def execDivu (d a b : BitVec 5) (s : State) : Out' := s.alu d a b divU
/-- REM (R233). -/
def execRem (d a b : BitVec 5) (s : State) : Out' := s.alu d a b remS
/-- REMU (R233). -/
def execRemu (d a b : BitVec 5) (s : State) : Out' := s.alu d a b remU
/-- MIN (R233). -/
def execReeveMin (d a b : BitVec 5) (s : State) : Out' := s.alu d a b fun x y => if y.slt x then y else x
/-- MAX (R233). -/
def execReeveMax (d a b : BitVec 5) (s : State) : Out' := s.alu d a b fun x y => if x.slt y then y else x

/-- ADDI (R234). -/
def execAddi (d a : BitVec 5) (i : BitVec 16) (s : State) : Out' := s.aluImm d a i fun x y => x + y
/-- ANDI (R234). -/
def execAndi (d a : BitVec 5) (i : BitVec 16) (s : State) : Out' := s.aluImm d a i fun x y => x &&& y
/-- ORI (R234). -/
def execOri (d a : BitVec 5) (i : BitVec 16) (s : State) : Out' := s.aluImm d a i fun x y => x ||| y
/-- XORI (R234). -/
def execXori (d a : BitVec 5) (i : BitVec 16) (s : State) : Out' := s.aluImm d a i fun x y => x ^^^ y
/-- SLLI (R234). -/
def execSlli (d a : BitVec 5) (k : BitVec 6) (s : State) : Out' := s.issue fun c => s.retire c d (s.reg c a <<< k.toNat)
/-- SRLI (R234). -/
def execSrli (d a : BitVec 5) (k : BitVec 6) (s : State) : Out' := s.issue fun c => s.retire c d (s.reg c a >>> k.toNat)
/-- SRAI (R234). -/
def execSrai (d a : BitVec 5) (k : BitVec 6) (s : State) : Out' := s.issue fun c => s.retire c d ((s.reg c a).sshiftRight k.toNat)
/-- SLTI (R234). -/
def execSlti (d a : BitVec 5) (i : BitVec 16) (s : State) : Out' := s.aluImm d a i fun x y => flag64 (x.slt y)
/-- LUI (R234). -/
def execLui (d : BitVec 5) (i : BitVec 16) (s : State) : Out' :=
  s.issue fun c => s.retire c d ((i ++ (0 : BitVec 16)).signExtend 64)

/-! ### Branches and jumps (R235, R236) -/

/-- The target of a word offset, counted from the instruction's own address. -/
def target {n : Nat} (pc : W64) (o : BitVec n) : W64 := pc + 4 * o.signExtend 64

/-- `OP ga, gb, label`. -/
def State.branch (s : State) (a b : BitVec 5) (o : BitVec 16) (p : W64 → W64 → Bool) : Out' :=
  s.issue fun c =>
    let pc := (s.coreOf c).pc
    s.jumpTo c 0 0 (if p (s.reg c a) (s.reg c b) then target pc o else pc + 4)

/-- BEQ (R235). -/
def execBeq (a b : BitVec 5) (o : BitVec 16) (s : State) : Out' := s.branch a b o fun x y => x == y
/-- BNE (R235). -/
def execBne (a b : BitVec 5) (o : BitVec 16) (s : State) : Out' := s.branch a b o fun x y => x != y
/-- BLT (R235). -/
def execBlt (a b : BitVec 5) (o : BitVec 16) (s : State) : Out' := s.branch a b o fun x y => x.slt y
/-- BGE (R235). -/
def execBge (a b : BitVec 5) (o : BitVec 16) (s : State) : Out' := s.branch a b o fun x y => !x.slt y
/-- BLTU (R235). -/
def execBltu (a b : BitVec 5) (o : BitVec 16) (s : State) : Out' := s.branch a b o fun x y => x.ult y
/-- BGEU (R235). -/
def execBgeu (a b : BitVec 5) (o : BitVec 16) (s : State) : Out' := s.branch a b o fun x y => !x.ult y
/-- JAL (R236). -/
def execJal (d : BitVec 5) (o : BitVec 21) (s : State) : Out' :=
  s.issue fun c => s.jumpTo c d ((s.coreOf c).pc + 4) (target (s.coreOf c).pc o)
/-- JALR (R236). -/
def execJalr (d a : BitVec 5) (i : BitVec 16) (s : State) : Out' :=
  s.issue fun c =>
    let t := s.reg c a + i.signExtend 64
    if t.extractLsb' 0 2 ≠ 0 then s.takeTrap c 3 t false else s.jumpTo c d ((s.coreOf c).pc + 4) t

/-! ### Loads (R237 to R240) -/

/-- Bytes read by a core with its own writes laid over them. -/
def State.overlay (s : State) (c : CoreId) (pa : Nat) (b : List Byte) : List Byte :=
  layOver (s.ownWrites c) pa b

/-- A store of the core to the management range has yet to be performed. -/
def Core.mgmtPending (k : Core) : Bool := k.storeBuf.any fun e => decide (placeOf e.pa = .mgmt)

/-- A read of n bytes at a physical address by a core, as its home answers it: a register of the management range for the beadle (R378),
else memory. -/
def State.homeReadAt (s : State) (c : CoreId) (pa n : Nat) : MemRes (List Byte) :=
  match placeOf pa with
  | .mgmt =>
    if n ≠ 8 then .err (s.logErr (refuseLog (s.coreAgent c) pa 1))
    else if (s.coreOf c).mgmtPending then .wait s
    else
      match s.mgmtRead pa with
      | some v => .ok (leBytes 8 v.toNat) s
      | none => .err (s.logErr (refuseLog (s.coreAgent c) pa 2))
  | _ => s.readPhys (s.coreAgent c) pa n
/-- A read by a core as it sees memory: its own writes on their way are laid over (R240, R258). -/
def State.coreReadAt (s : State) (c : CoreId) (pa n : Nat) : MemRes (List Byte) :=
  match s.homeReadAt c pa n with
  | .ok b t => .ok (if placeOf pa = .mgmt then b else t.overlay c pa b) t
  | .wait t => .wait t
  | .err t => .err t

/-- A read by a core at a virtual address: what it comes to, with the value that `f` makes of the bytes. `read` is the read at the physical
address: the core's own view (R258), or the home's answer for a barrier (R284). -/
def State.coreRead (s : State) (c : CoreId) (ea : W64) (n : Nat) (f : List Byte → W64)
    (read : State → CoreId → Nat → Nat → MemRes (List Byte) := State.coreReadAt) : ReqRes :=
  match s.coreXlat c ea.toNat .load with
  | .fault k t => .fault ea.toNat .load k t
  | .wait t => .wait t
  | .err t => .trap 4 ea t
  | .ok pa t => t.corePhys c ea pa false fun u => (read u c pa n).map f

/-- `OP gd, [ga+imm]` of n bytes. -/
def State.load (s : State) (d a : BitVec 5) (i : BitVec 16) (n : Nat) (f : List Byte → W64) : Out' :=
  s.issue fun c =>
    let ea := s.reg c a + i.signExtend 64
    if ea.toNat % n ≠ 0 then s.takeTrap c 3 ea false else State.finish c d ea .page (s.coreRead c ea n f)

/-- Bytes sign-extended from a width. -/
def signed (n : Nat) (b : List Byte) : W64 := (BitVec.ofNat n (leNat b)).signExtend 64
/-- Bytes zero-extended. -/
def unsigned (b : List Byte) : W64 := BitVec.ofNat 64 (leNat b)

/-- LB (R237). -/
def execLb (d a : BitVec 5) (i : BitVec 16) (s : State) : Out' := s.load d a i 1 (signed 8)
/-- LH (R237). -/
def execLh (d a : BitVec 5) (i : BitVec 16) (s : State) : Out' := s.load d a i 2 (signed 16)
/-- LW (R237). -/
def execLw (d a : BitVec 5) (i : BitVec 16) (s : State) : Out' := s.load d a i 4 (signed 32)
/-- LD (R237). -/
def execReeveLd (d a : BitVec 5) (i : BitVec 16) (s : State) : Out' := s.load d a i 8 unsigned
/-- LBU (R237). -/
def execLbu (d a : BitVec 5) (i : BitVec 16) (s : State) : Out' := s.load d a i 1 unsigned
/-- LHU (R237). -/
def execLhu (d a : BitVec 5) (i : BitVec 16) (s : State) : Out' := s.load d a i 2 unsigned
/-- LWU (R237). -/
def execLwu (d a : BitVec 5) (i : BitVec 16) (s : State) : Out' := s.load d a i 4 unsigned

/-! ### Stores (R237, R238, R249) -/

/-- A store into the store buffer of a core (R249); behind a FENCE with release it is a release at that fence's scope (R286). -/
def State.bufferStore (s : State) (c : CoreId) (pa : Nat) (b : List Byte) : State :=
  let k := s.coreOf c
  (s.setCore c { k with
    storeBuf := k.storeBuf ++ [{ pa := pa, bytes := b, rel := k.relScope.isSome, scope := k.relScope.getD 0 }] }).retire c 0 0

/-- `OP gb, [ga+imm]` of n bytes: it waits while the buffer is full. -/
def State.store (s : State) (b a : BitVec 5) (i : BitVec 16) (n : Nat) : Out' :=
  s.issue fun c =>
    let ea := s.reg c a + i.signExtend 64
    if ea.toNat % n ≠ 0 then s.takeTrap c 3 ea false
    else
      match s.coreXlat c ea.toNat .store with
      | .fault k t => t.xlatWait c ea.toNat .store k ea .page
      | .wait t => t
      | .err t => t.takeTrap c 4 ea false
      | .ok pa t =>
        match coreRefuses c pa true with
        | some k => (t.refuseCore c pa k).takeTrap c 4 ea false
        | none => if 8 ≤ (t.coreOf c).storeBuf.length then t else t.bufferStore c pa (leBytes n (s.reg c b).toNat)

/-- SB (R237). -/
def execSb (b a : BitVec 5) (i : BitVec 16) (s : State) : Out' := s.store b a i 1
/-- SH (R237). -/
def execSh (b a : BitVec 5) (i : BitVec 16) (s : State) : Out' := s.store b a i 2
/-- SW (R237). -/
def execSw (b a : BitVec 5) (i : BitVec 16) (s : State) : Out' := s.store b a i 4
/-- SD (R237). -/
def execSd (b a : BitVec 5) (i : BitVec 16) (s : State) : Out' := s.store b a i 8

/-- The oldest entry of a core's store buffer has been performed. -/
def State.popStore (s : State) (c : CoreId) : State :=
  s.setCore c { s.coreOf c with storeBuf := (s.coreOf c).storeBuf.tail }
/-- One entry of the store buffer at its target; an error response is logged as error kind 10 alone (R238). A refused write of the
management plane is logged by R378: another size as kind 1, an address that lists no register as kind 2. -/
def State.storeAt (s : State) (c : CoreId) (e : StoreEnt) : State :=
  match placeOf e.pa with
  | .mgmt =>
    if e.bytes.length ≠ 8 then (s.popStore c).logErr (refuseLog (s.coreAgent c) e.pa 1)
    else
      match s.mextWait e.pa (unsigned e.bytes) with
      | some t => t
      | none =>
        match (s.popStore c).mgmtWrite e.pa (unsigned e.bytes) with
        | some t => t
        | none => (s.popStore c).logErr (refuseLog (s.coreAgent c) e.pa 2)
  | _ =>
    match s.writeBytesPhys { s.coreAgent c with posted := true } c.isBeadle e.pa e.bytes with
    | .ok _ t => t.popStore c
    | .wait t => t
    | .err t => t.popStore c

/-- The newest held entry of a hamlet is a write that an invalidation waits for (R348). -/
def State.markNewest (s : State) (h : Nat) : State :=
  let x := s.ham h
  s.setHam h { x with held := x.held.map fun e => if e.idx + 1 = x.heldNext then { e with inv := true } else e }

/-- STORE_PERFORM (R249, R240): the oldest entry of the store buffer is performed, or placed in the held-write buffer of a held-mode
region. -/
def execStorePerform (h : Nat) (s : State) : Out' :=
  let c := coreOfNum h
  match (s.coreOf c).storeBuf with
  | [] => .next s
  | e :: _ =>
    let held := match c with | .reeve g => s.outbound g e.pa | .beadle => false
    if held then
      match s.hold h (.write 3 0 (cellsAt e.pa e.bytes)) e.rel e.scope (s.ham h).capR.isSome with
      | some t => .next ((if e.inv then t.markNewest h else t).popStore c)
      | none => .next s
    else if s.coreAfter c e.pa then .next s
    else .next (s.storeAt c e)

/-- A core that runs a task, or waits in one, and so takes a trap. -/
def Run.live (r : Run) : Bool :=
  match r with
  | .idle | .rom | .done | .halted => false
  | _ => true

/-- LATE_ACCESS_TRAP (R226, R228, R238): the error response on its way to the access of the instruction at `epc` returns, and the core traps
there, its register not written; the instructions issued since have run. Its target has logged the address. -/
def execLateAccessTrap (h : Nat) (ea epc : W64) (s : State) : Out' :=
  let c := coreOfNum h
  let k := s.coreOf c
  match k.owedErr.find? fun x => decide (x.epc = epc ∧ x.ea = ea) with
  | some x =>
    if k.run.live then .next ((s.setCore c { k with pc := epc, run := .running, owedErr := k.owedErr.erase x }).takeTrap c 4 ea x.ran)
    else .next s
  | none => .next s
/-- The oldest error response on its way to a core returns where later instructions have issued by now (log entry 82). -/
def State.errorReturns (s : State) (h : Nat) : Out' :=
  match (s.coreOf (coreOfNum h)).owedErr with
  | x :: _ => if x.ran then execLateAccessTrap h x.ea x.epc s else .next s
  | [] => .next s

/-- TRANSLATION_RETRY (R239, R352): the access issues again once its fault is resolved; a refused fault ends it with its trap or
its cause. -/
def execTranslationRetry (h : Nat) (s : State) : Out' :=
  let c := coreOfNum h
  let k := s.coreOf c
  match k.run with
  | .xlat _ (some true) _ _ => .next (s.setCore c { k with run := .running })
  | .xlat _ (some false) ea o =>
    let t := s.setCore c { k with run := .running }
    .next (match o with
      | .page => t.takeTrap c 5 ea false
      | .access => t.takeTrap c 4 ea false
      | .code d => t.retire c d 5)
  | _ => .next s

/-! ### Atomics (R241) -/

/-- A core's store buffer has drained, so that every earlier store has been performed or held. -/
def State.drained (s : State) (c : CoreId) : Bool := (s.coreOf c).storeBuf.isEmpty

/-- The reeve of a hamlet has writes or requests in the held-write buffer: they are performed at no scope yet (R292). -/
def Hamlet.holdsOwn (x : Hamlet) : Bool :=
  x.held.any fun e => match e.op with | .write 3 _ _ => true | .reeve _ => true | _ => false
/-- Every earlier store of a core has been performed at its scope (R241, R243, R292). -/
def State.released (s : State) (c : CoreId) : Bool :=
  s.drained c && (match c with | .reeve h => !(s.ham h).holdsOwn | .beadle => true)
/-- A request with release on a location within the region of a held-mode hamlet waits for the held writes before it (R241, R292); one on
a location outside is sent behind them, with its cut. -/
def State.relWaits (s : State) (c : CoreId) (ga : W64) (rel : Bool) : Bool :=
  rel && !s.released c &&
    (match c with
     | .reeve h => (match s.coreXlat c ga.toNat .atomic with | .ok pa t => !t.outbound h pa | _ => false)
     | .beadle => false)

/-- `OP gd, gb, [ga], width, order, scope`: it is performed behind the core's earlier stores. -/
def State.amo (s : State) (op : AmoOp) (d a b : BitVec 5) (o : BitVec 2) (w : BitVec 1) : Out' :=
  s.issue fun c =>
    let ga := s.reg c a
    if ga.toNat % (if w = 1 then 4 else 8) ≠ 0 then s.takeTrap c 3 ga false
    else if s.drained c && !s.relWaits c ga (o.getLsbD 1) then
      s.issueCall c { req := .amo op (decide (w = 1)), d := d, gd := s.reg c d, ga := ga, gb := s.reg c b }
    else s

/-- AMOADD (R241). -/
def execAmoadd (d a b : BitVec 5) (_sc : BitVec 3) (o : BitVec 2) (w : BitVec 1) (s : State) : Out' := s.amo .add d a b o w
/-- AMOSWAP (R241). -/
def execAmoswap (d a b : BitVec 5) (_sc : BitVec 3) (o : BitVec 2) (w : BitVec 1) (s : State) : Out' := s.amo .swap d a b o w
/-- AMOAND (R241). -/
def execAmoand (d a b : BitVec 5) (_sc : BitVec 3) (o : BitVec 2) (w : BitVec 1) (s : State) : Out' := s.amo .and d a b o w
/-- AMOOR (R241). -/
def execAmoor (d a b : BitVec 5) (_sc : BitVec 3) (o : BitVec 2) (w : BitVec 1) (s : State) : Out' := s.amo .or d a b o w
/-- AMOXOR (R241). -/
def execAmoxor (d a b : BitVec 5) (_sc : BitVec 3) (o : BitVec 2) (w : BitVec 1) (s : State) : Out' := s.amo .xor d a b o w
/-- AMOMIN (R241). -/
def execAmomin (d a b : BitVec 5) (_sc : BitVec 3) (o : BitVec 2) (w : BitVec 1) (s : State) : Out' := s.amo .min d a b o w
/-- AMOMAX (R241). -/
def execAmomax (d a b : BitVec 5) (_sc : BitVec 3) (o : BitVec 2) (w : BitVec 1) (s : State) : Out' := s.amo .max d a b o w
/-- AMOCAS (R241). -/
def execAmocas (d a b : BitVec 5) (_sc : BitVec 3) (o : BitVec 2) (w : BitVec 1) (s : State) : Out' := s.amo .cas d a b o w

/-! ### Fences (R243, R244) -/

/-- The carter of a hamlet is idle. -/
def State.carterIdle (s : State) (h : Nat) : Bool := (s.ham h).carter.q.isEmpty && (s.ham h).carter.cur.isNone

/-- A FENCE with release leaves its scope to the core's later writes: each is a release at the widest such scope (R286). -/
def State.fenced (s : State) (c : CoreId) (sc : BitVec 3) (f : BitVec 3) : State :=
  if f.getLsbD 1 then
    let k := s.coreOf c
    s.setCore c { k with relScope := some (match k.relScope with | some w => if w < sc then sc else w | none => sc) }
  else s

/-- FENCE (R243): with release it waits until every earlier store has been performed at its scope, with engines until every earlier COPY
has completed; earlier loads have returned. -/
def execFence (sc : BitVec 3) (f : BitVec 3) (s : State) : Out' :=
  s.issue fun c =>
    let copies := match c with | .reeve h => s.carterIdle h | .beadle => true
    if (!f.getLsbD 1 || s.released c) && (!f.getLsbD 2 || copies) then (s.fenced c sc f).retire c 0 0 else s

/-- PFENCE (R244, R376): a cut that covers the reeve's earlier accesses; gd takes its number once it is complete. A hamlet that holds
no region is cut alone, its store buffer drained. -/
def execPfence (d : BitVec 5) (sc : BitVec 3) (s : State) : Out' :=
  s.onReeve (.pfence d sc) fun h =>
    match s.regionOf h with
    | some _ => s.waitCut h (.pfence d)
    | none => if s.drained (.reeve h) then (s.retire (.reeve h) d (BitVec.ofNat 64 (s.ham h).cutSeq)).loneCut h else s

/-! ### Control registers (R225, R242, R256) -/

/-- The numbers of the registers that the beadle reads as 0 and whose writes it ignores (R256). -/
def beadleZero (n : Nat) : Bool := [0x0, 0x1, 0x9, 0xA, 0xB, 0xC, 0xD].contains n
/-- A control register is read-only on a core (R225, R256). -/
def readOnly (c : CoreId) (n : Nat) : Bool :=
  if c.isBeadle then [0xE, 0xF, 0x10, 0x11, 0x12, 0x13].contains n
  else [0x0, 0x1, 0x2, 0x3, 0x9, 0xB, 0xE, 0xF, 0x10, 0x11, 0x12, 0x13].contains n

/-- hamlet_id (R225). -/
def State.hamletId (s : State) (h : Nat) : W64 :=
  match s.regionOf h with
  | some (f, r) => BitVec.ofNat 64 (h % 256 + (h - f) % 8 * 2 ^ 8 + f % 256 * 2 ^ 16 + r.n % 16 * 2 ^ 24)
  | none => BitVec.ofNat 64 (h % 256)
/-- mstat (R225). -/
def Core.mstat (k : Core) (beadle : Bool) : W64 :=
  (if k.mT then 1 else 0) + (if k.mPt then 2 else 0) + (if beadle then 4 else 0) + (if k.mLate then 8 else 0)

/-- The event records that a reeve reads: those that entered the queue before this cycle (R142); in a running cut that it has yet to
record, those ahead of the boundary (R143, R359). -/
def Core.evSeen (k : Core) : List W64 :=
  let l := k.evq.take (k.evq.length - k.evFresh)
  match k.evMark with | some m => l.take m | none => l
/-- The oldest event record popped (R142). -/
def Core.evPop (k : Core) : Core :=
  if k.evSeen.isEmpty then k else { k with evq := k.evq.tail, evPopped := k.evPopped + 1, evMark := k.evMark.map fun m => m - 1 }

/-- The value of a control register of a core (R225). -/
def State.csrRead (s : State) (c : CoreId) (n : Nat) : W64 :=
  let k := s.coreOf c
  if c.isBeadle && beadleZero n then 0
  else
    match n, c with
    | 0x0, _ => BitVec.ofNat 64 (k.ctx % 64)
    | 0x1, .reeve h => s.hamletId h
    | 0x2, _ => k.arenaBase
    | 0x3, _ => k.arenaBound
    | 0x4, _ => k.tvec
    | 0x5, _ => k.tcause
    | 0x6, _ => k.tval
    | 0x7, _ => k.epc
    | 0x8, _ => k.mstat c.isBeadle
    | 0x9, _ => s.quota k.ctx
    | 0xA, _ => k.shadowIval
    | 0xB, .reeve h => BitVec.ofNat 64 ((s.ham h).cutSeq - 1)
    | 0xC, _ => k.heldBase
    | 0xD, _ => k.heldSize
    | 0xE, _ => BitVec.ofNat 64 k.evSeen.length
    | 0xF, _ => k.evSeen.headD 0
    | 0x10, _ => BitVec.ofNat 64 s.cycle
    | 0x11, _ => k.instret
    | 0x12, .reeve h => BitVec.ofNat 64 (s.regstat h)
    | 0x13, .reeve h => (match s.regionOf h with | some (_, r) => r.stopinfo | none => 0)
    | _, _ => 0

/-- shadow_ival as a written value is held (R225). -/
def ivalWritten (v : W64) : W64 := BitVec.ofNat 64 (clampNat 4096 1048576 v.toNat)
/-- A value within the firmware store, which the beadle's arena_base takes (R225, R256). -/
def inStore (v : W64) : Bool := decide (storeBase ≤ v.toNat ∧ v.toNat < storeBase + 0x1000000)
/-- A value that the beadle's arena_bound takes: within the store, or its end, as a bound (R256, log entry 48). -/
def boundInStore (v : W64) : Bool := decide (storeBase ≤ v.toNat ∧ v.toNat ≤ storeBase + 0x1000000)
/-- A value with bits [1:0] zero. -/
def aligned4 (v : W64) : W64 := v &&& ~~~3
/-- A value with bits [11:0] zero. -/
def aligned4k (v : W64) : W64 := v &&& ~~~0xFFF

/-- A core with a control register written (R225, R256). The beadle's arena_base and arena_bound take a value with its low 12 bits zeroed,
where the spec is silent on one that is not aligned (DESIGN CHOICE, log entry 48). -/
def Core.csrWrite (k : Core) (beadle : Bool) (n : Nat) (v : W64) : Core :=
  if beadle && beadleZero n then k
  else
    match n with
    | 0x2 => if beadle && inStore v then { k with arenaBase := aligned4k v } else k
    | 0x3 => if beadle && boundInStore v then { k with arenaBound := aligned4k v } else k
    | 0x4 => { k with tvec := aligned4 v }
    | 0x5 => { k with tcause := v }
    | 0x6 => { k with tval := v }
    | 0x7 => { k with epc := aligned4 v }
    | 0x8 => { k with mT := v.getLsbD 0, mPt := v.getLsbD 1, mLate := v.getLsbD 3 }
    | 0xA => { k with shadowIval := ivalWritten v }
    | 0xC => { k with heldBase := baseHeld v }
    | 0xD => { k with heldSize := sizeHeld v }
    | _ => k

/-- CSRR of a core (R242): a read of evq pops one record (R142). -/
def State.csrReadInto (s : State) (c : CoreId) (d : BitVec 5) (n : Nat) : State :=
  let v := s.csrRead c n
  let s1 := if n = 0xF then s.setCore c (s.coreOf c).evPop else s
  s1.retire c d v

/-- CSRR (R242). -/
def execCsrr (d : BitVec 5) (n : BitVec 12) (s : State) : Out' := s.issue fun c => s.csrReadInto c d n.toNat

/-- A writing CSR instruction (R242): gd takes the old value; a read-only register makes it illegal. -/
def State.csr (s : State) (i : Instr) (d a : BitVec 5) (n : BitVec 12) (f : W64 → W64 → W64) : Out' :=
  s.issue fun c =>
    if readOnly c n.toNat then s.illegal c i
    else
      let old := s.csrRead c n.toNat
      (s.setCore c ((s.coreOf c).csrWrite c.isBeadle n.toNat (f old (s.reg c a)))).retire c d old

/-- CSRW (R242). -/
def execCsrw (d a : BitVec 5) (n : BitVec 12) (s : State) : Out' := s.csr (.csrw d a n) d a n fun _ v => v
/-- CSRS (R242). -/
def execCsrs (d a : BitVec 5) (n : BitVec 12) (s : State) : Out' := s.csr (.csrs d a n) d a n fun old v => old ||| v
/-- CSRC (R242). -/
def execCsrc (d a : BitVec 5) (n : BitVec 12) (s : State) : Out' := s.csr (.csrc d a n) d a n fun old v => old &&& ~~~v

/-! ### Fabric instructions (R245 to R248) -/

/-- A fabric instruction of the lead reeve: trap "fabric" on any other reeve and without a region (R248). -/
def State.onLead (s : State) (i : Instr) (f : Nat → Region → State) : Out' :=
  s.onReeve i fun h =>
    match s.regionOf h with
    | some (g, r) => if g = h then f h r else s.takeTrap (.reeve h) 8 (wordOf i) false
    | none => s.takeTrap (.reeve h) 8 (wordOf i) false

/-- CFGLD (R245): the image at ga, as the reeve sees memory (R258), is checked and loaded into the region; an armed region reports cause
9. Its read waits as any read of the arena (R381), and traps as a load does where it gets an error response (R238, R262; log entry 62). -/
def execCfgld (d a : BitVec 5) (s : State) : Out' :=
  s.onLead (.cfgld d a) fun h r =>
    if r.st = .armed then s.retire (.reeve h) d (report 9 0 0 0 0)
    else
      let ga := s.reg (.reeve h) a
      match s.imageIn h ga with
      | .ok _ t =>
        let w := t.loadImage h (t.ham h).reeve (t.seenBy (.reeve h) t.mem) ga
        w.2.retire (.reeve h) d w.1
      | .wait t => t
      | .err t => t.takeTrap (.reeve h) 4 ga false

/-- CFGARM (R245, R297, R412): it waits for the reeve's earlier stores and copies. -/
def execCfgarm (d : BitVec 5) (f : BitVec 2) (s : State) : Out' :=
  s.onLead (.cfgarm d f) fun h _ =>
    if s.drained (.reeve h) && s.carterIdle h then
      match s.tryArm h (f.getLsbD 0) (f.getLsbD 1) with
      | .done v t => t.retire (.reeve h) d v
      | .wait t => t
    else s

/-- The lead reeve waits for a stop to land. -/
def State.cfgWaits (s : State) (h : Nat) (d : BitVec 5) : State :=
  s.setCore (.reeve h) { s.coreOf (.reeve h) with run := .cfgWait d }

/-- CFGSTOP (R245, R414): an armed region is disarmed at the next cycle boundary. -/
def execCfgstop (d : BitVec 5) (s : State) : Out' :=
  s.onLead (.cfgstop d) fun h r =>
    if r.st = .armed then (s.outsideStop h 4).cfgWaits h d else s.retire (.reeve h) d 10

/-- CFGSWAP (R245): an armed region with no token stops, takes the image at ga, and is armed in the same modes. -/
def execCfgswap (d a : BitVec 5) (s : State) : Out' :=
  s.onLead (.cfgswap d a) fun h r =>
    if r.st ≠ .armed then s.retire (.reeve h) d (report 10 0 0 0 0)
    else if s.headcount h ≠ 0 then s.retire (.reeve h) d (report 9 0 0 0 0)
    else if r.stopping.isSome then s
    else
      (s.setRegion h { r with stopping := some { info := stopInfo 6 0 0 0 0 0, swap := some (s.reg (.reeve h) a) } }).cfgWaits h d

/-- CFGFALLOW (R245, R395). -/
def execCfgfallow (d : BitVec 5) (s : State) : Out' :=
  s.onLead (.cfgfallow d) fun h _ => (s.startFallow h).cfgWaits h d

/-- CUTREQ (R245, R248): a cut is asked for, and gd takes its number; a hamlet that holds no region is cut alone. -/
def execCutreq (d : BitVec 5) (sc : BitVec 3) (s : State) : Out' :=
  s.onReeve (.cutreq d sc) fun h =>
    match s.regionOf h with
    | some _ => (s.askCut h (s.ham h).capR.isSome).retire (.reeve h) d (BitVec.ofNat 64 (s.nextCut h))
    | none => if s.drained (.reeve h) then (s.retire (.reeve h) d (BitVec.ofNat 64 (s.ham h).cutSeq)).loneCut h else s

/-- What ga names for ELRD, ELWR and STALLRD (R246, R248): an element of a hamlet and its item, a trough word of a hamlet, nothing
(an operand trap), or trap "fabric". -/
inductive Item where
  | elem (h site item : Nat)
  | trough (h n word : Nat)
  | operand
  | fabric

/-- The item that ga names on the reeve of a hamlet (R246, R248). -/
def State.itemOf (s : State) (h : Nat) (ga : W64) : Item :=
  let site := (ga.extractLsb' 0 6).toNat
  let idx := (ga.extractLsb' 6 3).toNat
  let item := (ga.extractLsb' 9 7).toNat
  match s.regionOf h with
  | none =>
    if ga.toNat < 2 ^ 16 ∧ item < 64 then .fabric
    else if 2 ^ 16 ≤ ga.toNat ∨ site ≠ 0 ∨ idx ≠ 0 then .operand
    else .trough h ((item - 64) / 4) ((item - 64) % 4)
  | some (f, r) =>
    if 2 ^ 16 ≤ ga.toNat ∨ r.n ≤ idx then .operand
    else if item < 64 then .elem (f + idx) site item
    else if site ≠ 0 then .operand
    else .trough (f + idx) ((item - 64) / 4) ((item - 64) % 4)

/-- Trap "operand" at a register value (R228). -/
def State.operandTrap (s : State) (h : Nat) (v : W64) : State := s.takeTrap (.reeve h) 7 v false

/-- ELRD (R246): an item as it stood at the end of the previous cycle. -/
def execElrd (d a : BitVec 5) (s : State) : Out' :=
  s.onReeve (.elrd d a) fun h =>
    let ga := s.reg (.reeve h) a
    match s.itemOf h ga with
    | .fabric => s.takeTrap (.reeve h) 8 (wordOf (.elrd d a)) false
    | .operand => s.operandTrap h ga
    | .trough g n k => s.retire (.reeve h) d ((Tab.get (s.ham0 g).troughs {} n).word k)
    | .elem g site n =>
      match (Tab.get (s.ham0 g).elems {} site).item n with
      | some v => s.retire (.reeve h) d v
      | none => s.operandTrap h ga

/-- The region of a hamlet is armed. -/
def State.regionArmed (s : State) (h : Nat) : Bool :=
  match s.regionOf h with
  | some (_, r) => decide (r.st = .armed)
  | none => false

/-- ELWR (R246, R162): the write lands at the end of the cycle. One of a trough descriptor waits where a running cut has recorded the reeve and
not every agent (R361). Of items 8 to 11 in an armed region the spec gives two answers, an operand trap and cause 9: the model gives cause 9
(DESIGN CHOICE, log entry 76). -/
def execElwr (d a b : BitVec 5) (s : State) : Out' :=
  s.onReeve (.elwr d a b) fun h =>
    let ga := s.reg (.reeve h) a
    let gb := s.reg (.reeve h) b
    match s.itemOf h ga with
    | .fabric => s.takeTrap (.reeve h) 8 (wordOf (.elwr d a b)) false
    | .operand => s.operandTrap h ga
    | .trough g n k =>
      if s.afterWait (some h) (s.ham h).capR.isSome g then s
      else let w := s.writeTrough g n k gb; w.2.retire (.reeve h) d w.1
    | .elem g site n =>
      if n ≤ 12 ∧ s.regionArmed h then s.retire (.reeve h) d 9
      else if 8 ≤ n ∧ n ≠ 12 then s.operandTrap h ga
      else ({ s with itemWrites := s.itemWrites ++ [.elem g site n gb] } : State).retire (.reeve h) d 0

/-- STALLRD (R247): the counter as the cycle began; read-and-clear leaves in it what the element has added in this cycle. On a reeve whose
hamlet holds no region it always traps "fabric" (R248). -/
def execStallrd (d a : BitVec 5) (f : BitVec 1) (s : State) : Out' :=
  s.onReeve (.stallrd d a f) fun h =>
    let ga := s.reg (.reeve h) a
    let fabric := s.takeTrap (.reeve h) 8 (wordOf (.stallrd d a f)) false
    if (s.regionOf h).isNone then fabric
    else
    match s.itemOf h ga with
    | .fabric => fabric
    | .operand => s.operandTrap h ga
    | .trough _ _ _ => s.operandTrap h ga
    | .elem g site n =>
      let kind := siteKind site
      let ctx := (s.coreOf (.reeve h)).ctx
      match (Tab.get (s.ham0 g).elems {} site).counter kind ctx n (decide (f = 1)), (s.elem g site).counter kind ctx n (decide (f = 1)) with
      | some (v, _), some (w, set) => (if f = 1 then s.setElem g site (set (w - v)) else s).retire (.reeve h) d v
      | _, _ => s.operandTrap h ga

/-! ### COPY (R250) -/

/-- COPY (R250): one command enters the carter's queue; it waits while the queue is full, and with acquire until the reeve's earlier stores are
performed or held (R280). Of a size beyond its limit and a misaligned completion address at once, for which the spec gives no priority, the
size traps (DESIGN CHOICE, log entry 79). -/
def execCopy (d a b : BitVec 5) (sc : BitVec 3) (f : BitVec 2) (s : State) : Out' :=
  s.onReeve (.copy d a b sc f) fun h =>
    let size := s.reg (.reeve h) d
    let comp := s.reg (.reeve h) (d + 1)
    if 2 ^ 40 ≤ size.toNat then s.operandTrap h size
    else if comp.toNat % 32 ≠ 0 then s.takeTrap (.reeve h) 3 comp false
    else if f.getLsbD 0 && !s.drained (.reeve h) then s
    else
      let k := (s.ham h).carter
      if 16 ≤ k.q.length then s
      else
        let x : CopyCmd := { src := s.reg (.reeve h) a, dst := s.reg (.reeve h) b, size := size.toNat, comp := comp, acq := f.getLsbD 0,
                             rel := f.getLsbD 1, scope := sc, held := (s.ham h).heldNext }
        (s.setHam h { s.ham h with carter := { k with q := k.q ++ [x] } }).retire (.reeve h) 0 0

/-! ### Barriers (R251) -/

/-- A request on the barrier at ga, 32-byte aligned; it is performed behind the core's earlier stores. -/
def State.barrierOn (s : State) (c : CoreId) (ga : W64) (rel : Bool) (f : State) : State :=
  if ga.toNat % 32 ≠ 0 then s.takeTrap c 3 ga false else if s.drained c && !s.relWaits c ga rel then f else s

/-- BINIT (R251). Of a misaligned ga and a gb outside its limits at once, for which the spec gives no priority, ga traps (DESIGN CHOICE, log
entry 79). -/
def execBinit (d a b : BitVec 5) (s : State) : Out' :=
  s.issue fun c =>
    let ga := s.reg c a
    let gb := s.reg c b
    s.barrierOn c ga false
      (if gb = 0 ∨ 65536 ≤ gb.toNat then s.takeTrap c 7 gb false
       else s.issueCall c { req := .binit, d := d, gd := s.reg c d, ga := ga, gb := gb })
/-- BARV (R251, R305). -/
def execBarv (d a b : BitVec 5) (_sc : BitVec 3) (f : BitVec 1) (s : State) : Out' :=
  s.issue fun c => s.barrierOn c (s.reg c a) (decide (f = 1)) (s.issueCall c { req := .barv, d := d, gd := s.reg c d, ga := s.reg c a, gb := s.reg c b })
/-- BEXP (R251, R305). -/
def execBexp (d a b : BitVec 5) (_sc : BitVec 3) (f : BitVec 1) (s : State) : Out' :=
  s.issue fun c => s.barrierOn c (s.reg c a) (decide (f = 1)) (s.issueCall c { req := .bexp, d := d, gd := s.reg c d, ga := s.reg c a, gb := s.reg c b })

/-- The cycles by which SLEW delays a BWAIT of a core (R383): in a gang spread over several parishes, groups of g parishes in the order of
their numbers return ceil(1.1 × s) cycles apart. -/
def State.slewDelay (s : State) (c : CoreId) : Nat :=
  let g := s.slew.toNat % 64
  let step := (11 * (s.slew.toNat / 2 ^ 16 % 1024) + 9) / 10
  match c with
  | .reeve h =>
    (match s.regionOf h with
     | some (f, _) =>
       let ps := (List.range 32).filter fun p => (s.gangParishes f).contains p
       if g = 0 then 0 else ps.idxOf (parishOf h) / g * step
     | none => 0)
  | .beadle => 0

/-- A BWAIT that has read its barrier past the generation awaited returns, or waits for its group's turn (R383). -/
def State.bwaitReturn (s : State) (c : CoreId) (d : BitVec 5) (v : W64) : State :=
  let n := s.slewDelay c
  if n = 0 then s.retire c d v else s.setCore c { s.coreOf c with run := .slew (s.cycle + n) d v }

/-- A barrier as its home answers a BWAIT (R251, R284): while its generation is the one awaited, the core waits. -/
def State.barrierLeft (gen : BitVec 16) (s : State) (c : CoreId) (pa n : Nat) : MemRes (List Byte) :=
  match s.homeReadAt c pa n with
  | .ok b t => if BitVec.ofNat 16 (Bar.ofBytes b).gen = gen then .wait (t.setCore c { t.coreOf c with run := .bwait }) else .ok b t
  | r => r

/-- One read of the barrier that a BWAIT waits on (R251): its status once the generation has left gb[15:0]; else it waits. -/
def State.bwaitRead (s : State) (c : CoreId) (d : BitVec 5) (ga gb : W64) : State :=
  match s.coreRead c ga 32 (fun b => (Bar.ofBytes b).status) (State.barrierLeft (gb.setWidth 16)) with
  | .done v t => t.bwaitReturn c d v
  | r => State.finish c d ga .page r

/-- BWAIT (R251). -/
def execBwait (d a b : BitVec 5) (_sc : BitVec 3) (_f : BitVec 1) (s : State) : Out' :=
  s.issue fun c => s.barrierOn c (s.reg c a) false (s.bwaitRead c d (s.reg c a) (s.reg c b))
/-- BSTAT (R251, R284). -/
def execBstat (d a : BitVec 5) (s : State) : Out' :=
  s.issue fun c => s.barrierOn c (s.reg c a) false
    (State.finish c d (s.reg c a) .page (s.coreRead c (s.reg c a) 32 (fun b => unsigned (b.take 8)) State.homeReadAt))
/-- A BWAIT whose delay by SLEW is over returns (R383). -/
def State.slewEnd (s : State) (h : Nat) : State :=
  let c := coreOfNum h
  match (s.coreOf c).run with
  | .slew n d v =>
    let free := match c with | .reeve h => s.engineFree h | .beadle => true
    if n ≤ s.cycle && free then (s.setCore c { s.coreOf c with run := .running }).retire c d v else s
  | _ => s

/-- The word that a core fetches at its pc; none where it does not lie wholly within the arena (R224). -/
def State.fetchWord (s : State) (c : CoreId) : Option W32 :=
  let k := s.coreOf c
  if k.arenaBase.toNat ≤ k.pc.toNat ∧ k.pc.toNat + 4 ≤ k.arenaBound.toNat then some (BitVec.ofNat 32 (s.mem.readLE k.pc.toNat 4)) else none

/-- BWAIT_POLL (R251): the waiting BWAIT at the pc reads its barrier again. -/
def execBwaitPoll (h : Nat) (s : State) : Out' :=
  let c := coreOfNum h
  let k := s.coreOf c
  let t := s.setCore c { k with run := .running }
  match k.run, s.fetchWord c with
  | .bwait, some w =>
    (match decodeReeve w with
     | .ok (.bwait d a b _ _) => if t.canIssue c then .next (t.bwaitRead c d (t.reg c a) (t.reg c b)) else .next s
     | _ => .next s)
  | _, _ => .next s

/-! ### Tasks (R252, R325) -/

/-- A task instruction on the record or block at ga, 64-byte aligned, behind the reeve's earlier stores. -/
def State.taskOn (s : State) (i : Instr) (a : BitVec 5) (f : Nat → W64 → State) : Out' :=
  s.onReeve i fun h =>
    let ga := s.reg (.reeve h) a
    if ga.toNat % 64 ≠ 0 then s.takeTrap (.reeve h) 3 ga false else if s.drained (.reeve h) then f h ga else s

/-- TSPAWN (R252, R317). -/
def execTspawn (d a : BitVec 5) (sc : BitVec 3) (f : BitVec 1) (s : State) : Out' :=
  s.taskOn (.tspawn d a sc f) a fun h ga => s.issueCall (.reeve h) { req := .tspawn, d := d, gd := 0, ga := ga, gb := 0 }
/-- TJOIN (R252, R316). -/
def execTjoin (d a : BitVec 5) (sc : BitVec 3) (f : BitVec 1) (s : State) : Out' :=
  s.taskOn (.tjoin d a sc f) a fun h ga => s.issueCall (.reeve h) { req := .tjoin, d := d, gd := 0, ga := ga, gb := 0 }
/-- TDONE (R252, R325): it names the dispatched record or one popped since. -/
def execTdone (a : BitVec 5) (sc : BitVec 3) (f : BitVec 1) (s : State) : Out' :=
  s.taskOn (.tdone a sc f) a fun h ga =>
    let k := s.coreOf (.reeve h)
    if ga = k.record ∨ k.popped.contains ga then s.issueCall (.reeve h) { req := .tdone, d := 0, gd := 0, ga := ga, gb := 0 }
    else s.operandTrap h ga
/-- LAUNCH (R252, R331). -/
def execLaunch (d a : BitVec 5) (s : State) : Out' :=
  s.taskOn (.launch d a) a fun h ga => s.issueCall (.reeve h) { req := .launch 1, d := d, gd := 0, ga := ga, gb := 0 }
/-- LAUNCHI (R252, R331). -/
def execLaunchi (d a : BitVec 5) (s : State) : Out' :=
  s.taskOn (.launchi d a) a fun h ga => s.issueCall (.reeve h) { req := .launch 2, d := d, gd := 0, ga := ga, gb := 0 }
/-- GANG (R252, R331). -/
def execGang (d a : BitVec 5) (s : State) : Out' :=
  s.taskOn (.gang d a) a fun h ga => s.issueCall (.reeve h) { req := .launch 3, d := d, gd := 0, ga := ga, gb := 0 }

/-- The record offered to a reeve leaves its queue (R325): it is counted as popped, and its completion joins the task's. -/
def State.takeOffer (s : State) (h q : Nat) (e : QRec) : State :=
  let x := s.queue q
  let b := e.body.getD []
  let s1 := (s.setQueue q { x with ents := x.ents.tail, popped := sat32 x.popped 1 }).poppedRecord e.ctx b
  let k := s1.coreOf (.reeve h)
  let s2 := s1.setCore (.reeve h) { k with offer := none, popped := k.popped ++ [e.addr] }
  match s2.regionOf h with
  | some (f, r) =>
    (match r.task with
     | some t => s2.setRegion f { r with task := some { t with comps := t.comps ++ [BitVec.ofNat 64 (recField b 40 8)] } }
     | none => s2)
  | none => s2

/-- TPOP (R252, R325): the address of the record offered, which is taken from its queue; 0 when none is offered, or its offer no longer
stands. -/
def execTpop (d : BitVec 5) (sc : BitVec 3) (f : BitVec 1) (s : State) : Out' :=
  s.onReeve (.tpop d sc f) fun h =>
    match s.offerNow h with
    | none => s.retire (.reeve h) d 0
    | some (q, v) =>
      match (s.queue q).ents with
      | e :: _ => (s.takeOffer h q e).retire (.reeve h) d v
      | [] => s.retire (.reeve h) d 0

/-! ### Waiting (R253) -/

/-- The events that hold for a core, as bits [5:0]; `cut0` is the number of completed cuts when the wait began (R253). -/
def State.waitEvents (s : State) (c : CoreId) (cut0 : Nat) : Nat :=
  match c with
  | .beadle => 0
  | .reeve h =>
    let k := s.coreOf c
    let reg (p : Nat → Region → Bool) : Bool := match s.regionOf h with | some (f, r) => p f r | none => false
    (if k.evSeen.isEmpty then 0 else 1) + (if reg fun _ r => r.faultStop then 2 else 0) +
    (if reg fun f r => r.fallow.isNone && decide (s.headcount f = 0) then 4 else 0) + (if cut0 < (s.ham h).cutSeq then 8 else 0) +
    (if s.carterIdle h then 16 else 0) + (if (s.offerNow h).isSome then 32 else 0)

/-- The completed cuts of a core's hamlet. -/
def State.cutsOf (s : State) (c : CoreId) : Nat := match c with | .reeve h => (s.ham h).cutSeq | .beadle => 0

/-- WAIT and SLEEP of a core: they end at once where a masked event holds, else the core waits (R253). -/
def State.waitOn (s : State) (c : CoreId) (d : BitVec 5) (ga : W64) (left : Option Nat) : State :=
  if ga.toNat % 64 ≠ ga.toNat ∨ ga = 0 then s.takeTrap c 7 ga false
  else
    let ev := s.waitEvents c (s.cutsOf c)
    if ev &&& ga.toNat ≠ 0 then s.retire c d (BitVec.ofNat 64 ev)
    else s.setCore c { s.coreOf c with run := .wait ga.toNat d left (s.cutsOf c) }

/-- WAIT (R253). -/
def execWait (d a : BitVec 5) (s : State) : Out' := s.issue fun c => s.waitOn c d (s.reg c a) none
/-- SLEEP (R253). -/
def execSleep (d a b : BitVec 5) (s : State) : Out' :=
  s.issue fun c => s.waitOn c d (s.reg c a) (if s.reg c b = 0 then none else some (s.reg c b).toNat)

/-- The core goes on behind its WAIT or SLEEP with a value. -/
def State.wakeCore (s : State) (c : CoreId) (d : BitVec 5) (v : W64) : State :=
  (s.setCore c { s.coreOf c with run := .running }).retire c d v

/-- The engines of a core's hamlet may act. -/
def State.coreFree (s : State) (c : CoreId) : Bool := match c with | .reeve h => s.engineFree h | .beadle => true

/-- WAIT_WAKE (R253): a masked event holds, and the core goes on. -/
def execWaitWake (h : Nat) (s : State) : Out' :=
  let c := coreOfNum h
  match (s.coreOf c).run with
  | .wait mask d _ cut0 =>
    let ev := s.waitEvents c cut0
    if ev &&& mask ≠ 0 && s.coreFree c then .next (s.wakeCore c d (BitVec.ofNat 64 ev)) else .next s
  | _ => .next s

/-- SLEEP_EXPIRY (R253): the cycles of a SLEEP are over, and it returns with bit 63 set. -/
def execSleepExpiry (h : Nat) (s : State) : Out' :=
  let c := coreOfNum h
  match (s.coreOf c).run with
  | .wait _ d (some 0) cut0 =>
    if s.coreFree c then .next (s.wakeCore c d (BitVec.ofNat 64 (s.waitEvents c cut0) ||| BitVec.ofNat 64 (2 ^ 63))) else .next s
  | _ => .next s

/-! ### Traps and system instructions (R254, R255) -/

/-- TRAP (R254). -/
def execTrap (k : BitVec 8) (s : State) : Out' := s.issue fun c => s.takeTrap c 6 (k.setWidth 64) false
/-- TRET (R227): illegal outside a trap. -/
def execTret (s : State) : Out' := s.issue fun c => if (s.coreOf c).mT then s.trapReturn c else s.illegal c .tret
/-- NOP (R255). -/
def execReeveNop (s : State) : Out' := s.issue fun c => s.retire c 0 0
/-- HALT (R255): a reeve halts, and its hamlet stays with the context. -/
def execReeveHalt (s : State) : Out' :=
  s.issue fun c =>
    let k := s.coreOf c
    let k1 := { k with instret := k.instret + 1 }
    match c with
    | .reeve h => s.haltReeve h k1
    | .beadle => (s.setCore c { k1 with run := .halted }).logErr
        { kind := 8, agent := 7, detail := k1.tcause.toNat, extra := k1.tval.toNat }
/-- CENSUS (R255, R399): beadle only; it writes behind the beadle's earlier stores (R258). -/
def execCensus (d a : BitVec 5) (s : State) : Out' :=
  s.issue fun c =>
    match c with
    | .reeve _ => s.illegal c (.census d a)
    | .beadle =>
      let ga := s.reg c a
      if ga.toNat % 64 ≠ 0 then s.takeTrap c 3 ga false
      else if 0x8000000000 < ga.toNat + 9792 then s.takeTrap c 4 ga false
      else if !s.drained c then s
      else
        match s.readLogs (s.coreAgent c) [.array, .bus, .error] with
        | .wait t | .err t => t
        | .ok logs u =>
          match u.writeBytesPhys (u.coreAgent c) true ga.toNat (u.census logs) with
          | .ok _ t => t.retire c d 9792
          | .wait t => t
          | .err t => t.takeTrap c 4 ga false

end Sys2Proof.Machine
end

