-- ==== Sys2Proof/Machine/Fabric.lean ====
section
/-! DEFINITION. The site routers (R38, R39, R20, R360), the clashes of two slots (R51, R130), and the stall charge (R32). -/
namespace Sys2Proof.Machine
open Sys2Proof

/-! ### Routers -/

/-- A source of tokens or a place they go to: hamlet, site, and number: 0 to 5 an output queue or port, 6 + l the register or the input
queue of output lane l. -/
abbrev Spot := Nat × Nat × Nat

/-- The source that the switch word of an output lane takes its tokens from (R34, R35). -/
def State.laneSource (s : State) (first n h site lane : Nat) : Option Spot :=
  let w := (s.elem h site).swWord lane
  if !swValid w then none
  else if swSide w = 4 then some (h, site, if lanePred lane then 4 + swLane w else swLane w)
  else
    (neighbor n (h - first) site (swSide w)).map fun p =>
      (first + p.1, p.2, 6 + laneAt (lanePred lane) (opposite (swSide w)) (swLane w))

/-- Lanes added to the list of the places that each source feeds. -/
def addLane (src : Spot) (dst : Spot) : List (Spot × List Spot) → List (Spot × List Spot)
  | [] => [(src, [dst])]
  | p :: r => if p.1 = src then (p.1, p.2 ++ [dst]) :: r else p :: addLane src dst r

/-- Every source of a region with the output lanes that select it (R38). -/
def State.feeds (s : State) (first : Nat) : List (Spot × List Spot) :=
  let r := s.region first
  (r.hamlets first).foldl (fun (l : List (Spot × List Spot)) h =>
    (s.ham h).elems.foldl (fun (l : List (Spot × List Spot)) q =>
      (q.2.sw.filter fun w => decide (w.1 < 30)).foldl (fun (l : List (Spot × List Spot)) w =>
        match s.laneSource first r.n h q.1 w.1 with
        | some src => addLane src (h, q.1, w.1) l
        | none => l) l) l) []

/-- The queue or lane register of a source. -/
def State.spotQueue (s : State) (p : Spot) : Queue :=
  let e := s.elem p.1 p.2.1
  if p.2.2 < 6 then e.outQ p.2.2 else Tab.get e.lanes {} (p.2.2 - 6)
/-- The head that a source offers at the start of the cycle; an entry reserved by a split request holds no token yet (R151). -/
def State.spotHead (s : State) (p : Spot) : Option QEnt :=
  let q := s.spotQueue p
  match q.ents with
  | [] => none
  | .resv _ :: _ => none
  | x :: _ => if q.fresh < q.ents.length then some x else none

/-- The input queue that an L lane writes (R34). -/
def laneQueue (lane : Nat) : Option Nat :=
  if 16 ≤ lane ∧ lane < 20 then some (lane - 16) else if 28 ≤ lane then some (lane - 24) else none

/-- An output lane can accept a token: its register is empty or moves on, its input queue has room (R29, R39). A token on the route
waits behind channel state that a resume has yet to deliver (R367). -/
def State.laneAccepts (s : State) (live : List Spot) (d : Spot) : Bool :=
  let e := s.elem d.1 d.2.1
  match laneQueue d.2.2 with
  | some q => decide ((e.inQ q).occ < e.depthOf q) && (Tab.get e.replayIn [] q).isEmpty
  | none => (Tab.get e.lanes {} d.2.2).ents.isEmpty || live.contains (d.1, d.2.1, 6 + d.2.2)

/-- The largest set of sources all of whose lanes can accept (R39): those that cannot move are taken away until none is left to take. -/
def State.movers (s : State) (feeds : List (Spot × List Spot)) : Nat → List Spot → List Spot
  | 0, live => live
  | k + 1, live =>
    let next := live.filter fun p => feeds.all fun f => decide (f.1 ≠ p) || f.2.all fun d => s.laneAccepts live d
    if next.length = live.length then live else State.movers s feeds k next

/-- A tag that is reserved (R19). -/
def badTag (x : QEnt) : Bool :=
  match x with
  | .tok t => decide (12 ≤ t.tag.toNat)
  | _ => false

/-- A CUT enters an input queue: it is taken, and leaves a boundary mark where the element has not recorded, or closes the input
(R359, R360). -/
def Elem.takeCut (e : Elem) (q : Nat) : Elem :=
  if e.recorded then { e with openIn := e.openIn.erase q }
  else e.setInQ q { e.inQ q with mark := some (e.inQ q).ents.length }

/-- An entry as it stands in an input queue: a reserved tag is replaced by DATA in bench mode (R19, R20). -/
def benched (x : QEnt) : QEnt :=
  match x with
  | .tok t => if 12 ≤ t.tag.toNat then .tok { t with tag := 0 } else x
  | _ => x

/-- An entry arrives at an output lane. -/
def State.arriveLane (s : State) (d : Spot) (x : QEnt) : State :=
  let e := s.elem d.1 d.2.1
  s.setElem d.1 d.2.1 (match laneQueue d.2.2 with
    | some q => (match x with | .cut _ => e.takeCut q | _ => e.enter q (benched x))
    | none => { e with lanes := Tab.put e.lanes d.2.2 { ents := [x] } })

/-- A source loses its head. -/
def State.leaveSpot (s : State) (p : Spot) : State :=
  let e := s.elem p.1 p.2.1
  s.setElem p.1 p.2.1 (if p.2.2 < 6 then e.setOutQ p.2.2 (e.outQ p.2.2).pop else { e with lanes := Tab.put e.lanes (p.2.2 - 6) {} })

/-- The routers of a region move tokens: no stop or warning holds them, and while engines stop for a pre-emption or for a cut that is
completed as a stopped cut they go on until every engine has stopped (R369, steps 1 and 2; R362). The fallow configuration keeps its
switch words (R395). -/
def State.routersMove (s : State) (first : Nat) : Bool :=
  let r := s.region first
  decide (r.st = .armed) && !r.frozen && !(r.pre && (r.preCut || s.allAcked first)) && r.stopping.isNone &&
  !(match r.cut with | some c => c.stopped && s.quiescent first | none => false) &&
  (r.hamlets first).all fun h => (s.ham h).powered

/-- TOKEN_CROSSING (R20, R38, R39): the tokens of a region cross one router each. In service mode a reserved tag that would enter an input
queue stays where it is and stops the region. -/
def execTokenCrossing (first : Nat) (s : State) : Out' :=
  if !s.routersMove first then .next s
  else
    let feeds := s.feeds first
    let r := s.region first
    let offered := (feeds.map fun f => f.1).filter fun p => (s.spotHead p).isSome
    let live := s.movers feeds offered.length offered
    let lanesOf (p : Spot) : List Spot := (feeds.filter fun f => decide (f.1 = p)).flatMap fun f => f.2
    let isBad (p : Spot) : Bool := !r.bench && (match s.spotHead p with | some x => badTag x | none => false) &&
      (lanesOf p).any fun d => (laneQueue d.2.2).isSome
    let bad := live.filter isBad
    let s1 := bad.foldl (fun (t : State) p =>
      (lanesOf p).foldl (fun (u : State) d =>
        match laneQueue d.2.2, s.spotHead p with
        | some q, some (.tok x) => u.requestStop d.1 d.2.1 1 0 q 1 (x.tag.setWidth 32)
        | _, _ => u) t) s
    let go := if bad.isEmpty then live else s.movers feeds offered.length (live.filter fun p => !isBad p)
    let moved := go.filterMap fun p => (s.spotHead p).map fun x => (p, x)
    let s2 := moved.foldl (fun (t : State) m => t.leaveSpot m.1) s1
    .next (moved.foldl (fun (t : State) m => (lanesOf m.1).foldl (fun (u : State) d => u.arriveLane d m.2) t) s2)

/-! ### Clashes (R51, R93, R130, R144, R205) -/

/-- What a slot touches, by its encoded fields. `heads` are the predicate heads that it reads in a term, through x of class pi or as PP
operands; `readsP` are the predicates p0 to p5 that it reads in a term, the only reads that R51's row of predicates counts. -/
structure Touch where
  ins : List Nat
  deq : List Nat
  outs : List Nat
  pops : List Nat
  heads : List Nat
  readsD : List Nat
  writesD : List Nat
  readsP : List Nat
  writesP : List Nat
  evt : Bool

/-- The data registers among operand codes. -/
def regsOf (l : List Nat) : List Nat := l.filter fun n => decide (n < 8)

/-- The touches of a slot of a kind. -/
def touchOf (k : Kind) (t : Trig) (w : W32) : Touch :=
  let f := unpackFOp w
  let code := (fld w 25 7).toNat
  let cx := (opClass k code).getD (.n0, .z)
  let c := cx.1
  let pp := decide (c = .pp)
  let ops := if pp then [] else (if c.readsA then [f.a.toNat] else []) ++ (if c.readsB then [f.b.toNat] else [])
  let terms := (if t.aEn then [t.aIdx.toNat] else []) ++ (if t.bEn then [t.bIdx.toNat] else [])
  let preds := terms ++ (if cx.2 = .pi then [f.x.toNat] else []) ++ (if pp then [f.a.toNat, f.b.toNat] else [])
  let steer := if c = .sp then [f.dst.toNat - 8, (f.dst.toNat - 8) ^^^ 1] else []
  let wd := if f.dst.toNat < 8 then
      (if k = .me ∧ code = 9 then [f.dst.toNat, f.dst.toNat ^^^ 1] else [f.dst.toNat]) else []
  { ins := bitsOf t.needIn ++ ((ops.filter fun n => decide (12 ≤ n)).map fun n => n - 12) ++ deqList f.deq ++
      (if t.tagCls ≠ 0 then [t.tagQ.toNat] else [])
    deq := deqList f.deq, outs := bitsOf t.needOut ++ dstOuts f.dst ++ steer, pops := bitsOf t.needPq
    heads := (preds.filter fun n => decide (6 ≤ n)).map fun n => n - 6
    readsD := regsOf ops ++ (if c = .d3 then regsOf [f.dst.toNat] else []), writesD := wd
    readsP := terms.filter fun n => decide (n < 6), writesP := if f.pwe then [f.pidx.toNat] else []
    evt := decide (k = .pe ∧ code = 0x53) }

/-- Two lists have an element in common. -/
def meets (a b : List Nat) : Bool := a.any fun x => b.contains x

/-- The first slot clashes with the second (R51, R93, R130). -/
def clash (x y : Touch) : Bool :=
  (x.ins.any fun q => y.ins.contains q && (x.deq.contains q || y.deq.contains q)) || meets x.outs y.outs ||
  meets x.pops y.pops || meets x.pops y.heads || meets x.heads y.pops || meets x.writesD (y.readsD ++ y.writesD) ||
  meets x.writesP (y.readsP ++ y.writesP) || (x.evt && y.evt)

/-- The trigger word and the operation word of a slot (R24). -/
def Elem.slotTrig (e : Elem) (n : Nat) : Trig := unpackTrig ((Tab.get e.slots 0 n).extractLsb' 0 32)
/-- The operation word of a slot. -/
def Elem.slotWord (e : Elem) (n : Nat) : W32 := (Tab.get e.slots 0 n).extractLsb' 32 32

/-- The conflict matrix keeps two slots apart (R52). -/
def Elem.conflicts (e : Elem) (x y : Nat) : Bool := (Tab.get e.conflict 0 x).getLsbD y

/-- A second slot may fire behind the first pick: the element is a PE, the first is no HALT, and neither the matrix nor a clash keeps them
apart (R50, R130, R144, R205). -/
def Elem.pairOk (e : Elem) (k : Kind) (x y : Nat) : Bool :=
  decide (k = .pe) && decide ((fld (e.slotWord x) 25 7).toNat ≠ 0x52) && !e.conflicts x y &&
  !clash (touchOf k (e.slotTrig x) (e.slotWord x)) (touchOf k (e.slotTrig y) (e.slotWord y))

/-! ### Stall counters (R32, R33) -/

/-- What an operation of a slot needs beyond its trigger word, where its own rule changes what R43 asks (R126, R127, R134, R142, R217). -/
def Elem.opNeed (e : Elem) (i : Instr) (slot : Nat) (k : Core) : Need :=
  match i with
  | .steer f => steerNeed f e
  | .merge f => mergeNeed f e
  | .dup f => dupNeed f
  | .radd f => redNeed .radd f e (e.slotOf slot (redStart .radd f))
  | .rfadd f => redNeed .rfadd f e (e.slotOf slot (redStart .rfadd f))
  | .rmax f => redNeed .rmax f e (e.slotOf slot (redStart .rmax f))
  | .rfmax f => redNeed .rfmax f e (e.slotOf slot (redStart .rfmax f))
  | .evt f => evtNeed f k
  | .monrd f => { baseNeed .a0 .z f with empties := monrdEmpties f.dst }
  | _ =>
    match i.fabric? with
    | some (kd, code, f) => (match opClass kd code with | some (c, x) => baseNeed c x f | none => {})
    | none => {}

/-- The reason of a slot that did not fire: one held only by a condition of its operation counts as "output" (R32, R47). -/
def Elem.slotCharge (e : Elem) (k : Kind) (slot : Nat) (reeve : Core) : Reason :=
  match decodeOpWord k (e.slotWord slot) with
  | .ok i => (slotReason e (e.slotTrig slot) (e.opNeed i slot reeve)).getD .output
  | .error _ => .output

/-- The later of two reasons in the order of R32. -/
def laterReason (a : Option Reason) (b : Reason) : Option Reason :=
  match a with
  | none => some b
  | some x => if x.order < b.order then some b else some x

/-- The valid slots of an element. -/
def Elem.validSlots (e : Elem) : List Nat := (List.range 16).filter fun n => (Tab.get e.slots 0 n).getLsbD 31

/-- STALL_CHARGE (R32, R33): an element that evaluates its triggers, holds a valid slot and has fired nothing in this cycle charges the
latest of its slots' reasons. -/
def execStallCharge (h site : Nat) (s : State) : Out' :=
  let e := s.elem h site
  if !s.elemRuns h site || e.fired then .next s
  else
    match e.validSlots.foldl (fun (a : Option Reason) n => laterReason a (e.slotCharge (siteKind site) n (s.ham h).reeve)) none with
    | none => .next s
    | some r => .next (s.setElem h site { e with stall := Tab.put e.stall r.counter (sat32 (Tab.get e.stall 0 r.counter) 1) })

end Sys2Proof.Machine
end

