-- ==== Sys2Proof/Machine/Cycle.lean ====
section
/-! DEFINITION. The end of a fabric cycle: what the engines, the shadow layer, the market and the power plane do in it, the crossing of
tokens, and the state at the start of the next cycle (R6, R54, R57). The order of the agents within a cycle is the model's (log entry
1). -/
namespace Sys2Proof.Machine
open Sys2Proof

/-- The state after an operation that answers a next state; unchanged where it does not. -/
def after (o : Out') (s : State) : State :=
  match o with
  | .next t => t
  | _ => s
/-- One operation made on a state. -/
def State.act (s : State) (f : State → Out') : State := after (f s) s
/-- An operation made for each number of a list, in order. -/
def State.acts (s : State) (l : List Nat) (f : Nat → State → Out') : State := l.foldl (fun (t : State) n => t.act (f n)) s

/-- The hamlets that the state lists. -/
def State.hams (s : State) : List Nat := s.hamlets.map fun p => p.1
/-- The regions that the state lists, by first hamlet. -/
def State.firsts (s : State) : List Nat := s.regions.map fun p => p.1

/-- The elements of a kind that a hamlet lists; one that is not listed is as arming leaves it and has nothing to do. -/
def State.sitesOf (s : State) (h : Nat) (k : Kind) : List Nat :=
  ((s.ham h).elems.filter fun p => decide (siteKind p.1 = k)).map fun p => p.1

/-! ### A hamlet's engines -/

/-- The streams of a hamlet, one step each (R165, R166 to R181). -/
def State.streamSteps (s : State) (h : Nat) : State :=
  (s.sitesOf h .se).foldl (fun (t : State) site =>
    (List.range 4).foldl (fun (t : State) n =>
      if (t.stream h site n).st = .idle then t
      else
        (((((t.act (execStreamCommandStart h site n)).act (execTroughSlotAcquire h site n)).act (execStreamPosition h site n)).act
          (execGatherCommandSend h site n)).act (execGatherBurstDelivery h site n)).act (execMePortTransfer h site n)) t) s

/-- The tile operations of a matrix element in one cycle (R197, R208): a block check takes a cycle of its own, in which the head of the
queue may start if the check commits and its target differs. -/
def State.tileStep (s : State) (h site : Nat) : State :=
  match (s.elem h site).me.att with
  | none => (s.act (execMeOperationStart h site)).act (execMeRow h site)
  | some a =>
    if !a.check then s.act (execMeRow h site)
    else
      let t := s.act (execBlockCheck h site)
      let m := (t.elem h site).me
      if m.att.isNone && m.opq.head?.any (fun o => decide (o.acc ≠ a.op.acc)) then
        (t.act (execMeOperationStart h site)).act (execMeRow h site)
      else t

/-- The matrix elements of a hamlet: the tile operations, then the transfers (R220). -/
def State.meSteps (s : State) (h : Nat) : State :=
  (s.sitesOf h .me).foldl (fun (t : State) site =>
    let u := t.tileStep h site
    ((u.act (execAccmovRow h site)).acts (List.range 4) (execAccwrToken h site)).acts (List.range 4) (execAccrdToken h site)) s

/-- The banks of a hamlet, the requests that its SPEs have kept, and their completions, by slot number (R147, R151, R361). -/
def State.bankSteps (s : State) (h : Nat) : State :=
  let u := (s.act (execBankMessage h)).act (execAfterWritePerform h)
  let t := (u.sitesOf h .spe).foldl (fun (v : State) site => v.sendKept h site) u
  (t.sitesOf h .spe).foldl (fun (u : State) site => u.acts (List.range 16) (execSpeCompletion h site)) t

/-- The carter, the spill and the read-back of a hamlet (R250, R371, R373). -/
def State.carterSteps (s : State) (h : Nat) : State :=
  let t := (((s.act (execCarterCommand h)).act (execCarterGranule h)).act (execCarterCompletionUpdate h))
  let u := (t.act (execSpillGranule h)).act (execSpillHeaderWrite h)
  u.acts ((u.ham h).frames.map fun f => f.ctx) (execSpillReadBack h)

/-- A core's store buffer, its late errors and its waits (R238, R249, R239, R251, R253, R383). BWAIT reads once per 64 cycles. -/
def State.coreSteps (s : State) (h : Nat) : State :=
  let r := (s.act (execStorePerform h)).act (State.errorReturns · h)
  let t := (((r.act (execTranslationRetry h)).act (execWaitWake h)).act (execSleepExpiry h)).slewEnd h
  if s.cycle % 64 = 0 then t.act (execBwaitPoll h) else t

/-- The channel state that a hamlet's elements have yet to deliver (R367). -/
def State.replaySteps (s : State) (h : Nat) : State :=
  ((s.ham h).elems.map fun p => p.1).foldl (fun (t : State) site =>
    t.acts ((t.elem h site).replayIn.map fun p => p.1) (execChannelStateReplay h site)) s

/-- The held entries of a hamlet (R364). -/
def State.shadowSteps (s : State) (h : Nat) : State := (s.act (execHeldEntrySend h)).act (execHeldEntryAck h)

/-- A hamlet's engines in one cycle. -/
def State.hamletSteps (s : State) (h : Nat) : State :=
  (((((((s.bankSteps h).streamSteps h).meSteps h).carterSteps h).coreSteps h).replaySteps h).shadowSteps h)

/-! ### Regions -/

/-- A cut that was asked for starts once none is in progress (R358). -/
def State.wantedCut (s : State) (f : Nat) : State :=
  let r := s.region f
  if r.cutAgain && r.cut.isNone && r.stopping.isNone && !r.pre then s.startCut f else s

/-- The acknowledgements of a pre-emption (R368). -/
def State.ackSteps (s : State) (f : Nat) : State :=
  if (s.region f).pre then
    ((s.region f).hamlets f).foldl (fun (t : State) h => t.acts (List.range 66) (execEngineStopAck h)) s
  else s

/-- The shadow layer of a region in one cycle. -/
def State.regionSteps (s : State) (f : Nat) : State :=
  let t := ((s.reloadImage f).act (execCutComplete f)).act (execStoppedCutTimeout f)
  (t.ackSteps f).act (execContextSaved f)

/-- A region at the end of a cycle: its stops, what settles, fallow, its task (R56, R275, R323, R395, R396). -/
def State.regionEnd (s : State) (f : Nat) : State :=
  let t := (((s.applyStops f).settleStep f).fallowStep f)
  ((t.act (execRegionRelease f)).act (execFallowTimeout f)).taskStep f

/-! ### The market and the power plane -/

/-- The contexts whose refill period ends with this cycle (R337, R375). -/
def State.refillsNow (s : State) : List Nat :=
  (s.market.desc.map fun p => p.1).filter fun c =>
    let p := s.descField c 64 8
    decide (p ≠ 0 ∧ (s.cycle + 1) % (1100 * p) = 0)

/-- The market in one cycle (R306, R319, R320, R323, R326, R328, R347, R350, R397). -/
def State.marketSteps (s : State) : State :=
  let d := s.devDrain (s.devQ.length + 16)
  let t := ((List.range 64).foldl (fun (t : State) q => t.refill q) d).acts (List.range 64) execPopRead
  let u := if s.cycle % 4 = 0 then t.act execMarketDecision else t
  let v := (u.acts u.firsts execDispatch).acts (u.market.experts.map fun p => p.1) execExpertWindowEnd
  let w := if (s.cycle + 1) % 1100 = 0 then
      (v.act execLinkPushRetry).acts (v.market.evHeld.map fun p => p.1) execEventRecordRetry
    else v
  let x := (w.owedStep.refuseParked).acts w.market.killing execKillComplete
  (x.acts x.refillsNow execQuotaRefill)

/-- The polls of the two command rings, which put the next command on the agenda (R326, R347). -/
def State.ringPolls (s : State) : State :=
  if s.boot.go then (s.act execMarketRingPoll).act execTranslationRingPoll else s

/-- The power plane in one cycle (R384, R385). -/
def State.powerSteps (s : State) : State :=
  let t := (List.range 32).foldl (fun (t : State) p =>
    (((t.holdTick p).act (execAutogateHoldExpiry p)).act (execPctlAcknowledge p)).act (execRestoreComplete p) |>.act (execInrushRampEnd p)) s
  t.acts [0, 1] execInrushRampStart

/-- A new 1 µs interval begins with the allowances that stand at its start (R381, R413). -/
def State.budgetSteps (s : State) : State := if s.cycle % 1100 = 0 then s.act execBudgetInterval else s

/-- The refresh windows at the start of a cycle (R269, R270). -/
def State.refreshSteps (s : State) : State := (s.acts (List.range 8) execRefreshWindowClose).acts (List.range 8) execRefreshWindowOpen

/-! ### The start of the next cycle -/

/-- An element at the start of the next cycle. -/
def Elem.nextCycle (e : Elem) (site : Nat) (tr : Tab Trough) : Elem :=
  let x : Elem := { e with
    inq := e.inq.map fun (p : Nat × Queue) => (p.1, p.2.settle), outq := e.outq.map fun (p : Nat × Queue) => (p.1, p.2.settle)
    fired := false, streams := e.streams.map fun (p : Nat × Stream) => (p.1, { p.2 with moved := false }) }
  if siteKind site = .spe then x.troughPreds tr else x

/-- The waits of a core counted down (R253). -/
def Core.nextCycle (k : Core) : Core :=
  { k with
    evPopped := 0, evFresh := 0
    run := match k.run with
      | .wait m d (some (n + 1)) c => .wait m d (some n) c
      | r => r }

/-- The cut that a reeve waits for has been given up, so its instruction issues anew (R376, R395). -/
def State.cutLost (s : State) (h : Nat) : Bool :=
  match (s.ham h).reeve.run with
  | .cutWait n _ =>
    (match s.regionOf h with
     | none => true
     | some (_, r) => r.cut.isNone && !r.cutAgain && r.stopping.isNone && !r.pre && decide ((s.ham h).cutSeq ≤ n))
  | _ => false

/-- A hamlet at the start of the next cycle; a CUT that waits for room is placed (R359). -/
def State.nextHam (s : State) (h : Nat) : State :=
  let x := s.ham h
  let troughs := x.troughs.map fun (p : Nat × Trough) => (p.1, p.2.settle)
  let cut : Option Nat := match s.regionOf h with | some (_, r) => r.cut.map fun c => c.seq | none => none
  let place (e : Elem) : Elem :=
    match cut with
    | some n => if e.cutOut.isEmpty then e else e.placeCuts (BitVec.ofNat 32 n)
    | none => e
  let k := x.reeve.nextCycle
  s.setHam h { x with
    troughs := troughs
    elems := x.elems.map fun (p : Nat × Elem) => (p.1, (place (p.2.nextCycle p.1 troughs)).nextCycle p.1 troughs)
    reeve := if s.cutLost h then { k with run := .running } else k }

/-- The waiters of one place at the end of a cycle: the first, if the way was free and it was not served, is gone. -/
def waitersNext (l : List Nat) (served free : Bool) : List Nat := if free && !served then l.tail else l

/-- A quadrant at the start of the next cycle: wait cycles are counted, and a write whose access is gone is accepted no longer
(R268, R270, R271). -/
def Quad.nextCycle (x : Quad) : Quad :=
  let w := waitersNext x.waiters x.served x.openG.isNone
  { x with
    waitCyc := if x.openG.any fun g => x.waiters.any fun w => decide (w % 4 = g) then sat32 x.waitCyc 1 else x.waitCyc
    waiters := w, accepted := x.accepted.filter fun k => w.any fun v => decide (v / 4 = k), served := false }

/-- A stack at the start of the next cycle. -/
def Stack.nextCycle (x : Stack) (rate : Nat) : Stack :=
  let free := decide (x.used = 0 ∨ x.used + 4128 ≤ rate)
  { x with
    waiters := waitersNext x.waiters x.served (free && x.granted.isEmpty), granted := waitersNext x.granted x.served free, served := false }

/-- The memory-side queues at the start of the next cycle (R270, R380, R381). A request that no longer asks loses its place once the way
is free (log entry 2). -/
def State.nextWaits (s : State) : State :=
  { s with
    parishes := s.parishes.map fun (p : Nat × Parish) =>
      (p.1, { p.2 with waiters := waitersNext p.2.waiters p.2.served (decide (p.2.left = p.2.b ∨ 4128 ≤ p.2.left)), served := false })
    quads := s.quads.map fun (p : Nat × Quad) => (p.1, p.2.nextCycle)
    hbm := s.hbm.map fun (p : Nat × Stack) => (p.1, p.2.nextCycle (s.stackRate p.1)) }

/-- One write of ELWR lands (R246). -/
def State.landItem (s : State) (w : ItemWrite) : State :=
  match w with
  | .elem h site n v => s.setElem h site ((s.elem h site).writeItem n v)
  | .trough h n k v => s.setTrough h n ((s.trough h n).withWord k v)

/-- The writes of ELWR land at the end of their cycle (R246). Which wins where a stream's step on the same trough lands in that cycle the spec
leaves open: the model lays the word of ELWR down last (DESIGN CHOICE, log entry 73). -/
def State.landItems (s : State) : State := { s.itemWrites.foldl (fun (t : State) w => t.landItem w) s with itemWrites := [] }

/-! ### Stale bits (R357) -/

/-- An element but for the large stores of an ME, as a bank holds it. -/
def Elem.core (e : Elem) : Elem :=
  let x := e.captureWhole
  { x with me := { x.me with tiles := [], rows := [], accs := [] } }

/-- The items of an element at a site that differ between two states (R356). -/
def elemItems (a b : Elem) (site : Nat) : List Nat :=
  (if a.core = b.core then [] else [elemItem site]) ++ (if a.me.tiles = b.me.tiles then [] else [macroItem site]) ++
  (if a.me.rows = b.me.rows then [] else [rowsItem site]) ++
  ((List.range 4).filter fun k => decide ((a.me.acc k).asRecorded ≠ (b.me.acc k).asRecorded)).map (accItem site)

/-- The items of a hamlet that have changed since the start of the cycle (R356, R357). -/
def State.changedItems (s : State) (h : Nat) : List Nat :=
  let x := s.ham h
  let y := s.ham0 h
  let mine (a : Nat) : Bool := decide (greenPa h 0 ≤ a ∧ a < greenPa h 0x200000)
  let cells := Tab.diff (s.mem0.length + s.mem.length) (s.mem0.filter fun c => mine c.1) (s.mem.filter fun c => mine c.1)
  let words := Tab.diff (s.pres0.length + s.pres.length) (s.pres0.filter fun c => mine (8 * c.1)) (s.pres.filter fun c => mine (8 * c.1))
  cells.map (fun a => (a - greenPa h 0) / 256) ++ words.map (fun a => (8 * a - greenPa h 0) / 256) ++
  ((List.range 16).filter fun n => decide ((Tab.get x.troughs {} n).settle ≠ (Tab.get y.troughs {} n).settle)).map troughItem ++
  ((List.range 16).filter fun b => decide (Tab.get x.defer [] b ≠ Tab.get y.defer [] b)).map deferItem ++
  ((List.range 64).map fun i => elemItems (Tab.get y.elems {} i) (Tab.get x.elems {} i) i).flatten ++
  (if x.reeve = y.reeve then [] else [reeveItem]) ++ (if x.carter = y.carter then [] else [carterItem])

/-- The running cut has recorded an item of a hamlet. -/
def Hamlet.itemRecorded (x : Hamlet) (i : Nat) : Bool :=
  if i < 8224 then x.capG.isSome
  else if i = reeveItem then x.capR.isSome
  else if i = carterItem then x.capC.isSome
  else
    let site := if i < 8416 then (i - 8224) % 64 else (i - 8416) / 16
    x.capE.any fun p => decide (p.1 = site)

/-- A change of an item sets both of its stale bits (R357). -/
def State.markStale (s : State) (h : Nat) : State :=
  let x := s.ham h
  if x.region.isNone then s
  else
    let l := s.changedItems h
    s.setHam h { x with
      staleA := x.staleA.setAll l, staleB := x.staleB.setAll l, since := x.since.setAll (l.filter x.itemRecorded) }

/-- Errors of single cells in the element state of a hamlet are corrected in place and logged (R386). -/
def State.correctWeak (s : State) (h : Nat) : State :=
  let x := s.ham h
  x.weak.foldl (fun (t : State) e => t.logIn .array { kind := 1, ctx := x.ctx, ham := h, site := e.1, detail := e.2 })
    (if x.weak.isEmpty then s else s.setHam h { x with weak := [] })

/-- The end of a cycle (R6). The routers move on the state at its start, before anything else of the cycle's end lands (R29, R39). -/
def State.endCycle (s : State) : State :=
  let r := s.acts s.firsts execTokenCrossing
  let t := (r.hams.foldl (fun (t : State) h => t.hamletSteps h) r).coreSteps 256
  let u := t.firsts.foldl (fun (u : State) f => u.regionSteps f) t
  let v := (u.marketSteps.ringPolls).powerSteps
  let w := (v.firsts.foldl (fun (w : State) f => w.regionEnd f) v).landItems
  let x := w.hams.foldl (fun (x : State) h => ((x.correctWeak h).nextHam h).markStale h) w
  let y := { x with beadle := x.beadle.nextCycle }.nextWaits
  { y with cycle := y.cycle + 1 }

/-! ### The plan of a cycle -/

/-- The elements that evaluate triggers in this cycle and hold a valid slot, in order of hamlet and site. -/
def State.firing (s : State) : List Turn :=
  s.hamlets.flatMap fun p =>
    (p.2.elems.filter fun q => s.elemRuns p.1 q.1 && !q.2.validSlots.isEmpty).map fun q => Turn.fire p.1 q.1

/-- The state at the start of a cycle, kept for the conditions that are judged on it (R29, R54, R160). -/
def State.atStart (s : State) : State := { s with mem0 := s.mem, pres0 := s.pres, hamlets0 := s.hamlets }

/-- The shadow layer at a cycle boundary: cuts start, and every agent that stands at its record point records (R358, R359, R368). -/
def State.boundarySteps (s : State) : State :=
  let t := s.firsts.foldl (fun (t : State) f => (t.act (execShadowIntervalExpiry f)).wantedCut f) s
  t.hams.foldl (fun (u : State) h =>
    match u.regionOf h with
    | some (_, r) => if r.cut.isSome then u.acts (List.range 66) (execElementRecord h) else u
    | none => u) t

/-- The deferred requests of every bank on the presence bits at the start of the cycle (R160). -/
def State.deferredSteps (s : State) : State :=
  s.hams.foldl (fun (t : State) h => t.acts ((t.ham h).defer.map fun p => p.1) (execDeferredRequestPerform h)) s

/-- An event that takes effect between two cycles: behind the end of the cycle and before the next begins (R379, R413). -/
def betweenCycles (i : Instr) : Bool :=
  match i with
  | .sensorPoll _ => true
  | .powerCapUpdate _ => true
  | _ => false

/-- The turns of a whole cycle: every element with a valid slot, so that an SPE's requests to its own banks come first (R147), every core,
the chains of the market, the events that wait, and the end
of the cycle; before them what happens at the cycle's start, and behind them the events that take effect between two cycles. -/
def State.planCycle (s0 : State) : State :=
  let s := s0.budgetSteps.refreshSteps.atStart.boundarySteps.deferredSteps
  let idle (k : Core) : Bool := match k.run with | .running => false | .rom => false | _ => true
  let cores := (if idle s.beadle then [] else [Turn.core .beadle]) ++
    ((s.hamlets.filter fun p => !idle p.2.reeve).map fun p => Turn.core (.reeve p.1))
  { s with
    agenda := s.firing ++ cores ++ (s.market.chains.map fun k => Turn.chain k.id) ++ 
      ((s.waiting.filter fun i => !betweenCycles i).map Turn.event) ++ .tick :: (s.waiting.filter betweenCycles).map Turn.event
    waiting := [] }

end Sys2Proof.Machine
end

