-- ==== Sys2Proof/Machine/Dispatch.lean ====
section
/-! DEFINITION. The dispatch: one arm per instruction, each a direct call of its meaning. -/
namespace Sys2Proof.Machine
open Sys2Proof

/-- What an instruction does. -/
def exec (i : Instr) (s : State) : Host.Outcome State Fault Refusal :=
  match i with
  | .add f => Sys2Proof.Machine.execAdd f s
  | .sub f => Sys2Proof.Machine.execSub f s
  | .adds f => Sys2Proof.Machine.execAdds f s
  | .subs f => Sys2Proof.Machine.execSubs f s
  | .mul f => Sys2Proof.Machine.execMul f s
  | .mulh f => Sys2Proof.Machine.execMulh f s
  | .mulhu f => Sys2Proof.Machine.execMulhu f s
  | .neg f => Sys2Proof.Machine.execNeg f s
  | .abs f => Sys2Proof.Machine.execAbs f s
  | .and f => Sys2Proof.Machine.execAnd f s
  | .or f => Sys2Proof.Machine.execOr f s
  | .xor f => Sys2Proof.Machine.execXor f s
  | .andn f => Sys2Proof.Machine.execAndn f s
  | .shl f => Sys2Proof.Machine.execShl f s
  | .shr f => Sys2Proof.Machine.execShr f s
  | .sra f => Sys2Proof.Machine.execSra f s
  | .clz f => Sys2Proof.Machine.execClz f s
  | .popc f => Sys2Proof.Machine.execPopc f s
  | .min f => Sys2Proof.Machine.execMin f s
  | .max f => Sys2Proof.Machine.execMax f s
  | .minu f => Sys2Proof.Machine.execMinu f s
  | .maxu f => Sys2Proof.Machine.execMaxu f s
  | .cmp f => Sys2Proof.Machine.execCmp f s
  | .tst f => Sys2Proof.Machine.execTst f s
  | .sel f => Sys2Proof.Machine.execSel f s
  | .clamp f => Sys2Proof.Machine.execClamp f s
  | .fadd f => Sys2Proof.Machine.execFadd f s
  | .fsub f => Sys2Proof.Machine.execFsub f s
  | .fmul f => Sys2Proof.Machine.execFmul f s
  | .fma f => Sys2Proof.Machine.execFma f s
  | .fmin f => Sys2Proof.Machine.execFmin f s
  | .fmax f => Sys2Proof.Machine.execFmax f s
  | .fneg f => Sys2Proof.Machine.execFneg f s
  | .fabs f => Sys2Proof.Machine.execFabs f s
  | .fcmp f => Sys2Proof.Machine.execFcmp f s
  | .fcvti f => Sys2Proof.Machine.execFcvti f s
  | .icvtf f => Sys2Proof.Machine.execIcvtf f s
  | .fscale f => Sys2Proof.Machine.execFscale f s
  | .frcp f => Sys2Proof.Machine.execFrcp f s
  | .frsq f => Sys2Proof.Machine.execFrsq f s
  | .fexp2 f => Sys2Proof.Machine.execFexp2 f s
  | .flog2 f => Sys2Proof.Machine.execFlog2 f s
  | .mov f => Sys2Proof.Machine.execMov f s
  | .steer f => Sys2Proof.Machine.execSteer f s
  | .merge f => Sys2Proof.Machine.execMerge f s
  | .filt f => Sys2Proof.Machine.execFilt f s
  | .dup f => Sys2Proof.Machine.execDup f s
  | .drop f => Sys2Proof.Machine.execDrop f s
  | .mark f => Sys2Proof.Machine.execMark f s
  | .tagof f => Sys2Proof.Machine.execTagof f s
  | .strip f => Sys2Proof.Machine.execStrip f s
  | .passm f => Sys2Proof.Machine.execPassm f s
  | .hole f => Sys2Proof.Machine.execHole f s
  | .radd f => Sys2Proof.Machine.execRadd f s
  | .rfadd f => Sys2Proof.Machine.execRfadd f s
  | .rmax f => Sys2Proof.Machine.execRmax f s
  | .rfmax f => Sys2Proof.Machine.execRfmax f s
  | .plog f => Sys2Proof.Machine.execPlog f s
  | .psend f => Sys2Proof.Machine.execPsend f s
  | .cnt f => Sys2Proof.Machine.execCnt f s
  | .nop f => Sys2Proof.Machine.execNop f s
  | .halt f => Sys2Proof.Machine.execHalt f s
  | .evt f => Sys2Proof.Machine.execEvt f s
  | .ld f => Sys2Proof.Machine.execLd f s
  | .st f => Sys2Proof.Machine.execSt f s
  | .aadd f => Sys2Proof.Machine.execAadd f s
  | .asub f => Sys2Proof.Machine.execAsub f s
  | .amin f => Sys2Proof.Machine.execAmin f s
  | .amax f => Sys2Proof.Machine.execAmax f s
  | .aminu f => Sys2Proof.Machine.execAminu f s
  | .amaxu f => Sys2Proof.Machine.execAmaxu f s
  | .aand f => Sys2Proof.Machine.execAand f s
  | .aor f => Sys2Proof.Machine.execAor f s
  | .axor f => Sys2Proof.Machine.execAxor f s
  | .aswap f => Sys2Proof.Machine.execAswap f s
  | .acas f => Sys2Proof.Machine.execAcas f s
  | .afadd f => Sys2Proof.Machine.execAfadd f s
  | .itake f => Sys2Proof.Machine.execItake f s
  | .iput f => Sys2Proof.Machine.execIput f s
  | .iread f => Sys2Proof.Machine.execIread f s
  | .iclr f => Sys2Proof.Machine.execIclr f s
  | .tclaim f => Sys2Proof.Machine.execTclaim f s
  | .tcommit f => Sys2Proof.Machine.execTcommit f s
  | .ttake f => Sys2Proof.Machine.execTtake f s
  | .tfree f => Sys2Proof.Machine.execTfree f s
  | .tstat f => Sys2Proof.Machine.execTstat f s
  | .sload f => Sys2Proof.Machine.execSload f s
  | .sstore f => Sys2Proof.Machine.execSstore f s
  | .sgather f => Sys2Proof.Machine.execSgather f s
  | .sscatter f => Sys2Proof.Machine.execSscatter f s
  | .sfeed f => Sys2Proof.Machine.execSfeed f s
  | .sbfill f => Sys2Proof.Machine.execSbfill f s
  | .sdrain f => Sys2Proof.Machine.execSdrain f s
  | .swait f => Sys2Proof.Machine.execSwait f s
  | .scancel f => Sys2Proof.Machine.execScancel f s
  | .sresume f => Sys2Proof.Machine.execSresume f s
  | .spos f => Sys2Proof.Machine.execSpos f s
  | .mma f => Sys2Proof.Machine.execMma f s
  | .mmas f => Sys2Proof.Machine.execMmas f s
  | .accz f => Sys2Proof.Machine.execAccz f s
  | .accmov f => Sys2Proof.Machine.execAccmov f s
  | .accrd f => Sys2Proof.Machine.execAccrd f s
  | .accwr f => Sys2Proof.Machine.execAccwr f s
  | .bsel f => Sys2Proof.Machine.execBsel f s
  | .rung f => Sys2Proof.Machine.execRung f s
  | .monset f => Sys2Proof.Machine.execMonset f s
  | .monrd f => Sys2Proof.Machine.execMonrd f s
  | .monclr f => Sys2Proof.Machine.execMonclr f s
  | .mwait f => Sys2Proof.Machine.execMwait f s
  | .reeveAdd d a b => Sys2Proof.Machine.execReeveAdd d a b s
  | .reeveSub d a b => Sys2Proof.Machine.execReeveSub d a b s
  | .reeveAnd d a b => Sys2Proof.Machine.execReeveAnd d a b s
  | .reeveOr d a b => Sys2Proof.Machine.execReeveOr d a b s
  | .reeveXor d a b => Sys2Proof.Machine.execReeveXor d a b s
  | .sll d a b => Sys2Proof.Machine.execSll d a b s
  | .srl d a b => Sys2Proof.Machine.execSrl d a b s
  | .reeveSra d a b => Sys2Proof.Machine.execReeveSra d a b s
  | .slt d a b => Sys2Proof.Machine.execSlt d a b s
  | .sltu d a b => Sys2Proof.Machine.execSltu d a b s
  | .reeveMul d a b => Sys2Proof.Machine.execReeveMul d a b s
  | .reeveMulh d a b => Sys2Proof.Machine.execReeveMulh d a b s
  | .reeveMulhu d a b => Sys2Proof.Machine.execReeveMulhu d a b s
  | .div d a b => Sys2Proof.Machine.execDiv d a b s
  | .divu d a b => Sys2Proof.Machine.execDivu d a b s
  | .rem d a b => Sys2Proof.Machine.execRem d a b s
  | .remu d a b => Sys2Proof.Machine.execRemu d a b s
  | .reeveMin d a b => Sys2Proof.Machine.execReeveMin d a b s
  | .reeveMax d a b => Sys2Proof.Machine.execReeveMax d a b s
  | .addi d a im => Sys2Proof.Machine.execAddi d a im s
  | .andi d a im => Sys2Proof.Machine.execAndi d a im s
  | .ori d a im => Sys2Proof.Machine.execOri d a im s
  | .xori d a im => Sys2Proof.Machine.execXori d a im s
  | .slli d a sc => Sys2Proof.Machine.execSlli d a sc s
  | .srli d a sc => Sys2Proof.Machine.execSrli d a sc s
  | .srai d a sc => Sys2Proof.Machine.execSrai d a sc s
  | .slti d a im => Sys2Proof.Machine.execSlti d a im s
  | .lui d im => Sys2Proof.Machine.execLui d im s
  | .beq a b o => Sys2Proof.Machine.execBeq a b o s
  | .bne a b o => Sys2Proof.Machine.execBne a b o s
  | .blt a b o => Sys2Proof.Machine.execBlt a b o s
  | .bge a b o => Sys2Proof.Machine.execBge a b o s
  | .bltu a b o => Sys2Proof.Machine.execBltu a b o s
  | .bgeu a b o => Sys2Proof.Machine.execBgeu a b o s
  | .jal d o => Sys2Proof.Machine.execJal d o s
  | .jalr d a im => Sys2Proof.Machine.execJalr d a im s
  | .lb d a im => Sys2Proof.Machine.execLb d a im s
  | .lh d a im => Sys2Proof.Machine.execLh d a im s
  | .lw d a im => Sys2Proof.Machine.execLw d a im s
  | .reeveLd d a im => Sys2Proof.Machine.execReeveLd d a im s
  | .lbu d a im => Sys2Proof.Machine.execLbu d a im s
  | .lhu d a im => Sys2Proof.Machine.execLhu d a im s
  | .lwu d a im => Sys2Proof.Machine.execLwu d a im s
  | .sb b a im => Sys2Proof.Machine.execSb b a im s
  | .sh b a im => Sys2Proof.Machine.execSh b a im s
  | .sw b a im => Sys2Proof.Machine.execSw b a im s
  | .sd b a im => Sys2Proof.Machine.execSd b a im s
  | .amoadd d a b sc o w => Sys2Proof.Machine.execAmoadd d a b sc o w s
  | .amoswap d a b sc o w => Sys2Proof.Machine.execAmoswap d a b sc o w s
  | .amoand d a b sc o w => Sys2Proof.Machine.execAmoand d a b sc o w s
  | .amoor d a b sc o w => Sys2Proof.Machine.execAmoor d a b sc o w s
  | .amoxor d a b sc o w => Sys2Proof.Machine.execAmoxor d a b sc o w s
  | .amomin d a b sc o w => Sys2Proof.Machine.execAmomin d a b sc o w s
  | .amomax d a b sc o w => Sys2Proof.Machine.execAmomax d a b sc o w s
  | .amocas d a b sc o w => Sys2Proof.Machine.execAmocas d a b sc o w s
  | .fence sc f => Sys2Proof.Machine.execFence sc f s
  | .pfence d sc => Sys2Proof.Machine.execPfence d sc s
  | .csrr d c => Sys2Proof.Machine.execCsrr d c s
  | .csrw d a c => Sys2Proof.Machine.execCsrw d a c s
  | .csrs d a c => Sys2Proof.Machine.execCsrs d a c s
  | .csrc d a c => Sys2Proof.Machine.execCsrc d a c s
  | .cfgld d a => Sys2Proof.Machine.execCfgld d a s
  | .cfgarm d f => Sys2Proof.Machine.execCfgarm d f s
  | .cfgstop d => Sys2Proof.Machine.execCfgstop d s
  | .cfgswap d a => Sys2Proof.Machine.execCfgswap d a s
  | .cfgfallow d => Sys2Proof.Machine.execCfgfallow d s
  | .cutreq d sc => Sys2Proof.Machine.execCutreq d sc s
  | .elrd d a => Sys2Proof.Machine.execElrd d a s
  | .elwr d a b => Sys2Proof.Machine.execElwr d a b s
  | .stallrd d a f => Sys2Proof.Machine.execStallrd d a f s
  | .copy d a b sc f => Sys2Proof.Machine.execCopy d a b sc f s
  | .binit d a b => Sys2Proof.Machine.execBinit d a b s
  | .barv d a b sc f => Sys2Proof.Machine.execBarv d a b sc f s
  | .bexp d a b sc f => Sys2Proof.Machine.execBexp d a b sc f s
  | .bwait d a b sc f => Sys2Proof.Machine.execBwait d a b sc f s
  | .bstat d a => Sys2Proof.Machine.execBstat d a s
  | .tspawn d a sc f => Sys2Proof.Machine.execTspawn d a sc f s
  | .tpop d sc f => Sys2Proof.Machine.execTpop d sc f s
  | .tjoin d a sc f => Sys2Proof.Machine.execTjoin d a sc f s
  | .tdone a sc f => Sys2Proof.Machine.execTdone a sc f s
  | .launch d a => Sys2Proof.Machine.execLaunch d a s
  | .launchi d a => Sys2Proof.Machine.execLaunchi d a s
  | .gang d a => Sys2Proof.Machine.execGang d a s
  | .wait d a => Sys2Proof.Machine.execWait d a s
  | .sleep d a b => Sys2Proof.Machine.execSleep d a b s
  | .trap c => Sys2Proof.Machine.execTrap c s
  | .tret => Sys2Proof.Machine.execTret s
  | .reeveNop => Sys2Proof.Machine.execReeveNop s
  | .reeveHalt => Sys2Proof.Machine.execReeveHalt s
  | .census d a => Sys2Proof.Machine.execCensus d a s
  | .tokenCrossing first => Sys2Proof.Machine.execTokenCrossing first s
  | .speCompletion h site slot => Sys2Proof.Machine.execSpeCompletion h site slot s
  | .bankMessage h => Sys2Proof.Machine.execBankMessage h s
  | .deferredRequestPerform h bank => Sys2Proof.Machine.execDeferredRequestPerform h bank s
  | .streamCommandStart h site n => Sys2Proof.Machine.execStreamCommandStart h site n s
  | .troughSlotAcquire h site n => Sys2Proof.Machine.execTroughSlotAcquire h site n s
  | .streamPosition h site n => Sys2Proof.Machine.execStreamPosition h site n s
  | .gatherCommandSend h site n => Sys2Proof.Machine.execGatherCommandSend h site n s
  | .gatherBurstDelivery h site n => Sys2Proof.Machine.execGatherBurstDelivery h site n s
  | .mePortTransfer h site n => Sys2Proof.Machine.execMePortTransfer h site n s
  | .meOperationStart h site => Sys2Proof.Machine.execMeOperationStart h site s
  | .meRow h site => Sys2Proof.Machine.execMeRow h site s
  | .blockCheck h site => Sys2Proof.Machine.execBlockCheck h site s
  | .accmovRow h site => Sys2Proof.Machine.execAccmovRow h site s
  | .accrdToken h site q => Sys2Proof.Machine.execAccrdToken h site q s
  | .accwrToken h site q => Sys2Proof.Machine.execAccwrToken h site q s
  | .lateAccessTrap h ea epc => Sys2Proof.Machine.execLateAccessTrap h ea epc s
  | .storePerform h => Sys2Proof.Machine.execStorePerform h s
  | .translationRetry h => Sys2Proof.Machine.execTranslationRetry h s
  | .waitWake h => Sys2Proof.Machine.execWaitWake h s
  | .sleepExpiry h => Sys2Proof.Machine.execSleepExpiry h s
  | .bwaitPoll h => Sys2Proof.Machine.execBwaitPoll h s
  | .carterCommand h => Sys2Proof.Machine.execCarterCommand h s
  | .carterGranule h => Sys2Proof.Machine.execCarterGranule h s
  | .carterCompletionUpdate h => Sys2Proof.Machine.execCarterCompletionUpdate h s
  | .linkPushRetry => Sys2Proof.Machine.execLinkPushRetry s
  | .marketDecision => Sys2Proof.Machine.execMarketDecision s
  | .popRead q => Sys2Proof.Machine.execPopRead q s
  | .expertWindowEnd e => Sys2Proof.Machine.execExpertWindowEnd e s
  | .dispatch first => Sys2Proof.Machine.execDispatch first s
  | .marketRingPoll => Sys2Proof.Machine.execMarketRingPoll s
  | .queueNop c => Sys2Proof.Machine.execQueueNop c s
  | .qconf c => Sys2Proof.Machine.execQconf c s
  | .qpush c => Sys2Proof.Machine.execQpush c s
  | .qstop c => Sys2Proof.Machine.execQstop c s
  | .qstart c => Sys2Proof.Machine.execQstart c s
  | .qchain c => Sys2Proof.Machine.execQchain c s
  | .qexpert c => Sys2Proof.Machine.execQexpert c s
  | .launchBlock k b => Sys2Proof.Machine.execLaunchBlock k b s
  | .launchiBlock k b => Sys2Proof.Machine.execLaunchiBlock k b s
  | .gangBlock k b => Sys2Proof.Machine.execGangBlock k b s
  | .copyBlock k b => Sys2Proof.Machine.execCopyBlock k b s
  | .binitBlock k b => Sys2Proof.Machine.execBinitBlock k b s
  | .signal k b => Sys2Proof.Machine.execSignal k b s
  | .waitb k b => Sys2Proof.Machine.execWaitb k b s
  | .stage k b => Sys2Proof.Machine.execStage k b s
  | .persist k b => Sys2Proof.Machine.execPersist k b s
  | .fenceBlock k b => Sys2Proof.Machine.execFenceBlock k b s
  | .translationRingPoll => Sys2Proof.Machine.execTranslationRingPoll s
  | .xlateNop c => Sys2Proof.Machine.execXlateNop c s
  | .invva c => Sys2Proof.Machine.execInvva c s
  | .invasid c => Sys2Proof.Machine.execInvasid c s
  | .invctx c => Sys2Proof.Machine.execInvctx c s
  | .resolve c => Sys2Proof.Machine.execResolve c s
  | .refuse c => Sys2Proof.Machine.execRefuse c s
  | .release c => Sys2Proof.Machine.execRelease c s
  | .pageWalk h va acc => Sys2Proof.Machine.execPageWalk h va acc s
  | .eventRecordRetry ctx => Sys2Proof.Machine.execEventRecordRetry ctx s
  | .shadowIntervalExpiry first => Sys2Proof.Machine.execShadowIntervalExpiry first s
  | .elementRecord h agent => Sys2Proof.Machine.execElementRecord h agent s
  | .afterWritePerform h => Sys2Proof.Machine.execAfterWritePerform h s
  | .cutComplete first => Sys2Proof.Machine.execCutComplete first s
  | .stoppedCutTimeout first => Sys2Proof.Machine.execStoppedCutTimeout first s
  | .heldEntrySend h => Sys2Proof.Machine.execHeldEntrySend h s
  | .heldEntryAck h => Sys2Proof.Machine.execHeldEntryAck h s
  | .supplyWarning domain => Sys2Proof.Machine.execSupplyWarning domain s
  | .powerReturn domain => Sys2Proof.Machine.execPowerReturn domain s
  | .channelStateReplay h site q => Sys2Proof.Machine.execChannelStateReplay h site q s
  | .preemption first => Sys2Proof.Machine.execPreemption first s
  | .engineStopAck h agent => Sys2Proof.Machine.execEngineStopAck h agent s
  | .contextSaved first => Sys2Proof.Machine.execContextSaved first s
  | .spillGranule h => Sys2Proof.Machine.execSpillGranule h s
  | .spillHeaderWrite h => Sys2Proof.Machine.execSpillHeaderWrite h s
  | .spillReadBack h ctx => Sys2Proof.Machine.execSpillReadBack h ctx s
  | .energyUpdate reports => Sys2Proof.Machine.execEnergyUpdate reports s
  | .quotaRefill ctx => Sys2Proof.Machine.execQuotaRefill ctx s
  | .sensorPoll readings => Sys2Proof.Machine.execSensorPoll readings s
  | .powerCapUpdate energy => Sys2Proof.Machine.execPowerCapUpdate energy s
  | .budgetInterval => Sys2Proof.Machine.execBudgetInterval s
  | .hbmRateCapGrant stack => Sys2Proof.Machine.execHbmRateCapGrant stack s
  | .refreshWindowOpen quad => Sys2Proof.Machine.execRefreshWindowOpen quad s
  | .refreshWindowClose quad => Sys2Proof.Machine.execRefreshWindowClose quad s
  | .nodispatch p => Sys2Proof.Machine.execNodispatch p s
  | .quiesce p => Sys2Proof.Machine.execQuiesce p s
  | .clear p => Sys2Proof.Machine.execClear p s
  | .retain p => Sys2Proof.Machine.execRetain p s
  | .clockGate p => Sys2Proof.Machine.execClockGate p s
  | .railGate p => Sys2Proof.Machine.execRailGate p s
  | .autogateEnable p => Sys2Proof.Machine.execAutogateEnable p s
  | .pctlStepUndo p => Sys2Proof.Machine.execPctlStepUndo p s
  | .pctlAcknowledge p => Sys2Proof.Machine.execPctlAcknowledge p s
  | .autogateHoldExpiry p => Sys2Proof.Machine.execAutogateHoldExpiry p s
  | .pwake p => Sys2Proof.Machine.execPwake p s
  | .inrushRampStart die => Sys2Proof.Machine.execInrushRampStart die s
  | .inrushRampEnd p => Sys2Proof.Machine.execInrushRampEnd p s
  | .restoreComplete p => Sys2Proof.Machine.execRestoreComplete p s
  | .pallow p v => Sys2Proof.Machine.execPallow p v s
  | .registerWrite addr v => Sys2Proof.Machine.execRegisterWrite addr v s
  | .uncorrectableHamletState h site => Sys2Proof.Machine.execUncorrectableHamletState h site s
  | .verticalBusTransfer quad off bad => Sys2Proof.Machine.execVerticalBusTransfer quad off bad s
  | .regionRelease first => Sys2Proof.Machine.execRegionRelease first s
  | .fallowTimeout first => Sys2Proof.Machine.execFallowTimeout first s
  | .killComplete ctx => Sys2Proof.Machine.execKillComplete ctx s
  | .deviceReset => Sys2Proof.Machine.execDeviceReset s
  | .lock => Sys2Proof.Machine.execLock s
  | .go => Sys2Proof.Machine.execGo s
  | .manorRelease => Sys2Proof.Machine.execManorRelease s
  | .mext im => Sys2Proof.Machine.execMext im s
  | .serviceRingPoll => Sys2Proof.Machine.execServiceRingPoll s
  | .attest nonce out => Sys2Proof.Machine.execAttest nonce out s
  | .windowAccess r => Sys2Proof.Machine.execWindowAccess r s
  | .pcieEndpointRequest port translated msi r => Sys2Proof.Machine.execPcieEndpointRequest port translated msi r s
  | .ualinkRequest r => Sys2Proof.Machine.execUalinkRequest r s
  | .ualinkPortDown port => Sys2Proof.Machine.execUalinkPortDown port s
  | .doorbell port v => Sys2Proof.Machine.execDoorbell port v s
  | .rdmaWorkRequest port qp => Sys2Proof.Machine.execRdmaWorkRequest port qp s
  | .rdmaCompletion port qp nak payload => Sys2Proof.Machine.execRdmaCompletion port qp nak payload s
  | .rdmaIncomingRequest port op rkey addr len payload => Sys2Proof.Machine.execRdmaIncomingRequest port op rkey addr len payload s
  | .stallCharge h site => Sys2Proof.Machine.execStallCharge h site s
  | .retryTimeout port qp => Sys2Proof.Machine.execRetryTimeout port qp s
  | .ualinkPortUp port => Sys2Proof.Machine.execUalinkPortUp port s

end Sys2Proof.Machine
end

