-- ==== Sys2Proof/Machine/Fetch.lean ====
section
/-! DEFINITION. Whose turn it is and what it runs: the fetch of a core (R224), the picks of a trigger unit (R48 to R50), the commands of
the two rings and the blocks of a chain, and the operations of the device that are no encoded instruction. -/
namespace Sys2Proof.Machine
open Sys2Proof

/-! ### Cores (R224) -/

/-- A fetch outside the arena (R224): the address is logged, and the core traps. -/
def State.fetchTrap (s : State) (c : CoreId) : State :=
  let pc := (s.coreOf c).pc
  let a := s.coreAgent c
  (s.logErr { addr := pc.toNat, kind := 3, agent := a.code, ctx := a.ctx, ham := a.ham.getD 0 }).takeTrap c 2 pc false

/-- The instruction that a core issues next, or the word that is none: what stands in the arena at the pc. -/
def State.fetchInstr (s : State) (c : CoreId) : Option (Except W32 Instr) :=
  (s.fetchWord c).map fun w => match decodeReeve w with | .ok i => .ok i | .error _ => .error w

/-- The fetch of a core's next instruction: a reeve's waits for its parish's budget and its home as any read of HBM (R381), and may get an
error response (R386), once for each instruction. -/
def State.fetchIn (s : State) (c : CoreId) : MemRes Unit :=
  let k := s.coreOf c
  match c with
  | .beadle => .ok () s
  | .reeve _ =>
    if k.fetched = some (k.pc, k.instret) then .ok () s
    else
      let w := s.letIn (s.coreAgent c) k.pc.toNat 4
      if w.1 then (w.2.setCore c { k with fetched := some (k.pc, k.instret) }).arrayRead (s.coreAgent c) k.pc.toNat 4 |>.map fun _ => ()
      else .wait w.2

/-- The boot ROM is what a core runs (R407). -/
def Core.inRom (k : Core) : Bool := match k.run with | .rom => true | _ => false

/-- The number of a core: its hamlet's, or 256 for the beadle. -/
def CoreId.num (c : CoreId) : Nat := match c with | .reeve h => h | .beadle => 256
/-- An instruction word names a register in one of its fields, or is a FENCE (R229, R243): it waits for what is on its way to that
register. -/
def namesReg (w : W32) (d : BitVec 5) : Bool :=
  decide (w.extractLsb' 21 5 = d ∨ w.extractLsb' 16 5 = d ∨ w.extractLsb' 11 5 = d) || decide (w.extractLsb' 26 6 = 0x25)
/-- An error response is on its way to a register that the word at the pc names: it returns before that instruction issues (R257). -/
def State.errorDue (s : State) (c : CoreId) : Bool :=
  match s.fetchWord c with
  | some w => (s.coreOf c).owedErr.any fun x => namesReg w x.d
  | none => false
/-- An instruction of a core has issued: the error responses on their way before it return after it (R238). -/
def State.passErr (s : State) (c : CoreId) (k : Core) : State :=
  let y := s.coreOf c
  if y.instret = k.instret && y.run == k.run then s
  else
    let n := k.owedErr.length
    s.setCore c { y with owedErr := (y.owedErr.take n).map (fun x => { x with ran := true }) ++ y.owedErr.drop n }
/-- An instruction run by a core: where an error response is on its way, it returns first if the instruction needs its register (R238,
R257). -/
def State.runOn (s : State) (c : CoreId) (i : Instr) : Out' :=
  match (s.coreOf c).owedErr with
  | [] => exec i s
  | x :: _ =>
    if s.errorDue c then execLateAccessTrap c.num x.ea x.epc s
    else
      match exec i s with
      | .next t => .next (t.passErr c (s.coreOf c))
      | o => o

/-- The turn of a core: the boot ROM runs, or the word at the pc is fetched, decoded and executed (R224, R228, R381, R407). A fetch that gets an
error response traps as a load does, with the pc as its address (R238, R262; DEDUCED, log entry 62). -/
def State.coreTurn (s : State) (c : CoreId) : Out' :=
  let t : State := { s with core := c }
  if (t.coreOf c).inRom then execDeviceReset t
  else if !t.canIssue c then .next t
  else
    match t.fetchInstr c with
    | none => .next (t.fetchTrap c)
    | some x =>
      match t.fetchIn c with
      | .wait u => .next u
      | .err u => .next (u.takeTrap c 4 (u.coreOf c).pc false)
      | .ok _ u =>
        match x with
        | .error v => .next (u.takeTrap c 1 (v.setWidth 64) false)
        | .ok i => u.runOn c i

/-! ### Trigger units (R48 to R50, R56) -/

/-- The state in which a slot of an element runs. -/
def State.atSlot (s : State) (h site n : Nat) : State :=
  { s.setElem h site { s.elem h site with fired := false } with curH := h, curSite := site, curSlot := n }

/-- The instruction of a slot, decoded by the map of its element's kind (R90). -/
def State.slotInstr (s : State) (h site n : Nat) : Option Instr :=
  (decodeOpWord (siteKind site) ((s.elem h site).slotWord n)).toOption

/-- A slot run: its instruction is executed. A word that is no instruction never fires; no load accepts one (R104). -/
def State.runSlot (s : State) (h site n : Nat) : Out' :=
  match s.slotInstr h site n with
  | some i => exec i (s.atSlot h site n)
  | none => .next s

/-- The stops that a hamlet's region has made in this cycle. -/
def State.stopsOf (s : State) (h : Nat) : Nat :=
  match s.regionOf h with
  | some (_, r) => r.stops.length
  | none => 0

/-- A slot is ready: run on the state at the start of the cycle it fires, or stops the region instead (R43, R56). -/
def State.slotFires (s : State) (h site n : Nat) : Bool :=
  match s.slotInstr h site n with
  | none => false
  | some i =>
    match exec i (s.atSlot h site n) with
    | .next t => (t.elem h site).fired || decide (s.stopsOf h < t.stopsOf h)
    | _ => true

/-- The ready slots of an element. -/
def State.readySlots (s : State) (h site : Nat) : List Nat := ((s.elem h site).validSlots).filter fun n => s.slotFires h site n

/-- A slot is of the high class (R48). -/
def State.slotHigh (s : State) (h site n : Nat) : Bool := ((s.elem h site).slotTrig n).high

/-- The first ready normal slot in a search that starts behind slot p and wraps (R48). -/
def State.wrapPick (s : State) (h site : Nat) (ready : List Nat) (p : Nat) : Option Nat :=
  ((List.range 16).map fun i => (p + 1 + i) % 16).find? fun n => ready.contains n && !s.slotHigh h site n

/-- The first pick (R48). -/
def State.firstPick (s : State) (h site : Nat) : Option Nat :=
  let ready := s.readySlots h site
  match ready.find? fun n => s.slotHigh h site n with
  | some n => some n
  | none => s.wrapPick h site ready (s.elem h site).ptr.toNat

/-- The candidates for the second pick behind first pick n, in order (R50). -/
def State.secondCandidates (s : State) (h site n : Nat) : List Nat :=
  let ready := s.readySlots h site
  if s.slotHigh h site n then
    (ready.filter fun m => s.slotHigh h site m && decide (m ≠ n)) ++ (s.wrapPick h site ready (s.elem h site).ptr.toNat).toList
  else (s.wrapPick h site (ready.filter fun m => decide (m ≠ n)) n).toList

/-- The second pick (R50). -/
def State.secondPick (s : State) (h site n : Nat) : Option Nat :=
  (s.secondCandidates h site n).find? fun m => (s.elem h site).pairOk (siteKind site) n m

/-- The turn of a trigger unit: the first pick fires; the second follows it unless the first stopped the region; with no slot ready, a
stall is charged (R32, R48, R50, R56). -/
def State.fireTurn (s : State) (h site : Nat) : Out' :=
  match s.firstPick h site with
  | none => execStallCharge h site s
  | some n =>
    match s.secondPick h site n, s.runSlot h site n with
    | some m, .next t => .next (if s.stopsOf h < t.stopsOf h then t else { t with agenda := .second h site m :: t.agenda })
    | _, o => o

/-- p0 to p5 behind both firings of a pair: what the second one changed, else what the first one left. They write different predicates
(R51). -/
def pairPreds (old one two : Tab Bool) : Tab Bool :=
  (List.range 6).foldl (fun (t : Tab Bool) n =>
    if Tab.get two false n = Tab.get old false n then t else Tab.put t n (Tab.get two false n)) one

/-- The turn of a second pick (R53). Where it reads, through x of class pi or as a PP operand, a p0 to p5 that the first pick writes, which
R51 names no clash, R53 has it read the new value and R54 the one at the start of the cycle: the model's choice is R54, so that a slot picked
as ready stays ready (DESIGN CHOICE, log entry 75). -/
def State.secondTurn (s : State) (h site n : Nat) : Out' :=
  let one := (s.elem h site).p
  let old := (Tab.get (s.ham0 h).elems {} site).p
  match (s.setElem h site { s.elem h site with p := old }).runSlot h site n with
  | .next t => .next (t.setElem h site { t.elem h site with p := pairPreds old one (t.elem h site).p, fired := true })
  | o => o

/-! ### Rings, chains and events -/

/-- The command at the head of a ring of the market is performed, or ends with the status that refuses it. -/
def State.ringTurn (s : State) (base : Nat) (decode : W64 → W64 → W64 → W64 → Except Nat Instr) (fin : State → Nat → State) : Out' :=
  if !s.boot.go then .next s
  else
    match s.ringNext marketAgent base with
    | .empty t => .next t
    | .wait t => .next t
    | .bad t => .next (fin t 5)
    | .cmd w t =>
      match decode w.1 w.2.1 w.2.2.1 w.2.2.2 with
      | .ok i => exec i t
      | .error st => .next (fin t st)

/-- The turn of the market ring (R326, R327). A command that cannot be read ends with status access (log entry 62). -/
def State.queueTurn (s : State) : Out' := s.ringTurn s.boot.mktRing.toNat decodeQueueCmd State.endQueue

/-- The turn of the translation ring (R347). -/
def State.xlatTurn (s : State) : Out' := s.ringTurn s.boot.xlRing.toNat decodeXlatCmd State.endXlat

/-- A chain reads its next block, and the block is performed (R329, R331). -/
def State.chainTurn (s : State) (k : Nat) : Out' :=
  let t := s.chainFetch k
  match t.chainInstr k with
  | some i => exec i t
  | none => .next t

/-- An operation of the device that is no encoded instruction; one that waits for its access is tried again in the next cycle. -/
def State.eventTurn (s : State) (i : Instr) : Out' :=
  match exec i { s with again := false } with
  | .next t => .next (if t.again then { t with again := false, waiting := t.waiting ++ [i] } else t)
  | o => o

/-- What a turn does. -/
def State.runTurn (s : State) (x : Turn) : Out' :=
  match x with
  | .core c => s.coreTurn c
  | .fire h site => s.fireTurn h site
  | .second h site n => s.secondTurn h site n
  | .event i => s.eventTurn i
  | .queueCmd => s.queueTurn
  | .xlatCmd => s.xlatTurn
  | .chain k => s.chainTurn k
  | .tick => .next s.endCycle

/-- What a device in reset still does: it takes the next reset (R407). -/
def Turn.resets (x : Turn) : Bool :=
  match x with
  | .event .deviceReset => true
  | _ => false
/-- What a device that is off still does: it takes the return of its power or a reset (R377, R407). -/
def Turn.wakes (x : Turn) : Bool :=
  match x with
  | .event .deviceReset => true
  | .event (.powerReturn _) => true
  | _ => false

/-! ### An instruction placed for the next step (log entry 20) -/

/-- The site at which a placed fabric instruction runs. -/
def placeSite (k : Kind) : Nat :=
  match k with
  | .pe => 1
  | .se => 0
  | .me => 24
  | .spe => 32

/-- A fabric word as the one slot of an element in hamlet 0, an armed region of its own, every input queue holding one entry. -/
def State.placeSlot (s : State) (k : Kind) (w : W32) : State :=
  let site := placeSite k
  let data : Queue := { ents := [.tok ⟨0, 0⟩] }
  let bit : Queue := { ents := [.bit false] }
  let x := s.ham 0
  let e : Elem := { slots := [(0, w ++ 0x80000000#32)], inq := [(0, data), (1, data), (2, data), (3, data), (4, bit), (5, bit)] }
  let t := s.setHam 0 { x with region := some 0, powered := true, elems := Tab.put x.elems site e }
  { t.setRegion 0 { st := .armed } with agenda := [.fire 0 site], off := false, inReset := false }

/-- A reeve word at the start of the firmware store, where the beadle runs next. -/
def State.placeWord (s : State) (w : W32) : State :=
  { s with
    mem := s.mem.writeLE storeBase 4 w.toNat
    beadle := { s.beadle with pc := BitVec.ofNat 64 storeBase, run := .running, arenaBase := BitVec.ofNat 64 storeBase,
                              arenaBound := BitVec.ofNat 64 (storeBase + 4096) }
    agenda := [.core .beadle], off := false, inReset := false }

end Sys2Proof.Machine
end

