-- ==== Sys2Proof/Machine/Step.lean ====
section
/-! DEFINITION. One step of the machine: the next turn of the agenda runs; with none left, the turns of the next cycle are planned (log
entry 1). -/
namespace Sys2Proof.Machine
open Sys2Proof

/-- One step. A device that is off stops with the fault `deviceOff`, but for the return of its power and for a reset (R377). One that stays in
reset does nothing but take the next reset (R407). -/
def step (s : State) : Host.Outcome State Fault Refusal :=
  match s.agenda with
  | [] => if s.off then .fault .deviceOff else if s.inReset then .next s else .next s.planCycle
  | x :: rest =>
    if s.off && !x.wakes then .fault .deviceOff
    else if s.inReset && !x.resets then .next { s with agenda := rest }
    else State.runTurn { s with agenda := rest } x

/-- The state with the instruction of a table word where the next step runs it (log entry 20). -/
def State.withFetchWord (s : State) (nbits w : Nat) : State :=
  match decodeTableWord nbits w with
  | some i =>
    match i.fabric? with
    | some p => s.placeSlot p.1 (BitVec.ofNat 32 w)
    | none => s.placeWord (BitVec.ofNat 32 w)
  | none => s.placeWord (BitVec.ofNat 32 w)

end Sys2Proof.Machine
end

