-- ==== Sys2Proof/Safety.lean ====
section
/-! DEFINITION. What the claims ask of a state: the canonical form of its memories, what a step leaves alone, and the conditions under
which an instruction has its own effect. -/
namespace Sys2Proof.Machine
open Sys2Proof

/-! ### The canonical form -/

/-- The state's memories are in their canonical form: no two states differ in nothing but how they list a byte. -/
def State.MemOk (s : State) : Prop := s.mem.wf = true ∧ s.flash.wf = true

/-! ### Turns -/

/-- The state with the turns that are left (log entry 1). -/
def State.behind (s : State) (rest : List Turn) : State := { s with agenda := rest }
/-- The state in which a core runs, with the turns that are left. -/
def State.runs (s : State) (c : CoreId) (rest : List Turn) : State := { s with agenda := rest, core := c }

/-! ### Frames -/

/-- Nothing but one core has changed. -/
def State.OnlyCore (s t : State) (c : CoreId) : Prop := t = s.setCore c (t.coreOf c)

/-- Nothing but one element has changed. -/
def State.OnlyElem (s t : State) (h site : Nat) : Prop := t = s.setElem h site (t.elem h site)

/-- Every byte of memory outside n bytes from `pa` reads as before. -/
def State.MemSameOutside (s t : State) (pa n : Nat) : Prop := ∀ a, a < pa ∨ pa + n ≤ a → t.mem.read a = s.mem.read a

/-- Every byte of memory reads as before. -/
def State.MemSame (s t : State) : Prop := ∀ a, t.mem.read a = s.mem.read a

/-- The control registers of a core that only a CSR instruction or a trap writes (R225) are as before. -/
def Core.SameControl (k k' : Core) : Prop :=
  k'.ctx = k.ctx ∧ k'.arenaBase = k.arenaBase ∧ k'.arenaBound = k.arenaBound ∧ k'.tvec = k.tvec ∧ k'.tcause = k.tcause ∧ k'.tval = k.tval ∧
  k'.epc = k.epc ∧ k'.mT = k.mT ∧ k'.mPt = k.mPt ∧ k'.mLate = k.mLate ∧ k'.shadowIval = k.shadowIval ∧ k'.heldBase = k.heldBase ∧
  k'.heldSize = k.heldSize ∧ k'.evq = k.evq ∧ k'.storeBuf = k.storeBuf

/-- The destination register of a reeve instruction that computes in registers only and cannot trap (R233 to R236, R255); g0 where it
has none. -/
def regOnly (i : Instr) : Option (BitVec 5) :=
  match i with
  | .reeveAdd d _ _ | .reeveSub d _ _ | .reeveAnd d _ _ | .reeveOr d _ _ | .reeveXor d _ _ | .sll d _ _ | .srl d _ _ | .reeveSra d _ _ => some d
  | .slt d _ _ | .sltu d _ _ | .reeveMul d _ _ | .reeveMulh d _ _ | .reeveMulhu d _ _ | .div d _ _ | .divu d _ _ | .rem d _ _ => some d
  | .remu d _ _ | .reeveMin d _ _ | .reeveMax d _ _ | .addi d _ _ | .andi d _ _ | .ori d _ _ | .xori d _ _ | .slli d _ _ => some d
  | .srli d _ _ | .srai d _ _ | .slti d _ _ | .lui d _ | .jal d _ => some d
  | .beq _ _ _ | .bne _ _ _ | .blt _ _ _ | .bge _ _ _ | .bltu _ _ _ | .bgeu _ _ _ | .reeveNop => some 0
  | _ => none

/-! ### Accesses -/

/-- An access of n bytes of the HBM by an agent is let in by the budget and the rate cap, and meets no failed cell (R262, R380, R381,
R386). -/
def State.HbmOpen (s : State) (a : Agent) (pa n : Nat) : Prop := placeOf pa = .hbm ∧ (s.letIn a pa n).1 = true ∧ s.eccOf pa n = []

/-! ### Cores -/

/-- The core named by the state is free to issue: it runs, and nothing holds its hamlet's engines or its store buffer (R226, R249,
R259, R365, R368). -/
def State.Issues (s : State) : Prop := s.canIssue s.core = true

/-- The reeve of hamlet h is the core that runs, and is free to issue. -/
def State.IssuesReeve (s : State) (h : Nat) : Prop := s.core = .reeve h ∧ s.canIssue (.reeve h) = true

/-- The reeve of hamlet h is the lead reeve of a region, and is free to issue (R248, R295). -/
def State.IssuesLead (s : State) (h : Nat) : Prop := s.IssuesReeve h ∧ (s.ham h).region = some h

/-! ### Firings -/

/-- What a ready slot's firing leaves: the commit of its effect in its element (R54). -/
def State.landed (s : State) (f : FOp) (n : Need) (x : Fire) : State := s.setCur (x.land s.cur s.curTrig s.curSlot f n.deq)

/-- An operation of two operands computes a value and a flag, under the tag rule (R23, R111). -/
def State.Computes2 (s : State) (i : Instr) (f : FOp) (x : XClass) (g : W40 → W40 → W40 × Bool) : Prop :=
  s.slotReady (baseNeed .a2 x f) = true →
    exec i s = .next (s.landed f (baseNeed .a2 x f)
      (Fire.one s.cur f (underTags [s.cur.operand f.a, s.cur.operand f.b] (g (s.cur.operand f.a).data (s.cur.operand f.b).data))))

/-- An operation of one operand computes a value and a flag, under the tag rule (R23, R111). -/
def State.Computes1 (s : State) (i : Instr) (f : FOp) (x : XClass) (g : W40 → W40 × Bool) : Prop :=
  s.slotReady (baseNeed .a1 x f) = true →
    exec i s = .next (s.landed f (baseNeed .a1 x f) (Fire.one s.cur f (underTags [s.cur.operand f.a] (g (s.cur.operand f.a).data))))

/-- A firing writes a token as the operation's table gives it for the tag of its operand, with a flag; or nothing (R125, R128, R131). -/
def State.Moves (s : State) (i : Instr) (f : FOp) (x : XClass) (t : Option Token) (flag : Bool) : Prop :=
  s.slotReady (baseNeed .a1 x f) = true →
    exec i s = .next (s.landed f (baseNeed .a1 x f) { e := s.cur, toks := t.toList, dsts := [f.dst], flag := some flag })

/-- A firing whose operand is not DATA: its operation is not begun; its dequeues land, and its flag is 0 (R145, R206). -/
def State.Skips (s : State) (i : Instr) (f : FOp) (n : Need) : Prop :=
  s.slotReady n = true → exec i s = .next (s.landed f n { e := s.cur, flag := some false })

/-- A firing of a matrix element with DATA operands changes its state and gives a flag (R206). -/
def State.Tiles (s : State) (i : Instr) (f : FOp) (c : OpClass) (x : XClass) (me : ME) (flag : Bool) : Prop :=
  s.slotReady (baseNeed c x f) = true →
    exec i s = .next (s.landed f (baseNeed c x f) { e := { s.cur with me := me }, flag := some flag })

/-! ### Green requests -/

/-- The request that the running slot makes: of a kind and width, with a value and the register of dst as the expected one (R145,
R153 to R159). -/
def State.speReq (s : State) (f : FOp) (kind : SpeKind) (size : Nat) (posted : Bool) (val : W40) : SpeReq :=
  { kind := kind, srcH := s.curH, site := s.curSite, slot := s.curSlot, addr := low32 (s.cur.operand f.a).data, size := size,
    zext := f.x.getLsbD 2, val := val, expv := Tab.get s.cur.d 0 f.dst.toNat, op := f, posted := posted, issued := s.cycle,
    after := if s.cur.recorded then s.cutNow s.curH else none }

/-- The bank of the running slot's own element serves a request in the cycle of its firing: the address is good, the word permits it, no
held write of the element lies on it (one to a green of its own region is never held, R150), no cut and no earlier request of the element
holds it back, nothing refuses it and no cell has failed (R146 to R149, R159, R280, R361, R386; log entry 60). -/
def State.Serves (s : State) (r : SpeReq) (c : OpClass) (x : XClass) : Prop :=
  (speAddr r.srcH r.addr).isSome = true ∧ r.addr.toNat % r.size = 0 ∧ ownBank r.srcH r.site r.target = true ∧ permitted s r = true ∧
  s.heldOn r = [] ∧
  s.mustQueue r = false ∧ s.orderWaits r = false ∧ s.eccOf (greenPa r.target.1 r.target.2) r.size = [] ∧
  s.greenRefused (r.agent s) r.target.1 r.target.2 r.size r.kind.writes = false ∧ s.slotReady (speNeed s r.op c x (some r) r.posted) = true

/-! ### Exact numbers -/

/-- n is the whole number nearest to a / g; of two that are as near, the even one. -/
def Nearest (a g n : Nat) : Prop := 2 * a ≤ (2 * n + 1) * g ∧ 2 * n * g ≤ 2 * a + g ∧ (2 * a = (2 * n + 1) * g ∨ 2 * a + g = 2 * n * g → n % 2 = 0)

/-- m × 2^e in units of 2^g as a fraction of whole numbers. -/
def inUnits (m : Nat) (e g : Int) : Nat × Nat := let lo := if e < g then e else g; (m * pow2 (e - lo), pow2 (g - lo))

/-- Rounding into the patterns of a binary format whose largest finite value is `top` is sound in every mode (R63, R64, R67): a rounded
value is a fixed point; a value that a pattern holds is kept; a finite value of no greater magnitude than `top` stays finite and keeps its
sign; rounding down gives the greatest value not above the exact one, rounding up the least not below it, rounding towards zero the one of
greatest magnitude not beyond it; and of the finite patterns none is nearer than the one that rne gives, which is even where two are as near. -/
def RoundsSoundly {n : Nat} (val : BitVec n → FVal) (round : Rm → FVal → BitVec n) (top : FVal) : Prop :=
  let finite (v : FVal) : Prop := ∃ s m e, v = .fin s m e
  let apart (a b : FVal) : FVal := (a.add .rne b.neg).abs
  let down (v : FVal) := val (round .rdn v)
  let up (v : FVal) := val (round .rup v)
  let cut (v : FVal) := val (round .rtz v)
  let near (v : FVal) := val (round .rne v)
  (∀ v rm rm', round rm (val (round rm' v)) = round rm' v) ∧
  (∀ v w rm, v.feq (val w) = true → (val (round rm v)).feq v = true) ∧
  (∀ s m e rm, top.lt (.fin false m e) = false → finite (val (round rm (.fin s m e))) ∧ (val (round rm (.fin s m e))).sign = s) ∧
  (∀ v, v.lt (down v) = false ∧ (up v).lt v = false) ∧
  (∀ v w, finite v → finite (val w) →
    (v.lt (val w) = false → (down v).lt (val w) = false) ∧ ((val w).lt v = false → (val w).lt (up v) = false) ∧
    v.abs.lt (cut v).abs = false ∧ (v.abs.lt (val w).abs = false → (cut v).abs.lt (val w).abs = false) ∧
    (top.lt v.abs = false → (apart v (val w)).lt (apart v (near v)) = false ∧
      ((apart v (near v)).lt (apart v (val w)) = false → (near v).feq (val w) = false → (round .rne v).getLsbD 0 = false)))

/-! ### Formats (R65 to R85) -/

/-- The float layouts: id, bits of the exponent and of the mantissa, bias, and whether it has no special codes (0), the NaN of E4M3 (1) or
infinities and NaNs (2) (R67). -/
def layouts : List (Nat × Nat × Nat × Nat × Nat) :=
  [(0, 2, 1, 1, 0), (1, 2, 3, 1, 0), (2, 3, 2, 3, 0), (3, 4, 3, 7, 1), (4, 5, 2, 15, 2), (9, 8, 7, 127, 2), (10, 5, 10, 15, 2),
   (11, 8, 10, 127, 2), (20, 8, 23, 127, 2), (23, 8, 7, 127, 2)]
/-- The layouts of the elements of the MX formats, with emax (R70, R82). -/
def mxLayouts : List (Nat × Nat × Nat × Nat × Nat × Int) :=
  [(12, 2, 1, 1, 0, 2), (13, 2, 3, 1, 0, 2), (14, 3, 2, 3, 0, 4), (15, 4, 3, 7, 1, 8), (16, 5, 2, 15, 2, 15)]

/-- The value of an exponent and a mantissa field (R67). -/
def fieldVal (M bias : Nat) (s : Bool) (e f : Nat) : FVal :=
  if e = 0 then .fin s f (1 - (bias : Int) - M) else .fin s (2 ^ M + f) ((e : Int) - bias - M)

/-- A token holds a value exactly: it is DATA, of the value's sign, and canonical (R63, R72). -/
def Token.Holds (t : Token) (s : Bool) (v : FVal) : Prop :=
  t.tag = 0 ∧ (f40Val t.data).feq v = true ∧ t.data.getLsbD 39 = s ∧ f40Round .rne (f40Val t.data) = t.data

/-- What the element of a load becomes (R65 to R72, R85): an integer its 32-bit value, F40 raw its pattern, a float element its exact value
under its scale, every NaN code and every element of a NaN or infinite scale the canonical NaN, an infinity an infinity; an element whose
code or unit header has reserved bits is NaN in service mode, and read without them in bench mode. -/
def LoadConversions : Prop :=
  (List.range 25).map fmtBits = [4, 6, 6, 8, 8, 4, 4, 8, 8, 16, 16, 32, 4, 6, 6, 8, 8, 8, 8, 8, 32, 32, 16, 16, 64] ∧
  ∀ (r : Raw) (bench s : Bool) (e f M E bias id k low : Nat) (scale : W32) (rest : List Byte) (x : Byte) (emax : Int),
    let t := r.token id bench
    let nan : Token := ⟨0, 0x7FF8000000⟩
    let inf : Token := ⟨0, if s then 0xFFF0000000 else 0x7FF0000000⟩
    let code := (if s then 2 ^ (E + M) else 0) + e * 2 ^ M + f
    let isNan : Prop := (k = 1 ∧ e = 15 ∧ f = 7) ∨ (k = 2 ∧ e = 2 ^ E - 1 ∧ f ≠ 0)
    let isInf : Prop := k = 2 ∧ e = 2 ^ E - 1 ∧ f = 0
    let reads (v : FVal) : Prop := (isNan → t = nan) ∧ (isInf → t = inf) ∧ (¬ isNan → ¬ isInf → t.Holds s v)
    ((id = 5 → t = ⟨0, (BitVec.ofNat 4 r.code).signExtend 40⟩) ∧ (id = 7 → t = ⟨0, (BitVec.ofNat 8 r.code).signExtend 40⟩) ∧
      (id = 22 → t = ⟨0, (BitVec.ofNat 16 r.code).signExtend 40⟩) ∧ (id = 21 → t = ⟨0, (BitVec.ofNat 32 r.code).signExtend 40⟩) ∧
      (id = 6 ∨ id = 8 → r.code < 256 → t = ⟨0, BitVec.ofNat 40 r.code⟩) ∧ (id = 24 → t = ⟨0, BitVec.ofNat 40 r.code⟩)) ∧
    (e < 2 ^ E → f < 2 ^ M →
      ((id, E, M, bias, k) ∈ layouts → id ≠ 11 → r.code = code → reads (fieldVal M bias s e f)) ∧
      ((id, E, M, bias, k) ∈ layouts → id = 11 → low < 2 ^ 13 → r.code = code * 2 ^ 13 + low →
        (low ≠ 0 → bench = false → t = nan) ∧ (low = 0 ∨ bench = true → reads (fieldVal M bias s e f))) ∧
      ((id, E, M, bias, k, emax) ∈ mxLayouts → r.code = code → r.hdr = [x] →
        (x = 0xFF → t = nan) ∧ (x ≠ 0xFF → reads ((fieldVal M bias s e f).mul (.fin false 1 ((x.toNat : Int) - 127))))) ∧
      (id = 18 ∨ id = 19 → E = 4 → M = 3 → k = 1 → r.code = code → r.hdr = leBytes 4 scale.toNat ++ rest →
        ((∃ b ∈ rest, b ≠ 0) → bench = false → t = nan) ∧
        ((∀ b ∈ rest, b = 0) ∨ bench = true →
          (scale.extractLsb' 23 8 = 0xFF ∨ isNan → t = nan) ∧
          (scale.extractLsb' 23 8 ≠ 0xFF → ¬ isNan → t.Holds (s != scale.getLsbD 31) ((fieldVal 3 7 s e f).mul (f32Val scale)))))) ∧
    (id = 17 → r.code < 256 → r.hdr = [x] → (x = 0xFF → t = nan) ∧
      (x ≠ 0xFF → let n := (BitVec.ofNat 8 r.code).toInt; t.Holds (decide (n < 0)) (.fin (decide (n < 0)) n.natAbs ((x.toNat : Int) - 133))))

/-- The code that a store writes for an element, with its events (R73 to R79, R82): |v| is rounded on the grid of its ulp by the mode,
to the nearest, towards zero, or by the threshold; a magnitude beyond the largest finite one overflows as R75 gives; a non-zero value that
becomes zero raises ufl; the sign stays. NaN and the infinities go by R75's table. The scale of an MX block is formed as R82 gives, and an
overflow of its elements clamps whatever the mode. -/
def StoreConversions : Prop :=
  (∀ (id E M bias k t : Nat) (mode : StMode) (s : Bool) (m : Nat) (e emax : Int) (scale : Nat),
    let sgn := if s then 2 ^ (E + M) else 0
    let nanCode := if k = 1 then 2 ^ (E + M) - 1 else (2 ^ E - 1) * 2 ^ M + 2 ^ (M - 1)
    let infCode := (2 ^ E - 1) * 2 ^ M
    let topCode := if k = 2 then infCode - 1 else if k = 1 then 2 ^ (E + M) - 2 else 2 ^ (E + M) - 1
    let top := fieldVal M bias false (topCode / 2 ^ M) (topCode % 2 ^ M)
    let overflow := if k = 2 then infCode else if k = 1 then nanCode else topCode
    let rounds (e g : Int) (n : Nat) : Prop :=
      let a := inUnits m e g
      match mode with
      | .rne | .satrne => Nearest a.1 a.2 n
      | .rtz => n = a.1 / a.2
      | .dither => n = (256 * a.1 + t * a.2) / (256 * a.2)
    let stores (r : Stored) (e : Int) (clamp : Bool) : Prop :=
      (m = 0 → r = { code := sgn }) ∧
      (m ≠ 0 → ∀ n,
        let g : Int := max (floorLog2 m e) (1 - bias) - M
        rounds e g n →
        (top.lt (.fin false n g) = true → r = { code := sgn + (if clamp ∨ mode ≠ .rne then topCode else overflow), sat := true }) ∧
        (top.lt (.fin false n g) = false → r.sat = false ∧ r.ufl = decide (n = 0) ∧ r.code / 2 ^ (E + M) = (if s then 1 else 0) ∧
          (fieldVal M bias false (r.code / 2 ^ M % 2 ^ E) (r.code % 2 ^ M)).feq (.fin false n g) = true))
    let c := if id = 11 then 2 ^ 13 else 1
    ((id, E, M, bias, k) ∈ layouts ∨ ((id = 18 ∨ id = 19) ∧ E = 4 ∧ M = 3 ∧ bias = 7 ∧ k = 1) →
      (∃ r : Stored, storeFloat id mode t (.fin s m e) = { r with code := r.code * c } ∧ stores r e false) ∧
      storeFloat id mode t (.inf s) = (if k = 2 then { code := (sgn + infCode) * c } else if k = 1 then { code := sgn + nanCode, sat := true }
        else { code := sgn + topCode, sat := true }) ∧
      storeFloat id mode t .nan = (if k = 0 then { code := 0, sat := true } else { code := nanCode * c })) ∧
    ((id, E, M, bias, k, emax) ∈ mxLayouts →
      ∃ r, mxElems id scale false mode [(.fin s m e, t)] = [r] ∧ stores r (e + 127 - scale) true) ∧
    (id = 17 → ∀ n, rounds (e + 127 - scale) (-6) n →
      let v : Int := if s then -(n : Int) else n
      mxElems id scale false mode [(.fin s m e, t)] =
        [{ code := (max (-128) (min 127 v) % 256).toNat, sat := decide (v < -128 ∨ 127 < v), ufl := decide (m ≠ 0) && decide (n = 0) }])) ∧
  (∀ (id E M bias k : Nat) (emax : Int) (vs : List FVal) (mode : StMode) (ts : List Nat),
    (id, E, M, bias, k, emax) ∈ mxLayouts ∨ (id = 17 ∧ emax = 0) →
    let finite : Prop := ∀ v ∈ vs, ∃ s m e, v = .fin s m e
    (¬ finite → mxScale id vs = (0xFF, true)) ∧
    (finite → (∀ v ∈ vs, v.isZero = true) → mxScale id vs = (0, false)) ∧
    (finite → ∀ top : Int, (∃ s m e, FVal.fin s m e ∈ vs ∧ m ≠ 0 ∧ floorLog2 m e = top) →
      (∀ s m e, FVal.fin s m e ∈ vs → m ≠ 0 → floorLog2 m e ≤ top) →
      mxScale id vs = ((max (-127) (min 127 (top - emax)) + 127).toNat, false)) ∧
    (∀ r ∈ mxElems id 0xFF true mode (vs.zip ts), r.code = 0)) ∧
  (∀ (x : Stream) (v : W40) (t p : Nat), x.kind = .sstore →
    let r := x.storeCode v t
    let n := (v.extractLsb' 0 32).toInt
    (x.fmt = 24 → r = { code := v.toNat }) ∧
    (∀ w lo hi, (x.fmt, w, lo, hi) ∈ ([(5, 4, -8, 7), (6, 4, 0, 15), (7, 8, -128, 127), (8, 8, 0, 255), (22, 16, -32768, 32767),
        (21, 32, -2147483648, 2147483647)] : List (Nat × Nat × Int × Int)) →
      r = { code := (max lo (min hi n) % (2 ^ w : Int)).toNat, sat := decide (n < lo ∨ hi < n), ufl := decide (n < lo ∧ lo = 0) }) ∧
    (x.fmt ∈ [0, 1, 2, 3, 4, 9, 10, 11, 18, 19, 20, 23] → r = storeFloat x.fmt x.rmode t (f40Val v)) ∧
    (let bits (v : Nat) : Nat := 64 * (v % 2) + 16 * (v / 2 % 2) + 4 * (v / 4 % 2) + v / 8 % 2
     let row := ((if 2 ≤ x.dims then p / x.span 1 % x.count 1 else 0) + x.phase.toNat) % 16
     let col := p / x.span 0 % x.count 0 % 16
     x.threshold p = 2 * bits ((col ^^^ row) % 16) + bits row))

/-! ### The arithmetic of a block (R189 to R194) -/

/-- A group quantized on the grid 2^g to p planes: each finite element to the nearest magnitude, one of 2^p clamped to 2^p − 1 with one
SAT, a non-zero one that becomes 0 with one UFL (R189, R190). -/
def Quantized (p : Nat) (g : Int) (vs out : List MeVal) (sat ufl : Nat) : Prop :=
  ∃ q : MeVal → Nat, (∀ v ∈ vs, v.nonfin = false → let a := inUnits v.m v.e g; Nearest a.1 a.2 (q v)) ∧
    out = vs.map (fun v => if v.nonfin then { v with m := 0, e := 0 } else { neg := v.neg, m := min (q v) (2 ^ p - 1) }) ∧
    sat = (vs.filter fun v => !v.nonfin && decide (2 ^ p ≤ q v)).length ∧
    ufl = (vs.filter fun v => !v.nonfin && decide (v.m ≠ 0 ∧ q v = 0)).length

/-- What one position of a block computes (R189 to R194): the groups' exact products, their sum rounded to the window of the largest, the
scales, the two FP32 roundings that clamp, and CNC. -/
def BlockArithmetic : Prop :=
  (∀ (p : Nat) (vs : List MeVal),
    let fin := vs.filter fun v => !v.nonfin && decide (v.m ≠ 0)
    let r := quantGroup p vs
    (fin = [] → r.2 = (0, 0, 0) ∧ r.1 = vs.map fun v => { v with m := 0, e := 0 }) ∧
    (∀ top : Int, (∃ v ∈ fin, floorLog2 v.m v.e = top) → (∀ v ∈ fin, floorLog2 v.m v.e ≤ top) →
      r.2.1 = top - p + 1 ∧ Quantized p (top - p + 1) vs r.1 r.2.2.1 r.2.2.2)) ∧
  (∀ (p master : Nat) (vs : List MeVal) (eb : Int),
    let r := narrowGroup p master vs eb
    (master ≤ p → r = (vs, eb, 0, 0)) ∧
    (p < master → r.2.1 = eb + master - p ∧ Quantized p ((master : Int) - p) vs r.1 r.2.2.1 r.2.2.2)) ∧
  (∀ (ts : List (Int × Int)),
    ((∀ t ∈ ts, t.1 = 0) → windowSum ts = .fin false 0 0) ∧
    (∀ top lo : Int, (∃ t ∈ ts, t.1 ≠ 0 ∧ floorLog2 t.1.natAbs t.2 = top) → (∀ t ∈ ts, t.1 ≠ 0 → floorLog2 t.1.natAbs t.2 ≤ top) →
      lo ≤ top - 60 → (∀ t ∈ ts, lo ≤ t.2) →
      let v : Int := (ts.map fun t => t.1 * (2 ^ (t.2 - lo).toNat : Int)).sum
      ∃ n, windowSum ts = .fin (decide (v < 0)) n (top - 60) ∧ Nearest v.natAbs (2 ^ (top - 60 - lo).toNat) n)) ∧
  (∀ v : FVal,
    let u := f32Round .rne v
    ((∀ s m e, v ≠ .fin s m e) → clampRound v = (u, 0)) ∧
    (∀ s m e, v = .fin s m e → clampRound v =
      if u.extractLsb' 23 8 = 0xFF then (if s then 0xFF7FFFFF else 0x7F7FFFFF, 1) else (u, 0))) ∧
  (∀ (integer : Bool) (p : Nat) (first : Bool) (shift : Nat) (rowBad : Bool) (a : List AGroup) (sa sw : W32) (t : Tile) (j : Nat) (w : W32),
    let b := colGroups integer p t j
    let bad : Prop := rowBad = true ∨ ∃ g ∈ b.1, ∃ v ∈ g.1, v.1.nonfin = true
    let dot (x : AGroup × List (MeVal × Nat) × Int) : Int := (x.2.1.map fun v => (x.1.q.getD v.2 {}).int * v.1.int).sum
    let v := windowSum ((a.zip b.1).map fun x => (dot x, x.1.e + x.2.2))
    let x := clampRound ((v.mul (f32Val sa)).mul (f32Val sw))
    let r := clampRound ((f32Val w).add .rne (f32Val x.1))
    let y := mePos integer p first shift rowBad a sa sw t j w
    (bad → y = { w := 0x7FC00000, sat := if first then b.2.1 else 0, ufl := if first then b.2.2 else 0, nonfin := true }) ∧
    (¬ bad → y.w = r.1 ∧ y.nonfin = false ∧ y.sat = (if first then b.2.1 else 0) + x.2 + r.2 ∧ y.ufl = (if first then b.2.2 else 0) ∧ y.cnc ≤ 1 ∧
      (y.cnc = 1 → (f32Val w).isZero = false ∧ (f32Val x.1).isZero = false) ∧
      (∀ s m e s' m' e', f32Val w = .fin s m e → m ≠ 0 → f32Val x.1 = .fin s' m' e' → m' ≠ 0 →
        (y.cnc = 1 ↔ ∃ s n g, f32Val r.1 = .fin s n g ∧ (n = 0 ∨ floorLog2 n g ≤ max (floorLog2 m e) (floorLog2 m' e') - shift)))))

end Sys2Proof.Machine
end

