-- ==== Sys2Proof/Certificates/Slice0/Obligations.lean ====
section
/-! DEFINITION. The statements for the provers. A docstring names the rule of spec/ that a statement formalises; where a clause is the
model's own choice it says so and names the log entry. -/

open Sys2Proof Sys2Proof.Machine

/-! ### Encoding (R89 to R97, R229 to R232, R327, R347) -/

/-- No bit of an encoding is dropped: the word of every well-formed fabric instruction decodes, in the map of its element kind, to that
instruction, and so does the word of every well-formed reeve instruction (R90 to R97, R229 to R255). The queue commands of the market ring
and the translation commands: the four doublewords of a well-formed command decode to it (R327, R347). -/
def Obligations.EncodeThenDecode : Prop :=
  (∀ i : Instr, i.wf = true →
    (∀ k code f, i.fabric? = some (k, code, f) → ∃ w, encode i = some w ∧ decodeOpWord k w = .ok i) ∧
    (∀ w, encodeReeve i = some w → encode i = some w ∧ decodeReeve w = .ok i)) ∧
  (∀ i : Instr, i.wf = true →
    (∀ h a b c, encodeQueueCmd i = some (h, a, b, c) → decodeQueueCmd h a b c = .ok i) ∧
    (∀ h a b c, encodeXlatCmd i = some (h, a, b, c) → decodeXlatCmd h a b c = .ok i))

/-- A word has one meaning in each map: what decodes is well formed and encodes back to the same word, so every bit of an accepted word
is read or is zero (R90, R231). -/
def Obligations.DecodeThenEncode : Prop :=
  (∀ (k : Kind) (w : W32) (i : Instr), decodeOpWord k w = .ok i → i.wf = true ∧ encode i = some w) ∧
  (∀ (w : W32) (i : Instr), decodeReeve w = .ok i → i.wf = true ∧ encode i = some w)

/-- Words that the spec writes out decode to the instructions it gives them for: the slots of the examples of R180, R136 and R219, and
the program of R260. -/
def Obligations.WordsDecode : Prop :=
  decodeOpWord .se 0x01F00109 = .ok (.sload { dst := 15, a := 8, b := 0, deq := 0, pwe := true, pidx := 0, pmode := 1, x := 1 }) ∧
  decodeOpWord .se 0x13F20131 = .ok (.sresume { dst := 15, a := 9, b := 0, deq := 0, pwe := true, pidx := 1, pmode := 2, x := 1 }) ∧
  decodeOpWord .pe 0x8119A601 = .ok (.radd { dst := 8, a := 12, b := 13, deq := 3, pwe := false, pidx := 0, pmode := 0, x := 1 }) ∧
  decodeOpWord .me 0x17E00000 = .ok (.mwait { dst := 15, a := 0, b := 0, deq := 0, pwe := false, pidx := 0, pmode := 0, x := 0 }) ∧
  decodeReeve 0x6CA10000 = .ok (.reeveLd 5 1 0) ∧ decodeReeve 0xA0C50000 = .ok (.cfgld 6 5) ∧ decodeReeve 0x44C0000F = .ok (.bne 6 0 15) ∧
  decodeReeve 0xA0C00042 = .ok (.cfgarm 6 2) ∧ decodeReeve 0x05000001 = .ok (.addi 8 0 1) ∧ decodeReeve 0xA8074000 = .ok (.binit 0 7 8) ∧
  decodeReeve 0x01A70000 = .ok (.reeveAdd 13 7 0) ∧ decodeReeve 0xA5895012 = .ok (.copy 12 9 10 2 2) ∧
  decodeReeve 0xA9676052 = .ok (.barv 11 7 12 2 1)

/-- What no table assigns is refused by name: a major opcode outside R232, an opcode outside
the map of an element kind (R94 to R97), and a reserved op, a wrong version or a queue beyond 63 of a queue command (R327). -/
def Obligations.ReservedRefused : Prop :=
  (∀ w : W32, (w.extractLsb' 26 6).toNat ∈ [0x0A, 0x0B, 0x0C, 0x0D, 0x0E, 0x0F, 0x1F] ∨ 0x2F ≤ (w.extractLsb' 26 6).toNat →
    decodeReeve w = .error .unassignedMajor) ∧
  (∀ (k : Kind) (w : W32), opClass k (w.extractLsb' 25 7).toNat = none → decodeOpWord k w = .error .unassignedOpcode) ∧
  (∀ h a b c : W64, 7 ≤ (h.extractLsb' 0 8).toNat → decodeQueueCmd h a b c = .error 1) ∧
  (∀ h a b c : W64, (h.extractLsb' 0 8).toNat ≤ 6 → h.extractLsb' 8 8 ≠ 1 → decodeQueueCmd h a b c = .error 2) ∧
  (∀ h a b c : W64, (h.extractLsb' 0 8).toNat ≤ 6 → h.extractLsb' 8 8 = 1 → 64 ≤ (h.extractLsb' 16 8).toNat →
    decodeQueueCmd h a b c = .error 3)

/-! ### The step, fetching and picking (R48, R50, R224, R228, R326) -/

/-- A core's turn runs the decoded instruction: where the word at its pc, wholly inside its arena, decodes to i, the step is exec of i
with that core as the one that runs (R224, R229). The fetch of a reeve is charged to its parish's budget first, once for each instruction,
and the reeve waits while that or the fetch's home does not let it in (R380, R381); where it is let in and no cell has failed, it changes no
byte of memory. An error response to the fetch raises trap "access" with the pc as tval: that is the model's reading (log entry 62). Where an
error response to an earlier access of the core is on its way, it returns first if the word names the register of that access, or is a FENCE;
else it is noted that a later instruction has issued (R238, R257; the model's choice of when it returns, log entry 82). What surrounds exec is
the model's agenda (log entry 1). -/
def Obligations.StepRunsCoreInstruction : Prop :=
  ∀ (s : State) (c : CoreId) (rest : List Turn) (i : Instr),
    s.agenda = .core c :: rest → s.off = false → s.inReset = false →
    let t := s.runs c rest
    let k := s.coreOf c
    let runs (u : State) : Prop :=
      (k.owedErr = [] → step s = exec i u) ∧
      (∀ x l, k.owedErr = x :: l →
        (u.errorDue c = true → step s = exec (.lateAccessTrap c.num x.ea x.epc) u) ∧
        (u.errorDue c = false → ∀ v, exec i u = .next v → step s = .next (v.passErr c (u.coreOf c))))
    t.canIssue c = true → k.arenaBase.toNat ≤ k.pc.toNat → k.pc.toNat + 4 ≤ k.arenaBound.toNat →
    decodeReeve (BitVec.ofNat 32 (s.mem.readLE k.pc.toNat 4)) = .ok i →
    (c = .beadle → runs t) ∧
    (∀ h, c = .reeve h → k.fetched = some (k.pc, k.instret) → runs t) ∧
    (∀ u, t.fetchIn c = .ok () u → runs u) ∧ (∀ u, t.fetchIn c = .wait u → step s = .next u) ∧
    (∀ u, t.fetchIn c = .err u → step s = .next (u.takeTrap c 4 k.pc false)) ∧
    (∀ h, c = .reeve h → k.fetched ≠ some (k.pc, k.instret) →
      ((t.letIn (t.coreAgent c) k.pc.toNat 4).1 = true → t.eccOf k.pc.toNat 4 = [] →
        ∃ u, t.fetchIn c = .ok () u ∧ u.mem = s.mem ∧ (∀ r, u.reg c r = s.reg c r) ∧ (u.coreOf c).pc = k.pc) ∧
      ((t.letIn (t.coreAgent c) k.pc.toNat 4).1 = false →
        ∃ u, t.fetchIn c = .wait u ∧ u.mem = s.mem ∧ (∀ r, u.reg c r = s.reg c r) ∧ (u.coreOf c).pc = k.pc))

/-- A trigger unit's turn runs the decoded operation word of the slot it picks; a second pick has a turn of its own behind the first,
unless the first stopped the region (R48, R50, R56, R90). The second runs on what the first has left, but that p0 to p5 read as before the
first: that is the model's choice (R53, R54, log entry 75). The turns are the model's agenda (log entry 1). -/
def Obligations.StepRunsSlotInstruction : Prop :=
  ∀ (s : State) (h site n : Nat) (rest : List Turn) (i : Instr),
    s.off = false → s.inReset = false →
    let t := s.behind rest
    (s.agenda = .second h site n :: rest → decodeOpWord (siteKind site) ((t.elem h site).slotWord n) = .ok i →
      let one := (t.elem h site).p
      let old := (Tab.get (t.ham0 h).elems {} site).p
      ∀ u, exec i ((t.setElem h site { t.elem h site with p := old }).atSlot h site n) = .next u →
        step s = .next (u.setElem h site { u.elem h site with p := pairPreds old one (u.elem h site).p, fired := true })) ∧
    (s.agenda = .fire h site :: rest → t.firstPick h site = some n → decodeOpWord (siteKind site) ((t.elem h site).slotWord n) = .ok i →
      (t.secondPick h site n = none → step s = exec i (t.atSlot h site n)) ∧
      (∀ m u, t.secondPick h site n = some m → exec i (t.atSlot h site n) = .next u →
        step s = .next (if t.stopsOf h < u.stopsOf h then u else { u with agenda := .second h site m :: u.agenda })))

/-- The market's turns: the command at the head of each ring and the operations that are no encoded instruction are run by exec; a command
that its checks refuse ends with the status that names the refusal, and one that cannot be read with status access, which is the model's
reading (log entry 62); an empty ring, a read that waits and a write of the device to the ring that still waits end the turn (R326, R327, R347,
R380). The command at the head is the entry that
head names, read once tail stands beyond it. An operation that waits for its access is tried again in the next cycle. With no turn left the
next cycle is planned, and a turn of its own ends it, behind which stand only events that take effect between two cycles (R413); a device that
is off stops with the fault of R377, and one in reset does nothing but take the next reset (R407). The agenda is the model's own (log entry
1). -/
def Obligations.StepRunsCommands : Prop :=
  (∀ (s : State) (rest : List Turn), s.off = false → s.inReset = false →
    let t := s.behind rest
    let turn (x : Turn) (base : Nat) (decode : W64 → W64 → W64 → W64 → Except Nat Instr) (fin : State → Nat → State) : Prop :=
      s.agenda = x :: rest → s.boot.go = true →
        (∀ w u i, t.ringNext marketAgent base = .cmd w u → decode w.1 w.2.1 w.2.2.1 w.2.2.2 = .ok i → step s = exec i u) ∧
        (∀ w u e, t.ringNext marketAgent base = .cmd w u → decode w.1 w.2.1 w.2.2.1 w.2.2.2 = .error e → step s = .next (fin u e)) ∧
        (∀ u, t.ringNext marketAgent base = .bad u → step s = .next (fin u 5)) ∧
        (∀ u, t.ringNext marketAgent base = .empty u ∨ t.ringNext marketAgent base = .wait u → step s = .next u)
    turn .queueCmd s.boot.mktRing.toNat decodeQueueCmd State.endQueue ∧ turn .xlatCmd s.boot.xlRing.toNat decodeXlatCmd State.endXlat ∧
    (∀ i u, s.agenda = .event i :: rest → exec i { t with again := false } = .next u →
      (u.again = false → step s = .next u) ∧ (u.again = true → step s = .next { u with again := false, waiting := u.waiting ++ [i] }))) ∧
  (∀ (s : State) (a : Agent) (base : Nat), s.devWaits base 4096 = true → s.ringNext a base = .wait s) ∧
  (∀ (s t u : State) (a : Agent) (base : Nat) (b e : List Byte), s.devWaits base 4096 = false → s.readPhys a base 16 = .ok b t →
    let tail := leNat (b.take 8)
    let head := leNat ((b.drop 8).take 8)
    let w (k : Nat) : W64 := BitVec.ofNat 64 (leNat ((e.drop (8 * k)).take 8))
    (tail ≤ head → s.ringNext a base = .empty t) ∧
    (head < tail → t.readPhys a (base + 64 + 32 * (head % 126)) 32 = .ok e u → s.ringNext a base = .cmd (w 0, w 1, w 2, w 3) u)) ∧
  (∀ s : State, s.agenda = [] →
    (s.off = false → s.inReset = false → step s = .next s.planCycle ∧ s.planCycle.waiting = [] ∧
      ∃ l e, s.planCycle.agenda = l ++ .tick :: e ∧ ∀ x ∈ e, ∃ i, x = .event i ∧ betweenCycles i = true) ∧
    (s.off = false → s.inReset = true → step s = .next s) ∧
    (s.off = true → step s = .fault .deviceOff)) ∧
  (∀ (s : State) (x : Turn) (rest : List Turn), s.off = false → s.agenda = x :: rest →
    (s.inReset = true → x ≠ .event .deviceReset → step s = .next (s.behind rest)) ∧
    (s.inReset = false → x = .tick → step s = .next (s.behind rest).endCycle))

/-- A fetch that does not lie wholly inside the arena raises trap 2 with the pc as tval and is logged as error kind 3; a word that no
table decodes raises trap 1 with the word as tval, once its fetch is let in (R224, R228, R231, R381). -/
def Obligations.FetchTraps : Prop :=
  ∀ (s : State) (c : CoreId) (rest : List Turn),
    s.agenda = .core c :: rest → s.off = false → s.inReset = false →
    let t := s.runs c rest
    let k := s.coreOf c
    let a := s.coreAgent c
    t.canIssue c = true →
    (k.pc.toNat < k.arenaBase.toNat ∨ k.arenaBound.toNat < k.pc.toNat + 4 →
      step s = .next ((t.logErr { addr := k.pc.toNat, kind := 3, agent := a.code, ctx := a.ctx, ham := a.ham.getD 0 }).takeTrap c 2 k.pc false)) ∧
    (∀ e u, k.arenaBase.toNat ≤ k.pc.toNat → k.pc.toNat + 4 ≤ k.arenaBound.toNat →
      decodeReeve (BitVec.ofNat 32 (s.mem.readLE k.pc.toNat 4)) = .error e → t.fetchIn c = .ok () u →
      step s = .next (u.takeTrap c 1 ((BitVec.ofNat 32 (s.mem.readLE k.pc.toNat 4)).setWidth 64) false))

/-- R48: the first pick is the lowest-numbered ready high-class slot; with none ready, the first ready normal-class slot met in a search
that starts at the slot after the round-robin pointer and wraps from 15 to 0; with no slot ready, nothing fires. R50: the second pick is a
ready slot other than the first; of two normal-class picks the second is the first ready one after the first pick in the wrapping search,
and it is never replaced by a later one. Behind a high-class first pick the second is the lowest-numbered other ready high-class slot that the
conflict matrix and R51 let fire beside it; where there is none, it is the normal-class slot that R48 would have picked with no high-class slot
ready, and no other normal-class slot. -/
def Obligations.SlotPicks : Prop :=
  (∀ (s : State) (h site : Nat),
    let ready (n : Nat) : Prop := n ∈ s.readySlots h site
    let high (n : Nat) : Prop := s.slotHigh h site n = true
    let steps (n : Nat) : Nat := (n + 15 - (s.elem h site).ptr.toNat) % 16
    (∀ n, s.firstPick h site = some n →
      ready n ∧ n < 16 ∧
      (high n → ∀ m, ready m → high m → n ≤ m) ∧
      (¬ high n → ∀ m, ready m → ¬ high m ∧ steps n ≤ steps m)) ∧
    (s.firstPick h site = none → ∀ n, ¬ ready n)) ∧
  (∀ (s : State) (h site n m : Nat), s.firstPick h site = some n → s.secondPick h site n = some m →
    m ∈ s.readySlots h site ∧ m ≠ n ∧ (s.elem h site).pairOk (siteKind site) n m = true ∧
    (s.slotHigh h site n = false → s.slotHigh h site m = false ∧
      ∀ k, k ∈ s.readySlots h site → k ≠ n → s.slotHigh h site k = false → (m + 15 - n) % 16 ≤ (k + 15 - n) % 16)) ∧
  (∀ (s : State) (h site n m : Nat), s.firstPick h site = some n → m ∈ s.readySlots h site → m ≠ n →
    let other (k : Nat) : Prop := k ∈ s.readySlots h site ∧ k ≠ n
    let high (k : Nat) : Prop := s.slotHigh h site k = true
    let ok (k : Nat) : Prop := (s.elem h site).pairOk (siteKind site) n k = true
    let steps (p k : Nat) : Nat := (k + 15 - p) % 16
    let ptr := (s.elem h site).ptr.toNat
    (high n → high m → ok m → (∀ k, other k → high k → ok k → m ≤ k) → s.secondPick h site n = some m) ∧
    (high n → (∀ k, other k → high k → ¬ ok k) → ¬ high m → (∀ k, other k → ¬ high k → steps ptr m ≤ steps ptr k) →
      (ok m → s.secondPick h site n = some m) ∧ (¬ ok m → s.secondPick h site n = none)) ∧
    (¬ high n → (∀ k, other k → steps n m ≤ steps n k) →
      (ok m → s.secondPick h site n = some m) ∧ (¬ ok m → s.secondPick h site n = none)))

/-! ### The reeve: registers, branches, traps (R223, R226, R227, R233 to R236, R254, R255) -/

/-- R233: the ALU instructions. Each computes on the 64-bit values of ga and gb and writes gd; shifts use gb[5:0]; division by zero gives
all ones and its remainder ga. No ALU instruction traps. `State.retire` is stated whole in `RetireWritesOneRegister`. R233: the functions 19
to 2047 are illegal instructions. R233's corners of signed division: −2^63 ÷ −1 gives −2^63, and its remainder is 0. R234: the immediate
instructions; the immediate is sign-extended to 64 bits, a shift is by a 6-bit count, LUI writes imm16 × 2^16 sign-extended from bit 31. -/
def Obligations.ReeveArithmetic : Prop :=
  (∀ (s : State) (d a b : BitVec 5), s.Issues →
    let x := s.reg s.core a
    let y := s.reg s.core b
    let sh := y.toNat % 64
    let gives (n : BitVec 11) (i : Instr) (v : W64) : Prop :=
      encode i = some ((0 : BitVec 6) ++ d ++ a ++ b ++ n) ∧ exec i s = .next (s.retire s.core d v)
    gives 0 (.reeveAdd d a b) (x + y) ∧ gives 1 (.reeveSub d a b) (x - y) ∧ gives 2 (.reeveAnd d a b) (x &&& y) ∧
    gives 3 (.reeveOr d a b) (x ||| y) ∧ gives 4 (.reeveXor d a b) (x ^^^ y) ∧ gives 5 (.sll d a b) (x <<< sh) ∧
    gives 6 (.srl d a b) (x >>> sh) ∧ gives 7 (.reeveSra d a b) (x.sshiftRight sh) ∧
    gives 8 (.slt d a b) (if x.toInt < y.toInt then 1 else 0) ∧ gives 9 (.sltu d a b) (if x.toNat < y.toNat then 1 else 0) ∧
    gives 10 (.reeveMul d a b) (BitVec.ofNat 64 (x.toNat * y.toNat)) ∧
    gives 11 (.reeveMulh d a b) (BitVec.ofInt 64 ((x.toInt * y.toInt).fdiv (2 ^ 64))) ∧
    gives 12 (.reeveMulhu d a b) (BitVec.ofNat 64 (x.toNat * y.toNat / 2 ^ 64)) ∧
    gives 13 (.div d a b) (if y = 0 then BitVec.allOnes 64 else BitVec.ofInt 64 (x.toInt.tdiv y.toInt)) ∧
    gives 14 (.divu d a b) (if y = 0 then BitVec.allOnes 64 else BitVec.ofNat 64 (x.toNat / y.toNat)) ∧
    gives 15 (.rem d a b) (if y = 0 then x else BitVec.ofInt 64 (x.toInt.tmod y.toInt)) ∧
    gives 16 (.remu d a b) (if y = 0 then x else BitVec.ofNat 64 (x.toNat % y.toNat)) ∧
    gives 17 (.reeveMin d a b) (if y.toInt < x.toInt then y else x) ∧ gives 18 (.reeveMax d a b) (if x.toInt < y.toInt then y else x)) ∧
  (∀ w : W32, w.extractLsb' 26 6 = 0 → 19 ≤ (w.extractLsb' 0 11).toNat → decodeReeve w = .error .unassignedFunction) ∧
  (∀ (s : State) (d a b : BitVec 5), s.Issues → s.reg s.core a = 0x8000000000000000 → s.reg s.core b = BitVec.allOnes 64 →
    exec (.div d a b) s = .next (s.retire s.core d 0x8000000000000000) ∧ exec (.rem d a b) s = .next (s.retire s.core d 0)) ∧
  (∀ (s : State) (d a : BitVec 5) (i : BitVec 16) (k : BitVec 6), s.Issues →
    let x := s.reg s.core a
    let gives (n : BitVec 6) (j : Instr) (m : BitVec 16) (v : W64) : Prop :=
      encode j = some (n ++ d ++ a ++ m) ∧ exec j s = .next (s.retire s.core d v)
    gives 1 (.addi d a i) i (BitVec.ofInt 64 (x.toInt + i.toInt)) ∧ gives 2 (.andi d a i) i (x &&& i.signExtend 64) ∧
    gives 3 (.ori d a i) i (x ||| i.signExtend 64) ∧ gives 4 (.xori d a i) i (x ^^^ i.signExtend 64) ∧
    gives 5 (.slli d a k) (k.setWidth 16) (x <<< k.toNat) ∧ gives 6 (.srli d a k) (k.setWidth 16) (x >>> k.toNat) ∧ gives 7 (.srai d a k) (k.setWidth 16) (x.sshiftRight k.toNat) ∧
    gives 8 (.slti d a i) i (if x.toInt < i.toInt then 1 else 0) ∧
    encode (.lui d i) = some ((9 : BitVec 6) ++ d ++ (0 : BitVec 5) ++ i) ∧
    exec (.lui d i) s = .next (s.retire s.core d (BitVec.ofInt 64 (i.toInt * 2 ^ 16))) ∧
    (∀ n ∈ [(5 : BitVec 6), 6, 7], 64 ≤ i.toNat → ∃ e, decodeReeve (n ++ d ++ a ++ i) = .error e) ∧
    (a ≠ 0 → ∃ e, decodeReeve ((9 : BitVec 6) ++ d ++ a ++ i) = .error e))

/-- R235: a conditional branch goes to pc + 4 × sext(off16) where its condition holds, and to pc + 4 otherwise; it writes no register. R236:
JAL writes pc + 4 to gd and goes to pc + 4 × sext(off21); JALR reads ga before it writes gd, goes to ga + imm, and raises "misaligned" with
that target as tval where its bits [1:0] are not zero. -/
def Obligations.ReeveControlFlow : Prop :=
  (∀ (s : State) (a b : BitVec 5) (o : BitVec 16), s.Issues →
    let x := s.reg s.core a
    let y := s.reg s.core b
    let pc := (s.coreOf s.core).pc
    let goes (n : BitVec 6) (i : Instr) (c : Prop) : Prop :=
      encode i = some (n ++ a ++ b ++ o) ∧
      (c → exec i s = .next (s.jumpTo s.core 0 0 (pc + BitVec.ofInt 64 (4 * o.toInt)))) ∧
      (¬ c → exec i s = .next (s.jumpTo s.core 0 0 (pc + 4)))
    goes 16 (.beq a b o) (x = y) ∧ goes 17 (.bne a b o) (x ≠ y) ∧ goes 18 (.blt a b o) (x.toInt < y.toInt) ∧ goes 19 (.bge a b o) (y.toInt ≤ x.toInt) ∧
    goes 20 (.bltu a b o) (x.toNat < y.toNat) ∧ goes 21 (.bgeu a b o) (y.toNat ≤ x.toNat)) ∧
  (∀ (s : State) (d a : BitVec 5) (o : BitVec 21) (i : BitVec 16), s.Issues →
    let pc := (s.coreOf s.core).pc
    let t := s.reg s.core a + i.signExtend 64
    encode (.jal d o) = some ((0x16 : BitVec 6) ++ d ++ o) ∧ encode (.jalr d a i) = some ((0x17 : BitVec 6) ++ d ++ a ++ i) ∧
    exec (.jal d o) s = .next (s.jumpTo s.core d (pc + 4) (pc + BitVec.ofInt 64 (4 * o.toInt))) ∧
    (t.toNat % 4 = 0 → exec (.jalr d a i) s = .next (s.jumpTo s.core d (pc + 4) t)) ∧
    (t.toNat % 4 ≠ 0 → exec (.jalr d a i) s = .next (s.takeTrap s.core 3 t false)))

/-- What the end of an instruction writes: gd, unless it is g0, which reads as zero always (R223); the pc, which moves by 4 or to the
target; and instret, which counts it (R225). Nothing else changes. -/
def Obligations.RetireWritesOneRegister : Prop :=
  ∀ (s : State) (c : CoreId) (d r : BitVec 5) (v p : W64),
    let k := s.coreOf c
    let t := s.retire c d v
    let u := s.jumpTo c d v p
    t.reg c 0 = 0 ∧ t.reg c r = (if r = d ∧ d ≠ 0 then v else s.reg c r) ∧ (t.coreOf c).pc = k.pc + 4 ∧
    (t.coreOf c).instret = k.instret + 1 ∧ k.SameControl (t.coreOf c) ∧ (t.coreOf c).run = k.run ∧
    u.reg c r = (if r = d ∧ d ≠ 0 then v else s.reg c r) ∧ (u.coreOf c).pc = p ∧ (u.coreOf c).instret = k.instret + 1 ∧
    k.SameControl (u.coreOf c) ∧ s.OnlyCore t c ∧ s.OnlyCore u c ∧
    t.coreOf c = { k with g := (t.coreOf c).g, pc := k.pc + 4, instret := k.instret + 1 } ∧
    u.coreOf c = { k with g := (u.coreOf c).g, pc := p, instret := k.instret + 1 } ∧
    (∀ c', c' ≠ c → t.coreOf c' = s.coreOf c' ∧ u.coreOf c' = s.coreOf c') ∧ s.MemSame t ∧ s.MemSame u ∧
    t.regions = s.regions ∧ u.regions = s.regions ∧ t.beadle = (if c = .beadle then t.coreOf c else s.beadle)

/-- The frame of every reeve instruction that computes in registers only: it changes its destination, the pc and instret of the core
that runs it, and nothing else; g0 reads as zero; every byte of memory, every element and every other core is as before (R223, R233
to R236, R255). -/
def Obligations.RegisterOnlyFrame : Prop :=
  ∀ (s t : State) (i : Instr) (d : BitVec 5), regOnly i = some d → s.Issues → exec i s = .next t →
    s.OnlyCore t s.core ∧ (∀ r, r ≠ d → t.reg s.core r = s.reg s.core r) ∧ t.reg s.core 0 = 0 ∧
    (s.coreOf s.core).SameControl (t.coreOf s.core) ∧ s.MemSame t ∧ t.regions = s.regions ∧
    (∀ h site, t.elem h site = s.elem h site) ∧ (∀ c, c ≠ s.core → t.coreOf c = s.coreOf c)

/-- R226, with no trap under way: epc takes the pc, tcause and tval what the trap names, mstat.pt takes mstat.t, mstat.t is set, mstat.late
tells a late trap, and the pc goes to tvec; the instruction has no other effect. R226's double trap, with mstat.t set: a reeve takes tcause,
tval, epc and mstat.late and halts, and the pc does not move; the beadle is put back to its firmware's entry with the registers of R256, and
error kind 9 is logged. -/
def Obligations.TrapEntry : Prop :=
  (∀ (s : State) (c : CoreId) (cause : Nat) (val : W64) (late : Bool), (s.coreOf c).mT = false →
    let k := s.coreOf c
    let t := s.takeTrap c cause val late
    let k' := t.coreOf c
    k'.epc = k.pc ∧ k'.tcause = BitVec.ofNat 64 cause ∧ k'.tval = val ∧ k'.mPt = k.mT ∧ k'.mT = true ∧ k'.mLate = late ∧ k'.pc = k.tvec ∧
    k'.tvec = k.tvec ∧ k'.instret = k.instret ∧ k'.g = k.g ∧ s.OnlyCore t c) ∧
  (∀ (s : State) (h cause : Nat) (val : W64) (late : Bool),
    ((s.coreOf (.reeve h)).mT = true →
      let k := s.coreOf (.reeve h)
      let k' := (s.takeTrap (.reeve h) cause val late).coreOf (.reeve h)
      k'.run = .halted ∧ k'.tcause = BitVec.ofNat 64 cause ∧ k'.tval = val ∧ k'.epc = k.pc ∧ k'.mLate = late ∧ k'.pc = k.pc ∧ k'.mT = true) ∧
    (s.beadle.mT = true →
      let t := s.takeTrap .beadle cause val late
      t.beadle.pc = 0xFF00000000 + BitVec.ofNat 64 s.boot.entry ∧ t.beadle.run = .running ∧ t.beadle.mT = false ∧
      t.beadle.arenaBase = 0xFF00000000 ∧ t.beadle.tvec = 0xFF00000000 ∧ (∀ r, t.beadle.reg r = 0) ∧
      let e : LogRec := { kind := 9, agent := 7, detail := cause, extra := val.toNat }
      let op : DevOp := .log .error (e.bytes s.cycle) true
      t.mem = (s.logErr e).mem ∧ t.elog = (s.logErr e).elog ∧ t.devQ = (s.logErr e).devQ ∧
      (s.boot.go = true → s.devQ = [] → (s.admitAll { code := 10, unit := 15 } (s.devTouches op)).1 = true →
        s.eccOf s.boot.elog.toNat 24 = [] → t.mem = logRing s.mem s.boot.elog.toNat (e.bytes s.cycle) ∧ t.devQ = []) ∧
      (s.boot.go = true → s.devQ ≠ [] → t.mem = s.mem ∧ t.devQ = s.devQ ++ [op]) ∧
      (s.boot.go = false → s.alog.held.length + s.blog.held.length + s.elog.held.length < 64 →
        t.elog.held = s.elog.held ++ [e.bytes s.cycle])))

/-- R227: TRET gives pc := epc, mstat.t := mstat.pt, mstat.pt := 0; with mstat.t = 0 it raises "illegal instruction", whose tval is the
word of TRET. -/
def Obligations.TrapReturn : Prop :=
  ∀ s : State, s.Issues →
    let k := s.coreOf s.core
    (k.mT = true → ∃ t, exec .tret s = .next t ∧ s.OnlyCore t s.core ∧
      t.coreOf s.core = { k with pc := k.epc, mT := k.mPt, mPt := false, instret := k.instret + 1 }) ∧
    (k.mT = false → exec .tret s = .next (s.takeTrap s.core 1 0xB4000100 false))

/-- R254, R255: TRAP raises "software" with its code as tval; NOP does nothing but go on; HALT stops a core, and CENSUS on a reeve raises
"illegal instruction"; on the beadle CENSUS, behind its earlier stores, writes the device summary at the physical address ga and its length,
9,792 bytes, to gd; it reads the three logs first, each with its tail and its lost count, and waits where their stack does (R380, R392, R399).
The core operations that are no instruction. An error response on its way to an access takes trap "access" at the instruction that made it,
with mstat.late set where a later instruction has issued (R226, R228, R238). An access whose fault is resolved issues again, and a refused one raises
"page", or "access" for a task record, or ends with cause 5 (R239, R317, R331). BWAIT's poll reads the barrier again (R251). -/
def Obligations.SystemInstructions : Prop :=
  (∀ (s : State) (d a : BitVec 5) (code : BitVec 8), s.Issues →
    exec (.trap code) s = .next (s.takeTrap s.core 6 (code.setWidth 64) false) ∧
    exec .reeveNop s = .next (s.retire s.core 0 0) ∧
    (∃ t, exec .reeveHalt s = .next t ∧ (t.coreOf s.core).run = .halted ∧ (t.coreOf s.core).pc = (s.coreOf s.core).pc ∧
      (t.coreOf s.core).g = (s.coreOf s.core).g) ∧
    (∀ h, s.core = .reeve h → ∃ w, encode (.census d a) = some w ∧
      exec (.census d a) s = .next (s.takeTrap s.core 1 (w.setWidth 64) false)) ∧
    (s.core = .beadle → (s.reg .beadle a).toNat % 64 = 0 → (s.reg .beadle a).toNat + 9792 ≤ 0x8000000000 → s.beadle.storeBuf = [] →
      s.MemOk → (∀ l u, s.readLogs (s.coreAgent .beadle) [.array, .bus, .error] = .ok l u →
        (u.letIn (u.coreAgent .beadle) (s.reg .beadle a).toNat 9792).1 = true → ∃ t, exec (.census d a) s = .next t ∧
          t.beadle.reg d = (if d = 0 then 0 else 9792) ∧
          (∀ n, n < 9792 → some (t.mem.read ((s.reg .beadle a).toNat + n)) = (u.census l)[n]?) ∧
          u.MemSameOutside t (s.reg .beadle a).toNat 9792) ∧
        (∀ u, s.readLogs (s.coreAgent .beadle) [.array, .bus, .error] = .wait u → exec (.census d a) s = .next u))) ∧
  (∀ (s : State) (n : LogName) (r : List LogName), (s.logBase n) + 24 ≤ 0x8000000000 →
    (s.letIn (s.coreAgent .beadle) (s.logBase n) 24).1 = true → s.eccOf (s.logBase n) 24 = [] →
    ∃ t : State, t.mem = s.mem ∧ s.readLogs (s.coreAgent .beadle) (n :: r) = (t.readLogs (s.coreAgent .beadle) r).map fun l =>
      leBytes 4 (s.mem.readLE (s.logBase n) 4) ++ leBytes 4 (s.mem.readLE (s.logBase n + 16) 4) ++ l) ∧
  (∀ (s : State) (h : Nat) (ea epc : W64) (n : Nat),
    let c := coreOfNum h
    let k := s.coreOf c
    let u := s.setCore c { k with run := .running }
    (∀ x, k.owedErr.find? (fun x => decide (x.epc = epc ∧ x.ea = ea)) = some x → k.run.live = true → k.mT = false →
      ∃ t : State, exec (.lateAccessTrap h ea epc) s = .next t ∧ (t.coreOf c).epc = epc ∧ (t.coreOf c).tval = ea ∧
        (t.coreOf c).tcause = 4 ∧ (t.coreOf c).mLate = x.ran ∧ (t.coreOf c).pc = k.tvec ∧ (t.coreOf c).g = k.g ∧
        (t.coreOf c).instret = k.instret ∧ (t.coreOf c).owedErr = k.owedErr.erase x ∧ s.OnlyCore t c ∧ t.mem = s.mem) ∧
    (k.owedErr.find? (fun x => decide (x.epc = epc ∧ x.ea = ea)) = none → exec (.lateAccessTrap h ea epc) s = .next s) ∧
    (∀ o, k.run = .xlat n (some true) ea o → exec (.translationRetry h) s = .next u) ∧
    (k.run = .xlat n (some false) ea .page → exec (.translationRetry h) s = .next (u.takeTrap c 5 ea false)) ∧
    (k.run = .xlat n (some false) ea .access → exec (.translationRetry h) s = .next (u.takeTrap c 4 ea false)) ∧
    (∀ d, k.run = .xlat n (some false) ea (.code d) → exec (.translationRetry h) s = .next (u.retire c d 5)) ∧
    (∀ d a b sc f w, k.run = .bwait → s.fetchWord c = some w → decodeReeve w = .ok (.bwait d a b sc f) → u.canIssue c = true →
      exec (.bwaitPoll h) s = .next (u.bwaitRead c d (u.reg c a) (u.reg c b))))

/-! ### The reeve: control registers, memory, barriers, tasks, waits (R225, R237 to R253) -/

/-- R225, R242: what CSRR writes into gd on a reeve; reading evq pops one record, and reads 0 when the queue is empty. A record is read
from the cycle after the firing that posts it (R142). In a running cut that has yet to record the reeve, it reads the records ahead of the
cut's boundary alone (R143, R359). That cut_seq reads 0 before the first cut is the model's reading (log entry 42), and so is that
hamlet_id's index, first hamlet and count, regstat and stopinfo read 0 on a reeve whose hamlet holds no region (log entry 22). R225, R242:
CSRW, CSRS and CSRC return the old value and write ga, old OR ga, old AND NOT ga through the limits of R225; they are illegal on a
read-only register. The registers that are not written, memory and every other core keep their values. R256: on the beadle ctx, hamlet_id,
quota, shadow_ival, cut_seq, held_base and held_size read 0 and ignore writes, mstat.beadle reads 1, and arena_base and arena_bound take a
4 KiB aligned value within the firmware store and ignore one outside it. -/
def Obligations.ControlRegisters : Prop :=
  (∀ (s : State) (h : Nat) (d : BitVec 5), s.IssuesReeve h →
    let c := CoreId.reeve h
    let k := s.coreOf c
    let gives (n : BitVec 12) (v : W64) : Prop := exec (.csrr d n) s = .next (s.retire c d v)
    let bit (b : Bool) (v : W64) : W64 := if b then v else 0
    let seen := (match k.evMark with
      | some m => (k.evq.take (k.evq.length - k.evFresh)).take m
      | none => k.evq.take (k.evq.length - k.evFresh))
    gives 0x000 (BitVec.ofNat 64 (k.ctx % 64)) ∧
    (h < 256 → s.regionOf h = none → gives 0x001 (BitVec.ofNat 64 h) ∧ gives 0x012 0 ∧ gives 0x013 0) ∧
    (∀ f r, s.regionOf h = some (f, r) → f ≤ h → h < f + r.n → h < 256 → r.n ≤ 8 →
      gives 0x001 (BitVec.ofNat 64 (h + 2 ^ 8 * (h - f) + 2 ^ 16 * f + 2 ^ 24 * r.n))) ∧ gives 0x002 k.arenaBase ∧ gives 0x003 k.arenaBound ∧ gives 0x004 k.tvec ∧
    gives 0x005 k.tcause ∧ gives 0x006 k.tval ∧ gives 0x007 k.epc ∧ gives 0x008 (bit k.mT 1 ||| bit k.mPt 2 ||| bit k.mLate 8) ∧
    gives 0x009 (s.quota k.ctx) ∧ gives 0x00A k.shadowIval ∧ gives 0x00B (BitVec.ofNat 64 ((s.ham h).cutSeq - 1)) ∧ gives 0x00C k.heldBase ∧
    gives 0x00D k.heldSize ∧ gives 0x00E (BitVec.ofNat 64 seen.length) ∧ gives 0x010 (BitVec.ofNat 64 s.cycle) ∧ gives 0x011 k.instret ∧
    (seen = [] → gives 0x00F 0) ∧
    (∀ x r, k.evq = x :: r → seen ≠ [] → ∃ t, exec (.csrr d 0x00F) s = .next t ∧ (t.coreOf c).evq = r ∧ s.OnlyCore t c ∧
      t.reg c d = (if d = 0 then 0 else x) ∧ (t.coreOf c).pc = k.pc + 4) ∧
    (∀ f r, s.regionOf h = some (f, r) → gives 0x013 r.stopinfo ∧
      gives 0x012 (bit (decide (r.st = .armed)) 1 ||| bit r.bench 2 ||| bit r.free 4 ||| bit r.faultStop 8))) ∧
  (∀ (s : State) (h : Nat) (d a : BitVec 5), s.IssuesReeve h →
    let c := CoreId.reeve h
    let k := s.coreOf c
    let x := s.reg c a
    let put (i : Instr) (old : W64) (k' : Core) : Prop := exec i s = .next ((s.setCore c k').retire c d old)
    let all (n : BitVec 12) (old : W64) (set : W64 → Core) : Prop :=
      put (.csrw d a n) old (set x) ∧ put (.csrs d a n) old (set (old ||| x)) ∧ put (.csrc d a n) old (set (old &&& ~~~x))
    all 0x004 k.tvec (fun v => { k with tvec := v &&& ~~~3 }) ∧ all 0x005 k.tcause (fun v => { k with tcause := v }) ∧
    all 0x006 k.tval (fun v => { k with tval := v }) ∧ all 0x007 k.epc (fun v => { k with epc := v &&& ~~~3 }) ∧
    all 0x008 (k.mstat false) (fun v => { k with mT := v.getLsbD 0, mPt := v.getLsbD 1, mLate := v.getLsbD 3 }) ∧
    all 0x00A k.shadowIval (fun v => { k with shadowIval := BitVec.ofNat 64 (Nat.min (Nat.max v.toNat 4096) 1048576) }) ∧
    all 0x00C k.heldBase (fun v => { k with heldBase := v &&& 0x1F0000 }) ∧
    all 0x00D k.heldSize (fun v =>
      { k with heldSize := BitVec.ofNat 64 (Nat.min (Nat.max (v.toNat / 65536 * 65536) 65536) 524288) }) ∧
    (∀ n : BitVec 12, n.toNat ∈ [0x000, 0x001, 0x002, 0x003, 0x009, 0x00B, 0x00E, 0x00F, 0x010, 0x011, 0x012, 0x013] →
      exec (.csrw d a n) s = .next (s.takeTrap c 1 (wordOf (.csrw d a n)) false) ∧
      exec (.csrs d a n) s = .next (s.takeTrap c 1 (wordOf (.csrs d a n)) false) ∧
      exec (.csrc d a n) s = .next (s.takeTrap c 1 (wordOf (.csrc d a n)) false))) ∧
  (∀ (s : State) (d a : BitVec 5), s.Issues → s.core = .beadle →
    let k := s.beadle
    let x := s.reg .beadle a
    let gives (n : BitVec 12) (v : W64) : Prop := exec (.csrr d n) s = .next (s.retire .beadle d v)
    let bit (b : Bool) (v : W64) : W64 := if b then v else 0
    let put (n : BitVec 12) (old : W64) (k' : Core) : Prop := exec (.csrw d a n) s = .next ((s.setCore .beadle k').retire .beadle d old)
    (∀ n : BitVec 12, n.toNat ∈ [0x000, 0x001, 0x009, 0x00A, 0x00B, 0x00C, 0x00D] → gives n 0 ∧ put n 0 k) ∧
    gives 0x002 k.arenaBase ∧ gives 0x003 k.arenaBound ∧ gives 0x004 k.tvec ∧ gives 0x005 k.tcause ∧ gives 0x006 k.tval ∧ gives 0x007 k.epc ∧
    gives 0x008 (bit k.mT 1 ||| bit k.mPt 2 ||| 4 ||| bit k.mLate 8) ∧ gives 0x010 (BitVec.ofNat 64 s.cycle) ∧ gives 0x011 k.instret ∧
    (x.toNat % 4096 = 0 → 0xFF00000000 ≤ x.toNat → x.toNat < 0xFF01000000 → put 0x002 k.arenaBase { k with arenaBase := x } ∧
      put 0x003 k.arenaBound { k with arenaBound := x }) ∧
    (x.toNat < 0xFF00000000 ∨ 0xFF01000000 < x.toNat → put 0x002 k.arenaBase k ∧ put 0x003 k.arenaBound k) ∧
    put 0x004 k.tvec { k with tvec := x &&& ~~~3 } ∧ put 0x005 k.tcause { k with tcause := x } ∧ put 0x006 k.tval { k with tval := x } ∧
    put 0x007 k.epc { k with epc := x &&& ~~~3 } ∧
    put 0x008 (k.mstat true) { k with mT := x.getLsbD 0, mPt := x.getLsbD 1, mLate := x.getLsbD 3 })

/-- R237: a load whose address is aligned and translated, and whose read is answered, writes gd with the bytes, extended as its row says.
R238: where the target answers with an error response, gd is not written, and either the trap "access" is taken before a later instruction
issues, or the core goes on and the response is on its way to it; which of the two is the model's free choice (log entry 82). R240: what a load
from the HBM reads once it is let in, where no cell has failed: each byte is the newest write that the core's own held entries and store buffer
hold for its address, and the byte of memory where they hold none; a read changes no byte. That this byte is the last write performed, of those
that R282 lets a read return, is the model's choice (log entry 7). -/
def Obligations.Loads : Prop :=
  (∀ (s t u : State) (d a : BitVec 5) (i : BitVec 16) (pa : Nat) (b : List Byte), s.Issues →
    let c := s.core
    let ea := s.reg c a + i.signExtend 64
    let loads (j : Instr) (n : Nat) (v : W64) : Prop :=
      ea.toNat % n = 0 → s.coreXlat c ea.toNat .load = .ok pa t → coreRefuses c pa false = none → t.coreReadAt c pa n = .ok b u →
        exec j s = .next (u.retire c d v)
    loads (.lb d a i) 1 ((BitVec.ofNat 8 (leNat b)).signExtend 64) ∧ loads (.lh d a i) 2 ((BitVec.ofNat 16 (leNat b)).signExtend 64) ∧
    loads (.lw d a i) 4 ((BitVec.ofNat 32 (leNat b)).signExtend 64) ∧ loads (.reeveLd d a i) 8 (BitVec.ofNat 64 (leNat b)) ∧
    loads (.lbu d a i) 1 (BitVec.ofNat 64 (leNat b)) ∧ loads (.lhu d a i) 2 (BitVec.ofNat 64 (leNat b)) ∧
    loads (.lwu d a i) 4 (BitVec.ofNat 64 (leNat b))) ∧
  (∀ (s t u : State) (d a : BitVec 5) (i : BitVec 16) (pa : Nat), s.Issues →
    let c := s.core
    let ea := s.reg c a + i.signExtend 64
    ∀ j n, (j, n) ∈ [(Instr.lb d a i, 1), (.lh d a i, 2), (.lw d a i, 4), (.reeveLd d a i, 8), (.lbu d a i, 1), (.lhu d a i, 2), (.lwu d a i, 4)] →
      ea.toNat % n = 0 → s.coreXlat c ea.toNat .load = .ok pa t → coreRefuses c pa false = none → t.coreReadAt c pa n = .err u →
        exec j s = .next (u.errorBack c d ea)) ∧
  (∀ (s : State) (c : CoreId) (d : BitVec 5) (ea : W64),
    let k := s.coreOf c
    let t := s.errorBack c d ea
    let k' := t.coreOf c
    (Config.errorLate s.freeN = false → t = ({ s with freeN := s.freeN + 1 } : State).takeTrap c 4 ea false) ∧
    (Config.errorLate s.freeN = true → k'.g = k.g ∧ k'.pc = k.pc + 4 ∧ k'.instret = k.instret + 1 ∧ s.MemSame t ∧
      k'.owedErr = k.owedErr ++ [{ epc := k.pc, ea := ea, d := d }])) ∧
  (∀ (s : State) (c : CoreId) (pa n : Nat), s.HbmOpen (s.coreAgent c) pa n →
    ∃ b u, s.coreReadAt c pa n = .ok b u ∧ b.length = n ∧ u.mem = s.mem ∧ u.hamlets = s.hamlets ∧
      ∀ j, j < n →
        ((∀ x ∈ s.ownWrites c, x.1 ≠ pa + j) → b[j]? = some (s.mem.read (pa + j))) ∧
        (∀ l r v, s.ownWrites c = l ++ (pa + j, v) :: r → (∀ x ∈ r, x.1 ≠ pa + j) → b[j]? = some v))

/-- R238, R250, R251, R252: an address that is not aligned raises "misaligned" with the address as tval, on every core that has the
instruction. R256, R248: on the beadle the fabric instructions, COPY, PFENCE and the task instructions raise "fabric"; CFGLD, CFGARM,
CFGSTOP, CFGSWAP and CFGFALLOW raise it on a reeve that is not the lead of a region. tval is the word of the instruction. -/
def Obligations.TrapsOfAccesses : Prop :=
  (∀ (s : State) (d a b : BitVec 5) (i : BitVec 16) (sc : BitVec 3) (f : BitVec 1) (o : BitVec 2) (w : BitVec 1), s.Issues →
    let c := s.core
    let ea := s.reg c a + i.signExtend 64
    let ga := s.reg c a
    let traps (v : W64) (n : Nat) (j : Instr) : Prop := v.toNat % n ≠ 0 → exec j s = .next (s.takeTrap c 3 v false)
    (∀ j ∈ [Instr.lh d a i, .lhu d a i, .sh b a i], traps ea 2 j) ∧ (∀ j ∈ [Instr.lw d a i, .lwu d a i, .sw b a i], traps ea 4 j) ∧
    (∀ j ∈ [Instr.reeveLd d a i, .sd b a i], traps ea 8 j) ∧
    (∀ j ∈ [Instr.amoadd d a b sc o w, .amoswap d a b sc o w, .amoand d a b sc o w, .amoor d a b sc o w, .amoxor d a b sc o w,
      .amomin d a b sc o w, .amomax d a b sc o w, .amocas d a b sc o w], traps ga (if w = 1 then 4 else 8) j) ∧
    (∀ j ∈ [Instr.binit d a b, .barv d a b sc f, .bexp d a b sc f, .bwait d a b sc f, .bstat d a], traps ga 32 j) ∧
    (∀ h, c = .reeve h → ∀ j ∈ [Instr.tspawn d a sc f, .tjoin d a sc f, .tdone a sc f, .launch d a, .launchi d a, .gang d a],
      traps ga 64 j)) ∧
  (∀ (s : State) (d a b : BitVec 5) (sc : BitVec 3) (f : BitVec 1) (g : BitVec 2), s.Issues →
    let traps (i : Instr) : Prop := ∃ w, encode i = some w ∧ exec i s = .next (s.takeTrap s.core 8 (w.setWidth 64) false)
    let lead := [Instr.cfgld d a, .cfgarm d g, .cfgstop d, .cfgswap d a, .cfgfallow d]
    (s.core = .beadle → ∀ i ∈ lead ++ [Instr.cutreq d sc, .elrd d a, .elwr d a b, .stallrd d a f, .copy d a b sc g, .pfence d sc,
      .tspawn d a sc f, .tpop d sc f, .tjoin d a sc f, .tdone a sc f, .launch d a, .launchi d a, .gang d a], traps i) ∧
    (∀ h, s.core = .reeve h → (∀ r, s.regionOf h ≠ some (h, r)) → ∀ i ∈ lead, traps i))

/-- R237, R249: a store whose address is aligned, translated and allowed enters the store buffer with the low bytes of gb, lowest first; it
writes no register and no byte of memory; behind a FENCE with release it is a release at that fence's scope (R286). R249, R274: the oldest
entry of the store buffer, for the HBM. Let in, its bytes are written at
its address and nowhere else; where the reeve's region is held and the address outbound, it enters the held-write buffer while that has
room, and no byte of memory changes. -/
def Obligations.Stores : Prop :=
  (∀ (s t : State) (a b : BitVec 5) (i : BitVec 16) (pa : Nat), s.Issues →
    let c := s.core
    let ea := s.reg c a + i.signExtend 64
    let v := s.reg c b
    let stores (j : Instr) (n : Nat) : Prop :=
      ea.toNat % n = 0 → s.coreXlat c ea.toNat .store = .ok pa t → coreRefuses c pa true = none → (t.coreOf c).storeBuf.length < 8 →
        ∃ u, exec j s = .next u ∧ t.OnlyCore u c ∧ t.MemSame u ∧ (u.coreOf c).g = (t.coreOf c).g ∧
          (u.coreOf c).pc = (t.coreOf c).pc + 4 ∧
          (u.coreOf c).storeBuf = (t.coreOf c).storeBuf ++
            [{ pa := pa, bytes := (List.range n).map fun k => BitVec.ofNat 8 (v.toNat / 256 ^ k),
               rel := (t.coreOf c).relScope.isSome, scope := (t.coreOf c).relScope.getD 0 }]
    stores (.sb b a i) 1 ∧ stores (.sh b a i) 2 ∧ stores (.sw b a i) 4 ∧ stores (.sd b a i) 8) ∧
  (∀ (s : State) (h : Nat) (e : StoreEnt) (r : List StoreEnt),
    let c := coreOfNum h
    (s.coreOf c).storeBuf = e :: r → placeOf e.pa = .hbm →
    ((∀ g, c = .reeve g → s.heldMode g = false) → s.HbmOpen (s.coreAgent c) e.pa e.bytes.length → s.MemOk →
      ∃ t, exec (.storePerform h) s = .next t ∧ (t.coreOf c).storeBuf = r ∧ s.MemSameOutside t e.pa e.bytes.length ∧
        ∀ j v, e.bytes[j]? = some v → t.mem.read (e.pa + j) = v) ∧
    (h < 256 → s.heldMode h = true → (s.ham h).heldUsed < (s.ham h).heldRoom →
      ∃ t x, exec (.storePerform h) s = .next t ∧ (t.coreOf c).storeBuf = r ∧ s.MemSame t ∧ (t.ham h).held = (s.ham h).held ++ [x] ∧
        x.op = .write 3 0 (cellsAt e.pa e.bytes) ∧ x.rel = e.rel ∧ x.scope = e.scope))

/-- R241, on a location of the HBM that is let in, where no cell has failed, for a core that no held-mode region holds back: gd takes the
old value, the location the new one, and no other byte changes. It is performed behind the core's earlier stores; with release, and on a
location that is not outbound, it waits for the writes that the core's hamlet still holds (R292). -/
def Obligations.Atomics : Prop :=
  ∀ (s t : State) (d a b : BitVec 5) (sc : BitVec 3) (o : BitVec 2) (pa : Nat), s.Issues → s.drained s.core = true →
    let c := s.core
    let ga := s.reg c a
    let y := s.reg c b
    let x := s.reg c d
    s.coreXlat c ga.toNat .atomic = .ok pa t →
    (∀ h, c = .reeve h → o.getLsbD 1 = true → s.released c = false → t.outbound h pa = false → ga.toNat % 8 = 0 →
      ∀ i ∈ [Instr.amoadd d a b sc o 0, .amoswap d a b sc o 0, .amoand d a b sc o 0, .amoor d a b sc o 0, .amoxor d a b sc o 0,
        .amomin d a b sc o 0, .amomax d a b sc o 0, .amocas d a b sc o 0], exec i s = .next s) ∧
    ((o.getLsbD 1 = true → s.released c = true) → (∀ h, c = .reeve h → s.heldMode h = false) → t.MemOk →
    let does (n : Nat) (i : Instr) (old : W64) (new : Nat) : Prop :=
      ga.toNat % n = 0 → t.HbmOpen (t.coreAgent c) pa n →
        ∃ u, exec i s = .next (u.retire c d old) ∧ u.mem.readLE pa n = new ∧ t.MemSameOutside u pa n ∧ u.hamlets = t.hamlets
    let q := BitVec.ofNat 64 (t.mem.readLE pa 8)
    let w := BitVec.ofNat 32 (t.mem.readLE pa 4)
    let z : W32 := y.setWidth 32
    does 8 (.amoadd d a b sc o 0) q (q + y).toNat ∧ does 8 (.amoswap d a b sc o 0) q y.toNat ∧ does 8 (.amoand d a b sc o 0) q (q &&& y).toNat ∧
    does 8 (.amoor d a b sc o 0) q (q ||| y).toNat ∧ does 8 (.amoxor d a b sc o 0) q (q ^^^ y).toNat ∧
    does 8 (.amomin d a b sc o 0) q (if y.toInt < q.toInt then y else q).toNat ∧
    does 8 (.amomax d a b sc o 0) q (if q.toInt < y.toInt then y else q).toNat ∧
    does 8 (.amocas d a b sc o 0) q (if q = x then y else q).toNat ∧
    does 4 (.amoadd d a b sc o 1) (w.signExtend 64) (w + z).toNat ∧ does 4 (.amoswap d a b sc o 1) (w.signExtend 64) z.toNat ∧
    does 4 (.amoand d a b sc o 1) (w.signExtend 64) (w &&& z).toNat ∧ does 4 (.amoor d a b sc o 1) (w.signExtend 64) (w ||| z).toNat ∧
    does 4 (.amoxor d a b sc o 1) (w.signExtend 64) (w ^^^ z).toNat ∧
    does 4 (.amomin d a b sc o 1) (w.signExtend 64) (if z.toInt < w.toInt then z else w).toNat ∧
    does 4 (.amomax d a b sc o 1) (w.signExtend 64) (if w.toInt < z.toInt then z else w).toNat ∧
    does 4 (.amocas d a b sc o 1) (w.signExtend 64) (if w = x.setWidth 32 then z else w).toNat)

/-- R241, R251, R252: in a held-mode region an atomic or a barrier update on a location outside the region waits for a cut, and so does
every task instruction that publishes state; nothing is written before. The cut is the one that covers accesses made now. R243, R244:
FENCE goes on once, with release, every earlier store has been performed, which those in the store buffer and the held-write buffer have
not (R292), and with engines the carter is idle; before that it waits, and without either it goes on at once; one with release makes the
core's later stores releases at its scope, or at a wider one that an earlier FENCE has left (R286). PFENCE of a region waits for the cut
that covers its earlier accesses; on a hamlet that holds no region the hamlet is cut alone, behind the reeve's stores, and gd takes the
cut's number. -/
def Obligations.FencesAndHeldRequests : Prop :=
  (∀ (s t : State) (h : Nat) (d a b : BitVec 5) (sc : BitVec 3) (o : BitVec 2) (f : BitVec 1) (pa : Nat), s.IssuesReeve h →
    s.drained (.reeve h) = true → s.heldMode h = true →
    let c := CoreId.reeve h
    let ga := s.reg c a
    let waits (i : Instr) (q : State) : Prop := ∃ u w, exec i s = .next u ∧ (u.coreOf c).run = .cutWait (q.nextCut h) w ∧
      (u.coreOf c).g = (q.coreOf c).g ∧ (u.coreOf c).pc = (q.coreOf c).pc ∧ u.mem = q.mem
    (s.coreXlat c ga.toNat .atomic = .ok pa t → t.heldMode h = true → t.inOwnGreens h pa = false → coreRefuses c pa true = none →
      (ga.toNat % 8 = 0 → waits (.amoadd d a b sc o 0) t ∧ waits (.amocas d a b sc o 0) t) ∧
      (ga.toNat % 32 = 0 → waits (.barv d a b sc f) t ∧ waits (.bexp d a b sc f) t ∧
        (s.reg c b ≠ 0 → (s.reg c b).toNat < 65536 → waits (.binit d a b) t))) ∧
    (ga.toNat % 64 = 0 → ga = (s.coreOf c).record ∨ ga ∈ (s.coreOf c).popped → waits (.tdone a sc f) s) ∧
    (ga.toNat % 64 = 0 → ∀ i ∈ [Instr.tspawn d a sc f, .tjoin d a sc f, .launch d a, .launchi d a, .gang d a], waits i s)) ∧
  (∀ (s : State) (h : Nat) (d : BitVec 5) (sc : BitVec 3) (f : BitVec 3), s.IssuesReeve h →
    let c := CoreId.reeve h
    let buffered := (s.coreOf c).storeBuf = []
    let stored := buffered ∧ ∀ x ∈ (s.ham h).held, ∀ n l r, x.op ≠ .write 3 n l ∧ x.op ≠ .reeve r
    let copied := (s.ham h).carter.q = [] ∧ (s.ham h).carter.cur = none
    ((f.getLsbD 1 = true → stored) ∧ (f.getLsbD 2 = true → copied) → exec (.fence sc f) s = .next ((s.fenced c sc f).retire c 0 0)) ∧
    ((f.getLsbD 1 = true ∧ ¬ stored) ∨ (f.getLsbD 2 = true ∧ ¬ copied) → exec (.fence sc f) s = .next s) ∧
    (∀ g r, s.regionOf h = some (g, r) → ∃ t, exec (.pfence d sc) s = .next t ∧ (t.coreOf c).run = .cutWait (s.nextCut h) (.pfence d) ∧
      (t.coreOf c).g = (s.coreOf c).g ∧ s.MemSame t) ∧
    (s.regionOf h = none → buffered → ∃ t, exec (.pfence d sc) s = .next t ∧ t.reg c d = (if d = 0 then 0 else BitVec.ofNat 64 (s.ham h).cutSeq) ∧
      (t.coreOf c).pc = (s.coreOf c).pc + 4 ∧ (t.ham h).cutSeq = (s.ham h).cutSeq + 1) ∧
    (s.regionOf h = none → ¬ buffered → exec (.pfence d sc) s = .next s)) ∧
  (∀ (k : Core) (m n : Nat) (d : BitVec 5), k.run = .cutWait m (.pfence d) → m ≤ n →
    k.fenced n = { k.setReg d (BitVec.ofNat 64 n) with pc := k.pc + 4, instret := k.instret + 1, run := .running }) ∧
  (∀ (s : State) (sc : BitVec 3) (f : BitVec 3), s.Issues → s.core = .beadle →
    (f.getLsbD 1 = true → s.beadle.storeBuf = []) → exec (.fence sc f) s = .next ((s.fenced .beadle sc f).retire .beadle 0 0)) ∧
  (∀ (s : State) (c : CoreId) (sc : BitVec 3) (f : BitVec 3),
    (f.getLsbD 1 = false → s.fenced c sc f = s) ∧
    (f.getLsbD 1 = true → s.OnlyCore (s.fenced c sc f) c ∧ ∃ w : BitVec 3, (s.fenced c sc f).coreOf c = { s.coreOf c with relScope := some w } ∧
      sc ≤ w ∧ ((s.coreOf c).relScope = none → w = sc) ∧ ∀ v, (s.coreOf c).relScope = some v → v ≤ w ∧ (w = v ∨ w = sc)))

/-! ### The reeve: configuration, items, copies, barriers, tasks, waits (R245 to R253) -/

/-- R245, on the lead reeve. CFGLD reports its load of the image as the reeve sees memory (R258), or cause 9 on an armed region; its read of
the image waits as any read of the arena does (R381), and an error response to it raises trap "access", which is the model's reading (log entry
62). CFGARM, behind the reeve's stores and copies, reports cause 9 on an armed region, the report of the failed load on a region whose last load
failed (R245: that load's cause; the model repeats its whole report, log entry 29), and cause 10 on any other empty one; it arms a loaded one in
the modes it names, with stopinfo zeroed, once no write that the region's quadrant accepted is on its way (R268). In service mode a mismatched
edge leaves the region unarmed and is reported with cause "edge" and the lowest mismatching edge's number (R101); bench mode arms it. R102 to
R104: a load that no check refuses leaves the region loaded with no failed load, its elements holding the slots of the image, and reports 0; a
refused one leaves it empty, with the report of the first check that fails, and the slots cleared. No byte of memory changes but those of the
error log. -/
def Obligations.LoadAndArm : Prop :=
  (∀ (s : State) (h : Nat) (d a : BitVec 5) (f : BitVec 2), s.IssuesLead h →
    let c := CoreId.reeve h
    let r := s.region h
    let ready := (s.coreOf c).storeBuf = [] ∧ (s.ham h).carter.q = [] ∧ (s.ham h).carter.cur = none
    (r.st = .armed → exec (.cfgld d a) s = .next (s.retire c d 9)) ∧
    (∀ u, r.st ≠ .armed → s.imageIn h (s.reg c a) = .ok () u →
      let load := u.loadImage h (u.coreOf c) (u.mem.writeCells (u.ownWrites c)) (s.reg c a)
      exec (.cfgld d a) s = .next (load.2.retire c d load.1)) ∧
    (∀ u, r.st ≠ .armed → s.imageIn h (s.reg c a) = .wait u → u.mem = s.mem ∧ (u.coreOf c).pc = (s.coreOf c).pc ∧
      exec (.cfgld d a) s = .next u) ∧
    (∀ u, r.st ≠ .armed → s.imageIn h (s.reg c a) = .err u → exec (.cfgld d a) s = .next (u.takeTrap c 4 (s.reg c a) false)) ∧
    (ready → r.st = .armed → exec (.cfgarm d f) s = .next (s.retire c d 9)) ∧
    (ready → r.st = .empty → r.failed = none → exec (.cfgarm d f) s = .next (s.retire c d 10)) ∧
    (∀ rep, ready → r.st = .empty → r.failed = some rep → exec (.cfgarm d f) s = .next (s.retire c d rep)) ∧
    (∀ m l e, ready → r.st = .loaded → f.getLsbD 0 = false → r.mism = m :: l → r.edges[m.1]? = some e →
      exec (.cfgarm d f) s = .next (s.retire c d (BitVec.ofNat 64 (4 + 16 * 3 + 2 ^ 8 * e.pHam + 2 ^ 16 * e.pSite + 2 ^ 32 * m.1)))) ∧
    (ready → r.st = .loaded → (f.getLsbD 0 = true ∨ r.mism = []) → (s.quad (quadOf h)).accepted ≠ [] →
      ∃ t : State, exec (.cfgarm d f) s = .next t ∧ (t.region h).st = .loaded ∧ (t.coreOf c) = s.coreOf c ∧ t.mem = s.mem ∧
        h ∈ (t.quad (quadOf h)).sealing) ∧
    (ready → r.st = .loaded → (f.getLsbD 0 = true ∨ r.mism = []) → (s.quad (quadOf h)).accepted = [] →
      ∃ t : State, exec (.cfgarm d f) s = .next (t.retire c d 0) ∧ (t.region h).st = .armed ∧ (t.region h).bench = f.getLsbD 0 ∧
        (t.region h).free = f.getLsbD 1 ∧ (t.region h).stopinfo = 0 ∧ (f.getLsbD 0 = false → t.mem = s.mem)) ∧
    (¬ ready → exec (.cfgarm d f) s = .next s)) ∧
  (∀ (s : State) (h : Nat) (k : Core) (m : Mem) (a : W64),
    let r := s.region h
    let t := s.loadImage h k m a
    (∀ tab, checkImage m k a.toNat r.n = .good tab → t.1 = 0 ∧ (t.2.region h).st = .loaded ∧ (t.2.region h).failed = none ∧ t.2.mem = s.mem ∧
      ∀ g site n, h ≤ g → g < h + r.n → site < 64 → n < 16 → Tab.get tab 0 (64 * (g - h) + site) ≠ 0 →
        (t.2.elem g site).item (16 + n) = some (BitVec.ofNat 64 (m.readLE (Tab.get tab 0 (64 * (g - h) + site) + 72 + 8 * n) 8))) ∧
    (∀ rep, checkImage m k a.toNat r.n = .bad rep → t.1 = rep ∧ (t.2.region h).st = .empty ∧ (t.2.region h).failed = some rep ∧
      t.2.mem = s.mem ∧ ∀ g site, h ≤ g → g < h + r.n → site < 64 → (t.2.elem g site).slots = []) ∧
    (∀ pa, checkImage m k a.toNat r.n = .arena pa → t.1 = 8 ∧ (t.2.region h).st = .empty))

/-- R245: CFGSTOP on an armed region asks for a stop with cause 4 at the end of the cycle and waits for it to land; on any other region it
changes nothing and returns 10. CFGSWAP reports cause 10 on a region that is not armed, and cause 9 while tokens are in flight; else it
stops the region with cause 6 and waits; when its stop lands, the new image is loaded by the checks of R102 to R104 and armed in the same
modes, the reeve goes on with the load report, and an image that is refused leaves the region as a refused CFGLD does. CFGFALLOW places
the fallow configuration, cause 5, and waits for its streams. When the stop lands the reeve goes on behind the instruction with cause 0,
the region loaded with the stop's information. R246 to R248, on a reeve of a region: ELRD returns the item that ga names, as it stood at
the end of the previous cycle; ELWR has items 0 to 7 and the predicates of item 12 of an element of a region that is not armed written at
the end of its cycle, and returns cause 9 for items 0 to 12 of an armed one; items 8 to 11 of a region that is not armed raise "operand".
For items 8 to 11 of an armed region R246 says both: cause 9 is the model's choice (log entry 76). Of a trough that no armed region binds
it has a word written that keeps the limits, and returns 1 for one that does not; it waits where R361 holds such a write back. STALLRD
returns the counter as the cycle began, and where asked leaves in it what the cycle has added; the items that R247 gives a kind are its
counters, and any other raises "operand", as read-and-clear of the ME's two registers does. CUTREQ asks for a cut, or takes the one that
runs and has yet to record the reeve, and returns its number at once (R358). On a reeve whose hamlet holds no region an element and every
STALLRD raise "fabric", the troughs of its own hamlet are read and written, and CUTREQ cuts the hamlet alone. -/
def Obligations.StopSwapFallowItems : Prop :=
  (∀ (s : State) (h : Nat) (d a : BitVec 5), s.IssuesLead h →
    let c := CoreId.reeve h
    let r := s.region h
    (r.st = .armed → ∃ (t : State) (k : Nat), exec (.cfgstop d) s = .next t ∧ (t.coreOf c).run = .cfgWait d ∧ (t.coreOf c).g = (s.coreOf c).g ∧
      (t.region h).stops = r.stops ++ [(k, 4)] ∧ t.mem = s.mem) ∧
    (r.st ≠ .armed → exec (.cfgstop d) s = .next (s.retire c d 10)) ∧
    (r.st ≠ .armed → exec (.cfgswap d a) s = .next (s.retire c d 10)) ∧
    (r.st = .armed → s.headcount h ≠ 0 → exec (.cfgswap d a) s = .next (s.retire c d 9)) ∧
    (r.st = .armed → s.headcount h = 0 → r.stopping = none → ∃ (t : State) (x : Stopping), exec (.cfgswap d a) s = .next t ∧ (t.coreOf c).run = .cfgWait d ∧
      (t.region h).stopping = some x ∧ x.swap = some (s.reg c a) ∧ x.info = 6 ∧ t.mem = s.mem) ∧
    (r.st = .armed → s.headcount h = 0 → r.stopping ≠ none → exec (.cfgswap d a) s = .next s) ∧
    (∃ t : State, exec (.cfgfallow d) s = .next t ∧ (t.coreOf c).run = .cfgWait d ∧ (t.region h).st = .armed ∧
      (t.region h).fallow = some s.cycle ∧ (t.region h).stopinfo = 5)) ∧
  (∀ (s : State) (h f : Nat) (r : Region) (d a b : BitVec 5) (sc : BitVec 3), s.IssuesReeve h → s.regionOf h = some (f, r) →
    let c := CoreId.reeve h
    let ga := (s.reg c a).toNat
    let gb := s.reg c b
    let site := ga % 64
    let g := f + ga / 64 % 8
    let n := ga / 512 % 128
    let e := s.elem g site
    let e0 := Tab.get (s.ham0 g).elems {} site
    let k := (n - 64) / 4
    let j := (n - 64) % 4
    ga < 2 ^ 16 → ga / 64 % 8 < r.n →
    (n < 8 → exec (.elrd d a) s = .next (s.retire c d ((Tab.get e0.d 0 n).setWidth 64))) ∧
    (8 ≤ n → n < 12 → exec (.elrd d a) s = .next (s.retire c d ((Tab.get e0.c 0 (n - 8)).setWidth 64))) ∧
    (n = 12 → exec (.elrd d a) s = .next (s.retire c d (BitVec.ofNat 64 e0.item12))) ∧
    (n = 13 → exec (.elrd d a) s = .next (s.retire c d (BitVec.ofNat 64 e0.item13))) ∧
    (16 ≤ n → n < 32 → exec (.elrd d a) s = .next (s.retire c d (Tab.get e0.slots 0 (n - 16)))) ∧
    ((14 ≤ n ∧ n < 16) ∨ (32 ≤ n ∧ n < 64) → exec (.elrd d a) s = .next (s.takeTrap c 7 (s.reg c a) false)) ∧
    (64 ≤ n → site = 0 → exec (.elrd d a) s = .next (s.retire c d ((Tab.get (s.ham0 g).troughs {} k).word j))) ∧
    (64 ≤ n → site ≠ 0 → exec (.elrd d a) s = .next (s.takeTrap c 7 (s.reg c a) false) ∧
      exec (.elwr d a b) s = .next (s.takeTrap c 7 (s.reg c a) false)) ∧
    (n < 8 ∨ n = 12 → r.st ≠ .armed → exec (.elwr d a b) s =
      .next (({ s with itemWrites := s.itemWrites ++ [.elem g site n gb] } : State).retire c d 0)) ∧
    (n < 8 → s.landItem (.elem g site n gb) = s.setElem g site { e with d := Tab.put e.d n (gb.setWidth 40) }) ∧
    (n = 12 → (let t := s.landItem (.elem g site n gb); s.OnlyElem t g site ∧ (t.elem g site).d = e.d ∧
      ∀ p, p < 6 → (t.elem g site).pred p = gb.getLsbD p)) ∧
    let held := s.afterWait (some h) (s.ham h).capR.isSome g = true
    (64 ≤ n → site = 0 → held → exec (.elwr d a b) s = .next s) ∧ ((∀ f' r', s.regionOf g = some (f', r') → r'.cut = none) → ¬ held) ∧
    (64 ≤ n → site = 0 → ¬ held → s.troughBound g k = true → exec (.elwr d a b) s = .next (s.retire c d 9)) ∧
    (64 ≤ n → site = 0 → ¬ held → s.troughBound g k = false → (s.trough g k).writeOk j gb = false →
      exec (.elwr d a b) s = .next (s.retire c d 1)) ∧
    (64 ≤ n → site = 0 → ¬ held → s.troughBound g k = false → (s.trough g k).writeOk j gb = true → exec (.elwr d a b) s =
      .next (({ s with itemWrites := s.itemWrites ++ [.trough g k j gb] } : State).retire c d 0) ∧
      s.landItem (.trough g k j gb) = s.setTrough g k ((s.trough g k).withWord j gb)) ∧
    (n ≤ 12 → r.st = .armed → exec (.elwr d a b) s = .next (s.retire c d 9)) ∧
    ((8 ≤ n ∧ n < 12 ∧ r.st ≠ .armed) ∨ (12 < n ∧ n < 64) → exec (.elwr d a b) s = .next (s.takeTrap c 7 (s.reg c a) false)) ∧
    let v := Tab.get e0.stall 0 n
    (n < 4 → exec (.stallrd d a 0) s = .next (s.retire c d (v.setWidth 64))) ∧
    (n < 4 → exec (.stallrd d a 1) s =
      .next ((s.setElem g site { e with stall := Tab.put e.stall n (Tab.get e.stall 0 n - v) }).retire c d (v.setWidth 64))) ∧
    let kind := siteKind site
    let ctx := (s.coreOf c).ctx
    let counts (k : Kind) (m : Nat) (old now : W32) (set : W32 → Elem) : Prop := kind = k → n = m →
      exec (.stallrd d a 0) s = .next (s.retire c d (old.setWidth 64)) ∧
      exec (.stallrd d a 1) s = .next ((s.setElem g site (set (now - old))).retire c d (old.setWidth 64))
    counts .spe 4 e0.access e.access (fun v => { e with access := v }) ∧
    (∀ i, i < 4 → let x := Tab.get e.streams {} i
      counts .se (8 + 2 * i) (Tab.get e0.streams {} i).sat x.sat (fun v => { e with streams := Tab.put e.streams i { x with sat := v } }) ∧
      counts .se (9 + 2 * i) (Tab.get e0.streams {} i).ufl x.ufl (fun v => { e with streams := Tab.put e.streams i { x with ufl := v } }) ∧
      counts .me (24 + i) (Tab.get e0.me.replay 0 (4 * ctx + i)) (Tab.get e.me.replay 0 (4 * ctx + i))
        (fun v => { e with me := { e.me with replay := Tab.put e.me.replay (4 * ctx + i) v } })) ∧
    counts .se 16 e0.fmtFault e.fmtFault (fun v => { e with fmtFault := v }) ∧
    counts .me 20 e0.me.xfault e.me.xfault (fun v => { e with me := { e.me with xfault := v } }) ∧
    (kind = .me → n = 28 → ∃ w : W32, exec (.stallrd d a 0) s = .next (s.retire c d (w.setWidth 64)) ∧ w.extractLsb' 0 16 = e0.me.status ∧
      w.extractLsb' 28 4 = 0 ∧ ∀ m, m < 4 → w.getLsbD (16 + 3 * m) = (e0.me.acc m).valid ∧ w.getLsbD (17 + 3 * m) = (e0.me.acc m).dirty ∧
        w.getLsbD (18 + 3 * m) = (e0.me.acc m).infl) ∧
    (kind = .me → n = 29 → exec (.stallrd d a 0) s = .next (s.retire c d e0.me.monitor)) ∧
    (∀ q : BitVec 1, 4 ≤ n → ¬ (kind = .spe ∧ n = 4) → ¬ (kind = .se ∧ 8 ≤ n ∧ n ≤ 16) →
      ¬ (kind = .me ∧ (n = 20 ∨ (24 ≤ n ∧ n < 28) ∨ (q = 0 ∧ (n = 28 ∨ n = 29)))) →
      exec (.stallrd d a q) s = .next (s.takeTrap c 7 (s.reg c a) false)) ∧
    let late := (s.ham h).capR.isSome = true
    (∃ t : State, exec (.cutreq d sc) s = .next (t.retire c d (BitVec.ofNat 64 (match r.cut with
        | some q => if (s.ham h).capR.isSome then q.seq + 1 else q.seq
        | none => r.nextSeq))) ∧ t.mem = s.mem ∧ t.hamlets = s.hamlets ∧
      (r.cut = none ∨ late → (t.region f).cutAgain = true) ∧ (r.cut ≠ none → ¬ late → t = s))) ∧
  (∀ (s : State) (h : Nat) (d a b : BitVec 5) (sc : BitVec 3) (f : BitVec 1), s.IssuesReeve h → s.regionOf h = none →
    let c := CoreId.reeve h
    let ga := (s.reg c a).toNat
    let n := ga / 512
    let traps (i : Instr) : Prop := ∃ w, encode i = some w ∧ exec i s = .next (s.takeTrap c 8 (w.setWidth 64) false)
    (n < 64 → traps (.elrd d a) ∧ traps (.elwr d a b)) ∧ traps (.stallrd d a f) ∧
    (64 ≤ n → n < 128 → ga % 512 = 0 →
      exec (.elrd d a) s = .next (s.retire c d ((Tab.get (s.ham0 h).troughs {} ((n - 64) / 4)).word ((n - 64) % 4))) ∧
      ((s.trough h ((n - 64) / 4)).writeOk ((n - 64) % 4) (s.reg c b) = true → exec (.elwr d a b) s =
        .next (({ s with itemWrites := s.itemWrites ++ [.trough h ((n - 64) / 4) ((n - 64) % 4) (s.reg c b)] } : State).retire c d 0))) ∧
    ((s.coreOf c).storeBuf = [] → ∃ t, exec (.cutreq d sc) s = .next t ∧
      t.reg c d = (if d = 0 then 0 else BitVec.ofNat 64 (s.ham h).cutSeq) ∧ (t.coreOf c).pc = (s.coreOf c).pc + 4 ∧
      (t.ham h).cutSeq = (s.ham h).cutSeq + 1)) ∧
  (∀ (s : State) (h : Nat) (d : BitVec 5) (v : W64) (x : Stopping), (s.coreOf (.reeve h)).run = .cfgWait d →
    let c := CoreId.reeve h
    let returns (t : State) (v : W64) : Prop := t.reg c d = (if d = 0 then 0 else v) ∧ (t.coreOf c).run = .running ∧
      (t.coreOf c).pc = (s.coreOf c).pc + 4
    returns (s.cfgReturn h v) v ∧ (s.cfgReturn h v).mem = s.mem ∧
    (x.swap = none → let t := s.landStop h x; returns t 0 ∧ (t.region h).st = .loaded ∧ (t.region h).stopinfo = x.info) ∧
    (∀ a, x.swap = some a →
      let t := s.landStop h x
      let u := s.disarm h x.info
      let m := u.seenBy c (u.stagedMem h a)
      let r := s.region h
      let edges := imageEdges m a.toNat
      (∀ rep, rep ≠ 0 → checkImage m (u.ham h).reeve a.toNat r.n = .bad rep →
        returns t rep ∧ (t.region h).st = .empty ∧ (t.region h).failed = some rep) ∧
      (∀ tab, checkImage m (u.ham h).reeve a.toNat r.n = .good tab →
        (∀ k l e, mismatches edges = k :: l → r.bench = false → edges[k.1]? = some e → (t.region h).st = .loaded ∧
          returns t (BitVec.ofNat 64 (4 + 16 * 3 + 2 ^ 8 * e.pHam + 2 ^ 16 * e.pSite + 2 ^ 32 * k.1))) ∧
        (mismatches edges = [] ∨ r.bench = true → returns t 0 ∧ (t.region h).st = .armed ∧ (t.region h).bench = r.bench ∧
          (t.region h).free = r.free ∧ (t.region h).stopinfo = x.info ∧
          ∀ g site n, h ≤ g → g < h + r.n → site < 64 → n < 16 → Tab.get tab 0 (64 * (g - h) + site) ≠ 0 →
            (t.elem g site).item (16 + n) = some (BitVec.ofNat 64 (m.readLE (Tab.get tab 0 (64 * (g - h) + site) + 72 + 8 * n) 8))))))

/-- R250: COPY puts one command in the carter's queue while it has room and writes no register; a size of 2^40 or more raises "operand", a
completion address that is not aligned raises "misaligned"; that the size traps first where both hold is the model's choice (log entry 79). R250:
the carter takes its next command, copies it a granule at a time, each up
to the end of a 4 KiB granule of the destination, and makes the command's delivery to its completion barrier; a translation fault is
reported and the command waits. -/
def Obligations.Copies : Prop :=
  (∀ (s : State) (h : Nat) (d a b : BitVec 5) (sc : BitVec 3) (f : BitVec 2), s.IssuesReeve h →
    let c := CoreId.reeve h
    let size := s.reg c d
    let comp := s.reg c (d + 1)
    (2 ^ 40 ≤ size.toNat → exec (.copy d a b sc f) s = .next (s.takeTrap c 7 size false)) ∧
    (size.toNat < 2 ^ 40 → comp.toNat % 32 ≠ 0 → exec (.copy d a b sc f) s = .next (s.takeTrap c 3 comp false)) ∧
    (size.toNat < 2 ^ 40 → comp.toNat % 32 = 0 → (s.coreOf c).storeBuf = [] → (s.ham h).carter.q.length < 16 →
      ∃ (t : State) (x : CopyCmd), exec (.copy d a b sc f) s = .next t ∧ (t.ham h).carter.q = (s.ham h).carter.q ++ [x] ∧ x.src = s.reg c a ∧ x.dst = s.reg c b ∧
        x.size = size.toNat ∧ x.comp = comp ∧ x.acq = f.getLsbD 0 ∧ x.rel = f.getLsbD 1 ∧ x.held = (s.ham h).heldNext ∧ (t.coreOf c).g = (s.coreOf c).g ∧
        (t.coreOf c).pc = (s.coreOf c).pc + 4 ∧ s.MemSame t)) ∧
  (∀ (s : State) (h : Nat), s.engineFree h = true →
    let k := (s.ham h).carter
    let a := carterAgent s h
    let c := (s.ham h).ctx.getD 0
    (∀ x rest, k.cur = none → k.q = x :: rest →
      let behind : Prop := ∃ e ∈ (s.ham h).held, ∃ n l, e.op = .write 3 n l ∧ e.done = false ∧ e.idx < x.held
      ((x.acq = true → ¬ behind) → ∃ u, exec (.carterCommand h) s = .next u ∧ u.mem = s.mem ∧
        (u.ham h).carter = { q := rest, cur := some { cmd := x, finished := decide (x.size = 0) } }) ∧
      (x.acq = true → behind → exec (.carterCommand h) s = .next s)) ∧
    (∀ x, k.cur = some x → x.finished = false → x.fault = none →
      let n := Nat.min (x.cmd.size - x.off) (4096 - (x.cmd.dst.toNat + x.off) % 4096)
      let src := (x.cmd.src.toNat + x.off) % 2 ^ 64
      let dst := (x.cmd.dst.toNat + x.off) % 2 ^ 64
      (∀ pa t b u w, s.translate a c dst .store = .ok pa t → copyHold h x t pa = false → copyAfter h t pa = false →
        t.copyRead a c (pagePieces src n) [] = .ok b u → u.writeBytesPhys a true pa b = .ok () w →
        exec (.carterGranule h) s = .next (w.setCopy h (some { x with off := x.off + n, finished := decide (x.cmd.size ≤ x.off + n) }))) ∧
      (∀ v t, s.translate a c dst .store = .fault v t → let r := t.reportFault a c dst .store v
        exec (.carterGranule h) s = .next (r.2.setCopy h (some { x with fault := some r.1 })))) ∧
    (∀ x, k.cur = some x → x.finished = true → x.fault = none → (x.cmd.comp = 0 ∨ s.completionHeld h x = false) →
      (x.cmd.comp = 0 → exec (.carterCompletionUpdate h) s = .next (s.setCopy h none)) ∧
      (∀ t, x.cmd.comp ≠ 0 → s.owedBarrier a c x.cmd.comp false (-(BitVec.ofNat 64 x.cmd.size)) x.errs = (none, true, t) →
        exec (.carterCompletionUpdate h) s = .next (t.setCopy h none))))

/-- R305: an arrival counts in a phase that awaits it and sets status bit 1 in one that does not; an update adds its count; the phase flips
when the arrivals are complete and the count is 0, and then the generation steps and the arrivals begin again. R251, R304, on a barrier in
the HBM that is let in, where no cell has failed, for a core that no held-mode region holds back: BINIT writes the object of its row, BARV
and BEXP make their update and return the generation before it, BWAIT returns the status once the generation has left gb[15:0], and waits
before that, and BSTAT returns word 0. In a gang that SLEW spreads, BWAIT returns when its group's turn comes (R383). -/
def Obligations.Barriers : Prop :=
  (∀ (x : Bar) (n : W64) (e : Nat),
    let y := (x.update true n e).1
    let z := (x.update false n e).1
    let arr := if x.arrived = x.expected then x.arrived else x.arrived + 1
    let flipV := (x.update true n e).2
    let flipE := (x.update false n e).2
    y.count = x.count + n ∧ z.count = x.count + n ∧ y.expected = x.expected ∧ z.expected = x.expected ∧ y.link = x.link ∧ z.link = x.link ∧
    (flipV = true ↔ arr = x.expected ∧ x.count + n = 0) ∧ (flipE = true ↔ x.arrived = x.expected ∧ x.count + n = 0) ∧
    (flipV = true → y.gen = (x.gen + 1) % 2 ^ 16 ∧ y.arrived = 0 ∧ y.status.extractLsb' 0 16 = 0) ∧
    (flipV = false → y.gen = x.gen ∧ y.arrived = arr) ∧
    (flipE = true → z.gen = (x.gen + 1) % 2 ^ 16 ∧ z.arrived = 0 ∧ z.status.extractLsb' 0 16 = 0) ∧
    (flipE = false → z.gen = x.gen ∧ z.arrived = x.arrived) ∧
    (flipV = false → e = 0 → x.arrived = x.expected → y.status.getLsbD 1 = true) ∧
    (flipE = false → x.arrived = x.expected → (x.count + n).toInt < 0 → z.status.getLsbD 0 = true)) ∧
  (∀ (s t : State) (d a b : BitVec 5) (sc : BitVec 3) (f : BitVec 1) (pa : Nat), s.Issues → s.drained s.core = true →
    let c := s.core
    let ga := s.reg c a
    let gb := s.reg c b
    (∀ h, c = .reeve h → s.heldMode h = false) → (f = 1 → s.released c = true) → ga.toNat % 32 = 0 → t.MemOk →
    t.HbmOpen (t.coreAgent c) pa 32 →
    let x := Bar.ofBytes (t.mem.readBytes pa 32)
    let writes (i : Instr) (v : BitVec 5 × W64) (bytes : List Byte) : Prop :=
      ∃ u : State, exec i s = .next (u.retire c v.1 v.2) ∧ u.mem.readBytes pa 32 = bytes ∧ t.MemSameOutside u pa 32
    (s.coreXlat c ga.toNat .atomic = .ok pa t →
      (gb ≠ 0 → gb.toNat < 65536 →
        writes (.binit d a b) (0, s.reg c d) (leBytes 8 gb.toNat ++ leBytes 8 0 ++ leBytes 8 0 ++ leBytes 8 (s.reg c d).toNat)) ∧
      ((x.update true gb 0).2 = false → writes (.barv d a b sc f) (d, BitVec.ofNat 64 x.gen) (x.update true gb 0).1.toBytes) ∧
      ((x.update false gb 0).2 = false → writes (.bexp d a b sc f) (d, BitVec.ofNat 64 x.gen) (x.update false gb 0).1.toBytes) ∧
      (x.link = 0 → writes (.barv d a b sc f) (d, BitVec.ofNat 64 x.gen) (x.update true gb 0).1.toBytes ∧
        writes (.bexp d a b sc f) (d, BitVec.ofNat 64 x.gen) (x.update false gb 0).1.toBytes)) ∧
    (gb = 0 ∨ 65536 ≤ gb.toNat → exec (.binit d a b) s = .next (s.takeTrap c 7 gb false)) ∧
    (s.coreXlat c ga.toNat .load = .ok pa t →
      (∃ u : State, exec (.bstat d a) s = .next (u.retire c d (BitVec.ofNat 64 (t.mem.readLE pa 8)))) ∧
      (x.gen = gb.toNat % 2 ^ 16 → ∃ u : State, exec (.bwait d a b sc f) s = .next u ∧ (u.coreOf c).run = .bwait ∧ u.mem = t.mem) ∧
      (x.gen ≠ gb.toNat % 2 ^ 16 → t.slewDelay c = 0 → ∃ u : State, exec (.bwait d a b sc f) s = .next (u.retire c d x.status) ∧ u.mem = t.mem) ∧
      (x.gen ≠ gb.toNat % 2 ^ 16 → t.slewDelay c ≠ 0 → ∃ u : State, exec (.bwait d a b sc f) s = .next u ∧
        (u.coreOf c).run = .slew (t.cycle + t.slewDelay c) d x.status ∧ u.mem = t.mem))) ∧
  (∀ (s : State) (h n : Nat) (d : BitVec 5) (v : W64), let c := coreOfNum h
    (s.coreOf c).run = .slew n d v → (∀ g, c = .reeve g → s.engineFree g = true) →
    (n ≤ s.cycle → s.slewEnd h = (s.setCore c { s.coreOf c with run := .running }).retire c d v) ∧ (s.cycle < n → s.slewEnd h = s))

/-- R252, R316, R317, in a region that holds nothing back, behind the reeve's stores: what the task instructions return. R252, R316: TJOIN
of a counter in the HBM that is let in: the counter steps down and is returned; at 0 it stays and 0xFFFF_FFFF is returned; when it reaches 0
the record is pushed. R252, R325: TPOP takes the record that the market offers from the head of its queue and returns its address; 0 when
none is offered, or when the record no longer stands as it was offered. -/
def Obligations.Tasks : Prop :=
  (∀ (s t : State) (h : Nat) (d a : BitVec 5) (sc : BitVec 3) (f : BitVec 1), s.IssuesReeve h → s.drained (.reeve h) = true →
    let c := CoreId.reeve h
    let k := s.coreOf c
    let ga := s.reg c a
    let push := s.pushRecord (s.coreAgent c) k.ctx ga
    s.heldMode h = false → ga.toNat % 64 = 0 →
    (push = .pushed t → exec (.tspawn d a sc f) s = .next (t.retire c d 0)) ∧
    (push = .full t → exec (.tspawn d a sc f) s = .next (t.retire c d 1)) ∧
    (push = .otherCtx t → exec (.tspawn d a sc f) s = .next (t.retire c d 2)) ∧
    (ga = k.record ∨ ga ∈ k.popped → ∃ u : State, exec (.tdone a sc f) s = .next u ∧ (u.coreOf c).run = .done ∧ (u.coreOf c).g = k.g ∧ s.MemSame u) ∧
    (ga ≠ k.record → ga ∉ k.popped → exec (.tdone a sc f) s = .next (s.takeTrap c 7 ga false)) ∧
    (∀ b (i : Instr) (n : Nat), (i, n) ∈ [(Instr.launch d a, 1), (.launchi d a, 2), (.gang d a, 3)] →
      s.readVirt (s.coreAgent c) k.ctx ga.toNat 16 = .ok b t →
      (t.submitCause k.ctx (some n) b = 0 → exec i s = .next ((t.startChain k.ctx ga).retire c d 0)) ∧
      (t.submitCause k.ctx (some n) b ≠ 0 → exec i s = .next (t.retire c d (BitVec.ofNat 64 (t.submitCause k.ctx (some n) b)))))) ∧
  (∀ (s t : State) (h : Nat) (d a : BitVec 5) (sc : BitVec 3) (f : BitVec 1) (pa : Nat), s.IssuesReeve h → s.drained (.reeve h) = true →
    let c := CoreId.reeve h
    let ga := s.reg c a
    s.heldMode h = false → ga.toNat % 64 = 0 → s.coreXlat c (ga + 16).toNat .atomic = .ok pa t → t.MemOk →
    t.HbmOpen (t.coreAgent c) pa 4 →
    let old := t.mem.readLE pa 4
    (2 ≤ old → ∃ u : State, exec (.tjoin d a sc f) s = .next (u.retire c d (BitVec.ofNat 64 (old - 1))) ∧ u.mem.readLE pa 4 = old - 1 ∧
      t.MemSameOutside u pa 4) ∧
    (old = 0 → ∃ u : State, exec (.tjoin d a sc f) s = .next (u.retire c d 0xFFFFFFFF) ∧ u.mem = t.mem) ∧
    (old = 1 → ∃ u : State, u.mem.readLE pa 4 = 0 ∧ t.MemSameOutside u pa 4 ∧
      ∀ w, u.pushRecord (s.coreAgent c) (s.coreOf c).ctx ga = .pushed w → exec (.tjoin d a sc f) s = .next (w.retire c d 0))) ∧
  (∀ (s : State) (h : Nat) (d : BitVec 5) (sc : BitVec 3) (f : BitVec 1), s.IssuesReeve h →
    let c := CoreId.reeve h
    ((s.coreOf c).offer = none → exec (.tpop d sc f) s = .next (s.retire c d 0)) ∧
    (∀ q v, (s.coreOf c).offer = some (q, v) → s.offerStands s.topPrio h q v = false → exec (.tpop d sc f) s = .next (s.retire c d 0)) ∧
    (∀ q e l, (s.coreOf c).offer = some (q, e.addr) → s.offerStands s.topPrio h q e.addr = true → (s.queue q).ents = e :: l →
      ∃ t : State, exec (.tpop d sc f) s = .next (t.retire c d e.addr) ∧
        (recFlag (e.body.getD []) 0 = false → (t.queue q).ents = l ∧
          (t.queue q).popped.toNat = Nat.min ((s.queue q).popped.toNat + 1) 0xFFFFFFFF ∧ (t.coreOf c).offer = none ∧
          (t.coreOf c).popped = (s.coreOf c).popped ++ [e.addr] ∧ s.MemSame t)))

/-- R253: WAIT and SLEEP end with the events where a masked event holds, and wait otherwise; a mask of 0 or beyond 63 raises "operand". That
they end at once where one holds already is the model's reading (log entry 49). WAIT_WAKE ends the wait with the events that hold,
SLEEP_EXPIRY with bit 63 set. -/
def Obligations.Waits : Prop :=
  ∀ (s : State) (d a b : BitVec 5),
    let c := s.core
    let ga := s.reg c a
    let ev := s.waitEvents c (s.cutsOf c)
    (s.Issues → ga = 0 ∨ 64 ≤ ga.toNat → exec (.wait d a) s = .next (s.takeTrap c 7 ga false) ∧
      exec (.sleep d a b) s = .next (s.takeTrap c 7 ga false)) ∧
    (s.Issues → ga.toNat < 64 → ev &&& ga.toNat ≠ 0 → exec (.wait d a) s = .next (s.retire c d (BitVec.ofNat 64 ev)) ∧
      exec (.sleep d a b) s = .next (s.retire c d (BitVec.ofNat 64 ev))) ∧
    (s.Issues → ga ≠ 0 → ga.toNat < 64 → ev &&& ga.toNat = 0 →
      exec (.wait d a) s = .next (s.setCore c { s.coreOf c with run := .wait ga.toNat d none (s.cutsOf c) }) ∧
      exec (.sleep d a b) s = .next (s.setCore c { s.coreOf c with
        run := .wait ga.toNat d (if s.reg c b = 0 then none else some (s.reg c b).toNat) (s.cutsOf c) })) ∧
    (∀ h mask left cut0, s.coreFree (coreOfNum h) = true → (s.coreOf (coreOfNum h)).run = .wait mask d left cut0 →
      let w := coreOfNum h
      let now := s.waitEvents w cut0
      let u := s.setCore w { s.coreOf w with run := .running }
      (now &&& mask ≠ 0 → exec (.waitWake h) s = .next (u.retire w d (BitVec.ofNat 64 now))) ∧
      (left = some 0 → exec (.sleepExpiry h) s = .next (u.retire w d (BitVec.ofNat 64 now ||| 0x8000000000000000))))

/-! ### The processing element and what every firing does (R23, R43, R54, R108 to R143) -/

/-- R43: a fabric instruction whose slot is not ready changes nothing; SEL, STEER, MERGE and the rest wait by their own needs. R47: so
does a green request, a trough step, the start of a stream and an SWAIT that a condition of its operation holds; what a trough step waits for
under R280 is the model's reading (log entry 60). R54, R55, R110: what a firing commits in its element, all from the state at its start:
the queues of its dequeue mask and the predicate heads it consumes lose their heads, a register that dst names takes the data field of the
first token, the predicate that the operation word names takes the flag, 1, 0 or its inverse, the round-robin pointer takes the slot
unless the slot is of the high class. Constants, slots, switch words, the other registers and predicates, every other element and every
byte of memory stay. R29 to R31, R110: a token delivered to an output queue stands at its back, behind the room the firing found; a
predicate port takes one bit, 1 for DATA with a data field other than zero; dst 14 is all four queues, dst 15 nowhere; a queue that no
switch word selects takes nothing. -/
def Obligations.FiringCommits : Prop :=
  (∀ (s : State) (i : Instr) (k : Kind) (code : Nat) (f : FOp), i.fabric? = some (k, code, f) →
    s.elemRuns s.curH s.curSite = false ∨ s.curTrig.valid = false ∨
      s.slotReady (s.cur.opNeed i s.curSlot (s.ham s.curH).reeve) = false → exec i s = .next s) ∧
  (∀ (s : State) (f : FOp),
    let a := s.cur.operand f.a
    let b := s.cur.operand f.b
    let waits (i : Instr) (n : Need) : Prop := s.slotReady n = false → exec i s = .next s
    let asks (i : Instr) (c : OpClass) (x : XClass) (kind : SpeKind) (size : Nat) (posted : Bool) (val : W40) : Prop :=
      let r := s.speReq f kind size posted val
      a.tag = 0 → (c = .a1 ∨ c = .n1 ∨ b.tag = 0) → (speAddr r.srcH r.addr).isSome = true → r.addr.toNat % size = 0 →
        waits i (speNeed s f c x (some r) posted)
    let size := 2 ^ (f.x.toNat % 4)
    let quiet : Bool := decide (f.dst = 15) && !f.pwe
    let n : Nat := if f.x = 1 then 8 else 4
    asks (.ld f) .a1 .sz .ld size false 0 ∧ asks (.st f) .n2 .sz4 .st size true b.data ∧
    asks (.itake f) .a1 .z .itake 8 false 0 ∧ asks (.iread f) .a1 .z .iread 8 false 0 ∧ asks (.iput f) .n2 .z .iput 8 true b.data ∧
    asks (.iclr f) .n1 .z .iclr 8 true 0 ∧
    asks (.aadd f) .a2 .w .aadd n quiet b.data ∧ asks (.asub f) .a2 .w .asub n quiet b.data ∧ asks (.amin f) .a2 .w .amin n quiet b.data ∧
    asks (.amax f) .a2 .w .amax n quiet b.data ∧ asks (.aminu f) .a2 .w .aminu n quiet b.data ∧ asks (.amaxu f) .a2 .w .amaxu n quiet b.data ∧
    asks (.aand f) .a2 .w .aand n quiet b.data ∧ asks (.aor f) .a2 .w .aor n quiet b.data ∧ asks (.axor f) .a2 .w .axor n quiet b.data ∧
    asks (.aswap f) .a2 .w .aswap n quiet b.data ∧ asks (.acas f) .d3 .w .acas n false b.data ∧ asks (.afadd f) .a2 .z .afadd 4 quiet b.data ∧
    waits (.tclaim f) (s.troughNeed f .a0 true fun t => decide (0 < t.freeNow)) ∧
    waits (.ttake f) (s.troughNeed f .a0 true fun t => decide (0 < t.filledNow)) ∧
    waits (.tstat f) (s.troughNeed f .a0 false fun _ => true) ∧
    (a.tag = 0 → waits (.tcommit f) (s.troughNeed f .n1 true fun _ => true) ∧ waits (.tfree f) (s.troughNeed f .n1 true fun _ => true)) ∧
    (∀ i ∈ [Instr.sload f, .sstore f, .sgather f, .sscatter f, .sfeed f, .sbfill f, .sdrain f],
      waits i { baseNeed .n1 .sn f with held := (s.cur.stream (f.x.toNat % 4)).queued.isSome }) ∧
    waits (.swait f) { baseNeed .n0 .sn f with held := (s.cur.stream (f.x.toNat % 4)).busy }) ∧
  (∀ (s : State) (f : FOp) (n : Need) (toks : List Token) (flag : Option Bool),
    let e := s.cur
    let t := s.landed f n { e := e, toks := toks, dsts := [f.dst], flag := flag }
    let y := t.elem s.curH s.curSite
    let taken (q : Nat) : Prop := q ∈ n.deq ∨ (4 ≤ q ∧ q < 6 ∧ s.curTrig.needPq.getLsbD (q - 4) = true)
    (∀ q ∈ n.deq, q < 4) →
    (∀ q, (taken q → y.inQ q = (e.inQ q).pop) ∧ (¬ taken q → y.inQ q = e.inQ q)) ∧
    (∀ r x l, r < 8 → f.dst.toNat = r → toks = x :: l → Tab.get y.d 0 r = x.data) ∧
    (∀ r, f.dst.toNat ≠ r ∨ 8 ≤ r ∨ toks = [] → Tab.get y.d 0 r = Tab.get e.d 0 r) ∧
    (∀ b p, flag = some b → f.pwe = true → f.pidx.toNat = p →
      Tab.get y.p false p = [b, true, false, !(Tab.get e.p false p)].getD f.pmode.toNat false) ∧
    (∀ p, f.pwe = false ∨ f.pidx.toNat ≠ p ∨ flag = none → Tab.get y.p false p = Tab.get e.p false p) ∧
    y.ptr = (if s.curTrig.high then e.ptr else BitVec.ofNat 4 s.curSlot) ∧ y.c = e.c ∧ y.slots = e.slots ∧ y.sw = e.sw ∧
    y.halted = e.halted ∧ s.OnlyElem t s.curH s.curSite ∧ s.MemSame t ∧ (∀ c, t.coreOf c = s.coreOf c)) ∧
  (∀ (e : Elem) (dst : BitVec 4) (t : Token),
    let y := e.deliver dst [t]
    let bit : Bool := decide (t.tag = 0 ∧ t.data ≠ 0)
    (∀ q, q < 4 → (dst.toNat = 8 + q ∨ dst = 14) → e.outRouted q = true → y.outQ q = (e.outQ q).push (.tok t)) ∧
    (∀ q, q < 2 → dst.toNat = 12 + q → e.outRouted (4 + q) = true → y.outQ (4 + q) = (e.outQ (4 + q)).push (.bit bit)) ∧
    (∀ q, q < 6 → (dst.toNat < 8 ∨ dst = 15 ∨ (dst ≠ 14 ∧ dst.toNat ≠ 8 + q) ∨ e.outRouted q = false) → y.outQ q = e.outQ q) ∧
    y.inq = e.inq ∧ y.p = e.p)

/-- R23: the tag rule. A FAULT operand passes, a before b; else a marker; else a HOLE with data 0; the flag is then 0. Of DATA operands
the computed value and flag stand. -/
def Obligations.TagRule : Prop :=
  ∀ (a b : Token) (v : W40 × Bool),
    let marker (t : Token) : Prop := 1 ≤ t.tag.toNat ∧ t.tag.toNat ≤ 9
    let r := underTags [a, b] v
    (a.tag = 10 → r = (a, false)) ∧ (a.tag ≠ 10 → b.tag = 10 → r = (b, false)) ∧
    (a.tag ≠ 10 → b.tag ≠ 10 → marker a → r = (a, false)) ∧ (a.tag ≠ 10 → b.tag ≠ 10 → ¬ marker a → marker b → r = (b, false)) ∧
    ((a.tag = 11 ∧ b.tag = 0) ∨ (a.tag = 0 ∧ b.tag = 11) ∨ (a.tag = 11 ∧ b.tag = 11) → r = (⟨11, 0⟩, false)) ∧
    (a.tag = 0 → b.tag = 0 → r = (⟨0, v.1⟩, v.2)) ∧
    (let u := underTags [a] v
     (a.tag = 10 ∨ marker a → u = (a, false)) ∧ (a.tag = 11 → u = (⟨11, 0⟩, false)) ∧ (a.tag = 0 → u = (⟨0, v.1⟩, v.2)))

/-- R114 to R116, R118: the integer instructions, on bits [31:0] of the data fields. -/
def Obligations.IntegerTable : Prop :=
  ∀ (s : State) (f : FOp),
    let lo (v : W40) : W32 := v.extractLsb' 0 32
    let I (v : W40) : Int := (lo v).toInt
    let U (v : W40) : Nat := (lo v).toNat
    let field (w : W32) : W40 := w.signExtend 40
    let wrap (n : Int) : W40 × Bool := (field (BitVec.ofInt 32 n), decide (n < -2147483648 ∨ 2147483647 < n))
    let sat (n : Int) : W40 × Bool := (field (BitVec.ofInt 32 (max (-2147483648) (min 2147483647 n))), decide (n < -2147483648 ∨ 2147483647 < n))
    let nz (w : W32) : W40 × Bool := (field w, decide (w ≠ 0))
    let pick (c : Bool) (a b : W40) : W40 × Bool := (field (if c then lo b else lo a), c)
    let yes (c : Bool) : W40 × Bool := (if c then 1 else 0, c)
    let two (i : Instr) (g : W40 → W40 → W40 × Bool) : Prop := s.Computes2 i f .z g
    let one (i : Instr) (g : W40 → W40 × Bool) : Prop := s.Computes1 i f .z g
    two (.add f) (fun a b => wrap (I a + I b)) ∧ two (.sub f) (fun a b => wrap (I a - I b)) ∧
    two (.adds f) (fun a b => sat (I a + I b)) ∧ two (.subs f) (fun a b => sat (I a - I b)) ∧ two (.mul f) (fun a b => wrap (I a * I b)) ∧
    two (.mulh f) (fun a b => nz (BitVec.ofInt 32 ((I a * I b).fdiv 4294967296))) ∧
    two (.mulhu f) (fun a b => nz (BitVec.ofNat 32 (U a * U b / 4294967296))) ∧
    one (.neg f) (fun a => (field (BitVec.ofInt 32 (-(I a))), decide (I a = -2147483648))) ∧
    one (.abs f) (fun a => (field (BitVec.ofNat 32 (I a).natAbs), decide (I a = -2147483648))) ∧
    two (.and f) (fun a b => nz (lo a &&& lo b)) ∧ two (.or f) (fun a b => nz (lo a ||| lo b)) ∧ two (.xor f) (fun a b => nz (lo a ^^^ lo b)) ∧
    two (.andn f) (fun a b => nz (lo a &&& ~~~(lo b))) ∧ two (.shl f) (fun a b => nz (BitVec.ofNat 32 (U a * 2 ^ (min (U b) 32)))) ∧
    two (.shr f) (fun a b => nz (BitVec.ofNat 32 (U a / 2 ^ (min (U b) 32)))) ∧
    two (.sra f) (fun a b => nz (BitVec.ofInt 32 ((I a).fdiv (2 ^ (min (U b) 32))))) ∧
    one (.clz f) (fun a => (field (BitVec.ofNat 32 (if U a = 0 then 32 else 31 - Nat.log2 (U a))), decide (U a = 0))) ∧
    one (.popc f) (fun a => let n := ((List.range 32).filter fun k => (U a).testBit k).length; (field (BitVec.ofNat 32 n), decide (n % 2 = 1))) ∧
    two (.min f) (fun a b => pick (decide (I b < I a)) a b) ∧ two (.max f) (fun a b => pick (decide (I a < I b)) a b) ∧
    two (.minu f) (fun a b => pick (decide (U b < U a)) a b) ∧ two (.maxu f) (fun a b => pick (decide (U a < U b)) a b) ∧
    two (.tst f) (fun a b => yes (decide (lo a &&& lo b ≠ 0))) ∧
    s.Computes2 (.cmp f) f .ic (fun a b => yes ([decide (U a = U b), decide (U a ≠ U b), decide (I a < I b), decide (I b ≤ I a), decide (U a < U b),
      decide (U b ≤ U a), decide (I b < I a), decide (I a ≤ I b)].getD f.x.toNat false)) ∧
    s.Computes2 (.clamp f) f .cr (fun a b =>
      let r := min (max (I a) (I b)) (I (Tab.get s.cur.c 0 f.x.toNat))
      (field (BitVec.ofInt 32 r), decide (r ≠ I a)))

/-- R119, R122, R123: the F40 instructions give the exact value of their operands, rounded once by the mode that x names, with the flag of
their row. The exact value of FRSQ, FEXP2 and FLOG2 is mostly irrational: the model rounds a value found to far more bits, which rounds alike
(log entry 14). FMA reads the register that dst names and writes it. FCVTI of a finite value is the value rounded to an integer by the mode and
clamped; of two numbers FCMP compares the values, and FMIN and FMAX take the lesser and the greater value, or a where neither is. R120, R122 to
R124: the special operands. NaN loses to a number in FMIN and
FMAX and is the canonical NaN of both; no comparison but ne and uo holds with NaN; FCVTI of NaN and of the infinities; the columns of R124's
table. -/
def Obligations.FloatTable : Prop :=
  (∀ (s : State) (f : FOp),
    let rm := Rm.ofCode f.x.toNat
    let v := f40Val
    let special (w : W40) : W40 × Bool := (w, decide (w.extractLsb' 28 11 = 0x7FF))
    let two (i : Instr) (g : W40 → W40 → W40 × Bool) : Prop := s.Computes2 i f .rm g
    let one (i : Instr) (g : W40 → W40 × Bool) : Prop := s.Computes1 i f .rm g
    let I (w : W40) : Int := (w.extractLsb' 0 32).toInt
    two (.fadd f) (fun a b => special (f40Round rm ((v a).add rm (v b)))) ∧ two (.fsub f) (fun a b => special (f40Round rm ((v a).add rm (v b).neg))) ∧
    two (.fmul f) (fun a b => special (f40Round rm ((v a).mul (v b)))) ∧
    two (.fscale f) (fun a b => special (f40Round rm ((v a).scale (I b)))) ∧
    one (.frcp f) (fun a => special (f40Round rm (v a).rcp)) ∧ one (.frsq f) (fun a => special (f40Round rm (v a).rsq)) ∧
    one (.fexp2 f) (fun a => special (f40Round rm (v a).exp2)) ∧ one (.flog2 f) (fun a => special (f40Round rm (v a).log2)) ∧
    one (.icvtf f) (fun a => f40Round' rm (.fin (decide (I a < 0)) (I a).natAbs 0)) ∧
    one (.fcvti f) (fun a => aluFcvti rm a) ∧
    s.Computes2 (.fcmp f) f .fc (fun a b => let c := f40Cond f.x.toNat a b; (if c then 1 else 0, c)) ∧
    s.Computes2 (.fmin f) f .z (aluFminmax false) ∧ s.Computes2 (.fmax f) f .z (aluFminmax true) ∧
    s.Computes1 (.fneg f) f .z (fun a => let r := f40Round .rne (v a).neg; (r, r.getLsbD 39)) ∧
    s.Computes1 (.fabs f) f .z (fun a => (f40Round .rne (v a).abs, a.getLsbD 39)) ∧
    (s.slotReady (baseNeed .d3 .rm f) = true →
      let a := s.cur.operand f.a
      let b := s.cur.operand f.b
      let c := Tab.get s.cur.d 0 f.dst.toNat
      exec (.fma f) s = .next (s.landed f (baseNeed .d3 .rm f)
        (Fire.one s.cur f (underTags [a, b, ⟨0, c⟩] (special (f40Round rm (((v a.data).mul (v b.data)).add rm (v c))))))))) ∧
  (∀ (a : W40) (s : Bool) (m : Nat) (e : Int) (rm : Rm) (n : Nat), f40Val a = .fin s m e →
    let x := inUnits m e 0
    let v : Int := if s then -(n : Int) else n
    (match rm with
      | .rne => Nearest x.1 x.2 n
      | .rtz => n = x.1 / x.2
      | .rdn => n = if s then (x.1 + x.2 - 1) / x.2 else x.1 / x.2
      | .rup => n = if s then x.1 / x.2 else (x.1 + x.2 - 1) / x.2) →
    aluFcvti rm a = ((BitVec.ofInt 32 (max (-2147483648) (min 2147483647 v))).signExtend 40, decide (v < -2147483648 ∨ 2147483647 < v))) ∧
  (let units (s : Bool) (m : Nat) (e lo : Int) : Int := (if s then -(m : Int) else m) * 2 ^ (e - lo).toNat
   let below (v w : FVal) : Prop := (v = .inf true ∧ w ≠ .inf true ∧ w ≠ .nan) ∨ (w = .inf false ∧ v ≠ .inf false ∧ v ≠ .nan) ∨
     ∃ s m e t n f lo, v = .fin s m e ∧ w = .fin t n f ∧ lo ≤ e ∧ lo ≤ f ∧ units s m e lo < units t n f lo
   ∀ a b : W40, f40Val a ≠ .nan → f40Val b ≠ .nan →
    let lt := below (f40Val a) (f40Val b)
    let gt := below (f40Val b) (f40Val a)
    (f40Cond 0 a b = true ↔ ¬ lt ∧ ¬ gt) ∧ (f40Cond 1 a b = true ↔ lt ∨ gt) ∧ (f40Cond 2 a b = true ↔ lt) ∧ (f40Cond 3 a b = true ↔ ¬ lt) ∧
    (f40Cond 4 a b = true ↔ gt) ∧ (f40Cond 5 a b = true ↔ ¬ gt) ∧ f40Cond 6 a b = false ∧ f40Cond 7 a b = true ∧
    (lt → aluFminmax false a b = (f40Canon a, false) ∧ aluFminmax true a b = (f40Canon b, true)) ∧
    (gt → aluFminmax false a b = (f40Canon b, true) ∧ aluFminmax true a b = (f40Canon a, false)) ∧
    (¬ lt → ¬ gt → a.getLsbD 39 = b.getLsbD 39 → aluFminmax false a b = (f40Canon a, false) ∧ aluFminmax true a b = (f40Canon a, false))) ∧
  (let nan : W40 := 0x7FF8000000
  let inf (s : Bool) : W40 := if s then 0xFFF0000000 else 0x7FF0000000
  let zero (s : Bool) : W40 := if s then 0x8000000000 else 0
  let isNan (w : W40) : Prop := w.extractLsb' 28 11 = 0x7FF ∧ w.extractLsb' 0 28 ≠ 0
  (∀ a b m, isNan a → isNan b → aluFminmax m a b = (nan, false)) ∧
  (∀ a b m, isNan a → ¬ isNan b → aluFminmax m a b = (f40Canon b, true)) ∧
  (∀ a b m, ¬ isNan a → isNan b → aluFminmax m a b = (f40Canon a, false)) ∧
  aluFminmax false (zero false) (zero true) = (zero true, true) ∧ aluFminmax false (zero true) (zero false) = (zero true, false) ∧
  aluFminmax true (zero false) (zero true) = (zero false, false) ∧ aluFminmax true (zero true) (zero false) = (zero false, true) ∧
  (∀ a b c, isNan a ∨ isNan b → (f40Cond c a b = true ↔ c = 1 ∨ c = 6)) ∧
  (∀ rm a, isNan a → aluFcvti rm a = (0, true) ∧ f40Round rm (f40Val a).rcp = nan ∧ f40Round rm (f40Val a).rsq = nan ∧
    f40Round rm (f40Val a).exp2 = nan ∧ f40Round rm (f40Val a).log2 = nan) ∧
  (∀ rm, aluFcvti rm (inf false) = (0x007FFFFFFF, true) ∧ aluFcvti rm (inf true) = (0xFF80000000, true)) ∧
  (∀ rm s, f40Round rm (f40Val (zero s)).rcp = inf s ∧ f40Round rm (f40Val (zero s)).rsq = inf s ∧
    f40Round rm (f40Val (zero s)).exp2 = 0x3FF8000000 ∧ f40Round rm (f40Val (zero s)).log2 = inf true ∧
    f40Round rm (f40Val (inf s)).rcp = zero s ∧ f40Round rm (f40Val (inf s)).rsq = (if s then nan else zero false) ∧
    f40Round rm (f40Val (inf s)).exp2 = (if s then zero false else inf false) ∧
    f40Round rm (f40Val (inf s)).log2 = (if s then nan else inf false)))

/-- R63, R64, R67: rounding to F40 and to FP32 is sound in every mode: a rounded value is a fixed point of rounding, a representable value is
its own rounding, a finite value in range stays finite with its sign, rounding down gives the greatest value not above the exact one, rounding
up the least not below it, rounding towards zero the greatest magnitude not beyond it, and rounding to nearest a value that no other is nearer
than, the even one of two. -/
def Obligations.RoundingSound : Prop :=
  RoundsSoundly f40Val f40Round (.fin false (2 ^ 28 - 1) 996) ∧ RoundsSoundly f32Val f32Round (.fin false (2 ^ 24 - 1) 104)

/-- R125, R128, R131: the token each writes for the tag of its operand, and its flag. R117, R126, R127, R137 to R140: the instructions
steered by predicates. SEL and MERGE take a's token where pn is 1 and b's where it is 0; STEER writes to its own queue where pn is 1, to its
pair where it is 0, and a marker to both; PLOG writes the logic function of x as its flag, PSEND the predicate as DATA 1 or 0, NOP nothing.
-/
def Obligations.TokenAndPredicateTable : Prop :=
  (∀ (s : State) (f : FOp),
    let t := s.cur.operand f.a
    let p := s.cur.pred f.x.toNat
    let eod (d : W40) : Token := ⟨f.x.setWidth 4 + 1, d⟩
    let passes : Bool := decide (t.tag ≠ 0 ∧ t.tag ≠ 11)
    let data : Bool := decide (t.tag = 0)
    s.Moves (.mov f) f .z (some t) (data && decide (t.data ≠ 0)) ∧
    s.Moves (.filt f) f .pi (if p || passes then some t else none) (p || passes) ∧
    s.Moves (.mark f) f .rk (some (if t.tag = 9 ∨ t.tag = 10 then t else if t.tag = 11 then eod 0 else eod t.data)) false ∧
    s.Moves (.tagof f) f .z (some (if t.tag = 9 then t else ⟨0, t.tag.setWidth 40⟩)) (decide (t.tag ≠ 9 ∧ t.tag ≠ 0)) ∧
    s.Moves (.strip f) f .z (some (if t.tag = 9 then t else if t.tag = 11 then ⟨0, 0⟩ else ⟨0, t.data⟩)) (!data) ∧
    s.Moves (.passm f) f .z (if passes then some t else none) passes ∧
    (s.slotReady (baseNeed .a0 .z f) = true → exec (.hole f) s = .next (s.landed f (baseNeed .a0 .z f)
      { e := s.cur, toks := [⟨11, 0⟩], dsts := [f.dst], flag := some false })) ∧
    (s.slotReady (baseNeed .n1 .z f) = true → exec (.drop f) s = .next (s.landed f (baseNeed .n1 .z f) { e := s.cur, flag := some (!data) })) ∧
    (s.slotReady (dupNeed f) = true → exec (.dup f) s = .next (s.landed f (dupNeed f)
      { e := s.cur, toks := [t], dsts := [f.dst, f.dst], flag := some (data && decide (t.data ≠ 0)) }))) ∧
  (∀ (s : State) (f : FOp),
    let a := s.cur.operand f.a
    let b := s.cur.operand f.b
    let p := s.cur.pred f.x.toNat
    let marker : Bool := decide (1 ≤ a.tag.toNat ∧ a.tag.toNat ≤ 9)
    let pa := s.cur.pred f.a.toNat
    let pb := s.cur.pred f.b.toNat
    let lands (i : Instr) (n : Need) (toks : List Token) (dsts : List (BitVec 4)) (flag : Bool) : Prop :=
      s.slotReady n = true → exec i s = .next (s.landed f n { e := s.cur, toks := toks, dsts := dsts, flag := some flag })
    lands (.sel f) (baseNeed .a2 .pi f) [if p then a else b] [f.dst] p ∧ lands (.merge f) (mergeNeed f s.cur) [if p then a else b] [f.dst] p ∧
    lands (.steer f) (steerNeed f s.cur) [a] (if marker then [f.dst, f.dst ^^^ 1] else if p then [f.dst] else [f.dst ^^^ 1]) p ∧
    lands (.plog f) (baseNeed .pp .lf f) [] [] ([pa && pb, pa || pb, xor pa pb, pa && !pb, !(pa && pb), !(pa || pb),
      !(xor pa pb), pa || !pb].getD f.x.toNat false) ∧
    lands (.psend f) (baseNeed .pq .pi f) [⟨0, if p then 1 else 0⟩] [f.dst] p ∧ lands (.nop f) (baseNeed .n0 .z f) [] [] false)

/-- R132 to R136, for a slot that folds the stream of one queue with a register or constant as its seed: a DATA head is folded and
nothing is delivered; an EOD of the slot's rank or above releases the sum with the seed folded last, then that EOD, and the slot
stands at its round start again. -/
def Obligations.Reductions : Prop :=
  ∀ (s : State) (f : FOp) (st : SlotSt), 12 ≤ f.a.toNat → f.b.toNat < 12 →
    let e := s.cur
    let t := e.operand f.a
    let seed := (e.operand f.b).data
    let put (x : SlotSt) : Elem := { e with slotSt := Tab.put e.slotSt s.curSlot x }
    let folds (i : Instr) (r : Red) (ident : W40) (g : W40 → W40 → W40) (wraps : W40 → W40 → Bool) (flag : Bool → W40 → Bool) : Prop :=
      let start : SlotSt := { acc := ident, openA := true, openB := false }
      e.slotOf s.curSlot start = st → st.openA = true → st.openB = false → st.flt = none → st.mkr = none →
      let n := redNeed r f e st
      s.slotReady n = true →
      (t.tag = 0 → exec i s = .next (s.landed f n
        { e := put { st with seen := true, acc := g st.acc t.data, ovf := st.ovf || wraps st.acc t.data }, flag := none })) ∧
      let set : Bool := if r = .radd then st.ovf || wraps st.acc seed else flag st.seen (g st.acc seed)
      (1 ≤ t.tag.toNat → t.tag.toNat ≤ 8 → f.x.toNat + 1 ≤ t.tag.toNat → exec i s = .next (s.landed f n
        { e := put start, toks := [⟨0, g st.acc seed⟩, t], dsts := [f.dst], flag := some set }))
    let I (v : W40) : Int := (v.extractLsb' 0 32).toInt
    let field (n : Int) : W40 := (BitVec.ofInt 32 n).signExtend 40
    folds (.radd f) .radd 0 (fun x y => field (I x + I y)) (fun x y => decide (I x + I y < -2147483648 ∨ 2147483647 < I x + I y))
      (fun _ _ => false) ∧
    folds (.rfadd f) .rfadd 0x8000000000 (fun x y => f40Round .rne ((f40Val x).add .rne (f40Val y))) (fun _ _ => false)
      (fun _ v => decide (v.extractLsb' 28 11 = 0x7FF)) ∧
    folds (.rmax f) .rmax 0xFF80000000 (fun x y => field (max (I x) (I y))) (fun _ _ => false) (fun seen _ => seen) ∧
    folds (.rfmax f) .rfmax 0xFFF0000000
      (fun x y => if (f40Val x).isNan || (f40Val y).isNan then 0x7FF8000000 else (aluFminmax true x y).1) (fun _ _ => false) (fun seen _ => seen)

/-- R139, R141, R142: CNT counts DATA and writes the count at an EOD, which starts it anew; HALT halts the element; EVT posts one record to
the reeve's event queue: site in [57:52], slot in [51:48], code in [46:44], tag in [43:40] and data in [39:0]. R32, R33: an element that
evaluates its triggers, holds a valid slot and has fired nothing in the cycle adds one to the counter of the latest of its slots' reasons,
which stops at its top; an element that fired charges nothing. -/
def Obligations.CountHaltStall : Prop :=
  (∀ (s : State) (f : FOp),
    let e := s.cur
    let t := e.operand f.a
    let st := e.slotOf s.curSlot {}
    let k := (s.ham s.curH).reeve
    let n := baseNeed .a1 .z f
    (s.slotReady n = true → t.tag = 0 → exec (.cnt f) s =
      .next (s.landed f n { e := { e with slotSt := Tab.put e.slotSt s.curSlot { st with count := st.count + 1 } }, flag := none })) ∧
    (s.slotReady n = true → 1 ≤ t.tag.toNat → t.tag.toNat ≤ 8 → exec (.cnt f) s =
      .next (s.landed f n (Fire.one { e with slotSt := Tab.put e.slotSt s.curSlot { st with count := 0 } } f
        (⟨0, st.count.signExtend 40⟩, decide (st.count ≠ 0))))) ∧
    (s.slotReady (baseNeed .n0 .z f) = true → exec (.halt f) s = .next (s.landed f (baseNeed .n0 .z f) { e := { e with halted := true } })) ∧
    (s.slotReady (evtNeed f k) = true → ∃ u x, exec (.evt f) s = .next u ∧ (u.ham s.curH).reeve = { k with evq := k.evq ++ [x], evFresh := k.evFresh + 1 } ∧
      x.toNat = t.data.toNat + t.tag.toNat * 2 ^ 40 + f.x.toNat * 2 ^ 44 + s.curSlot % 16 * 2 ^ 48 + s.curSite % 64 * 2 ^ 52 ∧
      u.elem s.curH s.curSite = (s.landed f (evtNeed f k) { e := e }).elem s.curH s.curSite)) ∧
  (∀ (s : State) (h site : Nat), s.elemRuns h site = true →
    let e := s.elem h site
    (e.fired = true → exec (.stallCharge h site) s = .next s) ∧
    (e.fired = false → e.validSlots ≠ [] → ∃ r : Reason, ∃ t, exec (.stallCharge h site) s = .next t ∧ s.OnlyElem t h site ∧
      (∃ n ∈ e.validSlots, e.slotCharge (siteKind site) n (s.ham h).reeve = r) ∧
      (∀ n ∈ e.validSlots, (e.slotCharge (siteKind site) n (s.ham h).reeve).order ≤ r.order) ∧
      (Tab.get (t.elem h site).stall 0 r.counter).toNat = Nat.min ((Tab.get e.stall 0 r.counter).toNat + 1) 0xFFFFFFFF ∧
      (∀ k, k ≠ r.counter → Tab.get (t.elem h site).stall 0 k = Tab.get e.stall 0 k)))

/-! ### The scratchpad element (R144 to R165) -/

/-- R154 to R158, on the element's own banks: loads with their extensions, stores of the low bytes, and the atomics. Each writes exactly
the bytes of its width at its address and returns the old word, with the flag of its row; one that is posted returns nothing. R145: a request
of whose operands one is no DATA makes no access; one that produces a value writes the token of R23, and its dequeues land with flag 0. -/
def Obligations.GreenAccess : Prop :=
  (∀ (s : State) (f : FOp),
    let a := s.cur.operand f.a
    let b := s.cur.operand f.b
    let odd (ops : List Token) : Prop := ∃ t ∈ ops, 1 ≤ t.tag.toNat ∧ t.tag.toNat ≤ 11
    let skips (i : Instr) (c : OpClass) (x : XClass) (ops : List Token) : Prop := odd ops → s.Skips i f (speNeed s f c x none true)
    let passes (i : Instr) (c : OpClass) (x : XClass) (posted : Bool) (ops : List Token) : Prop :=
      let n := speNeed s f c x none posted
      odd ops → s.slotReady n = true →
        exec i s = .next (s.landed f n { e := s.cur, toks := [(underTags ops (0, false)).1], dsts := [f.dst], flag := some false })
    let quiet : Bool := decide (f.dst = 15) && !f.pwe
    skips (.st f) .n2 .sz4 [a, b] ∧ skips (.iput f) .n2 .z [a, b] ∧ skips (.iclr f) .n1 .z [a] ∧
    passes (.ld f) .a1 .sz false [a] ∧ passes (.itake f) .a1 .z false [a] ∧ passes (.iread f) .a1 .z false [a] ∧
    passes (.acas f) .d3 .w false [a, b] ∧ passes (.afadd f) .a2 .z quiet [a, b] ∧
    (∀ i ∈ [Instr.aadd f, .asub f, .amin f, .amax f, .aminu f, .amaxu f, .aand f, .aor f, .axor f, .aswap f], passes i .a2 .w quiet [a, b])) ∧
  ∀ (s : State) (f : FOp),
    let a := s.cur.operand f.a
    let b := (s.cur.operand f.b).data
    a.tag = 0 → (s.cur.operand f.b).tag = 0 →
    let lo : W32 := b.extractLsb' 0 32
    let wide : W64 := b.setWidth 64
    let field (w : W32) : W40 := w.signExtend 40
    let at' (r : SpeReq) : Nat := 0x20000000000 + r.target.1 * 0x200000 + r.target.2
    let acts (i : Instr) (c : OpClass) (x : XClass) (r : SpeReq) (val : Option Nat) (tok : W40) (flag : Bool) : Prop :=
      s.Serves r c x →
        let u : State := val.elim s fun v => { s with mem := s.mem.writeLE (at' r) r.size v }
        exec i s = .next (u.landed f (speNeed s f c x (some r) r.posted)
          (if r.posted then { e := s.cur, flag := some false } else { e := s.cur, toks := [⟨0, tok⟩], dsts := [f.dst], flag := some flag }))
    let ld := s.speReq f .ld (2 ^ (f.x.toNat % 4)) false 0
    let m := s.mem.readLE (at' ld) ld.size
    let loaded : W40 :=
      if f.x.toNat % 4 = 3 then BitVec.ofNat 40 m
      else if f.x.getLsbD 2 ∧ f.x.toNat % 4 < 2 then field (BitVec.ofNat 32 m)
      else if f.x.toNat % 4 = 0 then (BitVec.ofNat 8 m).signExtend 40
      else if f.x.toNat % 4 = 1 then (BitVec.ofNat 16 m).signExtend 40 else (BitVec.ofNat 32 m).signExtend 40
    let st := s.speReq f .st (2 ^ (f.x.toNat % 4)) true b
    let four (k : SpeKind) : SpeReq := s.speReq f k 4 (decide (f.dst = 15) && !f.pwe) b
    let eight (k : SpeKind) : SpeReq := s.speReq f k 8 (decide (f.dst = 15) && !f.pwe) b
    let o : W32 := BitVec.ofNat 32 (s.mem.readLE (at' (four .aadd)) 4)
    let q : W64 := BitVec.ofNat 64 (s.mem.readLE (at' (eight .aadd)) 8)
    let narrow (i : Instr) (x : XClass) (k : SpeKind) (v : W32) : Prop := acts i .a2 x (four k) (some v.toNat) (field o) (decide (v ≠ o))
    let dw (i : Instr) (k : SpeKind) (v : W64) : Prop := acts i .a2 .w (eight k) (some v.toNat) (q.setWidth 40) (decide (v ≠ q))
    let dn := Tab.get s.cur.d 0 f.dst.toNat
    let cas (n : Nat) : SpeReq := s.speReq f .acas n false b
    acts (.ld f) .a1 .sz ld none loaded (decide (loaded ≠ 0)) ∧
    acts (.st f) .n2 .sz4 st (some (if f.x.toNat % 4 = 3 then b.toNat else lo.toNat)) 0 false ∧
    (f.x = 0 →
      narrow (.aadd f) .w .aadd (o + lo) ∧ narrow (.asub f) .w .asub (o - lo) ∧ narrow (.amin f) .w .amin (if lo.toInt < o.toInt then lo else o) ∧
      narrow (.amax f) .w .amax (if o.toInt < lo.toInt then lo else o) ∧ narrow (.aminu f) .w .aminu (if lo.toNat < o.toNat then lo else o) ∧
      narrow (.amaxu f) .w .amaxu (if o.toNat < lo.toNat then lo else o) ∧ narrow (.aand f) .w .aand (o &&& lo) ∧
      narrow (.aor f) .w .aor (o ||| lo) ∧ narrow (.axor f) .w .axor (o ^^^ lo) ∧ narrow (.aswap f) .w .aswap lo ∧
      acts (.acas f) .d3 .w (cas 4) (some (if o = dn.extractLsb' 0 32 then lo else o).toNat) (field o) (decide (o = dn.extractLsb' 0 32))) ∧
    (f.x = 1 → dw (.aand f) .aand (q &&& wide) ∧ dw (.aor f) .aor (q ||| wide) ∧ dw (.axor f) .axor (q ^^^ wide) ∧ dw (.aswap f) .aswap wide ∧
      acts (.acas f) .d3 .w (cas 8) (some (if q = dn.setWidth 64 then wide else q).toNat) (q.setWidth 40) (decide (q = dn.setWidth 64))) ∧
    (let v := f32Round .rne ((f32Val (f32Round .rne (f40Val b))).add .rne (f32Val o))
     acts (.afadd f) .a2 .z (four .afadd) (some v.toNat) (f40Round .rne (f32Val o)) (decide (v.extractLsb' 23 8 = 0xFF)))

/-- R159, on the element's own banks: ITAKE of a full word returns it and empties it, IREAD returns it and leaves it full, IPUT of an empty
word writes it and makes it full, ICLR empties it. Where the word does not permit the request it is not performed at its firing: it
joins the bank's deferred requests, and the destination is reserved (R151, R160). What the earlier requests of the element have to do with it
(R280) is the model's choice (log entry 60). Operands that are no DATA are `GreenAccess`'s (R145). -/
def Obligations.Presence : Prop :=
  ∀ (s : State) (f : FOp),
    let a := s.cur.operand f.a
    let b := (s.cur.operand f.b).data
    a.tag = 0 →
    let r (k : SpeKind) (posted : Bool) (v : W40) : SpeReq := s.speReq f k 8 posted v
    let pa := 0x20000000000 + (r .itake false 0).target.1 * 0x200000 + (r .itake false 0).target.2
    let word : W40 := BitVec.ofNat 40 (s.mem.readLE pa 8)
    let n (c : OpClass) (q : SpeReq) : Need := speNeed s f c .z (some q) q.posted
    (s.Serves (r .itake false 0) .a1 .z → s.present pa = true ∧ exec (.itake f) s = .next ((s.setPresent pa false).landed f
      (n .a1 (r .itake false 0)) { e := s.cur, toks := [⟨0, word⟩], dsts := [f.dst], flag := some false })) ∧
    (s.Serves (r .iread false 0) .a1 .z → s.present pa = true ∧ exec (.iread f) s = .next (s.landed f
      (n .a1 (r .iread false 0)) { e := s.cur, toks := [⟨0, word⟩], dsts := [f.dst], flag := some false })) ∧
    ((s.cur.operand f.b).tag = 0 → s.Serves (r .iput true b) .n2 .z → s.present pa = false ∧ exec (.iput f) s =
      .next ((({ s with mem := s.mem.writeLE pa 8 b.toNat } : State).setPresent pa true).landed f (n .n2 (r .iput true b))
        { e := s.cur, flag := some false })) ∧
    (s.Serves (r .iclr true 0) .n1 .z → exec (.iclr f) s = .next ((s.setPresent pa false).landed f (n .n1 (r .iclr true 0))
      { e := s.cur, flag := some false })) ∧
    (let q := r .itake false 0
     (speAddr q.srcH q.addr).isSome = true → q.addr.toNat % 8 = 0 → ownBank q.srcH q.site q.target = true → permitted s q = false →
     s.mustQueue q = false → s.heldMode s.curH = false → s.slotReady (n .a1 q) = true →
     (Tab.get (s.ham s.curH).defer [] (bankOf q.target.2)).length < 8 →
     ∃ u, exec (.itake f) s = .next u ∧ s.MemSame u ∧ u.pres = s.pres ∧ (u.elem s.curH s.curSite).pend.length = s.cur.pend.length + 1 ∧
       Tab.get (u.ham s.curH).defer [] (bankOf q.target.2) =
         Tab.get (s.ham s.curH).defer [] (bankOf q.target.2) ++ [{ q with deferred := true }])

/-- R147, R150, R151, R160, R182, R274: a request to a bank of another element travels there, with its completion pending where it returns a
value; one that writes outside a held-mode region goes to the held entries, an IPUT as a release; one that earlier requests of its element keep
back stays with the element (R280, the model's choice of when, log entry 60). A misaligned or malformed address stops the region with cause 2
and makes no request; a bank performs the first of its messages, and a deferred request once its word permits it, the oldest first;
a result that has come back lands in its register with its predicate write, whose toggle takes the value at the start of the cycle (R55), and
its slot is free again. -/
def Obligations.SplitRequests : Prop :=
  ∀ (s : State) (f : FOp) (h site slot bank : Nat) (q : SpeReq) (rest : List SpeReq),
    let a := s.cur.operand f.a
    let b := s.cur.operand f.b
    let makes (i : Instr) (c : OpClass) (x : XClass) (r : SpeReq) (ops : List Token) : Prop :=
      let good : Prop := (speAddr r.srcH r.addr).isSome = true ∧ r.addr.toNat % r.size = 0
      let leaves (u : State) : Prop := exec i s = .next u ∧ s.MemSame u ∧ u.pres = s.pres ∧
        (u.elem s.curH s.curSite).pend = s.cur.pend ++ (if r.posted then [] else [{ req := r }])
      (∀ t ∈ ops, t.tag = 0) →
      (good → ownBank r.srcH r.site r.target = false → s.slotReady (speNeed s f c x (some r) r.posted) = true →
        (s.orderWaits r = false → s.toHeld r = false → ∃ u, leaves u ∧ (u.ham r.target.1).msgs = (s.ham r.target.1).msgs ++ [r]) ∧
        (s.orderWaits r = false → s.toHeld r = true → ∃ u y, leaves u ∧ (u.ham s.curH).held = (s.ham s.curH).held ++ [y] ∧ y.op = .spe r ∧
          y.rel = decide (r.kind = .iput) ∧ y.sent = false) ∧
        (s.orderWaits r = true → (r.kind.acquires = true → s.toHeld r = true ∨ permitted s r = true) →
          ∃ u, leaves u ∧ (u.elem s.curH s.curSite).sendQ = s.cur.sendQ ++ [r])) ∧
      (¬ good → s.slotReady (speNeed s f c x none r.posted) = true →
        exec i s = .next (s.requestStop s.curH s.curSite 2 s.curSlot 0 0 r.addr))
    let size := 2 ^ (f.x.toNat % 4)
    let quiet : Bool := decide (f.dst = 15) && !f.pwe
    let w : Nat := if f.x = 1 then 8 else 4
    makes (.ld f) .a1 .sz (s.speReq f .ld size false 0) [a] ∧ makes (.st f) .n2 .sz4 (s.speReq f .st size true b.data) [a, b] ∧
    makes (.itake f) .a1 .z (s.speReq f .itake 8 false 0) [a] ∧ makes (.iread f) .a1 .z (s.speReq f .iread 8 false 0) [a] ∧
    makes (.iput f) .n2 .z (s.speReq f .iput 8 true b.data) [a, b] ∧ makes (.iclr f) .n1 .z (s.speReq f .iclr 8 true 0) [a] ∧
    makes (.acas f) .d3 .w (s.speReq f .acas w false b.data) [a, b] ∧ makes (.afadd f) .a2 .z (s.speReq f .afadd 4 quiet b.data) [a, b] ∧
    (∀ i k, (i, k) ∈ [(Instr.aadd f, SpeKind.aadd), (.asub f, .asub), (.amin f, .amin), (.amax f, .amax), (.aminu f, .aminu), (.amaxu f, .amaxu),
        (.aand f, .aand), (.aor f, .aor), (.axor f, .axor), (.aswap f, .aswap)] → makes i .a2 .w (s.speReq f k w quiet b.data) [a, b]) ∧
    ((s.ham h).msgs = q :: rest → (∀ x ∈ rest, bankOf x.target.2 = bankOf q.target.2) →
      (q.kind.writes = false → s.heldMode q.target.1 = false ∨ s.sameRegion q.srcH q.target.1 = true) → s.mustQueue q = false → permitted s q = true →
      (q.kind.acquires = true → s.orderWaits q = false) →
      exec (.bankMessage h) s = .next ((s.performReturn q).setHam h { (s.performReturn q).ham h with msgs := rest })) ∧
    (Tab.get (s.ham h).defer [] bank = q :: rest → permitted s q = true →
      (q.kind.writes = true → s.afterWait (some q.srcH) (q.isAfter s) q.target.1 = false) → (q.kind.acquires = true → s.orderWaits q = false) →
      exec (.deferredRequestPerform h bank) s =
        .next ((s.setHam h { s.ham h with defer := Tab.put (s.ham h).defer bank rest }).performReturn q)) ∧
    (∀ p t flag, (s.elem h site).pend.find? (fun p => p.req.slot = slot && p.result.isSome) = some p → p.result = some (t, flag) →
      p.req.op.dst.toNat < 8 → ∃ u, exec (.speCompletion h site slot) s = .next u ∧ s.OnlyElem u h site ∧
        Tab.get (u.elem h site).d 0 p.req.op.dst.toNat = t.data ∧ (∀ x ∈ (u.elem h site).pend, x.req.slot ≠ slot) ∧
        (p.req.op.pwe = true → let k := p.req.op.pidx.toNat; Tab.get (u.elem h site).p false k =
          [flag, true, false, !(Tab.get (Tab.get (s.ham0 h).elems {} site).p false k)].getD p.req.op.pmode.toNat false))

/-- R164, on a usable bound trough: TCLAIM claims the next free slot and returns its offset, TCOMMIT fills the oldest claimed one, TTAKE
takes the oldest filled one, TFREE frees the oldest taken one, TSTAT returns the filled and free counts as they stood at the start of the
cycle (R54, R165); a commit or free of a slot that is not the oldest of its kind stops the region with cause 3, and so does every trough
instruction on a trough that is not usable (R162). A TCLAIM and a TTAKE wait for a slot; that a TCOMMIT and a TFREE, which are releases
(R280), wait for the element's requests under way is the model's choice (log entry 60). R145: of an operand that is no DATA, a TCOMMIT and a
TFREE make no step. -/
def Obligations.Troughs : Prop :=
  ∀ (s : State) (f : FOp) (n : Nat),
    let t := s.trough s.curH n
    let a := s.cur.operand f.a
    let at' (i : W16) : Nat := t.base.toNat + i.toNat * 2 ^ t.log2.toNat
    let next (i : W16) : W16 := if i.toNat + 1 = t.count.toNat then 0 else i + 1
    let field (v : Nat) : W40 := (BitVec.ofNat 32 v).signExtend 40
    let claims := s.troughNeed f .a0 true fun t => decide (0 < t.freeNow)
    let takes := s.troughNeed f .a0 true fun t => decide (0 < t.filledNow)
    let gives := s.troughNeed f .n1 true fun _ => true
    let reads := s.troughNeed f .a0 false fun _ => true
    let lands (i : Instr) (need : Need) (t' : Trough) (toks : List Token) (flag : Bool) : Prop :=
      s.slotReady need = true → exec i s = .next ((s.setTrough s.curH n t').landed f need
        { e := s.cur, toks := toks, dsts := if toks = [] then [] else [f.dst], flag := some flag })
    let offset := a.data.toNat % 2 ^ 32
    let stops (i : Instr) (need : Need) : Prop := s.slotReady need = true →
      exec i s = .next (s.requestStop s.curH s.curSite 3 s.curSlot n 0 0)
    let claimed := t.claimed.toNat - t.clm
    let taken := t.taken.toNat - t.tkn
    let filled := t.filled.toNat - t.committed + t.tkn
    let free := t.free.toNat - t.freed + t.clm
    (1 ≤ a.tag.toNat → a.tag.toNat ≤ 11 → let n : Need := { baseNeed .n1 .tb f with held := s.completionsHold false }
      s.Skips (.tcommit f) f n ∧ s.Skips (.tfree f) f n) ∧
    (s.cur.boundTrough f = some n → a.tag = 0 →
    (t.usable = true →
      (0 < t.free.toNat - t.freed → lands (.tclaim f) claims
        { t with ci := next t.ci, free := t.free - 1, claimed := t.claimed + 1, clm := t.clm + 1 } [⟨0, field (at' t.ci)⟩] true) ∧
      (0 < claimed → offset = at' t.mi → lands (.tcommit f) gives
        { t with mi := next t.mi, claimed := t.claimed - 1, filled := t.filled + 1, committed := t.committed + 1 } [] false) ∧
      (0 < t.filled.toNat - t.committed → lands (.ttake f) takes
        { t with ti := next t.ti, filled := t.filled - 1, taken := t.taken + 1, tkn := t.tkn + 1 } [⟨0, field (at' t.ti)⟩] true) ∧
      (0 < taken → offset = at' t.fi → lands (.tfree f) gives
        { t with fi := next t.fi, taken := t.taken - 1, free := t.free + 1, freed := t.freed + 1 } [] false) ∧
      lands (.tstat f) reads t [⟨0, field (filled % 8192 + 8192 * (free % 8192))⟩] (decide (filled ≠ 0)) ∧
      (claimed = 0 ∨ offset ≠ at' t.mi → stops (.tcommit f) gives) ∧ (taken = 0 ∨ offset ≠ at' t.fi → stops (.tfree f) gives)) ∧
    (t.usable = false → stops (.tclaim f) claims ∧ stops (.tcommit f) gives ∧ stops (.ttake f) takes ∧ stops (.tfree f) gives ∧
      stops (.tstat f) reads))

/-! ### The stream element (R166 to R181, R309) -/

/-- R166, R173, R176: a start of DATA that names an aligned green offset makes its command current on an idle stream, and queues it behind
the current one otherwise; a bad offset stops the region with cause 2. The flag of a start is not stated by the spec (log entry 11). R179:
SWAIT fires once its stream has no running command, with the flag of a stop or an error; SCANCEL discards the queued command and ends the
current one; SRESUME lets a stopped stream run from a position of its run, ends its command with status bit [10] at a position beyond it, and
leaves any other stream as it is; SPOS returns the position. R145: of an operand that is no DATA, a start and an SRESUME give no command. -/
def Obligations.StreamInstructions : Prop :=
  (∀ (s : State) (f : FOp), 1 ≤ (s.cur.operand f.a).tag.toNat → (s.cur.operand f.a).tag.toNat ≤ 11 →
    (∀ i ∈ [Instr.sload f, .sstore f, .sgather f, .sscatter f, .sfeed f, .sbfill f, .sdrain f],
      s.Skips i f { baseNeed .n1 .sn f with held := (s.cur.stream (f.x.toNat % 4)).queued.isSome }) ∧ s.Skips (.sresume f) f (baseNeed .n1 .sn f)) ∧
  (∀ (s : State) (f : FOp),
    let a := s.cur.operand f.a
    let off := a.data.toNat % 2 ^ 32
    let n := f.x.toNat % 4
    let x := s.cur.stream n
    a.tag = 0 → x.queued = none → s.slotReady (baseNeed .n1 .sn f) = true →
    let starts (i : Instr) (k : StKind) : Prop :=
      let fresh : Stream := { st := .starting, kind := k, scbOff := off, since := s.cycle, status := x.status, lastPos := x.lastPos }
      let y : Stream := if x.st = .idle then fresh else { x with queued := some (k, off, s.cycle) }
      let e : Elem := { s.cur with streams := Tab.put s.cur.streams n y }
      (off % 128 = 0 → off < 2 ^ 21 → ∃ u flag, exec i s = .next u ∧ s.MemSame u ∧
        u.elem s.curH s.curSite = (s.landed f (baseNeed .n1 .sn f) { e := e, flag := some flag }).elem s.curH s.curSite) ∧
      (off % 128 ≠ 0 ∨ 2 ^ 21 ≤ off → exec i s = .next (s.requestStop s.curH s.curSite 2 s.curSlot 0 0 (a.data.extractLsb' 0 32)))
    starts (.sload f) .sload ∧ starts (.sstore f) .sstore ∧ starts (.sgather f) .sgather ∧ starts (.sscatter f) .sscatter ∧
    starts (.sfeed f) .sfeed ∧ starts (.sbfill f) .sbfill ∧ starts (.sdrain f) .sdrain) ∧
  (∀ (s : State) (f : FOp),
    let n := f.x.toNat % 4
    let x := s.cur.stream n
    let a := s.cur.operand f.a
    let p := a.data.toNat % 2 ^ 32
    let set (y : Stream) : Elem := { s.cur with streams := Tab.put s.cur.streams n y }
    (x.st = .idle ∨ x.st = .stopped → s.slotReady (baseNeed .n0 .sn f) = true → exec (.swait f) s = .next (s.landed f (baseNeed .n0 .sn f)
      { e := s.cur, flag := some (decide (x.st = .stopped) || decide (x.status &&& 0x3FF8 ≠ 0)) })) ∧
    (x.st ≠ .idle → s.slotReady (baseNeed .n0 .sn f) = true → exec (.scancel f) s = .next (s.landed f (baseNeed .n0 .sn f)
      { e := set { x with queued := none, cancelling := true }, flag := some true })) ∧
    (a.tag = 0 → x.st = .stopped → x.cancelling = false → p < x.total → s.slotReady (baseNeed .n1 .sn f) = true →
      ∃ y, exec (.sresume f) s = .next (s.landed f (baseNeed .n1 .sn f) { e := set y, flag := some true }) ∧ y.st = .running ∧ y.pos = p ∧
        y.scb = x.scb ∧ y.wstat.getLsbD 1 = false) ∧
    (a.tag = 0 → x.st = .stopped → x.cancelling = false → x.total ≤ p → s.slotReady (baseNeed .n1 .sn f) = true →
      ∃ y, exec (.sresume f) s = .next (s.landed f (baseNeed .n1 .sn f) { e := set y, flag := some true }) ∧ y.st = .running ∧
        y.finished = true ∧ y.wstat.getLsbD 10 = true ∧ y.wstat.getLsbD 1 = false) ∧
    (a.tag = 0 → x.st ≠ .stopped → s.slotReady (baseNeed .n1 .sn f) = true →
      exec (.sresume f) s = .next (s.landed f (baseNeed .n1 .sn f) { e := set x, flag := some false })) ∧
    (s.slotReady (baseNeed .a0 .sn f) = true → exec (.spos f) s = .next (s.landed f (baseNeed .a0 .sn f)
      { e := s.cur, toks := [⟨0, (BitVec.ofNat 32 (if x.st = .idle then x.lastPos else x.pos)).signExtend 40⟩], dsts := [f.dst],
        flag := some (decide (x.st = .stopped)) })))

/-- R166 to R172, R175, R176, R309: the steps of a stream. A start reads its control block at its green offset and runs if no check fails;
a store on a trough claims a slot and a load takes one; a load delivers the token of its position and moves to the next; a scatter
passes over a HOLE without a write; a gather sends its command and delivers its tokens in order; a matrix command takes its port, and a feed
writes a whole row, which becomes full. That a feed or fill empties what it has still to write when it takes its port is the model's reading
(log entry 24). R65 to R85: what the formats make of an element on load and of a value on store (`LoadConversions`, `StoreConversions`). Three
clauses of those two rest on the model's readings of log entry 16 and on no rule's words: ufl beside sat for a negative value stored as UINT,
the range −128 to 127 of a stored MXINT8 element, and the value −2 of an MXINT8 code −128 on load. R69, R169: the element that a load reads lies
at its number times its width from the base, where the number is the sum of index times stride; a store's token becomes the bytes of its code at
that place, which are written as one masked sector write: stated of a direct stream in memory whose element lies in one sector and has no
header. -/
def Obligations.StreamSteps : Prop :=
  LoadConversions ∧ StoreConversions ∧
  (∀ (s t : State) (h site n p pa : Nat),
    let x := s.stream h site n
    let w := fmtBits x.fmt
    let bit : Int := ((List.range x.dims).map fun d => ((p / x.span d % x.count d : Nat) : Int) * x.stride d).sum * w
    let v := ((((x.fld 0 8 : Nat) : Int) + bit / 8) % (2 ^ 64 : Int)).toNat
    let sh := (bit % 8).toNat
    let nb := (sh + w + 7) / 8
    let plain : Prop := x.onTrough = false ∧ x.flag 12 = false ∧ x.refused = false ∧ fmtMx x.fmt = false ∧ fmtUnit x.fmt = false
    let runs : Prop := s.streamRuns h x = true ∧ x.active = true ∧ x.ready = true ∧ x.cancelling = false ∧ x.wstat.getLsbD 10 = false
    let a := seAgent s h site n
    let ctx := (s.ham h).ctx.getD 0
    (∀ u l, plain → x.line = none → v % 32 + nb ≤ 32 → s.translate a ctx v .load = .ok pa t →
      t.readPhys (t.seReader h site n v pa) (pa - pa % 32) 32 = .ok l u →
      ∃ r y, s.readElem h site n x p = .ok r y u ∧ r.hdr = [] ∧ r.code = leNat ((l.drop (v % 32)).take nb) / 2 ^ sh % 2 ^ w) ∧
    (plain → runs → x.kind = .sstore → p = x.pos → x.pos < x.total → x.out = [] → v % 32 + nb ≤ 32 → s.translate a ctx v .store = .ok pa t →
      (s.elem h site).inPresent n = true → ((s.elem h site).headTok n).tag = 0 →
      let r := x.storeCode ((s.elem h site).headTok n).data (x.threshold p)
      ∃ u, exec (.streamPosition h site n) s = .next u ∧ u.mem = t.mem ∧ (u.elem h site).inQ n = ((t.elem h site).inQ n).pop ∧
        (u.stream h site n).pos = p + 1 ∧
        (u.stream h site n).out = (List.range nb).map (fun i =>
          (p, v + i, BitVec.ofNat 8 (r.code * 2 ^ sh / 256 ^ i), BitVec.ofNat 8 ((2 ^ w - 1) * 2 ^ sh / 256 ^ i))) ∧
        (u.stream h site n).sat.toNat = Nat.min (x.sat.toNat + r.sat.toNat) 0xFFFFFFFF ∧
        (u.stream h site n).ufl.toNat = Nat.min (x.ufl.toNat + r.ufl.toNat) 0xFFFFFFFF) ∧
    (∀ (l : List (Nat × Byte)) (k first : Nat), plain → runs → x.kind = .sstore → x.total ≤ x.pos → (l.map fun q => q.1).Nodup →
      l.head? = some (first, (l.headD (0, 0)).2) → (∀ q ∈ l, q.1 < 32) → x.out = l.map (fun q => (x.pos - 1, 32 * k + q.1, q.2, (0xFF : Byte))) →
      s.translate a ctx (32 * k + first) .store = .ok pa t →
      let base := pa - pa % 32
      t.outbound h base = false ∨ x.modeF = 2 → t.HbmOpen (seAgent t h site n) base 32 → t.MemOk →
      ∃ u, exec (.streamPosition h site n) s = .next u ∧ (∀ q ∈ l, u.mem.read (base + q.1) = q.2) ∧
        (∀ c, (∀ q ∈ l, c ≠ base + q.1) → u.mem.read c = t.mem.read c) ∧ (u.stream h site n).out = [])) ∧
  ∀ (s t : State) (h site n : Nat) (b : List Byte),
    let x := s.stream h site n
    let runs : Prop := s.streamRuns h x = true ∧ x.active = true ∧ x.ready = true ∧ x.cancelling = false ∧ x.wstat.getLsbD 10 = false
    let tr := s.trough h x.trough
    (x.st = .starting → s.hamletRuns h = true → x.cancelling = false → s.requestsBefore h x.since = false →
      s.readPhys (seAgent s h site n) (0x20000000000 + h * 0x200000 + x.scbOff) 128 = .ok b t →
      let y : Stream := { x with scb := b }
      (Stream.failing t h site y = 0 →
        exec (.streamCommandStart h site n) s = .next (t.setStream h site n { y with st := .running, phase := BitVec.ofNat 4 y.phase0 })) ∧
      (Stream.failing t h site y ≠ 0 →
        exec (.streamCommandStart h site n) s = .next (t.endStream h site n y (Stream.failing t h site y) 0))) ∧
    (x.st = .running → x.onTrough = true → x.slot = none → x.cancelling = false → x.finished = false → s.hamletRuns h = true →
      s.ownWait h site = false → tr.usable = true →
      (x.kind.reads = true → 0 < tr.filledNow → exec (.troughSlotAcquire h site n) s =
        .next ((s.setTrough h x.trough tr.take).setStream h site n { x with slot := some (tr.slotAt tr.ti) })) ∧
      (x.kind.reads = false → 0 < tr.freeNow → exec (.troughSlotAcquire h site n) s =
        .next ((s.setTrough h x.trough tr.claim).setStream h site n { x with slot := some (tr.slotAt tr.ci) }))) ∧
    (∀ r y, runs → x.kind = .sload → x.eod = none → x.pos < x.total → (s.elem h site).outRoom n = true → s.readElem h site n x x.pos = .ok r y t →
      let w := t.formatFault h site y r
      exec (.streamPosition h site n) s =
        .next ((w.2.setElem h site ((w.2.elem h site).pushOut n (.tok (r.token x.fmt (t.bench h))))).setStream h site n
          { w.1.past x.pos with moved := true })) ∧
    (runs → x.kind = .sscatter → x.pos < x.total → (s.elem h site).inPresent n = true → ((s.elem h site).headTok n).tag = 11 →
      ∃ u, exec (.streamPosition h site n) s = .next u ∧ s.MemSame u ∧ (u.stream h site n).pos = x.pos + 1 ∧
        (u.elem h site).inQ n = ((s.elem h site).inQ n).pop) ∧
    (runs → x.kind = .sgather → x.gtoks = [] → x.eod = none → x.gather = none → x.endAt = none → x.pos < x.total →
      let len := Nat.min x.total (x.gatherEnd x.pos) - x.pos
      exec (.gatherCommandSend h site n) s = .next (s.gAll h site n x x.pos len [] len x.pos { units := x.units })) ∧
    (∀ k r, runs → x.kind = .sgather → x.gtoks = k :: r → x.eod = none → x.finished = false → (s.elem h site).outRoom n = true →
      exec (.gatherBurstDelivery h site n) s =
        .next ((s.setElem h site ((s.elem h site).pushOut n (.tok k))).setStream h site n { x.past x.pos with gtoks := r, moved := true })) ∧
    (runs → x.kind.matrix = true → x.port = false → s.portFree h site n x = true → s.placesFree h x = true →
      (let u := s.emptyPlaces h x
       exec (.mePortTransfer h site n) s = .next (u.setStream h site n { x with port := true }) ∧ s.MemSame u ∧
        (x.kind = .sdrain → u = s) ∧ (∀ c, c ≠ 24 + x.meX → u.elem h c = s.elem h c))) ∧
    (runs → x.kind = .sfeed → x.port = true → site ≠ 24 + x.meX → 128 * (x.rowsDone + 1) ≤ x.pos → s.placeFree h x x.rowsDone = true →
      ∃ u, exec (.mePortTransfer h site n) s = .next u ∧ s.MemSame u ∧ (u.stream h site n).rowsDone = x.rowsDone + 1 ∧
        ((u.elem h (24 + x.meX)).me.row (x.place + x.rowsDone)).full = true ∧
        ((u.elem h (24 + x.meX)).me.row (x.place + x.rowsDone)).fmt = x.fmt)

/-! ### The matrix element (R183 to R222) -/

/-- R206, R208 to R219: the instructions of the matrix element. MMA and MMAS queue an operation with the settings as they
stand while the queue has room; ACCZ zeroes, ACCMOV, ACCRD and ACCWR begin a transfer on an accumulator that nothing holds; BSEL,
RUNG and MONSET write the settings and leave them where the operand breaks a limit, and an ACCMOV and an ACCWR begin nothing there; MONRD reads
the monitor register, MONCLR clears it; MWAIT fires once no operation is pending on its accumulator. An ACCMOV of an accumulator onto itself makes
it valid and moves nothing: that its content stays as it reads is the model's reading (log entry 55). R206: an operand that is no DATA starts and
sets nothing; its dequeues land, and the flag is 0. -/
def Obligations.MatrixInstructions : Prop :=
  ∀ (s : State) (f : FOp),
    let e := s.cur
    let m := e.me
    let t := e.operand f.a
    let v : W32 := t.data.extractLsb' 0 32
    let n := f.x.toNat % 4
    let op (sparse : Bool) : MeOp :=
      { sparse := sparse, acc := n, desc := v, start := m.rungStart, ceil := m.rungCeil, bSat := m.bSat, bUfl := m.bUfl, bCnc := m.bCnc,
        shift := m.cncShift, base := m.slotBase, since := s.cycle }
    let tiles := s.Tiles
    let acc := m.acc n
    (t.tag = 0 → m.opq.length < 4 → tiles (.mma f) f .n1 .ac { m with opq := m.opq ++ [op false] } (descOk v m.slotBase) ∧
      tiles (.mmas f) f .n1 .ac { m with opq := m.opq ++ [op true] } (descOk v m.slotBase)) ∧
    (s.writeHeld n = false → tiles (.accz f) f .n0 .ac (m.setAcc n { acc with vals := [], valid := true, dirty := true }) acc.valid) ∧
    (t.tag = 0 → s.writeHeld n = false → m.mv = none → v.toNat < 4 → v.toNat ≠ n → s.readHeld v.toNat = false →
      tiles (.accmov f) f .n1 .ac { m with mv := some { src := v.toNat, dst := n, row := 0, since := s.cycle } } (m.acc v.toNat).valid) ∧
    (t.tag = 0 → s.writeHeld n = false → m.mv = none → v.toNat = n →
      tiles (.accmov f) f .n1 .ac (m.setAcc n { acc with vals := acc.content, valid := true }) acc.valid) ∧
    (t.tag = 0 → s.writeHeld n = false → m.mv = none → 4 ≤ v.toNat → tiles (.accmov f) f .n1 .ac m false) ∧
    (s.readHeld n = false → m.rd = none → tiles (.accrd f) f .n0 .ac { m with rd := some { acc := n, since := s.cycle } } acc.valid) ∧
    (t.tag = 0 → s.writeHeld n = false → m.wr = none → v.toNat < 1024 → v.toNat % 32 + v.toNat / 32 + 1 ≤ 32 →
      tiles (.accwr f) f .n1 .ac { m with wr := some { acc := n, row := v.toNat % 32, left := v.toNat / 32 + 1, since := s.cycle } } true) ∧
    (t.tag = 0 → s.writeHeld n = false → m.wr = none → 1024 ≤ v.toNat ∨ 32 < v.toNat % 32 + v.toNat / 32 % 32 + 1 → tiles (.accwr f) f .n1 .ac m false) ∧
    (t.tag = 0 → tiles (.bsel f) f .n1 .z (if v.toNat ≤ 5 then { m with slotBase := v.extractLsb' 0 3 } else m) (decide (v.toNat ≤ 5))) ∧
    (t.tag = 0 → v.toNat < 16 → v.extractLsb' 0 2 ≤ v.extractLsb' 2 2 →
      tiles (.rung f) f .n1 .z { m with rungStart := v.extractLsb' 0 2, rungCeil := v.extractLsb' 2 2 } true) ∧
    (t.tag = 0 → v.toNat < 16 → v.extractLsb' 2 2 < v.extractLsb' 0 2 →
      tiles (.rung f) f .n1 .z { m with rungStart := v.extractLsb' 2 2, rungCeil := v.extractLsb' 2 2 } false) ∧
    (t.tag = 0 → 16 ≤ v.toNat → tiles (.rung f) f .n1 .z m false) ∧
    (let low := v.toNat % 65536
     t.tag = 0 → v.extractLsb' 16 14 = 0 →
      (v.toNat / 2 ^ 30 = 0 → tiles (.monset f) f .n1 .z { m with bSat := BitVec.ofNat 16 low } true) ∧
      (v.toNat / 2 ^ 30 = 1 → tiles (.monset f) f .n1 .z { m with bUfl := BitVec.ofNat 16 low } true) ∧
      (v.toNat / 2 ^ 30 = 2 → tiles (.monset f) f .n1 .z { m with bCnc := BitVec.ofNat 16 low } true) ∧
      (v.toNat / 2 ^ 30 = 3 → 1 ≤ low → low < 256 → tiles (.monset f) f .n1 .z { m with cncShift := BitVec.ofNat 8 low } true) ∧
      (v.toNat / 2 ^ 30 = 3 → low = 0 ∨ 256 ≤ low → tiles (.monset f) f .n1 .z m false)) ∧
    (t.tag = 0 → v.extractLsb' 16 14 ≠ 0 → tiles (.monset f) f .n1 .z m false) ∧
    (let k : Need := { baseNeed .a0 .z f with empties := monrdEmpties f.dst }
      let lo : Token := ⟨0, (m.monitor.extractLsb' 0 32).signExtend 40⟩
      let hi : Token := ⟨0, (m.monitor.extractLsb' 32 32).signExtend 40⟩
      let x : Fire := { e := e, toks := [lo, hi], dsts := [f.dst], flag := some (decide (m.monitor.extractLsb' 50 8 ≠ 0)) }
      let d := f.dst.toNat
      let pair := if d % 2 = 0 then d + 1 else d - 1
      (s.slotReady k = true → d < 8 → ∃ u, exec (.monrd f) s = .next u ∧
        Tab.get (u.elem s.curH s.curSite).d 0 d = lo.data ∧ Tab.get (u.elem s.curH s.curSite).d 0 pair = hi.data ∧
        (∀ r, r ≠ d → r ≠ pair → Tab.get (u.elem s.curH s.curSite).d 0 r = Tab.get e.d 0 r)) ∧
      (d = 12 ∨ d = 13 → s.slotReady k = true →
        exec (.monrd f) s = .next (s.landed f k { x with toks := [⟨0, if m.monitor = 0 then 0 else 1⟩] })) ∧
      (14 ≤ d ∨ (8 ≤ d ∧ d < 12) → s.slotReady k = true → exec (.monrd f) s = .next (s.landed f k x))) ∧
    tiles (.monclr f) f .n0 .z { m with monitor := 0, status := 0 } false ∧
    (s.readHeld n = false → tiles (.mwait f) f .n0 .ac m (mwaitFlag m n)) ∧
    (1 ≤ t.tag.toNat → t.tag.toNat ≤ 11 →
      let skips (i : Instr) (x : XClass) (held : Bool) : Prop := s.Skips i f { baseNeed .n1 x f with held := held }
      skips (.mma f) .ac (decide (4 ≤ m.opq.length)) ∧ skips (.mmas f) .ac (decide (4 ≤ m.opq.length)) ∧
      skips (.accmov f) .ac (s.writeHeld n || m.mv.isSome) ∧ skips (.accwr f) .ac (s.writeHeld n || m.wr.isSome) ∧
      skips (.bsel f) .z false ∧ skips (.rung f) .z false ∧ skips (.monset f) .z false)

/-- R196, R200 to R202, R208, R211, R213 to R215: the steps of the matrix element, each from the cycle after the firing that began it on.
The head of the queue starts, its target untouched, or is refused with its status and nothing written; rows and blocks work on a copy; an
excess of a budget below the ceiling discards the copy and replays one rung wider, which its replay counter counts, and only the last
check writes the target's rows, no other row or accumulator, with the status, the monitor register and, where a budget is exceeded at the
ceiling, replay counter 3; the transfers move one row or one token. No byte of memory changes. R189 to R194: what a row computes
(`BlockArithmetic` gives each position). What the sums leave open is the model's choice (log entry 65). -/
def Obligations.MatrixSteps : Prop :=
  BlockArithmetic ∧
  ∀ (s : State) (h site q : Nat), s.hamletRuns h = true →
    let e := s.elem h site
    let m := e.me
    let gives (i : Instr) (P : ME → Prop) : Prop := ∃ u, exec i s = .next u ∧ s.OnlyElem u h site ∧ s.MemSame u ∧ P (u.elem h site).me
    (∀ o rest, m.att = none → m.opq = o :: rest → o.since < s.cycle → s.underRead h site o.acc = false → m.underWrite o.acc = false →
      gives (.meOperationStart h site) fun y => y.opq = rest ∧ (∀ n, (y.acc n).vals = (m.acc n).vals ∧ (y.acc n).valid = (m.acc n).valid) ∧
        (m.refusal o = 0 → ∃ a, y.att = some a ∧ a.op = o ∧ a.rung = o.start.toNat ∧ a.kb = 0 ∧ a.i = 0 ∧ a.w = m.targetRows o) ∧
        (m.refusal o ≠ 0 → y.att = none ∧ y.monitor = 0 ∧ y.status = m.refusal o ||| 2 ||| BitVec.ofNat 16 (o.acc * 2 ^ 12))) ∧
    (∀ a, m.att = some a → a.check = false →
      let o := a.op
      let rows := descM o.desc
      let row := m.row (descRow o.desc + a.kb * rows + a.i)
      let t := m.tile (o.s0 + a.kb)
      let planes := [2, 4, 8].getD a.rung 11
      let vals := (List.range 128).map fun c => Tab.get row.vals {} c
      let group (k : Nat) := let vs := (vals.drop (16 * k)).take 16; if a.integer then (vs, 0, 0, 0) else quantGroup planes vs
      let pos (j : Nat) := mePos a.integer planes (decide (a.i = 0)) o.shift.toNat (vals.any fun v => v.nonfin)
        ((List.range 8).map fun k => { q := (group k).1, e := (group k).2.1 }) row.scale t.wscale t j (Tab.get a.w 0 (128 * a.i + j))
      let count (old : Nat) (f g : Nat → Nat) : Nat :=
        if a.integer then 0 else Nat.min (old + ((List.range 8).map f).sum + ((List.range 128).map g).sum) 0xFFFF
      ∃ b, gives (.meRow h site) (fun y => y = { m with att := some b }) ∧
        (∀ j, j < 128 → Tab.get b.w 0 (128 * a.i + j) = (pos j).w) ∧
        (∀ i j, i ≠ a.i → j < 128 → Tab.get b.w 0 (128 * i + j) = Tab.get a.w 0 (128 * i + j)) ∧
        b.sat = count a.sat (fun k => (group k).2.2.1) (fun j => (pos j).sat) ∧ b.ufl = count a.ufl (fun k => (group k).2.2.2) (fun j => (pos j).ufl) ∧
        b.cnc = count a.cnc (fun _ => 0) (fun j => (pos j).cnc) ∧ (b.nonfin = true ↔ a.nonfin = true ∨ ∃ j, j < 128 ∧ (pos j).nonfin = true) ∧
        b.i = (if a.i + 1 = rows then 0 else a.i + 1) ∧ b.check = decide (a.i + 1 = rows) ∧ b.op = o ∧ b.kb = a.kb ∧ b.rung = a.rung ∧
        b.replays = a.replays ∧ b.overr = a.overr) ∧
    (∀ a, m.att = some a → a.check = true →
      let o := a.op
      let excess : Prop := a.integer = false ∧ (o.bSat.toNat < a.sat ∨ o.bUfl.toNat < a.ufl ∨ o.bCnc.toNat < a.cnc)
      let excessEver : Bool := a.overr || decide excess
      let ctx := (s.ham h).ctx.getD 0
      let counts (y : ME) (n : Nat) : Prop := ∀ k, (Tab.get y.replay 0 k).toNat =
        if k = 4 * ctx + n then Nat.min ((Tab.get m.replay 0 k).toNat + 1) 0xFFFFFFFF else (Tab.get m.replay 0 k).toNat
      (excess → a.rung < o.ceil.toNat → gives (.blockCheck h site) fun y => y.accs = m.accs ∧ counts y a.rung ∧
        ∃ b, y.att = some b ∧ b.rung = a.rung + 1 ∧ b.replays = a.replays + 1 ∧ b.w = m.targetRows o ∧ b.kb = 0 ∧ b.sat = 0) ∧
      (¬ excess ∨ o.ceil.toNat ≤ a.rung → a.kb + 1 ≠ descNk o.desc → gives (.blockCheck h site) fun y =>
        y = { m with att := some { a with kb := a.kb + 1, check := false, overr := excessEver } }) ∧
      (¬ excess ∨ o.ceil.toNat ≤ a.rung → a.kb + 1 = descNk o.desc → gives (.blockCheck h site) fun y => y.att = none ∧
        (y.acc o.acc).valid = true ∧ (y.acc o.acc).dirty = true ∧ (y.acc o.acc).infl = false ∧ (∀ n, n ≠ o.acc → y.acc n = m.acc n) ∧
        (∀ i j, i < descM o.desc → j < 128 → (y.acc o.acc).read (descA0 o.desc + i) j = Tab.get a.w 0 (128 * i + j)) ∧
        (∀ i j, j < 128 → (i < descA0 o.desc ∨ descA0 o.desc + descM o.desc ≤ i) → (y.acc o.acc).read i j = (m.acc o.acc).read i j) ∧
        (o.acc < 4 → y.status.toNat =
          1 + 4 * a.nonfin.toNat + 8 * excessEver.toNat + (if 0 < a.replays then 16 else 0) + 256 * a.integer.toNat + 4096 * o.acc) ∧
        (a.sat ≤ 0xFFFF → a.ufl ≤ 0xFFFF → a.cnc ≤ 0xFFFF → a.rung < 4 → a.replays < 256 → y.monitor.toNat =
          a.sat + a.ufl * 2 ^ 16 + a.cnc * 2 ^ 32 + (if a.integer then 0 else a.rung) * 2 ^ 48 + a.replays * 2 ^ 50) ∧
        (excessEver = true → counts y 3) ∧ (excessEver = false → y.replay = m.replay))) ∧
    (∀ x, m.mv = some x → x.since < s.cycle → x.src ≠ x.dst → gives (.accmovRow h site) fun y => (y.acc x.dst).valid = true ∧
      (∀ c, c < 128 → (y.acc x.dst).read x.row c = (m.acc x.src).read x.row c) ∧
      y.mv = (if x.row = 31 then none else some { x with row := x.row + 1 })) ∧
    (∀ x, m.rd = some x → x.since < s.cycle → q < 4 → Tab.get x.sent 0 q < 1056 → e.outRoom q = true → (e.outQ q).fresh = 0 → e.outRouted q = true →
      ∃ u, exec (.accrdToken h site q) s = .next u ∧ s.OnlyElem u h site ∧
        (u.elem h site).outQ q = (e.outQ q).push (.tok (accrdTok (m.acc x.acc) q (Tab.get x.sent 0 q)))) ∧
    (∀ x, m.wr = some x → x.since < s.cycle → q < 4 → Tab.get x.served 0 q < 31 → e.inPresent q = true → (e.inQ q).gone = 0 → (e.headTok q).tag = 0 →
      ∃ u w, exec (.accwrToken h site q) s = .next u ∧ s.OnlyElem u h site ∧ (u.elem h site).inQ q = (e.inQ q).pop ∧
        (u.elem h site).me.wr = some w ∧ Tab.get w.served 0 q = Tab.get x.served 0 q + 1 ∧
        Tab.get w.part 0 (4 * Tab.get x.served 0 q + q) = accwrWord (e.headTok q).data)

/-! ### Routers and copies (R38, R39, R250) -/

/-- R20, R38, R39: in a cycle the tokens that move are those of the largest set of sources all of whose lanes can accept; each leaves its
source and stands at every lane that selects it. In service mode a reserved tag that would enter an input queue stays where it is. -/
def Obligations.TokenCrossing : Prop :=
  ∀ (s : State) (first : Nat), s.routersMove first = true →
    let feeds := s.feeds first
    let offered := (feeds.map fun f => f.1).filter fun p => (s.spotHead p).isSome
    let lanesOf (p : Spot) : List Spot := (feeds.filter fun f => decide (f.1 = p)).flatMap fun f => f.2
    let can (l : List Spot) : Prop := ∀ p ∈ l, ∀ d ∈ lanesOf p, s.laneAccepts l d = true
    let bench := (s.region first).bench
    ∃ live : List Spot, (∀ p ∈ live, p ∈ offered) ∧ can live ∧ (∀ l, (∀ p ∈ l, p ∈ offered) → can l → ∀ p ∈ l, p ∈ live) ∧
      (let moved := live.filterMap fun p => (s.spotHead p).map fun x => (p, x)
       let left := moved.foldl (fun (t : State) m => t.leaveSpot m.1) s
       (bench = true ∨ ∀ p ∈ live, ∀ x, s.spotHead p = some x → badTag x = false) →
         exec (.tokenCrossing first) s =
           .next (moved.foldl (fun (t : State) m => (lanesOf m.1).foldl (fun (u : State) d => u.arriveLane d m.2) t) left)) ∧
      (bench = false → ∀ p ∈ live, ∀ x, s.spotHead p = some x → badTag x = true → (∃ d ∈ lanesOf p, (laneQueue d.2.2).isSome = true) →
        ∃ u, exec (.tokenCrossing first) s = .next u ∧ u.spotHead p = s.spotHead p)

/-! ### The market's rings (R326 to R330) -/

/-- R326: a command's status is written at bytes 4 to 7 of its entry, and the head moves past it, both at once where none of the device's
own accesses waits and their stacks let them in, and else behind those that wait (R380). R317, R318, R326 to R328, R330: the commands of
the market ring, each with the status it ends with. QCONF writes the descriptor of a queue that is empty and stopped, or disabled, and
answers 9 otherwise; QPUSH pushes the record, or answers 9, 4 (a record that is not aligned, the model's reading, log entry 35), 6 or 8;
QSTOP and QSTART stop and start the queue; QCHAIN starts a chain that its first block permits; QEXPERT writes an entry with its count
zeroed. A NOP with an operand that is not 0 ends with 3, which is the model's reading (log entry 80). A poll of a ring that holds a
command gives the command its turn (the turns are the model's, log entry 1). -/
def Obligations.QueueCommands : Prop :=
  (∀ (s : State) (status : Nat), s.MemOk → status < 2 ^ 32 →
    let own : Agent := { code := 10, unit := 15 }
    let ends (base : Nat) (u : State) : Prop :=
      let head := s.mem.readLE (base + 8) 8
      let entry := base + 64 + 32 * (head % 126)
      let first := s.devWrite marketAgent (entry + 4) (leBytes 4 status)
      (s.devQ = [] → (s.admitAll own [(entry + 4, 4)]).1 = true → (first.admitAll own [(base + 8, 8)]).1 = true →
        head + 1 < 2 ^ 64 → s.eccOf (entry + 4) 4 = [] → s.eccOf (base + 8) 8 = [] →
        u.mem.readLE (base + 8) 8 = head + 1 ∧ u.mem.readLE (entry + 4) 4 = status ∧ u.devQ = [] ∧
        ∀ a, (a < base + 8 ∨ base + 16 ≤ a) → (a < entry + 4 ∨ entry + 8 ≤ a) → u.mem.read a = s.mem.read a) ∧
      (s.devQ ≠ [] → u.mem = s.mem ∧
        u.devQ = s.devQ ++ [.write marketAgent (entry + 4) (leBytes 4 status), .write marketAgent (base + 8) (leBytes 8 (head + 1))])
    ends s.boot.mktRing.toNat (s.endQueue status) ∧ ends s.boot.xlRing.toNat (s.endXlat status)) ∧
  (∀ (s : State) (c : QCmd), s.boot.go = true →
    let q := c.queue.toNat
    let x := s.queue q
    let gives (i : Instr) (t : State) (status : Nat) : Prop := exec i s = .next (t.endQueue status)
    let zero : Prop := c.a = 0 ∧ c.b = 0 ∧ c.c = 0
    let polls (i : Instr) (base : Nat) (x : Turn) : Prop :=
      (s.devWaits base 4096 = false →
        (∀ b t, s.readPhys marketAgent base 16 = .ok b t → exec i s =
          .next (if leNat ((b.drop 8).take 8) < leNat (b.take 8) then { t with agenda := t.agenda ++ [x] } else t)) ∧
        (∀ t, s.readPhys marketAgent base 16 = .wait t → exec i s = .next t)) ∧
      (s.devWaits base 4096 = true → exec i s = .next s)
    (c.queue = 0 → zero → gives (.queueNop c) s 0) ∧ (c.a ≠ 0 → gives (.queueNop c) s 3) ∧
    (∀ y, (x.en = false ∨ (x.ents = [] ∧ x.stopped = true)) → qconfOf c.a c.b c.c = some y →
      gives (.qconf c) (s.setQueue q { y with popped := x.popped, rejected := x.rejected }) 0) ∧
    ((x.en = false ∨ (x.ents = [] ∧ x.stopped = true)) → qconfOf c.a c.b c.c = none → gives (.qconf c) s 3) ∧
    (x.en = true → ¬ (x.ents = [] ∧ x.stopped = true) → gives (.qconf c) s 9) ∧
    (s.market.ringFault = none → c.b = 0 → c.c = 0 →
      (x.conf = false → gives (.qpush c) s 9) ∧
      (x.conf = true → c.a.toNat % 64 ≠ 0 → gives (.qpush c) s 4) ∧
      (x.conf = true → c.a.toNat % 64 = 0 → s.descKnown x.ctx = true →
        (∀ t, s.pushRecord marketAgent x.ctx c.a = .pushed t → gives (.qpush c) t 0) ∧
        (∀ t, s.pushRecord marketAgent x.ctx c.a = .full t → gives (.qpush c) t 6) ∧
        (∀ t, s.pushRecord marketAgent x.ctx c.a = .otherCtx t → gives (.qpush c) t 8))) ∧
    (zero → gives (.qstop c) (s.setQueue q { x with stopped := true }) 0 ∧ gives (.qstart c) (s.setQueue q { x with stopped := false }) 0) ∧
    (s.market.ringFault = none → c.queue = 0 → c.c = 0 → c.b.toNat < 64 → c.a.toNat % 64 = 0 → s.descKnown c.b.toNat = true →
      ∀ b t, s.readVirt marketAgent c.b.toNat c.a.toNat 16 = .ok b t →
        (t.submitCause c.b.toNat none b = 0 → gives (.qchain c) (t.startChain c.b.toNat c.a) 0) ∧
        (t.submitCause c.b.toNat none b ≠ 0 → gives (.qchain c) t (t.submitCause c.b.toNat none b))) ∧
    (c.queue = 0 → c.a.extractLsb' 8 8 = 0 → c.a.extractLsb' 48 16 ≠ 0 → c.b.extractLsb' 0 6 = 0 → c.c = 0 →
      let y : Expert := ⟨c.a.extractLsb' 16 16, c.a.extractLsb' 32 16, c.a.extractLsb' 48 16, 0, c.b, s.cycle, false⟩
      ∃ t, gives (.qexpert c) t 0 ∧ Tab.get t.market.experts {} (c.a.toNat % 256) = y) ∧
    polls .marketRingPoll s.boot.mktRing.toNat .queueCmd ∧ polls .translationRingPoll s.boot.xlRing.toNat .xlatCmd)

/-! ### Command blocks (R329, R331 to R335) -/

/-- R329, R331: a block whose status is written ends; its chain goes on with the block it names next, and is over after the last one,
after causes 1 to 6 and 8, and where the status write gets an error response. R250, R251, R331 to R335: the blocks of a chain. LAUNCH
pushes its records in array order, or none and ends with 6; GANG pushes one entry of its records; LAUNCHI reads its count, clamped to its
capacity with 7; COPY copies as the carter does; BINIT writes a barrier and SIGNAL arrives at one; WAITB waits while the generation is the
one it names; STAGE attaches images to a record; PERSIST asks for a cut of every held-mode region of the context and waits for them; FENCE
ends. A block that ends by a refused fault on its own page has no status written, which is the model's reading (log entry 68). -/
def Obligations.ChainBlocks : Prop :=
  (∀ (s t u : State) (x : Chain) (next : W64) (cause pa : Nat),
    x.mute = false → s.translate marketAgent x.ctx (x.cur.toNat + 4) .store = .ok pa t → t.channelAfter pa = false →
    let others := u.market.chains.filter fun y => decide (y.id ≠ x.id)
    (t.writeBytesPhys marketAgent false pa (leBytes 4 cause) = .err u → (s.endBlock x next cause).market.chains = others ∧
      (s.endBlock x next cause).mem = u.mem) ∧
    (t.writeBytesPhys marketAgent false pa (leBytes 4 cause) = .ok () u →
    let isLast : Prop := next = 0 ∨ (1 ≤ cause ∧ cause ≤ 6) ∨ cause = 8
    (isLast → (s.endBlock x next cause).market.chains = others) ∧
    (¬ isLast → ∀ y ∈ u.market.chains, y.id = x.id →
      { id := x.id, ctx := x.ctx, cur := next } ∈ (s.endBlock x next cause).market.chains) ∧
    (s.endBlock x next cause).mem = u.mem)) ∧
  (∀ (s : State) (k : Nat) (b : Block) (x : Chain), s.boot.go = true → s.chainOf k = some x → x.fault = none → x.ended = none →
    let ends (i : Instr) (t : State) (cause : Nat) : Prop := exec i s = .next (t.endBlock x b.next cause)
    let high : Prop := b.p32 = 0 ∧ b.p40 = 0 ∧ b.p48 = 0 ∧ b.p56 = 0
    let push (t : State) (l : List (Nat × W64)) : State :=
      l.foldl (fun (u : State) p => u.append p.1 { addr := p.2, pushed := u.cycle, ctx := x.ctx }) t
    let room (t : State) (l : List (Nat × W64)) : Prop :=
      ∀ q, q < 64 → (∃ p ∈ l, p.1 = q) → (t.queue q).lacks (l.filter fun p => decide (p.1 = q)).length = false
    let aligned (v : W64) (n : Nat) : Prop := v.toNat % n = 0
    (∀ l t, high → b.p24.toNat ≤ 65535 → aligned b.p16 64 → s.pickQueues x.ctx b.p16.toNat b.p24.toNat 0 [] = .ok l t →
      (room t l → ends (.launchBlock k b) (push t l) 0) ∧ (¬ room t l → ends (.launchBlock k b) t 6)) ∧
    (∀ q v l t, high → b.p24 ≠ 0 → b.p24.toNat ≤ 256 → aligned b.p16 64 →
      s.pickQueues x.ctx b.p16.toNat b.p24.toNat 0 [] = .ok ((q, v) :: l) t → (t.queue q).lacks 1 = false →
      ends (.gangBlock k b)
        (t.append q { addr := v, pushed := t.cycle, ctx := x.ctx, gang := some (((q, v) :: l).map fun p => p.2) }) 0) ∧
    (b.p24.toNat < 2 ^ 32 → aligned b.p32 8 → aligned b.p40 32 → b.p48.toNat < 2 ^ 16 → b.p56 = 0 → aligned b.p16 64 →
      let pushes (v : State) (y : Chain) (n : Nat) : Prop :=
        ∀ l u, v.pickQueues x.ctx b.p16.toNat (Nat.min n b.p24.toNat) 0 [] = .ok l u → room u l →
          exec (.launchiBlock k b) s = .next ((push u l).endBlock y b.next (if b.p24.toNat < n then 7 else 0))
      let counts (v : State) : Prop :=
        ∀ w t, v.readVirt marketAgent x.ctx b.p32.toNat 8 = .ok w t →
          let y := { x with ready := true, count := some (leNat w % 2 ^ 32) }
          pushes (t.setChain y) y (leNat w % 2 ^ 32)
      (∀ n, x.count = some n → pushes s x n) ∧
      (x.count = none → b.p40 = 0 ∨ x.ready = true → counts s) ∧
      (x.count = none → b.p40 ≠ 0 → x.ready = false → ∀ w t, s.readVirt marketAgent x.ctx b.p40.toNat 8 = .ok w t →
        (leNat w / 2 ^ 32 % 2 ^ 16 = b.p48.toNat → exec (.launchiBlock k b) s = .next t) ∧
        (leNat w / 2 ^ 32 % 2 ^ 16 ≠ b.p48.toNat → counts (t.setChain { x with ready := true })))) ∧
    (x.copy = none → b.p48 = 0 → b.p56 = 0 → b.p32.toNat < 2 ^ 40 → aligned b.p40 32 → ∃ r, r.cmd.src = b.p16 ∧ r.cmd.dst = b.p24 ∧
      r.cmd.size = b.p32.toNat ∧ r.cmd.comp = b.p40 ∧ r.off = 0 ∧ r.finished = decide (b.p32 = 0) ∧
      exec (.copyBlock k b) s = .next (s.setChain { x with copy := some r })) ∧
    (∀ r y t, x.copy = some r → r.fault = none → r.finished = false →
      s.granuleStep marketAgent x.ctx r (fun _ _ => false) State.channelAfter = .next y t → exec (.copyBlock k b) s = .next (t.setChain { x with copy := some y })) ∧
    (∀ r, x.copy = some r → r.fault = none → r.finished = true → r.cmd.comp = 0 → ends (.copyBlock k b) s 0) ∧
    (∀ pa t u old, high → aligned b.p16 32 → s.translate marketAgent x.ctx b.p16.toNat .atomic = .ok pa t →
      t.channelAfter pa = false → t.barrierPhys marketAgent (some x.ctx) pa true b.p24 0 = .ok old u → ends (.signal k b) u 0) ∧
    (∀ pa t u old, b.p40 = 0 → b.p48 = 0 → b.p56 = 0 → aligned b.p16 32 → b.p24 ≠ 0 → b.p24.toNat ≤ 65535 →
      s.translate marketAgent x.ctx b.p16.toNat .atomic = .ok pa t → t.channelAfter pa = false →
      let bar : Bar := { gen := 0, arrived := 0, expected := b.p24.toNat, count := 0, status := 0, link := b.p32 }
      (t.atomicPhys marketAgent pa 32 (.binit b.p24 b.p32) fun _ => some bar.toBytes) = .ok old u → ends (.binitBlock k b) u 0) ∧
    (∀ w t, high → aligned b.p16 32 → b.p24.toNat < 2 ^ 16 → s.readVirt marketAgent x.ctx b.p16.toNat 8 = .ok w t →
      (leNat w / 2 ^ 32 % 2 ^ 16 ≠ b.p24.toNat → ends (.waitb k b) t 0) ∧
      (leNat w / 2 ^ 32 % 2 ^ 16 = b.p24.toNat → exec (.waitb k b) s = .next t)) ∧
    (aligned b.p16 64 → b.p56 = 0 → ∃ t : State, ends (.stage k b) t 0 ∧ t.mem = s.mem ∧
      (x.ctx, b.p16, [b.p24, b.p32, b.p40, b.p48]) ∈ t.market.staged) ∧
    (high → b.p16 = 0 → b.p24 = 0 → ends (.fenceBlock k b) s 0) ∧
    (high → b.p16 = 0 → b.p24 = 0 → x.persist = none →
      let fs := (s.regionsOf x.ctx).filter fun f => s.heldMode f
      exec (.persist k b) s = .next ((fs.foldl (fun (t : State) f => t.askCut f (t.ham f).capR.isSome) s).setChain
        { x with persist := some (fs.map fun f => (f, (s.region f).coverCut (s.ham f).capR.isSome)) })) ∧
    (∀ l, high → b.p16 = 0 → b.p24 = 0 → x.persist = some l →
      ((∀ p ∈ l, p.2 < (s.ham p.1).cutSeq ∨ s.heldMode p.1 = false) → ends (.persist k b) s 0) ∧
      ((∃ p ∈ l, (s.ham p.1).cutSeq ≤ p.2 ∧ s.heldMode p.1 = true) → exec (.persist k b) s = .next s)))

/-! ### Translation commands and walks (R342, R347 to R353) -/

/-- R342, R345 to R353: the commands of the translation ring. An invalidation drops the entries it names, and ends once the accesses
translated before it have been performed; INVCTX reads the descriptor again, and kills the context where it is invalid; RESOLVE and
REFUSE answer an outstanding fault, and end with 4 where there is none; RELEASE frees a hamlet that runs no task at once, and ends a task; that
its status is then written when the task has ended, or waits on a fault, is the model's reading (log entry 32). A walk of a page that
may be accessed fills the caches and one that faults is reported. -/
def Obligations.TranslationCommands : Prop :=
  ∀ (s : State) (c : XCmd), s.boot.go = true →
    let k := c.ctx.toNat
    let gives (i : Instr) (t : State) (status : Nat) : Prop := exec i s = .next (t.endXlat status)
    let drops (i : Instr) (f : Tlb → Bool) : Prop := s.market.invWait = none →
      let t := (s.dropTlb fun e => decide (e.ctx = k) && f e).markOld k false
      (∀ e, e ∈ t.market.tlb ↔ e ∈ s.market.tlb ∧ ¬ (e.ctx = k ∧ f e = true)) ∧
      (∀ w, t.market.invWait = some w → t.oldDone w = true → gives i t 0) ∧
      (∀ w, t.market.invWait = some w → t.oldDone w = false → exec i s = .next t)
    let lo := c.a.toNat
    let hi := lo + 4096 * c.b.toNat
    (c.a = 0 → c.b = 0 → c.c = 0 → gives (.xlateNop c) s 0) ∧
    (lo % 4096 = 0 → c.b ≠ 0 → c.b.toNat ≤ 2 ^ 20 → c.c.toNat < 2 ^ 17 →
      drops (.invva c) fun e => decide (e.va < hi ∧ lo < e.va + e.size) && (e.glob || c.c.getLsbD 16 || decide (e.asid = c.c.toNat % 2 ^ 16))) ∧
    (c.a = 0 → c.b = 0 → c.c.toNat < 2 ^ 16 → drops (.invasid c) fun e => e.glob || decide (e.asid = c.c.toNat)) ∧
    (c.a = 0 → c.b = 0 → c.c = 0 → s.market.invWait = none →
      let d := ((s.dropTlb fun e => decide (e.ctx = k)).dropRanges k).readDesc k
      (∀ t, d = .ok () t → ∃ u, (∀ e ∈ u.market.tlb, e.ctx ≠ k) ∧ u.market.desc = t.market.desc ∧
        (exec (.invctx c) s = .next u ∨ gives (.invctx c) u 0)) ∧
      (∀ t, d = .err t → ∃ u, exec (.invctx c) s = .next u ∧ u.market.invWait = some { ctx := k, held := [], kill := true }) ∧
      (∀ t, d = .wait t → exec (.invctx c) s = .next t)) ∧
    (c.b = 0 → c.c = 0 → lo < 2 ^ 32 →
      (s.faultOpen k lo = true → gives (.resolve c) (s.answerFault k lo true) 0 ∧ gives (.refuse c) (s.answerFault k lo false) 0) ∧
      (s.faultOpen k lo = false → gives (.resolve c) s 4 ∧ gives (.refuse c) s 4)) ∧
    (lo < 256 → c.b = 0 → c.c = 0 → s.market.invWait = none →
      (∀ t, s.readDesc k = .ok () t → (t.ham lo).ctx = some k →
        ((t.ham lo).region = none → gives (.release c) (t.freeHam lo none) 0) ∧
        (∀ f, (t.ham lo).region = some f → let u := t.releaseTask f
          exec (.release c) s =
            .next { u with market := { u.market with invWait := some { ctx := k, held := [], release := some f } } })) ∧
      (∀ t, s.readDesc k = .ok () t → (t.ham lo).ctx ≠ some k → gives (.release c) t 5) ∧
      (∀ t, s.readDesc k = .err t → gives (.release c) t 5)) ∧
    (∀ w f, s.market.invWait = some w → w.release = some f →
      (s.releaseDone w.ctx f = true → gives (.release c) s 0) ∧ (s.releaseDone w.ctx f = false → exec (.release c) s = .next s)) ∧
    (∀ (h acc : Nat) (va : W64), let w : Want := if acc = 0 then .load else if acc = 1 then .store else .atomic
      let id := CoreId.reeve h
      (∀ pa t, s.translate (s.coreAgent id) (s.coreCtx id) va.toNat w = .ok pa t → exec (.pageWalk h va acc) s = .next t) ∧
      (∀ v t, s.translate (s.coreAgent id) (s.coreCtx id) va.toNat w = .fault v t →
        exec (.pageWalk h va acc) s = .next (t.reportFault (t.coreAgent id) (s.coreCtx id) va.toNat w v).2))

/-! ### The market's own operations (R306, R319 to R323, R328, R350, R397) -/

/-- R306, R319, R320, R323, R328, R350, R397: a head is read and checked when it reaches the front of its queue; a decision serves the
first queue of the top effective priority whose context R320 picks, and the placed head spends a credit; a dispatch starts every reeve of
the region at the record's code; an expert entry's count returns to 0 at the end of its window; a held push and a held event record are
tried again, behind the device's other accesses (R380), and it is written in the ring before the tail; a kill ends, logged and reported,
when every region is released, nothing is outstanding and no delivery is owed. That a dispatch reads the staged images first, the detail 4
of the kill's log entry and the cause and the free address of its event are the model's (log entries 2, 38 and 11). -/
def Obligations.MarketEvents : Prop :=
  ∀ (s : State), s.boot.go = true →
    (∀ q e rest, (s.queue q).ents = e :: rest → e.body = none → e.fault = none → e.slot = none → s.descKnown e.ctx = true →
      (∀ b t, s.popRecords e.ctx e.records [] = .ok b t → exec (.popRead q) s = .next (t.setHead q { e with body := some b })) ∧
      (∀ v t, s.popRecords e.ctx e.records [] = .bad v t → exec (.popRead q) s = .next (t.rejectHead q v true))) ∧
    (∀ c v rest b x t, s.copyRead marketAgent c [(v.toNat, 64)] [] = .ok x t →
      s.popRecords c (v :: rest) b = if t.recordOk c x then t.popRecords c rest (b ++ x) else .bad v t) ∧
    (let s1 := s.freshReservation
     let cand := (List.range 64).filter fun q => (s1.headOf q).isSome
     let top := cand.foldl (fun (a : Nat) q => Nat.max a (s1.headPrio q)) 0
     let t := cand.filter fun q => decide (s1.headPrio q = top)
     (cand = [] → exec .marketDecision s = .next s1.updateOffers) ∧
     (∀ c s2 q e b u, s1.pickContext t = (some c, s2) → t.find? (fun q => decide ((s1.queue q).ctx = c)) = some q → s2.headOf q = some (e, b) →
       s2.tryHead q e b = .placed u → exec .marketDecision s = .next ((u.spendCredit c).updateOffers))) ∧
    (∀ first t images s0, let r := s.region first
      r.task = some t → r.placed = true → r.frozen = false → r.resume = false → s.readsBack first = false → s.stageReads first r.ctx t.record = .ok images s0 →
      ∃ u, exec (.dispatch first) s = .next u ∧ (u.region first).placed = false ∧ (u.region first).cutAgain = true ∧
        ∀ h ∈ r.hamlets first, let y := (u.ham h).reeve
          y.run = .running ∧ y.pc = BitVec.ofNat 64 (s0.descField r.ctx 8 8) + BitVec.ofNat 64 (recField t.body 0 8) ∧ y.ctx = r.ctx ∧
          y.arenaBase = BitVec.ofNat 64 (s0.descField r.ctx 8 8) ∧ y.arenaBound = BitVec.ofNat 64 (s0.descField r.ctx 16 8) ∧
          Tab.get y.g 0 1 = BitVec.ofNat 64 (recField t.body 8 8) ∧ Tab.get y.g 0 2 = t.record) ∧
    (∀ e, let x := Tab.get s.market.experts {} e
      x.start + 1100 * x.window.toNat ≤ s.cycle → ∃ u, exec (.expertWindowEnd e) s = .next u ∧
        Tab.get u.market.experts {} e = { x with count := 0, start := s.cycle, fired := false } ∧ u.mem = s.mem) ∧
    (∀ l, s.market.links = [l] → s.market.killing.contains l.ctx = false → l.fault = none → s.descKnown l.ctx = true →
      exec .linkPushRetry s = .next (({ s with market := { s.market with links := [] } } : State).tryLink l)) ∧
    (∀ c r rest, Tab.get s.market.evHeld [] c = r :: rest →
      (s.eventFull c = false → s.eventOnWay c = false → let t := s.setEvents c rest
        exec (.eventRecordRetry c) s = .next (t.devPost (.event c r true)) ∧
        (s.devQ ≠ [] → t.devPost (.event c r true) = { t with devQ := s.devQ ++ [.event c r true] })) ∧
      (s.eventFull c = true ∨ s.eventOnWay c = true → exec (.eventRecordRetry c) s = .next s)) ∧
    (∀ c r, let base := s.descField c 88 8
      let tail := s.mem.readLE base 8
      let at' := base + 64 + 32 * (tail % 126)
      s.eccOf base 16 = [] → s.eccOf at' 32 = [] →
      (s.eventPut c r).mem = (s.mem.writeCells (cellsAt at' r.bytes)).writeCells (cellsAt base (leBytes 8 (tail + 1)))) ∧
    (∀ c, s.market.killing.contains c = true → s.market.descBad.contains c = false → (∀ o ∈ s.market.owed, o.ctx ≠ c) →
      (∀ f ∈ s.regionsOf c, (s.region f).st = .empty ∧ s.noneOutstanding f = true) →
      let s1 := (s.regionsOf c).foldl (fun (t : State) f => t.freeRegion f) s
      let m := { s1.market with
        killing := s1.market.killing.filter fun k => decide (k ≠ c)
        dead := if s1.market.dead.contains c then s1.market.dead else s1.market.dead ++ [c] }
      let log : LogRec := { kind := 11, agent := 6, ctx := some c, detail := 4 }
      exec (.killComplete c) s = .next ((({ s1 with market := m } : State).logErr log).eventFree c { va := 0, cause := 6, agent := 3 }))

/-! ### The shadow layer (R356 to R370) -/

/-- R358, R359, R361, R362: a region's cut begins when its interval expires; an expiry during a cut is dropped; each agent is captured at
its record point and marked as recorded, and a write held for the cut is performed, or deferred, after it; the cut completes when every
item is recorded, with cut_seq one past its number in every hamlet; one not complete 4,096 cycles after its start stops its region, and is
taken as a stopped cut. No byte of memory changes, where the greens that it reads hold no failed cell to log (R386). R364, R367, R376: the
oldest held entry not yet sent, once its cut is complete and no entry that has to be performed before it is still under way, is performed
at its target; the oldest that its target has acknowledged is freed, and a reeve's response is written to its register, or a trap is taken
at its instruction (R238); a write into another region's green waits for the record points of that region's cut (R361); the release index
stands at the oldest entry left and what is freed beyond it is kept beside it (log entry 72); a recorded token is delivered into its input
queue as room allows. -/
def Obligations.CutsAndHeldEntries : Prop :=
  (∀ (s : State) (f : Nat),
    let r := s.region f
    (r.cut = none → r.stopping = none → r.pre = false → r.task ≠ none → r.fallow = none → r.frozen = false → r.placed = false →
      r.lastCutStart < s.cycle → (s.cycle - r.lastCutStart) % (s.ham f).reeve.shadowIval.toNat = 0 →
      ∃ u, exec (.shadowIntervalExpiry f) s = .next u ∧ u.mem = s.mem ∧ (u.region f).nextSeq = r.nextSeq + 1 ∧
        (u.region f).cut = some { seq := r.nextSeq, start := s.cycle }) ∧
    (r.cut ≠ none → exec (.shadowIntervalExpiry f) s = .next s) ∧
    (∀ h c, s.regionOf h = some (f, r) → r.cut = some c → c.stopped = false → r.frozen = false →
      let x := s.ham h
      let same (u : State) : Prop := (∀ g ∈ r.hamlets f, s.eccOf (greenPa g 0) 0x200000 = []) → u.mem = s.mem
      (∀ i, i < 64 → (s.elem h i).recorded = false → s.atRecordPoint h i = true → ∃ u, exec (.elementRecord h i) s = .next u ∧ same u ∧
        Tab.get (u.ham h).capE {} i = (s.elem h i).capture ∧
        u.elem h i = { (s.elem h i).record (BitVec.ofNat 32 c.seq) with sendQ := (s.elem h i).sendQ.map (SpeReq.behind c.seq) }) ∧
      (x.capR = none → x.reeve.storeBuf = [] → ∃ u, exec (.elementRecord h 64) s = .next u ∧ same u ∧
        (u.ham h).capR = some (x.recordReeve c.seq).1.beforeMark ∧ (u.ham h).reeve = { (x.recordReeve c.seq).2.reeve with evMark := none }) ∧
      (x.capC = none → ∃ u, exec (.elementRecord h 65) s = .next u ∧ same u ∧ (u.ham h).capC = some x.carter.notIssued)) ∧
    (∀ h q rest t, (s.ham h).afterQ = q :: rest → (q.kind.writes = true → s.afterWait (some q.srcH) (q.isAfter s) h = false) →
      (s.setHam h { s.ham h with afterQ := rest }).serve q = (true, t) → exec (.afterWritePerform h) s = .next t) ∧
    (∀ h q rest, (s.ham h).afterQ = q :: rest → q.kind.writes = true → s.afterWait (some q.srcH) (q.isAfter s) h = true →
      exec (.afterWritePerform h) s = .next s) ∧
    (∀ c, r.cut = some c → c.stopped = false → r.frozen = false → s.recordCount f = 0 → (∀ h ∈ r.hamlets f, (s.ham h).cutReady = true) →
      ∃ u, exec (.cutComplete f) s = .next u ∧ u.mem = s.mem ∧ (u.region f).cut = none ∧ ∀ h ∈ r.hamlets f, (u.ham h).cutSeq = c.seq + 1) ∧
    (∀ c, r.cut = some c → c.start + 4096 ≤ s.cycle → r.frozen = false →
      let t := s.setRegion f { r with cut := some { c with stopped := true } }
      (t.quiescent f = true → exec (.stoppedCutTimeout f) s = .next (t.stoppedCut f)) ∧
      (t.quiescent f = false → exec (.stoppedCutTimeout f) s = .next t))) ∧
  (∀ (s : State) (h : Nat),
    let x := s.ham h
    (∀ e code site c cells t, x.held.find? (fun e => !e.sent && decide (e.tag < x.cutSeq)) = some e → e.fault = none →
      (∀ p, s.regionOf h = some p → p.2.frozen = false ∧ p.2.fallow = none) →
      (∀ d ∈ x.held, d.sent = true → d.done = false → d.idx < e.idx → d.before e = false) → e.op = .write code site (c :: cells) →
      let a : Agent := { code := code, ctx := x.ctx, ham := some h, site := site, unit := 8, posted := decide (code = 3) }
      let base := c.1 - c.1 % 32
      (s.agentAfter a base = false → s.writePhys a false base 32 (c :: cells) = .ok () t →
        ∃ u, exec (.heldEntrySend h) s = .next u ∧ u.mem = t.mem ∧ ∀ y ∈ (u.ham h).held, y.idx = e.idx → y.sent = true ∧ y.done = true) ∧
      (s.agentAfter a base = true → exec (.heldEntrySend h) s = .next s)) ∧
    (∀ i, let y := x.freeEntry i
      y.held = x.held.filter (fun e => decide (e.idx ≠ i)) ∧ y.relIdx = (match y.held with | e :: _ => e.idx | [] => x.heldNext) ∧
        ∀ k, k ∈ y.released ↔ (k ∈ x.released ∨ k = i) ∧ y.relIdx ≤ k) ∧
    (∀ e code site cells, x.held.find? (fun e => e.sent && e.done) = some e → e.op = .write code site cells →
      exec (.heldEntryAck h) s = .next (s.setHam h (x.freeEntry e.idx))) ∧
    (∀ e q d, x.held.find? (fun e => e.sent && e.done) = some e → e.op = .reeve q → x.reeve.run = .heldWait e.idx d →
      let t := s.setHam h { x.freeEntry e.idx with kept := x.kept ++ [(e.idx, e.op, e.ret)] }
      (∀ v, e.ret = .value v → exec (.heldEntryAck h) s = .next (t.setCore (.reeve h) { x.reeve.setReg d v with run := .running })) ∧
      (∀ k v, e.ret = .trap k v → exec (.heldEntryAck h) s =
        .next ((t.setCore (.reeve h) { x.reeve with pc := x.reeve.pc - 4, instret := x.reeve.instret - 1, run := .running }).takeTrap (.reeve h) k v false))) ∧
    (∀ site q t rest, let e := s.elem h site
      Tab.get e.replayIn [] q = t :: rest → s.hamletRuns h = true → (e.inQ q).occ < e.depthOf q →
      ∃ u, exec (.channelStateReplay h site q) s = .next u ∧ s.OnlyElem u h site ∧ (u.elem h site).inQ q = (e.inQ q).push t ∧
        (rest ≠ [] → Tab.get (u.elem h site).replayIn [] q = rest)))

/-- R302, R353, R368, R369: a pre-emption asks every engine of the gang to stop; an engine at its stop point acknowledges, and a gather that
waits on a fault is recorded as not issued; when all have, the
region takes a stopped cut, and once its held entries are gone, and where no hamlet of it holds two parked contexts (R355), the context is
parked, its entry at the front of its queue. -/
def Obligations.Preemption : Prop :=
  ∀ (s : State) (f : Nat),
    let r := s.region f
    (s.gangOf f = [f] → r.mayPreempt = true → ∃ u, exec (.preemption f) s = .next u ∧ u.mem = s.mem ∧ (u.region f).pre = true ∧
      ∀ h ∈ r.hamlets f, (u.ham h).acks = []) ∧
    (∀ h i, s.regionOf h = some (f, r) → r.pre = true → r.placed = false → r.preCut = false → r.frozen = false → r.fallow = none → i < 66 →
      (s.ham h).acks.contains i = false → s.atStopPoint h i = true →
      (64 ≤ i ∨ siteKind i ≠ .se → exec (.engineStopAck h i) s = .next (s.setHam h { s.ham h with acks := (s.ham h).acks ++ [i] })) ∧
      (i < 64 → siteKind i = .se → ∃ u, exec (.engineStopAck h i) s = .next u ∧ u.mem = s.mem ∧ (u.ham h).acks = (s.ham h).acks ++ [i] ∧
        (∀ j, j ≠ i → u.elem h j = s.elem h j) ∧ ∀ k, u.stream h i k =
          if (s.stream h i k).fault.isSome then { s.stream h i k with gather := none } else s.stream h i k)) ∧
    ((∀ g ∈ s.gangOf f, s.engineStopped g = true) →
      (s.gangOf f = [f] → r.preCut = false → let u := s.stoppedCut f
        exec (.contextSaved f) s = .next (u.setRegion f { u.region f with preCut := true })) ∧
      ((∀ g ∈ s.gangOf f, (s.region g).preCut = true ∧ ∀ h ∈ (s.region g).hamlets g, (s.ham h).held = []) →
        s.parkedFull (s.gangOf f) = [] → exec (.contextSaved f) s = .next (s.parkGang (s.gangOf f))))

/-- R371 to R375: a spill writes a granule of 4 KiB at its offset and the frame's header last, which frees the slot; a frame is read
back, its header first and then a granule at a time, and an error response stops either; of the energy that a parish's regulator reports for
an interval each hamlet's share is taken from the balance of the metered context that holds it, and a context whose balance is then 0 or
below is pre-empted; a refill adds one refill, up to one. That intervals are counted from cycle 0, and that a share which is no whole number
is one of the two whole numbers beside it, are the model's readings (log entries 40 and 37); the bytes of a frame's body are not stated by
the spec (log entry 11). That the slot which a read-back fills takes the snapshot kept beside the frame is the model's choice and no rule's
words: the bytes in memory are no source of it (log entry 44). -/
def Obligations.SpillAndEnergy : Prop :=
  ∀ (s : State) (h : Nat),
    (∀ p t, (s.ham h).spill = some p → p.stopped = false → p.fault = none → s.spillRuns h = true →
      let a := spillAgent p.ctx h
      let snap := ((s.ham h).slot p.slot).snap
      let body := (List.range 4096).map fun i => Config.spillBody snap.hdr.seq (p.off + i)
      let frame := s.frameAddr p.ctx h p.slot
      let room (n : Nat) : Prop := 0x400000 * (4 * h + p.slot) + n ≤ s.descField p.ctx 80 8
      let line := (p.off - 64) / 256
      (p.off < 64 + slotBytes → room (p.off + 4096) → (∀ l, ((s.ham h).slot p.slot).bad = some l → l < line ∨ line + 16 ≤ l) →
        (s.readLines h p.slot line 16).copyWrite a p.ctx (pagePieces (frame + p.off) 4096) body = .ok [] t → ∃ u, exec (.spillGranule h) s = .next u ∧ u.mem = t.mem ∧
          (u.ham h).spill = some { p with off := p.off + 4096 }) ∧
      (64 + slotBytes ≤ p.off → room snap.hdr.bytes64.length →
        s.copyWrite a p.ctx (pagePieces frame snap.hdr.bytes64.length) snap.hdr.bytes64 = .ok [] t →
        ∃ u, exec (.spillHeaderWrite h) s = .next u ∧ u.mem = t.mem ∧ (u.ham h).spill = none ∧ (u.ham h).slot p.slot = {})) ∧
    (∀ c f r k b t, s.regionOf h = some (k, r) → (s.ham h).frames.find? (fun f => decide (f.ctx = c) && f.isOf r) = some f → r.placed = true →
      r.resume = true → s.spillRuns h = true → f.fault = none → f.stopped = false →
      s.copyRead (spillAgent c h) c (pagePieces (s.frameAddr c h f.slot + f.off) (if f.off = 0 then 64 else 4096)) [] = .ok b t →
      (∀ n l, f.off = 0 → frameValid b c f.seq = true → (t.ham h).openSlots = n :: l → ∃ u, exec (.spillReadBack h c) s = .next u ∧
        { f with off := 64, fills := some n } ∈ (u.ham h).frames ∧ ((u.ham h).slot n).use = .parked t.cycle ∧ ((u.ham h).slot n).ctx = c) ∧
      (f.off ≠ 0 → f.off + 4096 < 64 + slotBytes → ∃ u, exec (.spillReadBack h c) s = .next u ∧
        { f with off := f.off + 4096 } ∈ (u.ham h).frames) ∧
      (∀ n, f.off ≠ 0 → 64 + slotBytes ≤ f.off + 4096 → f.fills = some n → ∃ u, exec (.spillReadBack h c) s = .next u ∧
        (u.ham h).slot n = { use := .parked t.cycle, ctx := c, snap := f.snap } ∧ f ∉ (u.ham h).frames)) ∧
    (∀ r i, let total := ((List.range 8).map fun k => r.activity.getD k 0).sum
      let num := r.still * total + 8 * r.dynamic * r.activity.getD i 0
      (total ≠ 0 → num % (8 * total) = 0 → energyShare r i s = (num / (8 * total), s)) ∧
      (total ≠ 0 → (energyShare r i s).1 = num / (8 * total) ∨ (energyShare r i s).1 = num / (8 * total) + 1)) ∧
    (∀ l : List EnergyReport, let total (r : EnergyReport) : Nat := ((List.range 8).map fun k => r.activity.getD k 0).sum
      let num (r : EnergyReport) (i : Nat) : Nat := r.still * total r + 8 * r.dynamic * r.activity.getD i 0
      let used (c : Nat) : Nat := ((l.zipIdx.flatMap fun p => (List.range 8).map fun i => (p.2, i, p.1)).map fun x =>
        if (s.ham (8 * x.1 + x.2.1)).ctx = some c then num x.2.2 x.2.1 / (8 * total x.2.2) else 0).sum
      (s.cycle + 1) % 1100 = 0 → (∀ r ∈ l, total r ≠ 0 ∧ ∀ i, i < 8 → num r i % (8 * total r) = 0) →
      ∃ u, exec (.energyUpdate l) s = .next u ∧ u.mem = s.mem ∧
        (∀ c, Tab.get u.market.balance 0 c = Tab.get s.market.balance 0 c - (if s.refillOf c = 0 then 0 else Int.ofNat (used c))) ∧
        ((∀ p ∈ s.regions, s.refillOf (s.region p.1).ctx = 0 ∨ 0 < Tab.get u.market.balance 0 (s.region p.1).ctx) → u.regions = s.regions) ∧
        (∀ p ∈ s.regions, let r := s.region p.1
          s.refillOf r.ctx ≠ 0 → Tab.get u.market.balance 0 r.ctx ≤ 0 → s.gangOf p.1 = [p.1] → r.mayPreempt = true →
          (u.region p.1).pre = true)) ∧
    (∀ l, (s.cycle + 1) % 1100 ≠ 0 → exec (.energyUpdate l) s = .next { s with again := true }) ∧
    (∀ c, s.refillOf c ≠ 0 → let n : Int := s.refillOf c
      ∃ u, exec (.quotaRefill c) s = .next u ∧ Tab.get u.market.balance 0 c = min (Tab.get s.market.balance 0 c + n) n ∧ u.mem = s.mem)

/-! ### Power loss and recovery (R365, R366, R377, R387, R390, R391) -/

/-- R365, R366, R377, R387, R391: a warning of a quadrant's rail freezes the regions of the quadrant and takes the power of its hamlets, and
one of another rail turns the device off (the numbers of the rails are the model's, log entry 45); the return of the power restores each
affected region from its newest valid cut, to act once its image is read again, or kills its context; one whose context is killed already is
not restored (R397); hamlet state that cannot be corrected is handled as a power loss of the region
and logged, and in a hamlet without a region it is logged alone (log entry 45); a read of the granary crosses the vertical bus, and a transfer
delivers its 512 bytes at the first attempt without a parity error, or an error response where their cells cannot be corrected (R386), and
maps the lanes that failed four to spares (the lane that the log names is the model's reading, log entry 41). R395, R396: a region in fallow is
released, empty, once its headcount is zero and nothing of it is outstanding; 4,096 cycles after its boundary its queues and lane registers
are cleared first. -/
def Obligations.RecoveryAndContainment : Prop :=
  (∀ (s : State) (d : Nat),
    (d < 8 → ∃ u, exec (.supplyWarning d) s = .next u ∧ u.mem = s.mem ∧ d ∈ u.darkQuads ∧ u.off = s.off ∧
      (∀ i, i < 32 → (u.ham (32 * d + i)).powered = false) ∧ ∀ f ∈ s.quadRegions d, (u.region f).frozen = true ∧ (u.region f).cut = none) ∧
    (8 ≤ d → ∃ u, exec (.supplyWarning d) s = .next u ∧ u.off = true ∧
      ((∀ p ∈ s.hamlets, ∀ e ∈ p.2.held, e.sent = true → e.done = true → ∀ k v, e.ret ≠ .trap k v) → u.mem = s.mem)) ∧
    (d < 8 → s.quadRegions d = [] → ∃ u, exec (.powerReturn d) s = .next u ∧ u.mem = s.mem ∧ u.darkQuads = s.darkQuads.erase d ∧
      ∀ i, i < 32 → (u.ham (32 * d + i)).powered = true) ∧
    (∀ f, d < 8 → s.quadRegions d = [f] → (s.region f).frozen = true → (s.region f).reload = false → exec (.powerReturn d) s =
      .next ((({ s.powerQuad d true with darkQuads := s.darkQuads.erase d } : State).recover f).2)) ∧
    (8 ≤ d → s.regions = [] → exec (.powerReturn d) s = .next { s with off := false }) ∧
    (∀ f, let r := s.region f
      (r.placed = true → s.recover f = (none, s.setRegion f { r with frozen := false })) ∧
      (r.placed = false → r.killed = true → ∃ u, s.recover f = (none, u) ∧ u.mem = s.mem ∧ u.region f = { r with frozen := false } ∧
        ∀ h ∈ r.hamlets f, (u.ham h).elems = [] ∧ (u.ham h).held = [] ∧ (u.ham h).reeve.run = .idle) ∧
      (r.placed = false → r.killed = false →
        let s0 := (r.hamlets f).foldl (fun (t : State) h => t.readBanks h) s
        (∀ n, s.commonCut f = some n → (r.free = false ∨ r.idem = true) → r.pre = false →
          let t := (s0.loseRequests f).restoreRegion f n
          s.recover f = (some n, if (t.region f).st = .armed then t.setRegion f { t.region f with frozen := true, reload := true } else t)) ∧
        (s.commonCut f = none ∨ (r.free = true ∧ r.idem = false) → s.recover f = (none, s0.killContext r.ctx true)))) ∧
    (∀ h site, s.regionOf h = none → exec (.uncorrectableHamletState h site) s =
      .next (s.logIn .array { kind := 3, ctx := (s.ham h).ctx, ham := h, site := site, extra := 2 ^ 64 - 1 })) ∧
    (∀ h site f r n t, s.regionOf h = some (f, r) → (s.freeze f).recover f = (some n, t) → exec (.uncorrectableHamletState h site) s =
      .next (t.logIn .array { kind := 3, ctx := some r.ctx, ham := h, site := site, extra := n })) ∧
    (∀ a q off pa n, placeOf pa = .granary q off → (s.letIn a pa n).1 = true → let w := (s.letIn a pa n).2.busCross q off n
      (w.1 = true → s.readPhys a pa n = w.2.arrayRead a pa n) ∧ (w.1 = false → s.readPhys a pa n = .err w.2)) ∧
    (∀ q off bad, let pa := granaryBase + q * 0x20000000 + off / 512 * 512
      (bad = [] → s.eccOf pa 512 = [] → exec (.verticalBusTransfer q off bad) s = .next { s with out := s.out ++ [.reply true (s.mem.readBytes pa 512)] }) ∧
      (∀ sec, bad = [] → (sec, CellErr.many) ∈ s.eccOf pa 512 → ∃ u, exec (.verticalBusTransfer q off bad) s = .next u ∧ u.out = s.out ++ [.reply false []]) ∧
      (∀ l m rest, bad = (l :: m) :: [] :: rest → s.eccOf pa 512 = [] → ∃ u, exec (.verticalBusTransfer q off bad) s = .next u ∧
        u.out = s.out ++ [.reply true ((s.logIn .bus { addr := pa, kind := 1, detail := busDetail l (off / 512 % 64) 2, extra := q }).mem.readBytes pa 512)]) ∧
      (∀ b0 b1 b2 l, b0 ≠ [] → b1 ≠ [] → b2 ≠ [] → bad = [b0, b1, b2, [l]] → let used := Tab.get (s.quad q).spares [] (off / 512 % 64)
        (used.length < 4 → ∃ u, exec (.verticalBusTransfer q off bad) s = .next u ∧
          Tab.get (u.quad q).spares [] (off / 512 % 64) = used ++ [l] ∧ u.out.length = s.out.length + 1) ∧
        (4 ≤ used.length → ∃ u, exec (.verticalBusTransfer q off bad) s = .next u ∧ u.out = s.out ++ [.reply false []])))) ∧
  (∀ (s : State) (f : Nat), (s.region f).fallow ≠ none →
    (s.headcount f = 0 → s.noneOutstanding f = true → ∃ u, exec (.regionRelease f) s = .next u ∧ u.mem = s.mem ∧ (u.region f).st = .empty ∧
      (u.region f).fallow = none) ∧
    (∀ t, (s.region f).fallow = some t → t + 4096 ≤ s.cycle → s.headcount f ≠ 0 → ∃ u, exec (.fallowTimeout f) s = .next u ∧ u.mem = s.mem ∧
      (u.region f).st = .empty ∧ (u.region f).fallow = none ∧
      ∀ h ∈ (s.region f).hamlets f, ∀ i, i < 64 → ((u.elem h i).inq, (u.elem h i).outq, (u.elem h i).lanes) = ([], [], [])))

/-! ### Power and heat (R269, R270, R379 to R385) -/

/-- R384, R385, R410, R411: a write that sets the next bit of PCTL is taken once every lower bit is acknowledged, and refused with the
order error otherwise; clearing the highest bit undoes it, whatever has been acknowledged (the model's reading, log entry 39); a step that
is done is acknowledged, and clear discards the elements' state; a hold that has lasted PHOLD gates the parish; a wake cancels a hold and
queues a gated parish, which ramps, at most four to a die, restores, and is on. -/
def Obligations.Gating : Prop :=
  ∀ (s : State) (p : Nat),
    let x := s.parish p
    let sets (i : Instr) (n : Nat) : Prop :=
      (x.st ≤ 3 → x.gating = false → (∀ m, m < n → m < 6 → x.ack.getLsbD m = true) → ∃ u, exec i s = .next u ∧ u.mem = s.mem ∧
        (u.parish p).pctl = (x.pctl ||| BitVec.ofNat 16 (2 ^ n)) &&& 0x13F ∧ (u.parish p).ordErr = false) ∧
      (∀ m, m < n → n < 6 → x.ack.getLsbD m = false → x.pctl.getLsbD n = false → exec i s = .next (s.setParish p { x with ordErr := true }))
    sets (.nodispatch p) 0 ∧ sets (.quiesce p) 1 ∧ sets (.clear p) 2 ∧ sets (.retain p) 3 ∧ sets (.clockGate p) 4 ∧ sets (.railGate p) 5 ∧
    (x.st ≤ 3 → x.gating = false → ∃ u, exec (.autogateEnable p) s = .next u ∧ u.mem = s.mem ∧ (u.parish p).pctl = (x.pctl ||| 0x100) &&& 0x13F) ∧
    (x.gating = true → ∀ v, s.pctlWrite p v = s.setParish p { x with ordErr := true }) ∧
    (∀ n, x.highest = some n → x.st ≤ 3 → x.gating = false → ∃ u, exec (.pctlStepUndo p) s = .next u ∧ u.mem = s.mem ∧
      (u.parish p).pctl = (x.pctl &&& ~~~BitVec.ofNat 16 (2 ^ n)) &&& 0x13F) ∧
    (∀ n, x.highest = some n → x.ack.getLsbD n = false → s.stepDone p n = true → ∃ u, exec (.pctlAcknowledge p) s = .next u ∧ u.mem = s.mem ∧
      (u.parish p).ack = x.ack ||| BitVec.ofNat 6 (2 ^ n) ∧ (n = 2 → ∀ i, i < 8 → (u.ham (8 * p + i)).elems = [])) ∧
    (x.st = 1 → x.holdStart + 1100 * x.phold.toNat ≤ s.cycle → s.parishIdle p = true →
      exec (.autogateHoldExpiry p) s = .next (s.setParish p { x with st := 2, pctl := x.pctl ||| 1, auto := true, gating := true })) ∧
    (x.st = 1 → exec (.pwake p) s = .next (s.setParish p { x with st := 0 })) ∧
    (x.st = 3 → ∃ u, exec (.pwake p) s = .next u ∧ (u.parish p).st = 4 ∧
      Tab.get u.inrush [] (p / 16) = Tab.get s.inrush [] (p / 16) ++ [p]) ∧
    (∀ die rest, Tab.get s.inrush [] die = p :: rest → s.ramping die < 4 → x.ack.getLsbD 5 = true → ∃ u, exec (.inrushRampStart die) s = .next u ∧
      (u.parish p).st = 5 ∧ (u.parish p).holdStart = s.cycle ∧ Tab.get u.inrush [] die = rest) ∧
    (x.st = 5 → x.holdStart + 3300 ≤ s.cycle → ∃ u, exec (.inrushRampEnd p) s = .next u ∧ (u.parish p).st = 6 ∧ u.mem = s.mem) ∧
    (x.st = 6 → ∃ u, exec (.restoreComplete p) s = .next u ∧ (u.parish p).st = 0 ∧ (u.parish p).pctl = x.pctl &&& 0xFFC0 ∧ (u.parish p).ack = 0)

/-- R269, R270, R379, R380, R381: every 50 µs, counted from the reset (log entry 40), a poll gives each sensor its reading and the level
that its thresholds and hysteresis give, and each parish its allowance; every 100 µs a window's energy moves the power cap by 16 between
64 and 255; an interval grants each parish its budget and each stack its rate, less what was taken of the interval before beyond it (that
carry is the model's, log entry 2); the first request waiting at a stack is granted; a refresh window opens on schedule, group 0's opening
choosing the period, and closes 1,760 cycles later. R378 to R382: a write of a management register at an address the plane lists is that
register's write, and one at another address of the plane is logged; PLIMIT is held within its limits, and PCTL's write is the one of the
gating steps. -/
def Obligations.ThermalAndRegisters : Prop :=
  (∀ (s : State),
    let allow (u : State) : Prop := ∀ p, p < 32 → (u.parish p).aeff =
      Nat.min (Nat.min (u.parish p).pallow.toNat (levelCap (u.sensorLevel p))) (Nat.min (levelCap (u.sensorLevel (64 + p / 4))) u.capP)
    (∀ l, s.cycle % 55000 ≠ 0 → exec (.sensorPoll l) s = .next { s with again := true }) ∧
    (∀ e, s.cycle % 110000 ≠ 0 → exec (.powerCapUpdate e) s = .next { s with again := true }) ∧
    (∀ l, s.cycle % 55000 = 0 → ∃ u, exec (.sensorPoll l) s = .next u ∧ u.mem = s.mem ∧ allow u ∧ ∀ n, n < 72 →
      let x := s.sensor n
      let y := u.sensor n
      let t := l.getD n x.read
      let above (h : Int) : Nat :=
        (if x.t1.toInt - h ≤ t.toInt then 1 else 0) + (if x.t2.toInt - h ≤ t.toInt then 1 else 0) + (if x.t3.toInt - h ≤ t.toInt then 1 else 0)
      y.read = t ∧ y.polls = x.polls + 1 ∧
        (x.t1.toInt < x.t2.toInt → x.t2.toInt < x.t3.toInt → 0 ≤ x.hyst.toInt → x.level ≤ 3 →
          y.level = Nat.max (above 0) (Nat.min x.level (above x.hyst.toInt)))) ∧
    (∀ e, s.cycle % 110000 = 0 → ∃ u, exec (.powerCapUpdate e) s = .next u ∧ u.mem = s.mem ∧ u.pkge = e ∧ allow u ∧
      (s.plimit.toNat * 100 < e.toNat → u.capP = Nat.max 64 (s.capP - 16)) ∧
      (e.toNat ≤ s.plimit.toNat * 100 → 10 * e.toNat < 9 * (s.plimit.toNat * 100) → u.capP = Nat.min 255 (s.capP + 16)) ∧
      (e.toNat ≤ s.plimit.toNat * 100 → 9 * (s.plimit.toNat * 100) ≤ 10 * e.toNat → u.capP = s.capP)) ∧
    (∀ p v, ∃ u, exec (.pallow p v) s = .next u ∧ u.mem = s.mem ∧ (u.parish p).pallow = v ∧ (u.parish p).aeff =
      Nat.min (Nat.min v.toNat (levelCap (s.sensorLevel p))) (Nat.min (levelCap (s.sensorLevel (64 + p / 4))) s.capP)) ∧
    (∃ u, exec .budgetInterval s = .next u ∧ u.mem = s.mem ∧
      (∀ k, k < 8 → (u.stack k).used = (s.stack k).used - (s.stack k).rate ∧ (u.stack k).rate = s.stackRate k) ∧
      ∀ p, p < 32 → (u.parish p).applied = s.applied p ∧ (u.parish p).left = (u.parish p).b - (s.parish p).debt ∧
      (u.parish p).debt = (s.parish p).debt - (u.parish p).b ∧
      (u.parish p).b = Nat.max 4096 ((s.parish p).pbudget.toNat * s.applied p / 255)) ∧
    (∀ k w rest, (s.stack k).waiters = w :: rest → (s.stack k).used + 32 ≤ s.stackRate k → exec (.hbmRateCapGrant k) s =
      .next (s.setStack k { s.stack k with waiters := rest, granted := (s.stack k).granted ++ [w] })) ∧
    (∀ q, let x := s.quad q
      let hot := if x.group = 0 then decide (1 ≤ s.sensorLevel (64 + q)) else x.hot
      (x.next ≤ s.cycle → x.openG = none → ∃ u, exec (.refreshWindowOpen q) s = .next u ∧ u.mem = s.mem ∧ (u.quad q).openG = some x.group ∧
        (u.quad q).hot = hot ∧ (u.quad q).group = (x.group + 1) % 4 ∧ (u.quad q).next = x.next + (if hot then 4400 else 8800)) ∧
      (x.openG ≠ none → x.next + 1760 ≤ s.cycle + (if x.hot then 4400 else 8800) →
        exec (.refreshWindowClose q) s = .next (s.setQuad q { x with openG := none })))) ∧
  (∀ (s : State) (a : Nat) (v : W64),
    (∀ t, placeOf a = .mgmt → s.mgmtWrite a v = some t → exec (.registerWrite a v) s = .next t) ∧
    (placeOf a = .mgmt → s.mgmtWrite a v = none → exec (.registerWrite a v) s = .next (s.logErr { addr := a, kind := 2, agent := 7 })) ∧
    (∃ u, exec (.registerWrite 0x30000008000 v) s = .next u ∧ u.mem = s.mem ∧ 100 ≤ u.plimit.toNat ∧ u.plimit.toNat ≤ 1600 ∧
      (100 ≤ v.toNat % 65536 → v.toNat % 65536 ≤ 1600 → u.plimit.toNat = v.toNat % 65536)) ∧
    (∀ p, p < 32 → exec (.registerWrite (0x30000010000 + 64 * p) v) s = exec (.pallow p (v.extractLsb' 0 8)) s ∧
      exec (.registerWrite (0x30000010000 + 64 * p + 16) v) s = .next (s.pctlWrite p (v.extractLsb' 0 16)) ∧
      (v.getLsbD 0 = true → exec (.registerWrite (0x30000010000 + 64 * p + 32) v) s = exec (.pwake p) s)))

/-! ### Containment, boot and service (R395, R396, R399 to R401, R407 to R409) -/

/-- R400 to R402, R407 to R409: at reset the ROM starts the first of the two images that it accepts, measured, with the beadle at its entry,
and halts the beadle, every link down and the device in reset, where it accepts neither; what reset does not reach, and what the ROM's
signature check accepts, are the model's (log entries 18 and 13): the three cases leave none out, and the fused key hash, which is a free
value, decides which of them a flash is in. The bits of BOOTCTL set, go and manor release only with every base set; the
release starts the manor's cores in machine mode at MRESET; MEXT extends a measurement register; the service ring's command is served, and a
report is written before its status. R409 gives what the codes mean; that a wrong version and a last doubleword that is not 0 end with 3, and
addresses beyond the HBM with 5, is the model's reading (log entry 47). -/
def Obligations.BootSteps : Prop :=
  ∀ (s : State),
    let r := s.resetDevice
    let starts (a : Nat) : Prop := ∃ u, exec .deviceReset s = .next u ∧ u.beadle.run = .running ∧
      u.beadle.pc = 0xFF00000000 + BitVec.ofNat 64 (s.flash.readLE (a + 16) 4) ∧ u.boot.measure 0 = shake256 (imageSigned s.flash a) 64 ∧
      u.mem = s.mem.writeBytes 0xFF00000000 (s.flash.readBytes (a + 5312) (s.flash.readLE (a + 12) 4)) ∧
      u.boot.go = false ∧ u.regions = [] ∧ u.cycle = 0
    (romAccepts s.flash 0 = true → starts 0) ∧
    (romAccepts s.flash 0 = false → romAccepts s.flash 0x1000000 = true → starts 0x1000000) ∧
    (romAccepts s.flash 0 = false → romAccepts s.flash 0x1000000 = false →
      exec .deviceReset s = .next { r with beadle := { r.beadle with run := .halted }, ualDown := List.range 18, inReset := true }) ∧
    exec .lock s = .next { s with boot := { s.boot with lock := true } } ∧
    (s.boot.basesSet = true → s.boot.manor = false → ∃ u, exec .manorRelease s = .next u ∧ u.mem = s.mem ∧
      u.boot = { s.boot with manor := true } ∧ ∀ n, n < 16 → u.manorCore n = { s.manorCore n with started := true, machine := true, pc := s.boot.mreset }) ∧
    (s.boot.basesSet = true → s.boot.manor = true → exec .manorRelease s = .next s) ∧
    (s.boot.basesSet = true → s.boot.go = false → ∃ u, exec .go s = .next u ∧ u.boot.go = true ∧
      u.alog.held = [] ∧ u.blog.held = [] ∧ u.elog.held = []) ∧
    (s.boot.basesSet = false → exec .go s = .next s ∧ exec .manorRelease s = .next s) ∧
    (∀ i, 1 ≤ i → i < 8 → s.HbmOpen { code := 7 } s.boot.mextSrc.toNat 64 → ∃ u, exec (.mext i) s = .next u ∧ u.mem = s.mem ∧
      ∀ j, u.boot.measure j =
        if j = i then shake256 (s.boot.measure i ++ s.mem.readBytes s.boot.mextSrc.toNat 64) 64 else s.boot.measure j) ∧
    (∀ b t e u, let base := s.boot.svcRing.toNat
      let head := leNat ((b.drop 8).take 8)
      let w (k : Nat) : W64 := BitVec.ofNat 64 (leNat ((e.drop (8 * k)).take 8))
      s.boot.svcRing ≠ 0 → (s.devWaits base 4096 = true → exec .serviceRingPoll s = .next s.tryAgain) ∧
      (s.devWaits base 4096 = false → s.readPhys serviceAgent base 16 = .ok b t →
      (leNat (b.take 8) ≤ head → exec .serviceRingPoll s = .next t) ∧
      (head < leNat (b.take 8) → t.readPhys serviceAgent (base + 64 + 32 * (head % 126)) 32 = .ok e u →
        ((w 0).extractLsb' 0 8 = 1 → (w 0).extractLsb' 8 24 = 1 → w 3 = 0 → exec .serviceRingPoll s = exec (.attest (w 1) (w 2)) u) ∧
        ((w 0).extractLsb' 0 8 = 1 → (w 0).extractLsb' 8 24 ≠ 1 ∨ w 3 ≠ 0 → exec .serviceRingPoll s = .next (u.endService 3)) ∧
        ((w 0).extractLsb' 0 8 ≠ 1 → exec .serviceRingPoll s = .next (u.endService 1))))) ∧
    (∀ nonce out : W64, (0x8000000000 < nonce.toNat + 64 ∨ 0x8000000000 < out.toNat + 3901 → exec (.attest nonce out) s = .next (s.endService 5)) ∧
      (nonce.toNat + 64 ≤ 0x8000000000 → out.toNat + 3901 ≤ 0x8000000000 →
        (∀ t, s.readPhys serviceAgent nonce.toNat 64 = .err t → exec (.attest nonce out) s = .next (t.endService 5)) ∧
        (∀ n t, s.readPhys serviceAgent nonce.toNat 64 = .ok n t → n.length = 64 → (∀ i, i < 8 → (t.boot.measure i).length = 64) →
          ∃ b, b.length = 3901 ∧ b.take 592 = t.reportBody n ∧
            (∀ u, t.writeBytesPhys serviceAgent true out.toNat b = .ok () u → exec (.attest nonce out) s = .next (u.endService 0)) ∧
            (∀ u, t.writeBytesPhys serviceAgent true out.toNat b = .err u → exec (.attest nonce out) s = .next (u.endService 5)))))

/-! ### Links (R263, R403 to R406) -/

/-- R263, R304, R305, R403 to R405: a request from outside, or through the green window, is performed at its home, an atomic and an update of a
barrier whole, and its answer leaves the package; an endpoint's translated request and one outside its DMA window are unsupported, the second
logged; an endpoint's MSI is pending at the interrupt file that it names, behind the endpoint's own writes; a UALink port that fails is passed
over until it is up again. R406: a DOORBELL advances a producer index; a BAR stands where its configuration space says, each of its registers at
its offset, and a register holds what was written to it; the port sends the request its queue pair is at, with the local bytes of a WRITE; its
completion, or its time-out, ends it with the delivery to its barrier; an incoming request that a region entry grants is performed and answered,
the entries each read by itself; another gets a NAK, and so does one that is neither READ nor WRITE.
Where a BAR and a DMA window stand in the configuration space, and the numbers of the requests and of the NAKs, are the model's (log entry 17).
R406 allows a length of 1 to 2^31 and does not say what comes of a longer one: that it is refused, with the error bit of the direction that it
ends with, is the model's reading (log entry 46); that bytes go in pieces of which each is performed whole is the model's too (log entry 53). -/
def Obligations.OutsideRequests : Prop :=
  (∀ (s : State) (r : BusReq),
    let served (i : Instr) (key : PartKey) (q : BusReq) : Prop := s.busAfter q = false →
      (∀ b t, q.bar = none → q.atom = none → q.write = true → let l := s.partOf key (pieces q.pa q.bytes.length) q.bytes
        s.busWrite (busAgent q) l.1 l.2 = .ok b t → t.again = false →
        exec i s = .next { t.partDone key with out := t.out ++ [.reply true []] }) ∧
      (∀ b t, q.bar = none → q.atom = none → q.write = false → let l := s.partOf key (pieces q.pa q.len) []
        s.busRead (busAgent q) l.1 l.2 = .ok b t → exec i s = .next { t.partDone key with out := t.out ++ [.reply true b] }) ∧
      (∀ op e old t, q.bar = none → q.atom = some (op, e) → let word := decide (q.bytes.length = 4)
        let b := BitVec.ofNat 64 (leNat q.bytes)
        s.atomicPhys (busAgent q) q.pa (if word then 4 else 8) (.amo (amoOfNum op) word b e) (amoBytes (amoOfNum op) word b e) = .ok old t →
        exec i s = .next { t with out := t.out ++ [.reply true old] }) ∧
      (∀ arrival n e gen t, q.bar = some (arrival, n, e) → s.barrierPhys (busAgent q) q.ctx q.pa arrival n e = .ok gen t →
        exec i s = .next { t with out := t.out ++ [.reply true (leBytes 8 gen.toNat)] })
    let outside : BusReq := { r with agent := 9, ctx := none, ham := none }
    let unsupported (t : State) : State := { t with out := t.out ++ [.reply false []] }
    served (.windowAccess r) (.window r) r ∧
    (∀ p, s.dmaOk p r.pa (reqSize r) = true → served (.pcieEndpointRequest p false false r) (.pcie p r) outside) ∧
    ((∃ p, p < 18 ∧ p ∉ s.ualDown) → inDmaSpace r.pa (reqSize r) = true → served (.ualinkRequest r) (.ualink r) outside) ∧
    (∀ p m, exec (.pcieEndpointRequest p true m r) s = .next (unsupported s)) ∧
    (∀ p, s.pcieBehind p = true → exec (.pcieEndpointRequest p false true r) s = .next s.tryAgain) ∧
    (∀ p, s.pcieBehind p = false → let a := BitVec.ofNat 64 r.pa
      let d : W32 := BitVec.ofNat 32 (leNat r.bytes)
      (∀ f, Config.interruptFile a = some f → exec (.pcieEndpointRequest p false true r) s = .next (s.interrupt f d.toNat)) ∧
      (Config.interruptFile a = none → exec (.pcieEndpointRequest p false true r) s =
        .next (unsupported (s.logErr { addr := a.toNat, kind := 2, agent := 9 })))) ∧
    (∀ p, s.dmaOk p r.pa (reqSize r) = false →
      exec (.pcieEndpointRequest p false false r) s = .next (unsupported (s.logErr { addr := r.pa, kind := 2, agent := 9 }))) ∧
    (∀ p, ∃ u, exec (.ualinkPortDown p) s = .next u ∧ u.mem = s.mem ∧ ∀ q, q ∈ u.ualDown ↔ q ∈ s.ualDown ∨ q = p) ∧
    (∀ p, ∃ u, exec (.ualinkPortUp p) s = .next u ∧ u.mem = s.mem ∧ ∀ q, q ∈ u.ualDown ↔ q ∈ s.ualDown ∧ q ≠ p)) ∧
  (∀ (s : State) (p qp : Nat),
    let x := s.port p
    let on : Prop := (Tab.get x.regs 0 0).getLsbD 0 = true
    (∀ v : W64, ∃ u, exec (.doorbell p v) s = .next u ∧ u.mem = s.mem ∧
      Tab.get (u.port p).prod 0 (v.toNat % 4096) = v.toNat / 65536 % 65536) ∧
    (∀ k a v, placeOf a = .pcie k → ∃ u, exec (.registerWrite a v) s = .next u ∧ u.mem = s.mem ∧
      (match s.pregAt a with
       | none => u.out = s.out ++ [.pcie (cellsAt a (leBytes 8 v.toNat))]
       | some (.eth port o) => u.out = s.out ∧ (o = 0x40 → exec (.doorbell port v) s = .next u) ∧
         (o = 0 → (u.pregRead (.eth port o)).1.getLsbD 0 = v.getLsbD 0) ∧
         (0 < o → o < 0x40 → (u.pregRead (.eth port o)).1 = if o = 8 then v &&& 0xFFFFFFFFFFFF else v) ∧ (0x40 < o → u = s)
       | some (.bar port) => u.out = s.out ∧ (u.port port).bar = v &&& ~~~0xFFFF
       | some (.dma port lim) => u.out = s.out ∧ (u.pregRead (.dma port lim)).1 = v &&& ~~~0xFFF
       | some .config => u = s)) ∧
    (∀ k f o, k < 8 → f < 2 → o < 0x10000 → o % 8 = 0 → let port := 2 * k + f
      let bar := (s.port port).bar.toNat
      s.pregAt (0x10000000000 * (4 + k) + 0x8000 + 0x1000 * f + 0x10) = some (.bar port) ∧
      (bar / 0x10000000000 = 4 + k → bar % 8 = 0 → 0x10000000 ≤ bar % 0x10000000000 → bar % 0x10000000000 + 0x10000 ≤ 0x10000000000 →
        (f = 1 → let other := (s.port (2 * k)).bar.toNat; bar + o < other ∨ other + 0x10000 ≤ bar + o) →
        s.pregAt (bar + o) = some (.eth port o))) ∧
    (∀ entry work t u, on → qp < x.reg 0x28 → x.inFlight qp = none → s.portRead p (s.qpAddr p qp) 64 = .ok entry t →
      let q := QPair.ofBytes entry
      let w := Work.ofBytes work
      q.valid = true → Tab.get x.prod 0 qp ≠ q.cons % 65536 → t.portRead p (q.ring + 64 * (q.cons % 2 ^ q.log2)) 64 = .ok work u →
      let send (v : State) (read : Bool) (b : List Byte) : Prop := ∃ y, exec (.rdmaWorkRequest p qp) s = .next y ∧ y.mem = v.mem ∧
        Tab.get (y.port p).flight [] qp = entry ++ work ∧ y.out = v.out ++ [.rdma p qp q.dest read w.remote w.rkey w.len b]
      (w.len ≤ 2 ^ 31 → u.dmaOk (p / 2) w.pa w.len = true →
        (w.op = 2 → send u true []) ∧
        (∀ b v, w.op = 1 → let l := u.partOf (.work p qp false) (pieces w.pa w.len) []
          u.busRead (portAgent p) l.1 l.2 = .ok b v → send v false b)) ∧
      (2 ^ 31 < w.len → w.op = 1 ∨ w.op = 2 → let e := if w.op = 2 then 4 else 8
        exec (.rdmaWorkRequest p qp) s = .next (u.endWork p qp q w e))) ∧
    (∀ q w, x.inFlight qp = some (q, w) →
      (w.op ≠ 2 → ∀ b, exec (.rdmaCompletion p qp false b) s = .next (s.endWork p qp q w 0)) ∧
      (∀ b c t, w.op = 2 → s.agentAfter (portAgent p) w.pa = false → let key := PartKey.work p qp true
        let l := s.partOf key (pieces w.pa w.len) ((List.range w.len).map fun i => b.getD i 0)
        s.busWrite (portAgent p) l.1 l.2 = .ok c t → ((t.partDone key).endWork p qp q w 0).again = false →
        exec (.rdmaCompletion p qp false b) s = .next ((t.partDone key).endWork p qp q w 0)) ∧
      (w.op = 1 ∨ w.op = 2 → let e := if w.op = 2 then 4 else 8
        exec (.retryTimeout p qp) s = .next (s.endWork p qp q w e) ∧ ∀ b, exec (.rdmaCompletion p qp true b) s = .next (s.endWork p qp q w e)) ∧
      (∀ e gen t, w.bar ≠ 0 → s.dmaOk (p / 2) w.bar 32 = true → s.agentAfter (portAgent p) w.bar = false →
        s.agentAfter (portAgent p) (s.qpAddr p qp + 44) = false →
        s.barrierPhys (portAgent p) none w.bar false (-(BitVec.ofNat 64 w.len)) e = .ok gen t →
        let y : State := { t with eth := Tab.put t.eth p { t.port p with flight := Tab.del (t.port p).flight qp } }
        let at' := t.qpAddr p qp + 44
        s.endWork p qp q w e = y.devWrite (portAgent p) at' (leBytes 4 (q.cons + 1)) ∧
        (t.devQ = [] → (y.admitAll { code := 10, unit := 15 } [(at', 4)]).1 = true → t.eccOf at' 4 = [] →
          (s.endWork p qp q w e).mem = t.mem.writeCells (cellsAt at' (leBytes 4 (q.cons + 1)))))) ∧
    (∀ op rkey addr len b, on →
      (op ≠ 1 → op ≠ 2 → exec (.rdmaIncomingRequest p op rkey addr len b) s = .next { s with out := s.out ++ [.rdmaReply p 2 []] }) ∧
      (op = 1 ∨ op = 2 →
        let lookup := PartKey.lookup p op rkey addr len b
        let key := PartKey.incoming p op rkey addr len b
        let write := decide (op = 1)
        let begun := s.partly.any fun q => decide (q.1 = lookup)
        (begun = false → s.grantOf lookup p write rkey addr len =
          s.findGrant p write rkey addr len ((List.range (x.reg 0x38)).map fun k => (x.reg 0x30 + 32 * k, 32))) ∧
        (∀ l r y t, s.portRead p l 32 = .ok y t → s.findGrant p write rkey addr len ((l, 32) :: r) =
          match rdmaGrant y 1 write rkey addr len with
          | some pa => .found pa t
          | none => t.findGrant p write rkey addr len r) ∧
        (∀ l r t, s.portRead p l 32 = .err t → s.findGrant p write rkey addr len ((l, 32) :: r) = t.findGrant p write rkey addr len r) ∧
        (∀ t, s.grantOf lookup p write rkey addr len = .none t →
          exec (.rdmaIncomingRequest p op rkey addr len b) s = .next { t.partDone lookup with out := t.out ++ [.rdmaReply p 1 []] }) ∧
        (∀ pa v, s.grantOf lookup p write rkey addr len = .found pa v → let t := v.partDone lookup
          t.dmaOk (p / 2) pa len = true →
          (∀ y u, op = 2 → let l := t.partOf key (pieces pa len) []
            t.busRead (portAgent p) l.1 l.2 = .ok y u → u.again = false →
            exec (.rdmaIncomingRequest p op rkey addr len b) s = .next { u.partDone key with out := u.out ++ [.rdmaReply p 0 y] }) ∧
          (∀ c u, op = 1 → t.agentAfter (portAgent p) pa = false →
            let l := t.partOf key (pieces pa len) ((List.range len).map fun i => b.getD i 0)
            t.busWrite (portAgent p) l.1 l.2 = .ok c u → u.again = false →
            exec (.rdmaIncomingRequest p op rkey addr len b) s = .next { u.partDone key with out := u.out ++ [.rdmaReply p 0 []] })))))

/-! ### The machine as a whole -/

/-- The memories are in their canonical form at reset. -/
def Obligations.MemOkAtReset : Prop :=
  State.reset.MemOk

/-- Every step keeps the canonical form of the memories: addresses strictly rising, and no listed byte equal to what an unlisted address
reads as. What an unlisted byte reads as is the model's choice (log entry 3). -/
def Obligations.StepKeepsMemOk : Prop :=
  ∀ s t : State, s.MemOk → step s = .next t → t.MemOk

/-- R379 to R382, R400: the reset values that the spec gives: PLIMIT 1,600 and the power cap 255, SLEW and PKGE 0; the sensors' thresholds
85, 95 and 105 °C with 2 °C of hysteresis at level 0; PALLOW 255, PBUDGET 0x10_0000, PCTL 0x100 and PHOLD 20; the boot block's bases and
BOOTCTL 0; and no region holds a slot (R296). That every queue of the market is disabled and empty is the model's choice (log entry 6). -/
def Obligations.ResetValues : Prop :=
  let s := State.reset
  s.plimit = 1600 ∧ s.capP = 255 ∧ s.slew = 0 ∧ s.pkge = 0 ∧ s.cycle = 0 ∧ s.regions = [] ∧ s.boot = {} ∧
  s.boot.lock = false ∧ s.boot.go = false ∧ s.boot.manor = false ∧ s.boot.ctxBase = 0 ∧ s.boot.mktRing = 0 ∧ s.boot.xlRing = 0 ∧
  (∀ n, let x := s.sensor n
    x.t1.toInt = 85 * 16 ∧ x.t2.toInt = 95 * 16 ∧ x.t3.toInt = 105 * 16 ∧ x.hyst.toInt = 2 * 16 ∧ x.level = 0 ∧ x.events = 0) ∧
  (∀ p, let x := s.parish p
    x.pallow = 255 ∧ x.aeff = 255 ∧ x.pbudget = 0x100000 ∧ x.pctl = 0x100 ∧ x.st = 0 ∧ x.ack = 0 ∧ x.phold = 20 ∧ x.pwaitb = 0) ∧
  (∀ q, (s.queue q).en = false ∧ (s.queue q).ents = []) ∧
  (∀ h site n, (s.elem h site).item (16 + n % 16) = some 0)
end

