-- ==== Sys2Proof/Laws/Memory.lean ====
section
/-! SUPPORT. Tables and memory: what is read after a write, and that every memory operation keeps the canonical form. -/
namespace Sys2Proof

/-! ### Tables -/

@[simp] theorem Tab.get_nil {α : Type} (d : α) (k : Nat) : Tab.get ([] : Tab α) d k = d := rfl

@[simp] theorem Tab.get_put_same {α : Type} (t : Tab α) (d : α) (k : Nat) (v : α) : Tab.get (Tab.put t k v) d k = v := by
  induction t with
  | nil => simp [Tab.put, Tab.get]
  | cons p r ih =>
    obtain ⟨j, w⟩ := p
    unfold Tab.put
    split
    · simp [Tab.get]
    · split
      · simp [Tab.get]
      · have : ¬ j = k := fun e => ‹¬ k = j› e.symm
        simp [Tab.get, this, ih]

theorem Tab.get_put_ne {α : Type} (t : Tab α) (d : α) (k j : Nat) (v : α) (h : j ≠ k) :
    Tab.get (Tab.put t k v) d j = Tab.get t d j := by
  induction t with
  | nil => simp [Tab.put, Tab.get, Ne.symm h]
  | cons p r ih =>
    obtain ⟨i, w⟩ := p
    unfold Tab.put
    split
    · simp [Tab.get, Ne.symm h]
    · split
      · subst_vars; simp [Tab.get, Ne.symm h]
      · simp only [Tab.get, ih]

theorem Tab.get_put {α : Type} (t : Tab α) (d : α) (k j : Nat) (v : α) :
    Tab.get (Tab.put t k v) d j = if j = k then v else Tab.get t d j := by
  split
  · subst_vars; simp
  · exact Tab.get_put_ne t d k j v ‹_›

/-! ### The canonical form -/

/-- Every listed address is at least n. -/
theorem Mem.wf_tail {p : Nat × Byte} {r : Mem} (h : Mem.wf (p :: r) = true) : Mem.wf r = true := by
  obtain ⟨a, v⟩ := p
  simp only [Mem.wf, Bool.and_eq_true] at h
  exact h.2

theorem Mem.wf_head {a : Nat} {v : Byte} {r : Mem} (h : Mem.wf ((a, v) :: r) = true) : v ≠ 0 := by
  simp only [Mem.wf, Bool.and_eq_true, decide_eq_true_eq] at h
  exact h.1.1

theorem Mem.wf_lt {a : Nat} {v : Byte} {p : Nat × Byte} {r : Mem} (h : Mem.wf ((a, v) :: p :: r) = true) : a < p.1 := by
  obtain ⟨b, w⟩ := p
  simp only [Mem.wf, Bool.and_eq_true, decide_eq_true_eq] at h
  exact h.1.2

theorem Mem.wf_cons {a : Nat} {v : Byte} {r : Mem} (hv : v ≠ 0) (hr : Mem.wf r = true) (hl : ∀ p ∈ r.head?, a < p.1) :
    Mem.wf ((a, v) :: r) = true := by
  cases r with
  | nil => simpa [Mem.wf] using hv
  | cons p r =>
    obtain ⟨b, w⟩ := p
    have := hl (b, w) (by simp)
    simp only [Mem.wf, Bool.and_eq_true, decide_eq_true_eq] at *
    exact ⟨⟨hv, this⟩, hr⟩

theorem Mem.head_put (m : Mem) (k a : Nat) (v : Byte) (hk : a < k) (hm : ∀ p ∈ m.head?, a < p.1) :
    ∀ p ∈ (Tab.put m k v).head?, a < p.1 := by
  cases m with
  | nil => simp [Tab.put, hk]
  | cons q r =>
    obtain ⟨j, w⟩ := q
    have := hm (j, w) (by simp)
    unfold Tab.put
    split
    · simpa using hk
    · split
      · simpa using hk
      · simpa using this

theorem Mem.wf_put (m : Mem) (k : Nat) (v : Byte) (hv : v ≠ 0) (h : Mem.wf m = true) : Mem.wf (Tab.put m k v) = true := by
  induction m with
  | nil => simpa [Tab.put, Mem.wf] using hv
  | cons p r ih =>
    obtain ⟨j, w⟩ := p
    unfold Tab.put
    split
    · exact Mem.wf_cons hv h (by simpa using ‹_›)
    · split
      · refine Mem.wf_cons hv (Mem.wf_tail h) ?_
        intro q hq
        cases r with
        | nil => simp at hq
        | cons q' r => simp only [List.head?_cons, Option.mem_def, Option.some.injEq] at hq; subst hq; have := Mem.wf_lt h; omega
      · refine Mem.wf_cons (Mem.wf_head h) (ih (Mem.wf_tail h)) (Mem.head_put r k j v (by omega) ?_)
        intro q hq
        cases r with
        | nil => simp at hq
        | cons q' r => simp only [List.head?_cons, Option.mem_def, Option.some.injEq] at hq; subst hq; exact Mem.wf_lt h

theorem Mem.head_del (m : Mem) (k a : Nat) (h : Mem.wf m = true) (hm : ∀ p ∈ m.head?, a < p.1) :
    ∀ p ∈ (Tab.del m k).head?, a < p.1 := by
  cases m with
  | nil => simp [Tab.del]
  | cons q r =>
    obtain ⟨j, w⟩ := q
    have hj := hm (j, w) (by simp)
    unfold Tab.del
    split
    · intro p hp
      cases r with
      | nil => simp at hp
      | cons q' r => simp only [List.head?_cons, Option.mem_def, Option.some.injEq] at hp; subst hp; have := Mem.wf_lt h; simp only at hj; omega
    · split
      · simpa using hj
      · simpa using hj

theorem Mem.wf_del (m : Mem) (k : Nat) (h : Mem.wf m = true) : Mem.wf (Tab.del m k) = true := by
  induction m with
  | nil => rfl
  | cons p r ih =>
    obtain ⟨j, w⟩ := p
    unfold Tab.del
    split
    · exact Mem.wf_tail h
    · split
      · exact h
      · refine Mem.wf_cons (Mem.wf_head h) (ih (Mem.wf_tail h)) (Mem.head_del r k j (Mem.wf_tail h) ?_)
        intro q hq
        cases r with
        | nil => simp at hq
        | cons q' r => simp only [List.head?_cons, Option.mem_def, Option.some.injEq] at hq; subst hq; exact Mem.wf_lt h

/-- A write of one byte keeps the canonical form. -/
@[simp] theorem Mem.wf_write (m : Mem) (a : Nat) (v : Byte) (h : Mem.wf m = true) : Mem.wf (m.write a v) = true := by
  unfold Mem.write
  split
  · exact Mem.wf_del m a h
  · exact Mem.wf_put m a v ‹_› h

/-- A write of bytes keeps the canonical form. -/
@[simp] theorem Mem.wf_writeBytes (m : Mem) (a : Nat) (l : List Byte) (h : Mem.wf m = true) : Mem.wf (m.writeBytes a l) = true := by
  induction l generalizing m a with
  | nil => exact h
  | cons b r ih => exact ih _ _ (Mem.wf_write m a b h)

/-- A write of cells keeps the canonical form. -/
@[simp] theorem Mem.wf_writeCells (m : Mem) (l : List (Nat × Byte)) (h : Mem.wf m = true) : Mem.wf (m.writeCells l) = true := by
  induction l generalizing m with
  | nil => exact h
  | cons c r ih => exact ih _ (Mem.wf_write m c.1 c.2 h)

/-- A write of a little-endian value keeps the canonical form. -/
@[simp] theorem Mem.wf_writeLE (m : Mem) (a n v : Nat) (h : Mem.wf m = true) : Mem.wf (m.writeLE a n v) = true :=
  Mem.wf_writeBytes m a _ h

/-! ### Reading after writing -/

theorem Mem.read_below (m : Mem) (a : Nat) (h : Mem.wf m = true) (hl : ∀ p ∈ m.head?, a < p.1) : m.read a = 0 := by
  induction m with
  | nil => rfl
  | cons p r ih =>
    obtain ⟨j, w⟩ := p
    have hj := hl (j, w) (by simp)
    have hne : ¬ j = a := by simp only at hj; omega
    simp only [Mem.read, Tab.get, hne, if_false]
    refine ih (Mem.wf_tail h) ?_
    intro q hq
    cases r with
    | nil => simp at hq
    | cons q' r => simp only [List.head?_cons, Option.mem_def, Option.some.injEq] at hq; subst hq; have := Mem.wf_lt h; simp only at hj; omega

theorem Mem.read_del (m : Mem) (a b : Nat) (h : Mem.wf m = true) : Mem.read (Tab.del m a) b = if b = a then 0 else m.read b := by
  induction m with
  | nil => simp [Tab.del, Mem.read]
  | cons p r ih =>
    obtain ⟨j, w⟩ := p
    have ht := ih (Mem.wf_tail h)
    have hr : ∀ q ∈ List.head? r, j < q.1 := by
      intro q hq
      cases r with
      | nil => simp at hq
      | cons q' r => simp only [List.head?_cons, Option.mem_def, Option.some.injEq] at hq; subst hq; exact Mem.wf_lt h
    unfold Tab.del
    split
    · subst_vars
      split
      · subst_vars; exact Mem.read_below r _ (Mem.wf_tail h) hr
      · have hb : ¬ j = b := fun e => ‹¬ b = j› e.symm
        simp [Mem.read, Tab.get, hb]
    · split
      · split
        · subst_vars
          exact Mem.read_below _ _ h (by simpa using ‹_ < j›)
        · rfl
      · simp only [Mem.read, Tab.get] at *
        split
        · subst_vars; simp [Ne.symm ‹¬ a = _›]
        · exact ht

/-- A byte read after a write of one byte. -/
theorem Mem.read_write (m : Mem) (a b : Nat) (v : Byte) (h : Mem.wf m = true) :
    (m.write a v).read b = if b = a then v else m.read b := by
  unfold Mem.write
  split
  · rw [Mem.read_del m a b h]; subst_vars; rfl
  · exact Tab.get_put m 0 a b v

/-- A byte outside the bytes written reads as before. -/
theorem Mem.read_writeBytes_outside (m : Mem) (a b : Nat) (l : List Byte) (h : Mem.wf m = true) (ho : b < a ∨ a + l.length ≤ b) :
    (m.writeBytes a l).read b = m.read b := by
  induction l generalizing m a with
  | nil => rfl
  | cons x r ih =>
    simp only [List.length_cons] at ho
    rw [Mem.writeBytes, ih _ _ (Mem.wf_write m a x h) (by omega), Mem.read_write m a b x h]
    have : ¬ b = a := by omega
    simp [this]

/-- A byte outside the cells written reads as before. -/
theorem Mem.read_writeCells_outside (m : Mem) (b : Nat) (l : List (Nat × Byte)) (h : Mem.wf m = true) (ho : ∀ c ∈ l, c.1 ≠ b) :
    (m.writeCells l).read b = m.read b := by
  induction l generalizing m with
  | nil => rfl
  | cons c r ih =>
    rw [Mem.writeCells, ih _ (Mem.wf_write m c.1 c.2 h) (fun x hx => ho x (by simp [hx])), Mem.read_write m c.1 b c.2 h]
    have : ¬ b = c.1 := fun e => ho c (by simp) e.symm
    simp [this]

/-- The bytes written read back. -/
theorem Mem.readBytes_writeBytes (m : Mem) (a : Nat) (l : List Byte) (h : Mem.wf m = true) :
    (m.writeBytes a l).readBytes a l.length = l := by
  induction l generalizing m a with
  | nil => rfl
  | cons x r ih =>
    simp only [Mem.writeBytes, List.length_cons, Mem.readBytes, List.cons.injEq]
    refine ⟨?_, ih _ _ (Mem.wf_write m a x h)⟩
    rw [Mem.read_writeBytes_outside _ _ _ _ (Mem.wf_write m a x h) (by omega), Mem.read_write m a a x h]
    simp

@[simp] theorem leBytes_length (n v : Nat) : (leBytes n v).length = n := by
  induction n generalizing v with
  | zero => rfl
  | succ n ih => simp [leBytes, ih]

/-- The value of the bytes of a value, cut to its width. -/
theorem leNat_leBytes (n v : Nat) : leNat (leBytes n v) = v % 256 ^ n := by
  induction n generalizing v with
  | zero => simp [leBytes, leNat, Nat.mod_one]
  | succ n ih =>
    have h8 : (2 : Nat) ^ 8 = 256 := rfl
    simp only [leBytes, leNat, ih, BitVec.toNat_ofNat, h8]
    rw [Nat.pow_succ', Nat.mod_mul]

/-- A little-endian value read where it was written. -/
theorem Mem.readLE_writeLE (m : Mem) (a n v : Nat) (h : Mem.wf m = true) : (m.writeLE a n v).readLE a n = v % 256 ^ n := by
  have := Mem.readBytes_writeBytes m a (leBytes n v) h
  rw [leBytes_length] at this
  rw [Mem.readLE, Mem.writeLE, this, leNat_leBytes]

end Sys2Proof
end

