-- ==== Sys2Proof/Laws/State.lean ====
section
/-! SUPPORT. What each update of the state leaves alone, field by field, and what is read after a write; no proof has to unfold a record
update. -/
namespace Sys2Proof.Machine
open Sys2Proof

/-! ### `State.setHam` -/

@[simp] theorem State.setHam_cycle (s : State) (h : Nat) (x : Hamlet) : (s.setHam h x).cycle = s.cycle := rfl
@[simp] theorem State.setHam_agenda (s : State) (h : Nat) (x : Hamlet) : (s.setHam h x).agenda = s.agenda := rfl
@[simp] theorem State.setHam_core (s : State) (h : Nat) (x : Hamlet) : (s.setHam h x).core = s.core := rfl
@[simp] theorem State.setHam_curH (s : State) (h : Nat) (x : Hamlet) : (s.setHam h x).curH = s.curH := rfl
@[simp] theorem State.setHam_curSite (s : State) (h : Nat) (x : Hamlet) : (s.setHam h x).curSite = s.curSite := rfl
@[simp] theorem State.setHam_curSlot (s : State) (h : Nat) (x : Hamlet) : (s.setHam h x).curSlot = s.curSlot := rfl
@[simp] theorem State.setHam_mem (s : State) (h : Nat) (x : Hamlet) : (s.setHam h x).mem = s.mem := rfl
@[simp] theorem State.setHam_pres (s : State) (h : Nat) (x : Hamlet) : (s.setHam h x).pres = s.pres := rfl
@[simp] theorem State.setHam_ecc (s : State) (h : Nat) (x : Hamlet) : (s.setHam h x).ecc = s.ecc := rfl
@[simp] theorem State.setHam_mem0 (s : State) (h : Nat) (x : Hamlet) : (s.setHam h x).mem0 = s.mem0 := rfl
@[simp] theorem State.setHam_pres0 (s : State) (h : Nat) (x : Hamlet) : (s.setHam h x).pres0 = s.pres0 := rfl
@[simp] theorem State.setHam_hamlets0 (s : State) (h : Nat) (x : Hamlet) : (s.setHam h x).hamlets0 = s.hamlets0 := rfl
@[simp] theorem State.setHam_itemWrites (s : State) (h : Nat) (x : Hamlet) : (s.setHam h x).itemWrites = s.itemWrites := rfl
@[simp] theorem State.setHam_regions (s : State) (h : Nat) (x : Hamlet) : (s.setHam h x).regions = s.regions := rfl
@[simp] theorem State.setHam_beadle (s : State) (h : Nat) (x : Hamlet) : (s.setHam h x).beadle = s.beadle := rfl
@[simp] theorem State.setHam_market (s : State) (h : Nat) (x : Hamlet) : (s.setHam h x).market = s.market := rfl
@[simp] theorem State.setHam_plimit (s : State) (h : Nat) (x : Hamlet) : (s.setHam h x).plimit = s.plimit := rfl
@[simp] theorem State.setHam_slew (s : State) (h : Nat) (x : Hamlet) : (s.setHam h x).slew = s.slew := rfl
@[simp] theorem State.setHam_pkge (s : State) (h : Nat) (x : Hamlet) : (s.setHam h x).pkge = s.pkge := rfl
@[simp] theorem State.setHam_capP (s : State) (h : Nat) (x : Hamlet) : (s.setHam h x).capP = s.capP := rfl
@[simp] theorem State.setHam_sensors (s : State) (h : Nat) (x : Hamlet) : (s.setHam h x).sensors = s.sensors := rfl
@[simp] theorem State.setHam_parishes (s : State) (h : Nat) (x : Hamlet) : (s.setHam h x).parishes = s.parishes := rfl
@[simp] theorem State.setHam_inrush (s : State) (h : Nat) (x : Hamlet) : (s.setHam h x).inrush = s.inrush := rfl
@[simp] theorem State.setHam_quads (s : State) (h : Nat) (x : Hamlet) : (s.setHam h x).quads = s.quads := rfl
@[simp] theorem State.setHam_hbm (s : State) (h : Nat) (x : Hamlet) : (s.setHam h x).hbm = s.hbm := rfl
@[simp] theorem State.setHam_alog (s : State) (h : Nat) (x : Hamlet) : (s.setHam h x).alog = s.alog := rfl
@[simp] theorem State.setHam_blog (s : State) (h : Nat) (x : Hamlet) : (s.setHam h x).blog = s.blog := rfl
@[simp] theorem State.setHam_elog (s : State) (h : Nat) (x : Hamlet) : (s.setHam h x).elog = s.elog := rfl
@[simp] theorem State.setHam_boot (s : State) (h : Nat) (x : Hamlet) : (s.setHam h x).boot = s.boot := rfl
@[simp] theorem State.setHam_manor (s : State) (h : Nat) (x : Hamlet) : (s.setHam h x).manor = s.manor := rfl
@[simp] theorem State.setHam_inReset (s : State) (h : Nat) (x : Hamlet) : (s.setHam h x).inReset = s.inReset := rfl
@[simp] theorem State.setHam_flash (s : State) (h : Nat) (x : Hamlet) : (s.setHam h x).flash = s.flash := rfl
@[simp] theorem State.setHam_dma (s : State) (h : Nat) (x : Hamlet) : (s.setHam h x).dma = s.dma := rfl
@[simp] theorem State.setHam_ualDown (s : State) (h : Nat) (x : Hamlet) : (s.setHam h x).ualDown = s.ualDown := rfl
@[simp] theorem State.setHam_eth (s : State) (h : Nat) (x : Hamlet) : (s.setHam h x).eth = s.eth := rfl
@[simp] theorem State.setHam_out (s : State) (h : Nat) (x : Hamlet) : (s.setHam h x).out = s.out := rfl
@[simp] theorem State.setHam_off (s : State) (h : Nat) (x : Hamlet) : (s.setHam h x).off = s.off := rfl
@[simp] theorem State.setHam_darkQuads (s : State) (h : Nat) (x : Hamlet) : (s.setHam h x).darkQuads = s.darkQuads := rfl
@[simp] theorem State.setHam_waiting (s : State) (h : Nat) (x : Hamlet) : (s.setHam h x).waiting = s.waiting := rfl
@[simp] theorem State.setHam_again (s : State) (h : Nat) (x : Hamlet) : (s.setHam h x).again = s.again := rfl
@[simp] theorem State.setHam_partly (s : State) (h : Nat) (x : Hamlet) : (s.setHam h x).partly = s.partly := rfl
@[simp] theorem State.setHam_devQ (s : State) (h : Nat) (x : Hamlet) : (s.setHam h x).devQ = s.devQ := rfl
@[simp] theorem State.setHam_freeN (s : State) (h : Nat) (x : Hamlet) : (s.setHam h x).freeN = s.freeN := rfl

/-! ### `State.setElem` -/

@[simp] theorem State.setElem_cycle (s : State) (h n : Nat) (e : Elem) : (s.setElem h n e).cycle = s.cycle := rfl
@[simp] theorem State.setElem_agenda (s : State) (h n : Nat) (e : Elem) : (s.setElem h n e).agenda = s.agenda := rfl
@[simp] theorem State.setElem_core (s : State) (h n : Nat) (e : Elem) : (s.setElem h n e).core = s.core := rfl
@[simp] theorem State.setElem_curH (s : State) (h n : Nat) (e : Elem) : (s.setElem h n e).curH = s.curH := rfl
@[simp] theorem State.setElem_curSite (s : State) (h n : Nat) (e : Elem) : (s.setElem h n e).curSite = s.curSite := rfl
@[simp] theorem State.setElem_curSlot (s : State) (h n : Nat) (e : Elem) : (s.setElem h n e).curSlot = s.curSlot := rfl
@[simp] theorem State.setElem_mem (s : State) (h n : Nat) (e : Elem) : (s.setElem h n e).mem = s.mem := rfl
@[simp] theorem State.setElem_pres (s : State) (h n : Nat) (e : Elem) : (s.setElem h n e).pres = s.pres := rfl
@[simp] theorem State.setElem_ecc (s : State) (h n : Nat) (e : Elem) : (s.setElem h n e).ecc = s.ecc := rfl
@[simp] theorem State.setElem_mem0 (s : State) (h n : Nat) (e : Elem) : (s.setElem h n e).mem0 = s.mem0 := rfl
@[simp] theorem State.setElem_pres0 (s : State) (h n : Nat) (e : Elem) : (s.setElem h n e).pres0 = s.pres0 := rfl
@[simp] theorem State.setElem_hamlets0 (s : State) (h n : Nat) (e : Elem) : (s.setElem h n e).hamlets0 = s.hamlets0 := rfl
@[simp] theorem State.setElem_itemWrites (s : State) (h n : Nat) (e : Elem) : (s.setElem h n e).itemWrites = s.itemWrites := rfl
@[simp] theorem State.setElem_regions (s : State) (h n : Nat) (e : Elem) : (s.setElem h n e).regions = s.regions := rfl
@[simp] theorem State.setElem_beadle (s : State) (h n : Nat) (e : Elem) : (s.setElem h n e).beadle = s.beadle := rfl
@[simp] theorem State.setElem_market (s : State) (h n : Nat) (e : Elem) : (s.setElem h n e).market = s.market := rfl
@[simp] theorem State.setElem_plimit (s : State) (h n : Nat) (e : Elem) : (s.setElem h n e).plimit = s.plimit := rfl
@[simp] theorem State.setElem_slew (s : State) (h n : Nat) (e : Elem) : (s.setElem h n e).slew = s.slew := rfl
@[simp] theorem State.setElem_pkge (s : State) (h n : Nat) (e : Elem) : (s.setElem h n e).pkge = s.pkge := rfl
@[simp] theorem State.setElem_capP (s : State) (h n : Nat) (e : Elem) : (s.setElem h n e).capP = s.capP := rfl
@[simp] theorem State.setElem_sensors (s : State) (h n : Nat) (e : Elem) : (s.setElem h n e).sensors = s.sensors := rfl
@[simp] theorem State.setElem_parishes (s : State) (h n : Nat) (e : Elem) : (s.setElem h n e).parishes = s.parishes := rfl
@[simp] theorem State.setElem_inrush (s : State) (h n : Nat) (e : Elem) : (s.setElem h n e).inrush = s.inrush := rfl
@[simp] theorem State.setElem_quads (s : State) (h n : Nat) (e : Elem) : (s.setElem h n e).quads = s.quads := rfl
@[simp] theorem State.setElem_hbm (s : State) (h n : Nat) (e : Elem) : (s.setElem h n e).hbm = s.hbm := rfl
@[simp] theorem State.setElem_alog (s : State) (h n : Nat) (e : Elem) : (s.setElem h n e).alog = s.alog := rfl
@[simp] theorem State.setElem_blog (s : State) (h n : Nat) (e : Elem) : (s.setElem h n e).blog = s.blog := rfl
@[simp] theorem State.setElem_elog (s : State) (h n : Nat) (e : Elem) : (s.setElem h n e).elog = s.elog := rfl
@[simp] theorem State.setElem_boot (s : State) (h n : Nat) (e : Elem) : (s.setElem h n e).boot = s.boot := rfl
@[simp] theorem State.setElem_manor (s : State) (h n : Nat) (e : Elem) : (s.setElem h n e).manor = s.manor := rfl
@[simp] theorem State.setElem_inReset (s : State) (h n : Nat) (e : Elem) : (s.setElem h n e).inReset = s.inReset := rfl
@[simp] theorem State.setElem_flash (s : State) (h n : Nat) (e : Elem) : (s.setElem h n e).flash = s.flash := rfl
@[simp] theorem State.setElem_dma (s : State) (h n : Nat) (e : Elem) : (s.setElem h n e).dma = s.dma := rfl
@[simp] theorem State.setElem_ualDown (s : State) (h n : Nat) (e : Elem) : (s.setElem h n e).ualDown = s.ualDown := rfl
@[simp] theorem State.setElem_eth (s : State) (h n : Nat) (e : Elem) : (s.setElem h n e).eth = s.eth := rfl
@[simp] theorem State.setElem_out (s : State) (h n : Nat) (e : Elem) : (s.setElem h n e).out = s.out := rfl
@[simp] theorem State.setElem_off (s : State) (h n : Nat) (e : Elem) : (s.setElem h n e).off = s.off := rfl
@[simp] theorem State.setElem_darkQuads (s : State) (h n : Nat) (e : Elem) : (s.setElem h n e).darkQuads = s.darkQuads := rfl
@[simp] theorem State.setElem_waiting (s : State) (h n : Nat) (e : Elem) : (s.setElem h n e).waiting = s.waiting := rfl
@[simp] theorem State.setElem_again (s : State) (h n : Nat) (e : Elem) : (s.setElem h n e).again = s.again := rfl
@[simp] theorem State.setElem_partly (s : State) (h n : Nat) (e : Elem) : (s.setElem h n e).partly = s.partly := rfl
@[simp] theorem State.setElem_devQ (s : State) (h n : Nat) (e : Elem) : (s.setElem h n e).devQ = s.devQ := rfl
@[simp] theorem State.setElem_freeN (s : State) (h n : Nat) (e : Elem) : (s.setElem h n e).freeN = s.freeN := rfl

/-! ### `State.setRegion` -/

@[simp] theorem State.setRegion_cycle (s : State) (f : Nat) (r : Region) : (s.setRegion f r).cycle = s.cycle := rfl
@[simp] theorem State.setRegion_agenda (s : State) (f : Nat) (r : Region) : (s.setRegion f r).agenda = s.agenda := rfl
@[simp] theorem State.setRegion_core (s : State) (f : Nat) (r : Region) : (s.setRegion f r).core = s.core := rfl
@[simp] theorem State.setRegion_curH (s : State) (f : Nat) (r : Region) : (s.setRegion f r).curH = s.curH := rfl
@[simp] theorem State.setRegion_curSite (s : State) (f : Nat) (r : Region) : (s.setRegion f r).curSite = s.curSite := rfl
@[simp] theorem State.setRegion_curSlot (s : State) (f : Nat) (r : Region) : (s.setRegion f r).curSlot = s.curSlot := rfl
@[simp] theorem State.setRegion_mem (s : State) (f : Nat) (r : Region) : (s.setRegion f r).mem = s.mem := rfl
@[simp] theorem State.setRegion_pres (s : State) (f : Nat) (r : Region) : (s.setRegion f r).pres = s.pres := rfl
@[simp] theorem State.setRegion_ecc (s : State) (f : Nat) (r : Region) : (s.setRegion f r).ecc = s.ecc := rfl
@[simp] theorem State.setRegion_hamlets (s : State) (f : Nat) (r : Region) : (s.setRegion f r).hamlets = s.hamlets := rfl
@[simp] theorem State.setRegion_mem0 (s : State) (f : Nat) (r : Region) : (s.setRegion f r).mem0 = s.mem0 := rfl
@[simp] theorem State.setRegion_pres0 (s : State) (f : Nat) (r : Region) : (s.setRegion f r).pres0 = s.pres0 := rfl
@[simp] theorem State.setRegion_hamlets0 (s : State) (f : Nat) (r : Region) : (s.setRegion f r).hamlets0 = s.hamlets0 := rfl
@[simp] theorem State.setRegion_itemWrites (s : State) (f : Nat) (r : Region) : (s.setRegion f r).itemWrites = s.itemWrites := rfl
@[simp] theorem State.setRegion_beadle (s : State) (f : Nat) (r : Region) : (s.setRegion f r).beadle = s.beadle := rfl
@[simp] theorem State.setRegion_market (s : State) (f : Nat) (r : Region) : (s.setRegion f r).market = s.market := rfl
@[simp] theorem State.setRegion_plimit (s : State) (f : Nat) (r : Region) : (s.setRegion f r).plimit = s.plimit := rfl
@[simp] theorem State.setRegion_slew (s : State) (f : Nat) (r : Region) : (s.setRegion f r).slew = s.slew := rfl
@[simp] theorem State.setRegion_pkge (s : State) (f : Nat) (r : Region) : (s.setRegion f r).pkge = s.pkge := rfl
@[simp] theorem State.setRegion_capP (s : State) (f : Nat) (r : Region) : (s.setRegion f r).capP = s.capP := rfl
@[simp] theorem State.setRegion_sensors (s : State) (f : Nat) (r : Region) : (s.setRegion f r).sensors = s.sensors := rfl
@[simp] theorem State.setRegion_parishes (s : State) (f : Nat) (r : Region) : (s.setRegion f r).parishes = s.parishes := rfl
@[simp] theorem State.setRegion_inrush (s : State) (f : Nat) (r : Region) : (s.setRegion f r).inrush = s.inrush := rfl
@[simp] theorem State.setRegion_quads (s : State) (f : Nat) (r : Region) : (s.setRegion f r).quads = s.quads := rfl
@[simp] theorem State.setRegion_hbm (s : State) (f : Nat) (r : Region) : (s.setRegion f r).hbm = s.hbm := rfl
@[simp] theorem State.setRegion_alog (s : State) (f : Nat) (r : Region) : (s.setRegion f r).alog = s.alog := rfl
@[simp] theorem State.setRegion_blog (s : State) (f : Nat) (r : Region) : (s.setRegion f r).blog = s.blog := rfl
@[simp] theorem State.setRegion_elog (s : State) (f : Nat) (r : Region) : (s.setRegion f r).elog = s.elog := rfl
@[simp] theorem State.setRegion_boot (s : State) (f : Nat) (r : Region) : (s.setRegion f r).boot = s.boot := rfl
@[simp] theorem State.setRegion_manor (s : State) (f : Nat) (r : Region) : (s.setRegion f r).manor = s.manor := rfl
@[simp] theorem State.setRegion_inReset (s : State) (f : Nat) (r : Region) : (s.setRegion f r).inReset = s.inReset := rfl
@[simp] theorem State.setRegion_flash (s : State) (f : Nat) (r : Region) : (s.setRegion f r).flash = s.flash := rfl
@[simp] theorem State.setRegion_dma (s : State) (f : Nat) (r : Region) : (s.setRegion f r).dma = s.dma := rfl
@[simp] theorem State.setRegion_ualDown (s : State) (f : Nat) (r : Region) : (s.setRegion f r).ualDown = s.ualDown := rfl
@[simp] theorem State.setRegion_eth (s : State) (f : Nat) (r : Region) : (s.setRegion f r).eth = s.eth := rfl
@[simp] theorem State.setRegion_out (s : State) (f : Nat) (r : Region) : (s.setRegion f r).out = s.out := rfl
@[simp] theorem State.setRegion_off (s : State) (f : Nat) (r : Region) : (s.setRegion f r).off = s.off := rfl
@[simp] theorem State.setRegion_darkQuads (s : State) (f : Nat) (r : Region) : (s.setRegion f r).darkQuads = s.darkQuads := rfl
@[simp] theorem State.setRegion_waiting (s : State) (f : Nat) (r : Region) : (s.setRegion f r).waiting = s.waiting := rfl
@[simp] theorem State.setRegion_again (s : State) (f : Nat) (r : Region) : (s.setRegion f r).again = s.again := rfl
@[simp] theorem State.setRegion_partly (s : State) (f : Nat) (r : Region) : (s.setRegion f r).partly = s.partly := rfl
@[simp] theorem State.setRegion_devQ (s : State) (f : Nat) (r : Region) : (s.setRegion f r).devQ = s.devQ := rfl
@[simp] theorem State.setRegion_freeN (s : State) (f : Nat) (r : Region) : (s.setRegion f r).freeN = s.freeN := rfl

/-! ### `State.setParish` -/

@[simp] theorem State.setParish_cycle (s : State) (p : Nat) (x : Parish) : (s.setParish p x).cycle = s.cycle := rfl
@[simp] theorem State.setParish_agenda (s : State) (p : Nat) (x : Parish) : (s.setParish p x).agenda = s.agenda := rfl
@[simp] theorem State.setParish_core (s : State) (p : Nat) (x : Parish) : (s.setParish p x).core = s.core := rfl
@[simp] theorem State.setParish_curH (s : State) (p : Nat) (x : Parish) : (s.setParish p x).curH = s.curH := rfl
@[simp] theorem State.setParish_curSite (s : State) (p : Nat) (x : Parish) : (s.setParish p x).curSite = s.curSite := rfl
@[simp] theorem State.setParish_curSlot (s : State) (p : Nat) (x : Parish) : (s.setParish p x).curSlot = s.curSlot := rfl
@[simp] theorem State.setParish_mem (s : State) (p : Nat) (x : Parish) : (s.setParish p x).mem = s.mem := rfl
@[simp] theorem State.setParish_pres (s : State) (p : Nat) (x : Parish) : (s.setParish p x).pres = s.pres := rfl
@[simp] theorem State.setParish_ecc (s : State) (p : Nat) (x : Parish) : (s.setParish p x).ecc = s.ecc := rfl
@[simp] theorem State.setParish_hamlets (s : State) (p : Nat) (x : Parish) : (s.setParish p x).hamlets = s.hamlets := rfl
@[simp] theorem State.setParish_mem0 (s : State) (p : Nat) (x : Parish) : (s.setParish p x).mem0 = s.mem0 := rfl
@[simp] theorem State.setParish_pres0 (s : State) (p : Nat) (x : Parish) : (s.setParish p x).pres0 = s.pres0 := rfl
@[simp] theorem State.setParish_hamlets0 (s : State) (p : Nat) (x : Parish) : (s.setParish p x).hamlets0 = s.hamlets0 := rfl
@[simp] theorem State.setParish_itemWrites (s : State) (p : Nat) (x : Parish) : (s.setParish p x).itemWrites = s.itemWrites := rfl
@[simp] theorem State.setParish_regions (s : State) (p : Nat) (x : Parish) : (s.setParish p x).regions = s.regions := rfl
@[simp] theorem State.setParish_beadle (s : State) (p : Nat) (x : Parish) : (s.setParish p x).beadle = s.beadle := rfl
@[simp] theorem State.setParish_market (s : State) (p : Nat) (x : Parish) : (s.setParish p x).market = s.market := rfl
@[simp] theorem State.setParish_plimit (s : State) (p : Nat) (x : Parish) : (s.setParish p x).plimit = s.plimit := rfl
@[simp] theorem State.setParish_slew (s : State) (p : Nat) (x : Parish) : (s.setParish p x).slew = s.slew := rfl
@[simp] theorem State.setParish_pkge (s : State) (p : Nat) (x : Parish) : (s.setParish p x).pkge = s.pkge := rfl
@[simp] theorem State.setParish_capP (s : State) (p : Nat) (x : Parish) : (s.setParish p x).capP = s.capP := rfl
@[simp] theorem State.setParish_sensors (s : State) (p : Nat) (x : Parish) : (s.setParish p x).sensors = s.sensors := rfl
@[simp] theorem State.setParish_inrush (s : State) (p : Nat) (x : Parish) : (s.setParish p x).inrush = s.inrush := rfl
@[simp] theorem State.setParish_quads (s : State) (p : Nat) (x : Parish) : (s.setParish p x).quads = s.quads := rfl
@[simp] theorem State.setParish_hbm (s : State) (p : Nat) (x : Parish) : (s.setParish p x).hbm = s.hbm := rfl
@[simp] theorem State.setParish_alog (s : State) (p : Nat) (x : Parish) : (s.setParish p x).alog = s.alog := rfl
@[simp] theorem State.setParish_blog (s : State) (p : Nat) (x : Parish) : (s.setParish p x).blog = s.blog := rfl
@[simp] theorem State.setParish_elog (s : State) (p : Nat) (x : Parish) : (s.setParish p x).elog = s.elog := rfl
@[simp] theorem State.setParish_boot (s : State) (p : Nat) (x : Parish) : (s.setParish p x).boot = s.boot := rfl
@[simp] theorem State.setParish_manor (s : State) (p : Nat) (x : Parish) : (s.setParish p x).manor = s.manor := rfl
@[simp] theorem State.setParish_inReset (s : State) (p : Nat) (x : Parish) : (s.setParish p x).inReset = s.inReset := rfl
@[simp] theorem State.setParish_flash (s : State) (p : Nat) (x : Parish) : (s.setParish p x).flash = s.flash := rfl
@[simp] theorem State.setParish_dma (s : State) (p : Nat) (x : Parish) : (s.setParish p x).dma = s.dma := rfl
@[simp] theorem State.setParish_ualDown (s : State) (p : Nat) (x : Parish) : (s.setParish p x).ualDown = s.ualDown := rfl
@[simp] theorem State.setParish_eth (s : State) (p : Nat) (x : Parish) : (s.setParish p x).eth = s.eth := rfl
@[simp] theorem State.setParish_out (s : State) (p : Nat) (x : Parish) : (s.setParish p x).out = s.out := rfl
@[simp] theorem State.setParish_off (s : State) (p : Nat) (x : Parish) : (s.setParish p x).off = s.off := rfl
@[simp] theorem State.setParish_darkQuads (s : State) (p : Nat) (x : Parish) : (s.setParish p x).darkQuads = s.darkQuads := rfl
@[simp] theorem State.setParish_waiting (s : State) (p : Nat) (x : Parish) : (s.setParish p x).waiting = s.waiting := rfl
@[simp] theorem State.setParish_again (s : State) (p : Nat) (x : Parish) : (s.setParish p x).again = s.again := rfl
@[simp] theorem State.setParish_partly (s : State) (p : Nat) (x : Parish) : (s.setParish p x).partly = s.partly := rfl
@[simp] theorem State.setParish_devQ (s : State) (p : Nat) (x : Parish) : (s.setParish p x).devQ = s.devQ := rfl
@[simp] theorem State.setParish_freeN (s : State) (p : Nat) (x : Parish) : (s.setParish p x).freeN = s.freeN := rfl

/-! ### `State.setQuad` -/

@[simp] theorem State.setQuad_cycle (s : State) (q : Nat) (x : Quad) : (s.setQuad q x).cycle = s.cycle := rfl
@[simp] theorem State.setQuad_agenda (s : State) (q : Nat) (x : Quad) : (s.setQuad q x).agenda = s.agenda := rfl
@[simp] theorem State.setQuad_core (s : State) (q : Nat) (x : Quad) : (s.setQuad q x).core = s.core := rfl
@[simp] theorem State.setQuad_curH (s : State) (q : Nat) (x : Quad) : (s.setQuad q x).curH = s.curH := rfl
@[simp] theorem State.setQuad_curSite (s : State) (q : Nat) (x : Quad) : (s.setQuad q x).curSite = s.curSite := rfl
@[simp] theorem State.setQuad_curSlot (s : State) (q : Nat) (x : Quad) : (s.setQuad q x).curSlot = s.curSlot := rfl
@[simp] theorem State.setQuad_mem (s : State) (q : Nat) (x : Quad) : (s.setQuad q x).mem = s.mem := rfl
@[simp] theorem State.setQuad_pres (s : State) (q : Nat) (x : Quad) : (s.setQuad q x).pres = s.pres := rfl
@[simp] theorem State.setQuad_ecc (s : State) (q : Nat) (x : Quad) : (s.setQuad q x).ecc = s.ecc := rfl
@[simp] theorem State.setQuad_hamlets (s : State) (q : Nat) (x : Quad) : (s.setQuad q x).hamlets = s.hamlets := rfl
@[simp] theorem State.setQuad_mem0 (s : State) (q : Nat) (x : Quad) : (s.setQuad q x).mem0 = s.mem0 := rfl
@[simp] theorem State.setQuad_pres0 (s : State) (q : Nat) (x : Quad) : (s.setQuad q x).pres0 = s.pres0 := rfl
@[simp] theorem State.setQuad_hamlets0 (s : State) (q : Nat) (x : Quad) : (s.setQuad q x).hamlets0 = s.hamlets0 := rfl
@[simp] theorem State.setQuad_itemWrites (s : State) (q : Nat) (x : Quad) : (s.setQuad q x).itemWrites = s.itemWrites := rfl
@[simp] theorem State.setQuad_regions (s : State) (q : Nat) (x : Quad) : (s.setQuad q x).regions = s.regions := rfl
@[simp] theorem State.setQuad_beadle (s : State) (q : Nat) (x : Quad) : (s.setQuad q x).beadle = s.beadle := rfl
@[simp] theorem State.setQuad_market (s : State) (q : Nat) (x : Quad) : (s.setQuad q x).market = s.market := rfl
@[simp] theorem State.setQuad_plimit (s : State) (q : Nat) (x : Quad) : (s.setQuad q x).plimit = s.plimit := rfl
@[simp] theorem State.setQuad_slew (s : State) (q : Nat) (x : Quad) : (s.setQuad q x).slew = s.slew := rfl
@[simp] theorem State.setQuad_pkge (s : State) (q : Nat) (x : Quad) : (s.setQuad q x).pkge = s.pkge := rfl
@[simp] theorem State.setQuad_capP (s : State) (q : Nat) (x : Quad) : (s.setQuad q x).capP = s.capP := rfl
@[simp] theorem State.setQuad_sensors (s : State) (q : Nat) (x : Quad) : (s.setQuad q x).sensors = s.sensors := rfl
@[simp] theorem State.setQuad_parishes (s : State) (q : Nat) (x : Quad) : (s.setQuad q x).parishes = s.parishes := rfl
@[simp] theorem State.setQuad_inrush (s : State) (q : Nat) (x : Quad) : (s.setQuad q x).inrush = s.inrush := rfl
@[simp] theorem State.setQuad_hbm (s : State) (q : Nat) (x : Quad) : (s.setQuad q x).hbm = s.hbm := rfl
@[simp] theorem State.setQuad_alog (s : State) (q : Nat) (x : Quad) : (s.setQuad q x).alog = s.alog := rfl
@[simp] theorem State.setQuad_blog (s : State) (q : Nat) (x : Quad) : (s.setQuad q x).blog = s.blog := rfl
@[simp] theorem State.setQuad_elog (s : State) (q : Nat) (x : Quad) : (s.setQuad q x).elog = s.elog := rfl
@[simp] theorem State.setQuad_boot (s : State) (q : Nat) (x : Quad) : (s.setQuad q x).boot = s.boot := rfl
@[simp] theorem State.setQuad_manor (s : State) (q : Nat) (x : Quad) : (s.setQuad q x).manor = s.manor := rfl
@[simp] theorem State.setQuad_inReset (s : State) (q : Nat) (x : Quad) : (s.setQuad q x).inReset = s.inReset := rfl
@[simp] theorem State.setQuad_flash (s : State) (q : Nat) (x : Quad) : (s.setQuad q x).flash = s.flash := rfl
@[simp] theorem State.setQuad_dma (s : State) (q : Nat) (x : Quad) : (s.setQuad q x).dma = s.dma := rfl
@[simp] theorem State.setQuad_ualDown (s : State) (q : Nat) (x : Quad) : (s.setQuad q x).ualDown = s.ualDown := rfl
@[simp] theorem State.setQuad_eth (s : State) (q : Nat) (x : Quad) : (s.setQuad q x).eth = s.eth := rfl
@[simp] theorem State.setQuad_out (s : State) (q : Nat) (x : Quad) : (s.setQuad q x).out = s.out := rfl
@[simp] theorem State.setQuad_off (s : State) (q : Nat) (x : Quad) : (s.setQuad q x).off = s.off := rfl
@[simp] theorem State.setQuad_darkQuads (s : State) (q : Nat) (x : Quad) : (s.setQuad q x).darkQuads = s.darkQuads := rfl
@[simp] theorem State.setQuad_waiting (s : State) (q : Nat) (x : Quad) : (s.setQuad q x).waiting = s.waiting := rfl
@[simp] theorem State.setQuad_again (s : State) (q : Nat) (x : Quad) : (s.setQuad q x).again = s.again := rfl
@[simp] theorem State.setQuad_partly (s : State) (q : Nat) (x : Quad) : (s.setQuad q x).partly = s.partly := rfl
@[simp] theorem State.setQuad_devQ (s : State) (q : Nat) (x : Quad) : (s.setQuad q x).devQ = s.devQ := rfl
@[simp] theorem State.setQuad_freeN (s : State) (q : Nat) (x : Quad) : (s.setQuad q x).freeN = s.freeN := rfl

/-! ### `State.setStack` -/

@[simp] theorem State.setStack_cycle (s : State) (k : Nat) (x : Stack) : (s.setStack k x).cycle = s.cycle := rfl
@[simp] theorem State.setStack_agenda (s : State) (k : Nat) (x : Stack) : (s.setStack k x).agenda = s.agenda := rfl
@[simp] theorem State.setStack_core (s : State) (k : Nat) (x : Stack) : (s.setStack k x).core = s.core := rfl
@[simp] theorem State.setStack_curH (s : State) (k : Nat) (x : Stack) : (s.setStack k x).curH = s.curH := rfl
@[simp] theorem State.setStack_curSite (s : State) (k : Nat) (x : Stack) : (s.setStack k x).curSite = s.curSite := rfl
@[simp] theorem State.setStack_curSlot (s : State) (k : Nat) (x : Stack) : (s.setStack k x).curSlot = s.curSlot := rfl
@[simp] theorem State.setStack_mem (s : State) (k : Nat) (x : Stack) : (s.setStack k x).mem = s.mem := rfl
@[simp] theorem State.setStack_pres (s : State) (k : Nat) (x : Stack) : (s.setStack k x).pres = s.pres := rfl
@[simp] theorem State.setStack_ecc (s : State) (k : Nat) (x : Stack) : (s.setStack k x).ecc = s.ecc := rfl
@[simp] theorem State.setStack_hamlets (s : State) (k : Nat) (x : Stack) : (s.setStack k x).hamlets = s.hamlets := rfl
@[simp] theorem State.setStack_mem0 (s : State) (k : Nat) (x : Stack) : (s.setStack k x).mem0 = s.mem0 := rfl
@[simp] theorem State.setStack_pres0 (s : State) (k : Nat) (x : Stack) : (s.setStack k x).pres0 = s.pres0 := rfl
@[simp] theorem State.setStack_hamlets0 (s : State) (k : Nat) (x : Stack) : (s.setStack k x).hamlets0 = s.hamlets0 := rfl
@[simp] theorem State.setStack_itemWrites (s : State) (k : Nat) (x : Stack) : (s.setStack k x).itemWrites = s.itemWrites := rfl
@[simp] theorem State.setStack_regions (s : State) (k : Nat) (x : Stack) : (s.setStack k x).regions = s.regions := rfl
@[simp] theorem State.setStack_beadle (s : State) (k : Nat) (x : Stack) : (s.setStack k x).beadle = s.beadle := rfl
@[simp] theorem State.setStack_market (s : State) (k : Nat) (x : Stack) : (s.setStack k x).market = s.market := rfl
@[simp] theorem State.setStack_plimit (s : State) (k : Nat) (x : Stack) : (s.setStack k x).plimit = s.plimit := rfl
@[simp] theorem State.setStack_slew (s : State) (k : Nat) (x : Stack) : (s.setStack k x).slew = s.slew := rfl
@[simp] theorem State.setStack_pkge (s : State) (k : Nat) (x : Stack) : (s.setStack k x).pkge = s.pkge := rfl
@[simp] theorem State.setStack_capP (s : State) (k : Nat) (x : Stack) : (s.setStack k x).capP = s.capP := rfl
@[simp] theorem State.setStack_sensors (s : State) (k : Nat) (x : Stack) : (s.setStack k x).sensors = s.sensors := rfl
@[simp] theorem State.setStack_parishes (s : State) (k : Nat) (x : Stack) : (s.setStack k x).parishes = s.parishes := rfl
@[simp] theorem State.setStack_inrush (s : State) (k : Nat) (x : Stack) : (s.setStack k x).inrush = s.inrush := rfl
@[simp] theorem State.setStack_quads (s : State) (k : Nat) (x : Stack) : (s.setStack k x).quads = s.quads := rfl
@[simp] theorem State.setStack_alog (s : State) (k : Nat) (x : Stack) : (s.setStack k x).alog = s.alog := rfl
@[simp] theorem State.setStack_blog (s : State) (k : Nat) (x : Stack) : (s.setStack k x).blog = s.blog := rfl
@[simp] theorem State.setStack_elog (s : State) (k : Nat) (x : Stack) : (s.setStack k x).elog = s.elog := rfl
@[simp] theorem State.setStack_boot (s : State) (k : Nat) (x : Stack) : (s.setStack k x).boot = s.boot := rfl
@[simp] theorem State.setStack_manor (s : State) (k : Nat) (x : Stack) : (s.setStack k x).manor = s.manor := rfl
@[simp] theorem State.setStack_inReset (s : State) (k : Nat) (x : Stack) : (s.setStack k x).inReset = s.inReset := rfl
@[simp] theorem State.setStack_flash (s : State) (k : Nat) (x : Stack) : (s.setStack k x).flash = s.flash := rfl
@[simp] theorem State.setStack_dma (s : State) (k : Nat) (x : Stack) : (s.setStack k x).dma = s.dma := rfl
@[simp] theorem State.setStack_ualDown (s : State) (k : Nat) (x : Stack) : (s.setStack k x).ualDown = s.ualDown := rfl
@[simp] theorem State.setStack_eth (s : State) (k : Nat) (x : Stack) : (s.setStack k x).eth = s.eth := rfl
@[simp] theorem State.setStack_out (s : State) (k : Nat) (x : Stack) : (s.setStack k x).out = s.out := rfl
@[simp] theorem State.setStack_off (s : State) (k : Nat) (x : Stack) : (s.setStack k x).off = s.off := rfl
@[simp] theorem State.setStack_darkQuads (s : State) (k : Nat) (x : Stack) : (s.setStack k x).darkQuads = s.darkQuads := rfl
@[simp] theorem State.setStack_waiting (s : State) (k : Nat) (x : Stack) : (s.setStack k x).waiting = s.waiting := rfl
@[simp] theorem State.setStack_again (s : State) (k : Nat) (x : Stack) : (s.setStack k x).again = s.again := rfl
@[simp] theorem State.setStack_partly (s : State) (k : Nat) (x : Stack) : (s.setStack k x).partly = s.partly := rfl
@[simp] theorem State.setStack_devQ (s : State) (k : Nat) (x : Stack) : (s.setStack k x).devQ = s.devQ := rfl
@[simp] theorem State.setStack_freeN (s : State) (k : Nat) (x : Stack) : (s.setStack k x).freeN = s.freeN := rfl

/-! ### `State.setQueue` -/

@[simp] theorem State.setQueue_cycle (s : State) (q : Nat) (x : MQ) : (s.setQueue q x).cycle = s.cycle := rfl
@[simp] theorem State.setQueue_agenda (s : State) (q : Nat) (x : MQ) : (s.setQueue q x).agenda = s.agenda := rfl
@[simp] theorem State.setQueue_core (s : State) (q : Nat) (x : MQ) : (s.setQueue q x).core = s.core := rfl
@[simp] theorem State.setQueue_curH (s : State) (q : Nat) (x : MQ) : (s.setQueue q x).curH = s.curH := rfl
@[simp] theorem State.setQueue_curSite (s : State) (q : Nat) (x : MQ) : (s.setQueue q x).curSite = s.curSite := rfl
@[simp] theorem State.setQueue_curSlot (s : State) (q : Nat) (x : MQ) : (s.setQueue q x).curSlot = s.curSlot := rfl
@[simp] theorem State.setQueue_mem (s : State) (q : Nat) (x : MQ) : (s.setQueue q x).mem = s.mem := rfl
@[simp] theorem State.setQueue_pres (s : State) (q : Nat) (x : MQ) : (s.setQueue q x).pres = s.pres := rfl
@[simp] theorem State.setQueue_ecc (s : State) (q : Nat) (x : MQ) : (s.setQueue q x).ecc = s.ecc := rfl
@[simp] theorem State.setQueue_hamlets (s : State) (q : Nat) (x : MQ) : (s.setQueue q x).hamlets = s.hamlets := rfl
@[simp] theorem State.setQueue_mem0 (s : State) (q : Nat) (x : MQ) : (s.setQueue q x).mem0 = s.mem0 := rfl
@[simp] theorem State.setQueue_pres0 (s : State) (q : Nat) (x : MQ) : (s.setQueue q x).pres0 = s.pres0 := rfl
@[simp] theorem State.setQueue_hamlets0 (s : State) (q : Nat) (x : MQ) : (s.setQueue q x).hamlets0 = s.hamlets0 := rfl
@[simp] theorem State.setQueue_itemWrites (s : State) (q : Nat) (x : MQ) : (s.setQueue q x).itemWrites = s.itemWrites := rfl
@[simp] theorem State.setQueue_regions (s : State) (q : Nat) (x : MQ) : (s.setQueue q x).regions = s.regions := rfl
@[simp] theorem State.setQueue_beadle (s : State) (q : Nat) (x : MQ) : (s.setQueue q x).beadle = s.beadle := rfl
@[simp] theorem State.setQueue_plimit (s : State) (q : Nat) (x : MQ) : (s.setQueue q x).plimit = s.plimit := rfl
@[simp] theorem State.setQueue_slew (s : State) (q : Nat) (x : MQ) : (s.setQueue q x).slew = s.slew := rfl
@[simp] theorem State.setQueue_pkge (s : State) (q : Nat) (x : MQ) : (s.setQueue q x).pkge = s.pkge := rfl
@[simp] theorem State.setQueue_capP (s : State) (q : Nat) (x : MQ) : (s.setQueue q x).capP = s.capP := rfl
@[simp] theorem State.setQueue_sensors (s : State) (q : Nat) (x : MQ) : (s.setQueue q x).sensors = s.sensors := rfl
@[simp] theorem State.setQueue_parishes (s : State) (q : Nat) (x : MQ) : (s.setQueue q x).parishes = s.parishes := rfl
@[simp] theorem State.setQueue_inrush (s : State) (q : Nat) (x : MQ) : (s.setQueue q x).inrush = s.inrush := rfl
@[simp] theorem State.setQueue_quads (s : State) (q : Nat) (x : MQ) : (s.setQueue q x).quads = s.quads := rfl
@[simp] theorem State.setQueue_hbm (s : State) (q : Nat) (x : MQ) : (s.setQueue q x).hbm = s.hbm := rfl
@[simp] theorem State.setQueue_alog (s : State) (q : Nat) (x : MQ) : (s.setQueue q x).alog = s.alog := rfl
@[simp] theorem State.setQueue_blog (s : State) (q : Nat) (x : MQ) : (s.setQueue q x).blog = s.blog := rfl
@[simp] theorem State.setQueue_elog (s : State) (q : Nat) (x : MQ) : (s.setQueue q x).elog = s.elog := rfl
@[simp] theorem State.setQueue_boot (s : State) (q : Nat) (x : MQ) : (s.setQueue q x).boot = s.boot := rfl
@[simp] theorem State.setQueue_manor (s : State) (q : Nat) (x : MQ) : (s.setQueue q x).manor = s.manor := rfl
@[simp] theorem State.setQueue_inReset (s : State) (q : Nat) (x : MQ) : (s.setQueue q x).inReset = s.inReset := rfl
@[simp] theorem State.setQueue_flash (s : State) (q : Nat) (x : MQ) : (s.setQueue q x).flash = s.flash := rfl
@[simp] theorem State.setQueue_dma (s : State) (q : Nat) (x : MQ) : (s.setQueue q x).dma = s.dma := rfl
@[simp] theorem State.setQueue_ualDown (s : State) (q : Nat) (x : MQ) : (s.setQueue q x).ualDown = s.ualDown := rfl
@[simp] theorem State.setQueue_eth (s : State) (q : Nat) (x : MQ) : (s.setQueue q x).eth = s.eth := rfl
@[simp] theorem State.setQueue_out (s : State) (q : Nat) (x : MQ) : (s.setQueue q x).out = s.out := rfl
@[simp] theorem State.setQueue_off (s : State) (q : Nat) (x : MQ) : (s.setQueue q x).off = s.off := rfl
@[simp] theorem State.setQueue_darkQuads (s : State) (q : Nat) (x : MQ) : (s.setQueue q x).darkQuads = s.darkQuads := rfl
@[simp] theorem State.setQueue_waiting (s : State) (q : Nat) (x : MQ) : (s.setQueue q x).waiting = s.waiting := rfl
@[simp] theorem State.setQueue_again (s : State) (q : Nat) (x : MQ) : (s.setQueue q x).again = s.again := rfl
@[simp] theorem State.setQueue_partly (s : State) (q : Nat) (x : MQ) : (s.setQueue q x).partly = s.partly := rfl
@[simp] theorem State.setQueue_devQ (s : State) (q : Nat) (x : MQ) : (s.setQueue q x).devQ = s.devQ := rfl
@[simp] theorem State.setQueue_freeN (s : State) (q : Nat) (x : MQ) : (s.setQueue q x).freeN = s.freeN := rfl

/-! ### `State.setPresent` -/

@[simp] theorem State.setPresent_cycle (s : State) (a : Nat) (b : Bool) : (s.setPresent a b).cycle = s.cycle := rfl
@[simp] theorem State.setPresent_agenda (s : State) (a : Nat) (b : Bool) : (s.setPresent a b).agenda = s.agenda := rfl
@[simp] theorem State.setPresent_core (s : State) (a : Nat) (b : Bool) : (s.setPresent a b).core = s.core := rfl
@[simp] theorem State.setPresent_curH (s : State) (a : Nat) (b : Bool) : (s.setPresent a b).curH = s.curH := rfl
@[simp] theorem State.setPresent_curSite (s : State) (a : Nat) (b : Bool) : (s.setPresent a b).curSite = s.curSite := rfl
@[simp] theorem State.setPresent_curSlot (s : State) (a : Nat) (b : Bool) : (s.setPresent a b).curSlot = s.curSlot := rfl
@[simp] theorem State.setPresent_mem (s : State) (a : Nat) (b : Bool) : (s.setPresent a b).mem = s.mem := rfl
@[simp] theorem State.setPresent_ecc (s : State) (a : Nat) (b : Bool) : (s.setPresent a b).ecc = s.ecc := rfl
@[simp] theorem State.setPresent_hamlets (s : State) (a : Nat) (b : Bool) : (s.setPresent a b).hamlets = s.hamlets := rfl
@[simp] theorem State.setPresent_mem0 (s : State) (a : Nat) (b : Bool) : (s.setPresent a b).mem0 = s.mem0 := rfl
@[simp] theorem State.setPresent_pres0 (s : State) (a : Nat) (b : Bool) : (s.setPresent a b).pres0 = s.pres0 := rfl
@[simp] theorem State.setPresent_hamlets0 (s : State) (a : Nat) (b : Bool) : (s.setPresent a b).hamlets0 = s.hamlets0 := rfl
@[simp] theorem State.setPresent_itemWrites (s : State) (a : Nat) (b : Bool) : (s.setPresent a b).itemWrites = s.itemWrites := rfl
@[simp] theorem State.setPresent_regions (s : State) (a : Nat) (b : Bool) : (s.setPresent a b).regions = s.regions := rfl
@[simp] theorem State.setPresent_beadle (s : State) (a : Nat) (b : Bool) : (s.setPresent a b).beadle = s.beadle := rfl
@[simp] theorem State.setPresent_market (s : State) (a : Nat) (b : Bool) : (s.setPresent a b).market = s.market := rfl
@[simp] theorem State.setPresent_plimit (s : State) (a : Nat) (b : Bool) : (s.setPresent a b).plimit = s.plimit := rfl
@[simp] theorem State.setPresent_slew (s : State) (a : Nat) (b : Bool) : (s.setPresent a b).slew = s.slew := rfl
@[simp] theorem State.setPresent_pkge (s : State) (a : Nat) (b : Bool) : (s.setPresent a b).pkge = s.pkge := rfl
@[simp] theorem State.setPresent_capP (s : State) (a : Nat) (b : Bool) : (s.setPresent a b).capP = s.capP := rfl
@[simp] theorem State.setPresent_sensors (s : State) (a : Nat) (b : Bool) : (s.setPresent a b).sensors = s.sensors := rfl
@[simp] theorem State.setPresent_parishes (s : State) (a : Nat) (b : Bool) : (s.setPresent a b).parishes = s.parishes := rfl
@[simp] theorem State.setPresent_inrush (s : State) (a : Nat) (b : Bool) : (s.setPresent a b).inrush = s.inrush := rfl
@[simp] theorem State.setPresent_quads (s : State) (a : Nat) (b : Bool) : (s.setPresent a b).quads = s.quads := rfl
@[simp] theorem State.setPresent_hbm (s : State) (a : Nat) (b : Bool) : (s.setPresent a b).hbm = s.hbm := rfl
@[simp] theorem State.setPresent_alog (s : State) (a : Nat) (b : Bool) : (s.setPresent a b).alog = s.alog := rfl
@[simp] theorem State.setPresent_blog (s : State) (a : Nat) (b : Bool) : (s.setPresent a b).blog = s.blog := rfl
@[simp] theorem State.setPresent_elog (s : State) (a : Nat) (b : Bool) : (s.setPresent a b).elog = s.elog := rfl
@[simp] theorem State.setPresent_boot (s : State) (a : Nat) (b : Bool) : (s.setPresent a b).boot = s.boot := rfl
@[simp] theorem State.setPresent_manor (s : State) (a : Nat) (b : Bool) : (s.setPresent a b).manor = s.manor := rfl
@[simp] theorem State.setPresent_inReset (s : State) (a : Nat) (b : Bool) : (s.setPresent a b).inReset = s.inReset := rfl
@[simp] theorem State.setPresent_flash (s : State) (a : Nat) (b : Bool) : (s.setPresent a b).flash = s.flash := rfl
@[simp] theorem State.setPresent_dma (s : State) (a : Nat) (b : Bool) : (s.setPresent a b).dma = s.dma := rfl
@[simp] theorem State.setPresent_ualDown (s : State) (a : Nat) (b : Bool) : (s.setPresent a b).ualDown = s.ualDown := rfl
@[simp] theorem State.setPresent_eth (s : State) (a : Nat) (b : Bool) : (s.setPresent a b).eth = s.eth := rfl
@[simp] theorem State.setPresent_out (s : State) (a : Nat) (b : Bool) : (s.setPresent a b).out = s.out := rfl
@[simp] theorem State.setPresent_off (s : State) (a : Nat) (b : Bool) : (s.setPresent a b).off = s.off := rfl
@[simp] theorem State.setPresent_darkQuads (s : State) (a : Nat) (b : Bool) : (s.setPresent a b).darkQuads = s.darkQuads := rfl
@[simp] theorem State.setPresent_waiting (s : State) (a : Nat) (b : Bool) : (s.setPresent a b).waiting = s.waiting := rfl
@[simp] theorem State.setPresent_again (s : State) (a : Nat) (b : Bool) : (s.setPresent a b).again = s.again := rfl
@[simp] theorem State.setPresent_partly (s : State) (a : Nat) (b : Bool) : (s.setPresent a b).partly = s.partly := rfl
@[simp] theorem State.setPresent_devQ (s : State) (a : Nat) (b : Bool) : (s.setPresent a b).devQ = s.devQ := rfl
@[simp] theorem State.setPresent_freeN (s : State) (a : Nat) (b : Bool) : (s.setPresent a b).freeN = s.freeN := rfl

/-! ### `State.behind` -/

@[simp] theorem State.behind_cycle (s : State) (l : List Turn) : (s.behind l).cycle = s.cycle := rfl
@[simp] theorem State.behind_core (s : State) (l : List Turn) : (s.behind l).core = s.core := rfl
@[simp] theorem State.behind_curH (s : State) (l : List Turn) : (s.behind l).curH = s.curH := rfl
@[simp] theorem State.behind_curSite (s : State) (l : List Turn) : (s.behind l).curSite = s.curSite := rfl
@[simp] theorem State.behind_curSlot (s : State) (l : List Turn) : (s.behind l).curSlot = s.curSlot := rfl
@[simp] theorem State.behind_mem (s : State) (l : List Turn) : (s.behind l).mem = s.mem := rfl
@[simp] theorem State.behind_pres (s : State) (l : List Turn) : (s.behind l).pres = s.pres := rfl
@[simp] theorem State.behind_ecc (s : State) (l : List Turn) : (s.behind l).ecc = s.ecc := rfl
@[simp] theorem State.behind_hamlets (s : State) (l : List Turn) : (s.behind l).hamlets = s.hamlets := rfl
@[simp] theorem State.behind_mem0 (s : State) (l : List Turn) : (s.behind l).mem0 = s.mem0 := rfl
@[simp] theorem State.behind_pres0 (s : State) (l : List Turn) : (s.behind l).pres0 = s.pres0 := rfl
@[simp] theorem State.behind_hamlets0 (s : State) (l : List Turn) : (s.behind l).hamlets0 = s.hamlets0 := rfl
@[simp] theorem State.behind_itemWrites (s : State) (l : List Turn) : (s.behind l).itemWrites = s.itemWrites := rfl
@[simp] theorem State.behind_regions (s : State) (l : List Turn) : (s.behind l).regions = s.regions := rfl
@[simp] theorem State.behind_beadle (s : State) (l : List Turn) : (s.behind l).beadle = s.beadle := rfl
@[simp] theorem State.behind_market (s : State) (l : List Turn) : (s.behind l).market = s.market := rfl
@[simp] theorem State.behind_plimit (s : State) (l : List Turn) : (s.behind l).plimit = s.plimit := rfl
@[simp] theorem State.behind_slew (s : State) (l : List Turn) : (s.behind l).slew = s.slew := rfl
@[simp] theorem State.behind_pkge (s : State) (l : List Turn) : (s.behind l).pkge = s.pkge := rfl
@[simp] theorem State.behind_capP (s : State) (l : List Turn) : (s.behind l).capP = s.capP := rfl
@[simp] theorem State.behind_sensors (s : State) (l : List Turn) : (s.behind l).sensors = s.sensors := rfl
@[simp] theorem State.behind_parishes (s : State) (l : List Turn) : (s.behind l).parishes = s.parishes := rfl
@[simp] theorem State.behind_inrush (s : State) (l : List Turn) : (s.behind l).inrush = s.inrush := rfl
@[simp] theorem State.behind_quads (s : State) (l : List Turn) : (s.behind l).quads = s.quads := rfl
@[simp] theorem State.behind_hbm (s : State) (l : List Turn) : (s.behind l).hbm = s.hbm := rfl
@[simp] theorem State.behind_alog (s : State) (l : List Turn) : (s.behind l).alog = s.alog := rfl
@[simp] theorem State.behind_blog (s : State) (l : List Turn) : (s.behind l).blog = s.blog := rfl
@[simp] theorem State.behind_elog (s : State) (l : List Turn) : (s.behind l).elog = s.elog := rfl
@[simp] theorem State.behind_boot (s : State) (l : List Turn) : (s.behind l).boot = s.boot := rfl
@[simp] theorem State.behind_manor (s : State) (l : List Turn) : (s.behind l).manor = s.manor := rfl
@[simp] theorem State.behind_inReset (s : State) (l : List Turn) : (s.behind l).inReset = s.inReset := rfl
@[simp] theorem State.behind_flash (s : State) (l : List Turn) : (s.behind l).flash = s.flash := rfl
@[simp] theorem State.behind_dma (s : State) (l : List Turn) : (s.behind l).dma = s.dma := rfl
@[simp] theorem State.behind_ualDown (s : State) (l : List Turn) : (s.behind l).ualDown = s.ualDown := rfl
@[simp] theorem State.behind_eth (s : State) (l : List Turn) : (s.behind l).eth = s.eth := rfl
@[simp] theorem State.behind_out (s : State) (l : List Turn) : (s.behind l).out = s.out := rfl
@[simp] theorem State.behind_off (s : State) (l : List Turn) : (s.behind l).off = s.off := rfl
@[simp] theorem State.behind_darkQuads (s : State) (l : List Turn) : (s.behind l).darkQuads = s.darkQuads := rfl
@[simp] theorem State.behind_waiting (s : State) (l : List Turn) : (s.behind l).waiting = s.waiting := rfl
@[simp] theorem State.behind_again (s : State) (l : List Turn) : (s.behind l).again = s.again := rfl
@[simp] theorem State.behind_partly (s : State) (l : List Turn) : (s.behind l).partly = s.partly := rfl
@[simp] theorem State.behind_devQ (s : State) (l : List Turn) : (s.behind l).devQ = s.devQ := rfl
@[simp] theorem State.behind_freeN (s : State) (l : List Turn) : (s.behind l).freeN = s.freeN := rfl

/-! ### `State.atSlot` -/

@[simp] theorem State.atSlot_cycle (s : State) (h site n : Nat) : (s.atSlot h site n).cycle = s.cycle := rfl
@[simp] theorem State.atSlot_agenda (s : State) (h site n : Nat) : (s.atSlot h site n).agenda = s.agenda := rfl
@[simp] theorem State.atSlot_core (s : State) (h site n : Nat) : (s.atSlot h site n).core = s.core := rfl
@[simp] theorem State.atSlot_mem (s : State) (h site n : Nat) : (s.atSlot h site n).mem = s.mem := rfl
@[simp] theorem State.atSlot_pres (s : State) (h site n : Nat) : (s.atSlot h site n).pres = s.pres := rfl
@[simp] theorem State.atSlot_ecc (s : State) (h site n : Nat) : (s.atSlot h site n).ecc = s.ecc := rfl
@[simp] theorem State.atSlot_mem0 (s : State) (h site n : Nat) : (s.atSlot h site n).mem0 = s.mem0 := rfl
@[simp] theorem State.atSlot_pres0 (s : State) (h site n : Nat) : (s.atSlot h site n).pres0 = s.pres0 := rfl
@[simp] theorem State.atSlot_hamlets0 (s : State) (h site n : Nat) : (s.atSlot h site n).hamlets0 = s.hamlets0 := rfl
@[simp] theorem State.atSlot_itemWrites (s : State) (h site n : Nat) : (s.atSlot h site n).itemWrites = s.itemWrites := rfl
@[simp] theorem State.atSlot_regions (s : State) (h site n : Nat) : (s.atSlot h site n).regions = s.regions := rfl
@[simp] theorem State.atSlot_beadle (s : State) (h site n : Nat) : (s.atSlot h site n).beadle = s.beadle := rfl
@[simp] theorem State.atSlot_market (s : State) (h site n : Nat) : (s.atSlot h site n).market = s.market := rfl
@[simp] theorem State.atSlot_plimit (s : State) (h site n : Nat) : (s.atSlot h site n).plimit = s.plimit := rfl
@[simp] theorem State.atSlot_slew (s : State) (h site n : Nat) : (s.atSlot h site n).slew = s.slew := rfl
@[simp] theorem State.atSlot_pkge (s : State) (h site n : Nat) : (s.atSlot h site n).pkge = s.pkge := rfl
@[simp] theorem State.atSlot_capP (s : State) (h site n : Nat) : (s.atSlot h site n).capP = s.capP := rfl
@[simp] theorem State.atSlot_sensors (s : State) (h site n : Nat) : (s.atSlot h site n).sensors = s.sensors := rfl
@[simp] theorem State.atSlot_parishes (s : State) (h site n : Nat) : (s.atSlot h site n).parishes = s.parishes := rfl
@[simp] theorem State.atSlot_inrush (s : State) (h site n : Nat) : (s.atSlot h site n).inrush = s.inrush := rfl
@[simp] theorem State.atSlot_quads (s : State) (h site n : Nat) : (s.atSlot h site n).quads = s.quads := rfl
@[simp] theorem State.atSlot_hbm (s : State) (h site n : Nat) : (s.atSlot h site n).hbm = s.hbm := rfl
@[simp] theorem State.atSlot_alog (s : State) (h site n : Nat) : (s.atSlot h site n).alog = s.alog := rfl
@[simp] theorem State.atSlot_blog (s : State) (h site n : Nat) : (s.atSlot h site n).blog = s.blog := rfl
@[simp] theorem State.atSlot_elog (s : State) (h site n : Nat) : (s.atSlot h site n).elog = s.elog := rfl
@[simp] theorem State.atSlot_boot (s : State) (h site n : Nat) : (s.atSlot h site n).boot = s.boot := rfl
@[simp] theorem State.atSlot_manor (s : State) (h site n : Nat) : (s.atSlot h site n).manor = s.manor := rfl
@[simp] theorem State.atSlot_inReset (s : State) (h site n : Nat) : (s.atSlot h site n).inReset = s.inReset := rfl
@[simp] theorem State.atSlot_flash (s : State) (h site n : Nat) : (s.atSlot h site n).flash = s.flash := rfl
@[simp] theorem State.atSlot_dma (s : State) (h site n : Nat) : (s.atSlot h site n).dma = s.dma := rfl
@[simp] theorem State.atSlot_ualDown (s : State) (h site n : Nat) : (s.atSlot h site n).ualDown = s.ualDown := rfl
@[simp] theorem State.atSlot_eth (s : State) (h site n : Nat) : (s.atSlot h site n).eth = s.eth := rfl
@[simp] theorem State.atSlot_out (s : State) (h site n : Nat) : (s.atSlot h site n).out = s.out := rfl
@[simp] theorem State.atSlot_off (s : State) (h site n : Nat) : (s.atSlot h site n).off = s.off := rfl
@[simp] theorem State.atSlot_darkQuads (s : State) (h site n : Nat) : (s.atSlot h site n).darkQuads = s.darkQuads := rfl
@[simp] theorem State.atSlot_waiting (s : State) (h site n : Nat) : (s.atSlot h site n).waiting = s.waiting := rfl
@[simp] theorem State.atSlot_again (s : State) (h site n : Nat) : (s.atSlot h site n).again = s.again := rfl
@[simp] theorem State.atSlot_partly (s : State) (h site n : Nat) : (s.atSlot h site n).partly = s.partly := rfl
@[simp] theorem State.atSlot_devQ (s : State) (h site n : Nat) : (s.atSlot h site n).devQ = s.devQ := rfl
@[simp] theorem State.atSlot_freeN (s : State) (h site n : Nat) : (s.atSlot h site n).freeN = s.freeN := rfl

/-! ### `State.setCore` -/

@[simp] theorem State.setCore_cycle (s : State) (c : CoreId) (k : Core) : (s.setCore c k).cycle = s.cycle := by cases c <;> rfl
@[simp] theorem State.setCore_agenda (s : State) (c : CoreId) (k : Core) : (s.setCore c k).agenda = s.agenda := by cases c <;> rfl
@[simp] theorem State.setCore_core (s : State) (c : CoreId) (k : Core) : (s.setCore c k).core = s.core := by cases c <;> rfl
@[simp] theorem State.setCore_curH (s : State) (c : CoreId) (k : Core) : (s.setCore c k).curH = s.curH := by cases c <;> rfl
@[simp] theorem State.setCore_curSite (s : State) (c : CoreId) (k : Core) : (s.setCore c k).curSite = s.curSite := by cases c <;> rfl
@[simp] theorem State.setCore_curSlot (s : State) (c : CoreId) (k : Core) : (s.setCore c k).curSlot = s.curSlot := by cases c <;> rfl
@[simp] theorem State.setCore_mem (s : State) (c : CoreId) (k : Core) : (s.setCore c k).mem = s.mem := by cases c <;> rfl
@[simp] theorem State.setCore_pres (s : State) (c : CoreId) (k : Core) : (s.setCore c k).pres = s.pres := by cases c <;> rfl
@[simp] theorem State.setCore_ecc (s : State) (c : CoreId) (k : Core) : (s.setCore c k).ecc = s.ecc := by cases c <;> rfl
@[simp] theorem State.setCore_mem0 (s : State) (c : CoreId) (k : Core) : (s.setCore c k).mem0 = s.mem0 := by cases c <;> rfl
@[simp] theorem State.setCore_pres0 (s : State) (c : CoreId) (k : Core) : (s.setCore c k).pres0 = s.pres0 := by cases c <;> rfl
@[simp] theorem State.setCore_hamlets0 (s : State) (c : CoreId) (k : Core) : (s.setCore c k).hamlets0 = s.hamlets0 := by cases c <;> rfl
@[simp] theorem State.setCore_itemWrites (s : State) (c : CoreId) (k : Core) : (s.setCore c k).itemWrites = s.itemWrites := by cases c <;> rfl
@[simp] theorem State.setCore_regions (s : State) (c : CoreId) (k : Core) : (s.setCore c k).regions = s.regions := by cases c <;> rfl
@[simp] theorem State.setCore_market (s : State) (c : CoreId) (k : Core) : (s.setCore c k).market = s.market := by cases c <;> rfl
@[simp] theorem State.setCore_plimit (s : State) (c : CoreId) (k : Core) : (s.setCore c k).plimit = s.plimit := by cases c <;> rfl
@[simp] theorem State.setCore_slew (s : State) (c : CoreId) (k : Core) : (s.setCore c k).slew = s.slew := by cases c <;> rfl
@[simp] theorem State.setCore_pkge (s : State) (c : CoreId) (k : Core) : (s.setCore c k).pkge = s.pkge := by cases c <;> rfl
@[simp] theorem State.setCore_capP (s : State) (c : CoreId) (k : Core) : (s.setCore c k).capP = s.capP := by cases c <;> rfl
@[simp] theorem State.setCore_sensors (s : State) (c : CoreId) (k : Core) : (s.setCore c k).sensors = s.sensors := by cases c <;> rfl
@[simp] theorem State.setCore_parishes (s : State) (c : CoreId) (k : Core) : (s.setCore c k).parishes = s.parishes := by cases c <;> rfl
@[simp] theorem State.setCore_inrush (s : State) (c : CoreId) (k : Core) : (s.setCore c k).inrush = s.inrush := by cases c <;> rfl
@[simp] theorem State.setCore_quads (s : State) (c : CoreId) (k : Core) : (s.setCore c k).quads = s.quads := by cases c <;> rfl
@[simp] theorem State.setCore_hbm (s : State) (c : CoreId) (k : Core) : (s.setCore c k).hbm = s.hbm := by cases c <;> rfl
@[simp] theorem State.setCore_alog (s : State) (c : CoreId) (k : Core) : (s.setCore c k).alog = s.alog := by cases c <;> rfl
@[simp] theorem State.setCore_blog (s : State) (c : CoreId) (k : Core) : (s.setCore c k).blog = s.blog := by cases c <;> rfl
@[simp] theorem State.setCore_elog (s : State) (c : CoreId) (k : Core) : (s.setCore c k).elog = s.elog := by cases c <;> rfl
@[simp] theorem State.setCore_boot (s : State) (c : CoreId) (k : Core) : (s.setCore c k).boot = s.boot := by cases c <;> rfl
@[simp] theorem State.setCore_manor (s : State) (c : CoreId) (k : Core) : (s.setCore c k).manor = s.manor := by cases c <;> rfl
@[simp] theorem State.setCore_inReset (s : State) (c : CoreId) (k : Core) : (s.setCore c k).inReset = s.inReset := by cases c <;> rfl
@[simp] theorem State.setCore_flash (s : State) (c : CoreId) (k : Core) : (s.setCore c k).flash = s.flash := by cases c <;> rfl
@[simp] theorem State.setCore_dma (s : State) (c : CoreId) (k : Core) : (s.setCore c k).dma = s.dma := by cases c <;> rfl
@[simp] theorem State.setCore_ualDown (s : State) (c : CoreId) (k : Core) : (s.setCore c k).ualDown = s.ualDown := by cases c <;> rfl
@[simp] theorem State.setCore_eth (s : State) (c : CoreId) (k : Core) : (s.setCore c k).eth = s.eth := by cases c <;> rfl
@[simp] theorem State.setCore_out (s : State) (c : CoreId) (k : Core) : (s.setCore c k).out = s.out := by cases c <;> rfl
@[simp] theorem State.setCore_off (s : State) (c : CoreId) (k : Core) : (s.setCore c k).off = s.off := by cases c <;> rfl
@[simp] theorem State.setCore_darkQuads (s : State) (c : CoreId) (k : Core) : (s.setCore c k).darkQuads = s.darkQuads := by cases c <;> rfl
@[simp] theorem State.setCore_waiting (s : State) (c : CoreId) (k : Core) : (s.setCore c k).waiting = s.waiting := by cases c <;> rfl
@[simp] theorem State.setCore_again (s : State) (c : CoreId) (k : Core) : (s.setCore c k).again = s.again := by cases c <;> rfl
@[simp] theorem State.setCore_partly (s : State) (c : CoreId) (k : Core) : (s.setCore c k).partly = s.partly := by cases c <;> rfl
@[simp] theorem State.setCore_devQ (s : State) (c : CoreId) (k : Core) : (s.setCore c k).devQ = s.devQ := by cases c <;> rfl
@[simp] theorem State.setCore_freeN (s : State) (c : CoreId) (k : Core) : (s.setCore c k).freeN = s.freeN := by cases c <;> rfl

/-! ### Reading after a write -/

/-- A second write of an entry replaces the first. -/
@[simp] theorem tab_put_put {α : Type} (t : Tab α) (k : Nat) (v w : α) : Tab.put (Tab.put t k v) k w = Tab.put t k w := by
  induction t with
  | nil => simp [Tab.put]
  | cons p r ih =>
    obtain ⟨j, x⟩ := p
    by_cases h1 : k < j
    · simp [Tab.put, h1]
    · by_cases h2 : k = j
      · simp [Tab.put, h2]
      · simp [Tab.put, h1, h2, ih]

@[simp] theorem State.ham_setHam (s : State) (h : Nat) (x : Hamlet) : (s.setHam h x).ham h = x := by simp [State.ham, State.setHam]
theorem State.ham_setHam_ne (s : State) (h g : Nat) (x : Hamlet) (hg : g ≠ h) : (s.setHam h x).ham g = s.ham g :=
  Tab.get_put_ne _ _ _ _ _ hg
@[simp] theorem State.setHam_setHam (s : State) (h : Nat) (x y : Hamlet) : (s.setHam h x).setHam h y = s.setHam h y := by
  simp [State.setHam]
@[simp] theorem State.coreOf_setCore (s : State) (c : CoreId) (k : Core) : (s.setCore c k).coreOf c = k := by
  cases c <;> simp [State.setCore, State.coreOf]
theorem State.coreOf_setCore_ne (s : State) (c d : CoreId) (k : Core) (h : d ≠ c) : (s.setCore c k).coreOf d = s.coreOf d := by
  cases c with
  | beadle => cases d with
    | beadle => exact absurd rfl h
    | reeve g => rfl
  | reeve g => cases d with
    | beadle => rfl
    | reeve j =>
      show ((s.setHam g _).ham j).reeve = _
      rw [State.ham_setHam_ne _ _ _ _ fun e => h (by rw [e])]; rfl
@[simp] theorem State.setCore_setCore (s : State) (c : CoreId) (k k' : Core) : (s.setCore c k).setCore c k' = s.setCore c k' := by
  cases c <;> simp [State.setCore]
@[simp] theorem State.region_setRegion (s : State) (f : Nat) (r : Region) : (s.setRegion f r).region f = r := by
  simp [State.region, State.setRegion]
@[simp] theorem State.elem_setElem (s : State) (h n : Nat) (e : Elem) : (s.setElem h n e).elem h n = e := by
  simp [State.elem, State.setElem]
theorem State.elem_setElem_ne (s : State) (h n g m : Nat) (e : Elem) (hne : ¬ (g = h ∧ m = n)) : (s.setElem h n e).elem g m = s.elem g m := by
  by_cases hg : g = h
  · subst hg
    simp only [State.elem, State.setElem, State.ham_setHam]
    exact Tab.get_put_ne _ _ _ _ _ fun e => hne ⟨rfl, e⟩
  · simp only [State.elem, State.setElem, State.ham_setHam_ne _ _ _ _ hg]
@[simp] theorem State.quad_setQuad (s : State) (q : Nat) (x : Quad) : (s.setQuad q x).quad q = x := by simp [State.quad, State.setQuad]
@[simp] theorem State.parish_setParish (s : State) (p : Nat) (x : Parish) : (s.setParish p x).parish p = x := by
  simp [State.parish, State.setParish]
@[simp] theorem State.stack_setStack (s : State) (k : Nat) (x : Stack) : (s.setStack k x).stack k = x := by
  simp [State.stack, State.setStack]
@[simp] theorem State.queue_setQueue (s : State) (q : Nat) (x : MQ) : (s.setQueue q x).queue q = x := by
  simp [State.queue, State.setQueue]

/-! ### Cores and elements are untouched by updates elsewhere -/

@[simp] theorem State.coreOf_setRegion (s : State) (f : Nat) (r : Region) (c : CoreId) : (s.setRegion f r).coreOf c = s.coreOf c := by cases c <;> rfl
@[simp] theorem State.coreOf_setParish (s : State) (p : Nat) (x : Parish) (c : CoreId) : (s.setParish p x).coreOf c = s.coreOf c := by cases c <;> rfl
@[simp] theorem State.coreOf_setQuad (s : State) (q : Nat) (x : Quad) (c : CoreId) : (s.setQuad q x).coreOf c = s.coreOf c := by cases c <;> rfl
@[simp] theorem State.coreOf_setStack (s : State) (k : Nat) (x : Stack) (c : CoreId) : (s.setStack k x).coreOf c = s.coreOf c := by cases c <;> rfl
@[simp] theorem State.coreOf_setQueue (s : State) (q : Nat) (x : MQ) (c : CoreId) : (s.setQueue q x).coreOf c = s.coreOf c := by cases c <;> rfl
@[simp] theorem State.coreOf_behind (s : State) (l : List Turn) (c : CoreId) : (s.behind l).coreOf c = s.coreOf c := by cases c <;> rfl
@[simp] theorem State.elem_setCore (s : State) (c : CoreId) (k : Core) (h n : Nat) : (s.setCore c k).elem h n = s.elem h n := by
  cases c with
  | beadle => rfl
  | reeve g =>
    by_cases hg : h = g
    · subst hg; simp [State.elem, State.setCore]
    · simp only [State.elem, State.setCore, State.ham_setHam_ne _ _ _ _ hg]
@[simp] theorem State.coreOf_setElem (s : State) (h n : Nat) (e : Elem) (c : CoreId) : (s.setElem h n e).coreOf c = s.coreOf c := by
  cases c with
  | beadle => rfl
  | reeve g =>
    by_cases hg : g = h
    · subst hg; simp [State.coreOf, State.setElem]
    · simp only [State.coreOf, State.setElem, State.ham_setHam_ne _ _ _ _ hg]

/-! ### The end of an instruction -/

@[simp] theorem Core.reg_zero (k : Core) : k.reg 0 = 0 := rfl
@[simp] theorem Core.setReg_zero (k : Core) (v : W64) : k.setReg 0 v = k := rfl
/-- A register reads as it was written; g0 reads as zero (R223). -/
theorem Core.reg_setReg (k : Core) (r d : BitVec 5) (v : W64) : (k.setReg d v).reg r = if r = d ∧ d ≠ 0 then v else k.reg r := by
  by_cases hd : d = 0
  · subst hd; rw [if_neg fun h => h.2 rfl]; rfl
  · by_cases hr : r = 0
    · subst hr; rw [if_neg fun h => hd h.1.symm]; rfl
    · simp only [Core.setReg, hd, if_false, Core.reg, hr, Tab.get_put]
      by_cases e : r = d
      · rw [if_pos (by rw [e]), if_pos ⟨e, hd⟩]
      · rw [if_neg fun h => e (BitVec.eq_of_toNat_eq h), if_neg fun h => e h.1]
@[simp] theorem State.coreOf_retire (s : State) (c : CoreId) (d : BitVec 5) (v : W64) :
    (s.retire c d v).coreOf c = { (s.coreOf c).setReg d v with
      pc := ((s.coreOf c).setReg d v).pc + 4, instret := ((s.coreOf c).setReg d v).instret + 1 } := by
  simp [State.retire]
@[simp] theorem State.retire_mem (s : State) (c : CoreId) (d : BitVec 5) (v : W64) : (s.retire c d v).mem = s.mem := by simp [State.retire]
@[simp] theorem State.jumpTo_mem (s : State) (c : CoreId) (d : BitVec 5) (v p : W64) : (s.jumpTo c d v p).mem = s.mem := by simp [State.jumpTo]

/-! ### Issue -/

/-- A core that is free to issue runs its instruction. -/
theorem State.issue_of (s : State) (h : s.Issues) (f : CoreId → State) : s.issue f = .next (f s.core) := by
  simp only [State.issue, show s.canIssue s.core = true from h, if_true]
/-- A reeve that is free to issue runs an instruction that the beadle has not. -/
theorem State.onReeve_of (s : State) (g : Nat) (h : s.IssuesReeve g) (i : Instr) (f : Nat → State) : s.onReeve i f = .next (f g) := by
  obtain ⟨hc, hi⟩ := h
  simp only [State.onReeve, State.issue, hc, hi, if_true]

end Sys2Proof.Machine
end

