-- ==== Sys2Proof/Laws/Access.lean ====
section
/-! SUPPORT. What the shared operations over memory can do to a state: the waits of an access touch no memory, and every operation
that reads or writes memory, translates, logs, reports or traps keeps the canonical form of both memories. -/
namespace Sys2Proof.Machine
open Sys2Proof

/-! ### The canonical form -/

/-- The canonical form depends on the two memories alone. -/
theorem State.MemOk.of_eq {s t : State} (h : s.MemOk) (hm : t.mem = s.mem) (hf : t.flash = s.flash) : t.MemOk := by
  unfold State.MemOk; rw [hm, hf]; exact h

/-- Replacing the memory by one in the canonical form keeps it. -/
theorem State.MemOk.withMem {s t : State} (h : s.MemOk) (hm : t.mem.wf = true) (hf : t.flash = s.flash) : t.MemOk :=
  ⟨hm, hf ▸ h.2⟩

/-- Every state that an access ends in has a property. -/
def MemRes.Ends {α : Type} (P : State → Prop) : MemRes α → Prop
  | .ok _ t => P t
  | .wait t => P t
  | .err t => P t

/-- Every state that a translation ends in has a property. -/
def XRes.Ends (P : State → Prop) : XRes → Prop
  | .ok _ t => P t
  | .fault _ t => P t
  | .wait t => P t
  | .err t => P t

/-- Every state that a read through a translation ends in has a property. -/
def VRes.Ends {α : Type} (P : State → Prop) : VRes α → Prop
  | .ok _ t => P t
  | .fault _ t => P t
  | .wait t => P t
  | .err t => P t

/-! ### Waits (R266, R380, R381, R270) -/

/-- Two states hold the same memories, hamlets and beadle. -/
def State.SameStores (s t : State) : Prop :=
  t.mem = s.mem ∧ t.flash = s.flash ∧ t.hamlets = s.hamlets ∧ t.beadle = s.beadle ∧ t.boot = s.boot ∧ t.market = s.market

theorem State.SameStores.rfl' {s : State} : s.SameStores s := ⟨rfl, rfl, rfl, rfl, rfl, rfl⟩

theorem State.SameStores.trans {s t u : State} (h : s.SameStores t) (k : t.SameStores u) : s.SameStores u :=
  ⟨k.1.trans h.1, k.2.1.trans h.2.1, k.2.2.1.trans h.2.2.1, k.2.2.2.1.trans h.2.2.2.1, k.2.2.2.2.1.trans h.2.2.2.2.1,
    k.2.2.2.2.2.trans h.2.2.2.2.2⟩

theorem State.SameStores.memOk {s t : State} (h : s.SameStores t) (hs : s.MemOk) : t.MemOk := hs.of_eq h.1 h.2.1

theorem State.setParish_sameStores (s : State) (p : Nat) (x : Parish) : s.SameStores (s.setParish p x) := ⟨rfl, rfl, rfl, rfl, rfl, rfl⟩
theorem State.setStack_sameStores (s : State) (k : Nat) (x : Stack) : s.SameStores (s.setStack k x) := ⟨rfl, rfl, rfl, rfl, rfl, rfl⟩
theorem State.setQuad_sameStores (s : State) (q : Nat) (x : Quad) : s.SameStores (s.setQuad q x) := ⟨rfl, rfl, rfl, rfl, rfl, rfl⟩

/-- The budget of a parish touches nothing else (R381). -/
theorem State.admitBudget_sameStores (s : State) (a : Agent) (pa n : Nat) : s.SameStores (s.admitBudget a pa n).2 := by
  unfold State.admitBudget
  split
  · exact State.SameStores.rfl'
  · simp only; split <;> exact State.setParish_sameStores ..

/-- The rate cap of a stack touches nothing else (R380). -/
theorem State.admitStack_sameStores (s : State) (a : Agent) (pa n : Nat) : s.SameStores (s.admitStack a pa n).2 := by
  unfold State.admitStack
  simp only
  split
  · exact State.setStack_sameStores ..
  · split <;> exact State.setStack_sameStores ..

/-- The refresh window of a quadrant touches nothing else (R270). -/
theorem State.admitRefresh_sameStores (s : State) (a : Agent) (q off n : Nat) : s.SameStores (s.admitRefresh a q off n).2 := by
  unfold State.admitRefresh
  dsimp only
  split
  · exact State.setQuad_sameStores ..
  · split
    · exact State.SameStores.rfl'
    · split
      · exact State.setQuad_sameStores ..
      · exact State.SameStores.rfl'

/-- A request that keeps its place at its home touches nothing else. -/
theorem State.keepPlace_sameStores (s : State) (pa : Nat) : s.SameStores (s.keepPlace pa) := by
  unfold State.keepPlace
  split
  · exact State.setStack_sameStores ..
  · exact State.setQuad_sameStores ..
  · exact State.SameStores.rfl'

/-- The waits of an access touch no memory, no hamlet, no core and no market table (R266). -/
theorem State.letIn_sameStores (s : State) (a : Agent) (pa n : Nat) : s.SameStores (s.letIn a pa n).2 := by
  have home : ∀ x : Bool × State, s.SameStores x.2 →
      s.SameStores (if x.1 then
        (if (x.2.admitBudget a pa n).1 then (true, (x.2.admitBudget a pa n).2)
         else (false, (s.admitBudget a pa n).2.keepPlace pa))
        else (false, x.2)).2 := by
    intro x hx
    split
    · split
      · exact hx.trans (State.admitBudget_sameStores ..)
      · exact (State.admitBudget_sameStores ..).trans (State.keepPlace_sameStores ..)
    · exact hx
  unfold State.letIn
  apply home
  split
  · exact State.admitStack_sameStores ..
  · exact State.admitRefresh_sameStores ..
  · exact State.SameStores.rfl'

/-! ### Logs, MSIs, events, stops, traps -/

/-- A log ring keeps the canonical form (R392). -/
theorem Mem.wf_logRing (m : Mem) (base : Nat) (entry : List Byte) (h : m.wf = true) : (logRing m base entry).wf = true := by
  unfold logRing
  simp only
  split
  · exact Mem.wf_writeLE _ _ _ _ h
  · exact Mem.wf_writeLE _ _ _ _ (Mem.wf_writeBytes _ _ _ h)

theorem State.setLog_memOk {s : State} (n : LogName) (l : Log) (h : s.MemOk) : (s.setLog n l).MemOk := by
  cases n <;> exact h

theorem State.corrected_memOk {s : State} (l : Tab CellErr) (h : s.MemOk) : (s.corrected l).MemOk := State.MemOk.of_eq h rfl rfl

/-- A fold over a list keeps a property that each of its steps keeps. -/
theorem foldl_keeps {α β : Type} (P : β → Prop) (f : β → α → β) (hf : ∀ b a, P b → P (f b a)) (l : List α) {b : β} (hb : P b) :
    P (l.foldl f b) := by
  induction l generalizing b with
  | nil => exact hb
  | cons x l ih => exact ih (hf _ _ hb)

/-- An entry of a log ring keeps the canonical form (R392). -/
theorem State.ringPut_memOk {s : State} (base : Nat) (entry : List Byte) (h : s.MemOk) : (s.ringPut base entry).2.MemOk := by
  unfold State.ringPut
  dsimp only
  split
  · exact h
  · have ht := State.corrected_memOk (s.eccOf base 24) h
    revert ht
    generalize s.corrected (s.eccOf base 24) = t
    intro ht
    have hm := Mem.wf_logRing t.mem base entry ht.1
    revert hm
    generalize logRing t.mem base entry = m
    exact fun hm => State.MemOk.withMem ht hm rfl

theorem State.putArray_memOk {s : State} (pa n : Nat) (cells : List (Nat × Byte)) (h : s.MemOk) : (s.putArray pa n cells).2.MemOk :=
  ⟨Mem.wf_writeCells _ _ h.1, h.2⟩
theorem State.setEvents_memOk {s : State} (c : Nat) (l : List EvRec) (h : s.MemOk) : (s.setEvents c l).MemOk := h
/-- A log entry on its way touches no memory (R392, R401). -/
theorem State.logAdd_memOk {s : State} (n : LogName) (r : LogRec) (h : s.MemOk) : (s.logAdd n r).MemOk := by
  unfold State.logAdd
  dsimp only
  split
  · exact h
  · split <;> exact State.setLog_memOk _ _ h
theorem State.cellsAdd_memOk {s : State} (a : Agent) (l : Tab CellErr) (h : s.MemOk) : (s.cellsAdd a l).MemOk :=
  foldl_keeps State.MemOk _ (fun _ _ ht => State.logAdd_memOk _ _ ht) _ h
theorem State.interrupt_memOk {s : State} (f : Nat × Bool) (id : Nat) (h : s.MemOk) : (s.interrupt f id).MemOk := by
  unfold State.interrupt; split <;> exact h
theorem State.msiAdd_memOk {s : State} (n : Nat) (c : Option Nat) (a : W64) (d : W32) (h : s.MemOk) : (s.msiAdd n c a d).MemOk := by
  unfold State.msiAdd
  split
  · exact State.interrupt_memOk _ _ h
  · exact State.logAdd_memOk _ _ h
theorem State.devPut_memOk {s : State} (a : Agent) (pa : Nat) (bytes : List Byte) (h : s.MemOk) : (s.devPut a pa bytes).MemOk :=
  State.cellsAdd_memOk _ _ (State.putArray_memOk _ _ _ h)
theorem State.eventPut_memOk {s : State} (c : Nat) (r : EvRec) (h : s.MemOk) : (s.eventPut c r).MemOk :=
  State.msiAdd_memOk _ _ _ _ (State.devPut_memOk _ _ _ (State.devPut_memOk _ _ _ (State.cellsAdd_memOk _ _ (State.corrected_memOk _ h))))

/-- An access of the device's own keeps the canonical form (R350, R380, R392). -/
theorem State.devPerform_memOk {s : State} (op : DevOp) (h : s.MemOk) : (s.devPerform op).MemOk := by
  cases op with
  | write a pa b => exact State.devPut_memOk _ _ _ h
  | log n e again =>
    refine foldl_keeps State.MemOk _ (fun t p ht => ?_) _ (State.ringPut_memOk _ _ h)
    show State.MemOk (if _ then _ else _)
    split <;> exact ht
  | lost n k => exact State.devPut_memOk _ _ _ h
  | event c r retry =>
    show State.MemOk (if _ then (if _ then _ else _) else (if _ then _ else _))
    split
    · split
      · exact h
      · exact State.eventPut_memOk _ _ h
    · split
      · exact State.eventPut_memOk _ _ h
      · exact h
  | msi agent c a d => exact State.msiAdd_memOk _ _ _ _ h
/-- The stacks of an access of the device's own touch nothing else (R380). -/
theorem State.admitAll_sameStores (s : State) (a : Agent) (l : List (Nat × Nat)) : s.SameStores (s.admitAll a l).2 := by
  unfold State.admitAll
  split
  · exact State.admitStack_sameStores ..
  · exact foldl_keeps (fun t => s.SameStores t) _ (fun t p ht => ht.trans (State.admitStack_sameStores ..)) _ State.SameStores.rfl'
theorem State.devDrain_memOk (n : Nat) {s : State} (h : s.MemOk) : (State.devDrain n s).MemOk := by
  induction n generalizing s with
  | zero => exact h
  | succ n ih =>
    unfold State.devDrain
    split
    · exact h
    · rename_i op rest _
      have hw := (State.admitAll_sameStores s { code := 10, unit := 15 } (s.devTouches op)).memOk h
      dsimp only
      split
      · exact ih (State.devPerform_memOk _ (State.MemOk.of_eq hw rfl rfl))
      · exact hw
/-- An access of the device's own keeps the canonical form, made or waiting (R380). -/
theorem State.devPost_memOk {s : State} (op : DevOp) (h : s.MemOk) : (s.devPost op).MemOk := by
  unfold State.devPost
  split
  · exact State.devDrain_memOk _ h
  · exact h

/-- A log entry keeps the canonical form (R392, R401). -/
theorem State.logIn_memOk {s : State} (n : LogName) (r : LogRec) (h : s.MemOk) : (s.logIn n r).MemOk := by
  unfold State.logIn
  split
  · exact State.devPost_memOk _ h
  · exact State.logAdd_memOk _ _ h
theorem State.logCells_memOk {s : State} (a : Agent) (l : Tab CellErr) (h : s.MemOk) : (s.logCells a l).MemOk :=
  foldl_keeps State.MemOk _ (fun _ _ ht => State.logIn_memOk _ _ ht) _ h
/-- A write that the device makes of its own keeps the canonical form. -/
theorem State.devWrite_memOk {s : State} (a : Agent) (pa : Nat) (bytes : List Byte) (h : s.MemOk) : (s.devWrite a pa bytes).MemOk :=
  State.devPost_memOk _ h
theorem State.endCommand_memOk {s : State} (a : Agent) (base status : Nat) (h : s.MemOk) : (s.endCommand a base status).MemOk :=
  State.devWrite_memOk _ _ _ (State.devWrite_memOk _ _ _ h)

theorem State.logErr_memOk {s : State} (r : LogRec) (h : s.MemOk) : (s.logErr r).MemOk := State.logIn_memOk _ _ h

/-- An MSI keeps the canonical form (R350, R403). -/
theorem State.msiFrom_memOk {s : State} (n : Nat) (c : Option Nat) (a : W64) (d : W32) (h : s.MemOk) : (s.msiFrom n c a d).MemOk := by
  unfold State.msiFrom
  split
  · exact State.interrupt_memOk _ _ h
  · exact State.logErr_memOk _ h

/-- An event record keeps the canonical form (R350). -/
theorem State.event_memOk {s : State} (c : Nat) (r : EvRec) (h : s.MemOk) : (s.event c r).MemOk := by
  unfold State.event
  split
  · exact h
  · exact State.devPost_memOk _ h

theorem State.eventFree_memOk {s : State} (c : Nat) (r : EvRec) (h : s.MemOk) : (s.eventFree c r).MemOk :=
  State.event_memOk _ _ (State.MemOk.of_eq h rfl rfl)

/-- A region stop keeps the canonical form (R56). -/
theorem State.requestStop_memOk {s : State} (h site cause slot q cls : Nat) (v : W32) (hs : s.MemOk) :
    (s.requestStop h site cause slot q cls v).MemOk := by
  unfold State.requestStop
  split
  · exact hs
  · exact State.logErr_memOk _ (State.MemOk.of_eq hs rfl rfl)

theorem State.setCore_memOk {s : State} (c : CoreId) (k : Core) (h : s.MemOk) : (s.setCore c k).MemOk :=
  h.of_eq (by simp) (by simp)

/-- A halt of a reeve keeps the canonical form (R255). -/
theorem State.haltReeve_memOk {s : State} (h : Nat) (k : Core) (hs : s.MemOk) : (s.haltReeve h k).MemOk :=
  State.eventFree_memOk _ _ (State.logErr_memOk _ (State.setCore_memOk _ _ hs))

/-- Taking a trap keeps the canonical form (R226, R256). -/
theorem State.takeTrap_memOk {s : State} (c : CoreId) (cause : Nat) (v : W64) (late : Bool) (h : s.MemOk) :
    (s.takeTrap c cause v late).MemOk := by
  unfold State.takeTrap
  simp only
  split
  · split
    · exact State.haltReeve_memOk _ _ h
    · exact State.MemOk.of_eq (State.logErr_memOk _ h) rfl rfl
  · exact State.setCore_memOk _ _ h

theorem State.trapReturn_memOk {s : State} (c : CoreId) (h : s.MemOk) : (s.trapReturn c).MemOk := State.setCore_memOk _ _ h
theorem State.retire_memOk {s : State} (c : CoreId) (d : BitVec 5) (v : W64) (h : s.MemOk) : (s.retire c d v).MemOk :=
  State.setCore_memOk _ _ h
theorem State.jumpTo_memOk {s : State} (c : CoreId) (d : BitVec 5) (v p : W64) (h : s.MemOk) : (s.jumpTo c d v p).MemOk :=
  State.setCore_memOk _ _ h

/-! ### Accesses -/

theorem ends_ite {α : Type} {p : Prop} [Decidable p] {P : State → Prop} {x y : MemRes α} (hx : x.Ends P) (hy : y.Ends P) :
    (if p then x else y).Ends P := by
  split
  · exact hx
  · exact hy

theorem xends_ite {p : Prop} [Decidable p] {P : State → Prop} {x y : XRes} (hx : x.Ends P) (hy : y.Ends P) :
    (if p then x else y).Ends P := by
  split
  · exact hx
  · exact hy

theorem State.readLines_memOk {s : State} (h k lo n : Nat) (hs : s.MemOk) : (s.readLines h k lo n).MemOk := by
  have hf : ∀ (l : List (Nat × Nat)) (y : ShSlot) {t : State}, t.MemOk →
      (l.foldl (fun (t : State) l => t.logIn .array (slotRec h y 1 l.2 0)) t).MemOk :=
    fun l _ _ ht => foldl_keeps State.MemOk _ (fun _ _ hu => State.logIn_memOk _ _ hu) l ht
  unfold State.readLines
  dsimp only
  split
  · split
    · exact State.logIn_memOk _ _ (hf _ _ (State.MemOk.of_eq hs rfl rfl))
    · exact hf _ _ (State.MemOk.of_eq hs rfl rfl)
  · exact hf _ _ (State.MemOk.of_eq hs rfl rfl)

theorem State.cutAwaited_memOk {s : State} (key g : Nat) (h : s.MemOk) : (s.cutAwaited key g).2.MemOk := by
  unfold State.cutAwaited
  dsimp only
  split
  · exact h
  · split <;> exact h
theorem State.cutRead_memOk {s : State} (g off n : Nat) (h : s.MemOk) : (s.cutRead g off n).Ends State.MemOk := by
  unfold State.cutRead
  dsimp only
  split
  · exact h
  · exact ends_ite (State.readLines_memOk _ _ _ _ h) (State.readLines_memOk _ _ _ _ h)
/-- A read from a green of a held-mode region keeps the canonical form, however it ends (R291). -/
theorem State.heldRead_memOk {s : State} (a : Agent) (g off n : Nat) (h : s.MemOk) : (s.heldRead a g off n).Ends State.MemOk :=
  ends_ite (State.cutRead_memOk _ _ _ (State.cutAwaited_memOk _ _ h)) (State.cutAwaited_memOk _ _ h)

/-- A read of the arrays keeps the canonical form, however it ends (R386). -/
theorem State.arrayRead_memOk {s : State} (a : Agent) (pa n : Nat) (h : s.MemOk) : (s.arrayRead a pa n).Ends State.MemOk :=
  have ht : ((s.corrected (s.eccOf pa n)).logCells a (s.eccOf pa n)).MemOk := State.logCells_memOk _ _ (State.MemOk.of_eq h rfl rfl)
  ends_ite ht ht

/-- A write of the arrays keeps the canonical form, however it ends (R386, R389). -/
theorem State.arrayWrite_memOk {s : State} (a : Agent) (pa n : Nat) (cells : List (Nat × Byte)) (h : s.MemOk) :
    (s.arrayWrite a pa n cells).Ends State.MemOk := by
  have ht := State.logCells_memOk a (s.putArray pa n cells).1 (State.putArray_memOk pa n cells h)
  unfold State.arrayWrite
  refine ends_ite ?_ ht
  show State.MemOk (if _ then _ else _)
  split
  · exact State.logErr_memOk _ ht
  · exact ht

/-- The vertical bus keeps the canonical form (R391). -/
theorem State.mapLanes_memOk (quad group pa : Nat) (l : List Nat) : ∀ {s : State} (all : Bool), s.MemOk → (s.mapLanes quad group pa l all).2.MemOk := by
  induction l with
  | nil => exact fun _ h => h
  | cons x l ih =>
    intro s all h
    unfold State.mapLanes
    dsimp only
    split
    · exact ih _ (State.logIn_memOk _ _ (State.MemOk.of_eq h rfl rfl))
    · exact ih _ (State.logIn_memOk _ _ h)
theorem State.busSend_memOk {s : State} (quad group pa : Nat) (bad : List (List Nat)) (h : s.MemOk) : (s.busSend quad group pa bad).2.MemOk := by
  unfold State.busSend
  split
  · exact h
  · exact State.logIn_memOk _ _ h
  · exact State.mapLanes_memOk _ _ _ _ _ h
theorem State.busBlock_memOk {s : State} (q block : Nat) (h : s.MemOk) : (s.busBlock q block).2.MemOk := by
  unfold State.busBlock
  dsimp only
  split
  · exact h
  · exact State.busSend_memOk _ _ _ _ (State.MemOk.of_eq h rfl rfl)
theorem State.busCross_memOk {s : State} (q off n : Nat) (h : s.MemOk) : (s.busCross q off n).2.MemOk := by
  unfold State.busCross
  refine foldl_keeps (fun w : Bool × State => w.2.MemOk) _ ?_ _ (b := (true, s)) h
  exact fun w b hw => State.busBlock_memOk _ _ hw

/-- A write or an atomic of the granary keeps the canonical form where what it does there keeps it (R268). -/
theorem State.granaryWrite_memOk {α : Type} {s : State} (a : Agent) (may : Bool) (q off pa n : Nat) (k : State → MemRes α)
    (hk : ∀ t : State, t.MemOk → (k t).Ends State.MemOk) (h : s.MemOk) : (s.granaryWrite a may q off pa n k).Ends State.MemOk := by
  have hl : (s.letIn a pa n).2.MemOk := (State.letIn_sameStores ..).memOk h
  have hb (x : Quad) : (((s.letIn a pa n).2.setQuad q x).busCross q off n).2.MemOk :=
    State.busCross_memOk _ _ _ (State.MemOk.of_eq hl rfl rfl)
  unfold State.granaryWrite
  dsimp only
  refine ends_ite (State.logErr_memOk _ (State.MemOk.of_eq h rfl rfl)) (ends_ite (ends_ite (hk _ (hb _)) ?_)
    (ends_ite hl (State.MemOk.of_eq hl rfl rfl)))
  show State.MemOk (if _ then _ else _)
  split
  · exact State.logErr_memOk _ (hb _)
  · exact hb _

/-- A request that leaves the package keeps the canonical form, however it ends (R405). -/
theorem State.away_memOk {s : State} (a : Agent) (pa n : Nat) (o : Out) (h : s.MemOk) : (s.away a pa n o).Ends State.MemOk :=
  ends_ite (State.logErr_memOk _ (State.MemOk.of_eq h rfl rfl)) (State.MemOk.of_eq h rfl rfl)
theorem State.pregRead_memOk {s : State} (r : PReg) (h : s.MemOk) : (s.pregRead r).2.MemOk := by
  cases r with
  | eth n o =>
    unfold State.pregRead
    dsimp only
    split
    · exact h
    · split <;> exact h
  | _ => exact h
theorem State.regRead_memOk {s : State} (pa n : Nat) (h : s.MemOk) : (s.regRead pa n).2.MemOk :=
  foldl_keeps (fun w : List Byte × State => w.2.MemOk) _ (fun _ _ hw => State.pregRead_memOk _ hw) _ (State.MemOk.of_eq h rfl rfl)
theorem State.pregWrite_memOk {s : State} (r : PReg) (v : W64) (h : s.MemOk) : (s.pregWrite r v).MemOk := by
  cases r with
  | eth n o =>
    unfold State.pregWrite
    dsimp only
    split
    · exact h
    · split <;> exact h
  | _ => exact h
theorem State.regWrite_memOk {s : State} (pa n : Nat) (cells : List (Nat × Byte)) (h : s.MemOk) : (s.regWrite pa n cells).MemOk :=
  foldl_keeps State.MemOk _ (fun _ _ ht => State.pregWrite_memOk _ _ ht) _ h
/-- The sectors sent to a UALink peer keep the canonical form, however they end (R405). -/
theorem State.ualinkSend_memOk (a : Agent) (out : Nat → Nat → Nat → Out) (read : Bool) (l : List (Nat × Nat)) (acc : List Byte) {s : State}
    (h : s.MemOk) : (s.ualinkSend a out read l acc).Ends State.MemOk := by
  induction l generalizing s acc with
  | nil => exact h
  | cons p l ih =>
    unfold State.ualinkSend
    split
    · exact State.logErr_memOk _ h
    · rename_i port _
      have ht := State.away_memOk a p.1 (if read then p.2 else 0) (out port p.1 p.2) h
      revert ht
      cases s.away a p.1 (if read then p.2 else 0) (out port p.1 p.2) with
      | ok b t => exact fun ht => ih _ ht
      | wait t => exact id
      | err t => exact id

/-- A read keeps the canonical form, however it ends (R262). -/
theorem State.readPhys_memOk {s : State} (a : Agent) (pa n : Nat) (h : s.MemOk) : (s.readPhys a pa n).Ends State.MemOk := by
  have hr (k : Nat) : MemRes.Ends (α := List Byte) State.MemOk (.err (s.logErr (refuseLog a pa k))) := State.logErr_memOk _ h
  have hl : (s.letIn a pa n).2.MemOk := (State.letIn_sameStores ..).memOk h
  unfold State.readPhys
  dsimp only
  split
  · exact hr _
  · exact hr _
  · exact ends_ite h (hr _)
  · exact ends_ite (hr _) (ends_ite (State.heldRead_memOk _ _ _ _ h) (State.arrayRead_memOk _ _ _ h))
  · exact h
  · exact ends_ite (State.arrayRead_memOk _ _ _ hl) hl
  · exact ends_ite (ends_ite (State.arrayRead_memOk _ _ _ (State.busCross_memOk _ _ _ hl)) (State.busCross_memOk _ _ _ hl)) hl
  · exact ends_ite hl (ends_ite (State.regRead_memOk _ _ hl) (State.away_memOk _ _ _ _ hl))
  · split
    · exact hr _
    · exact ends_ite (State.ualinkSend_memOk _ _ _ _ _ hl) hl

/-- A write keeps the canonical form, however it ends (R262, R268). -/
theorem State.writePhys_memOk {s : State} (a : Agent) (copy : Bool) (pa n : Nat) (cells : List (Nat × Byte)) (h : s.MemOk) :
    (s.writePhys a copy pa n cells).Ends State.MemOk := by
  have hr (k : Nat) : MemRes.Ends (α := Unit) State.MemOk (.err (s.logErr (refuseLog a pa k))) := State.logErr_memOk _ h
  have hl : (s.letIn a pa n).2.MemOk := (State.letIn_sameStores ..).memOk h
  have hw {t : State} (ht : t.MemOk) : (t.arrayWrite a pa n cells).Ends State.MemOk := State.arrayWrite_memOk _ _ _ _ ht
  have hm (o : Nat → Nat → Nat → Out) (l : List (Nat × Nat)) : (((s.letIn a pa n).2.ualinkSend a o false l []).map fun _ => ()).Ends State.MemOk := by
    have hv := State.ualinkSend_memOk a o false l [] hl
    revert hv
    cases (s.letIn a pa n).2.ualinkSend a o false l [] <;> exact id
  unfold State.writePhys
  dsimp only
  split
  · exact hr _
  · exact hr _
  · exact hr _
  · exact ends_ite ⟨Mem.wf_writeCells _ _ h.1, h.2⟩ (hr _)
  · exact ends_ite (hr _) (hw h)
  · exact State.granaryWrite_memOk _ _ _ _ _ _ _ (fun _ => hw) h
  · exact ends_ite (hw hl) hl
  · exact ends_ite (State.regWrite_memOk _ _ _ hl) (ends_ite (State.MemOk.of_eq hl rfl rfl) hl)
  · split
    · exact hr _
    · exact ends_ite (hm _ _) hl

theorem State.writeBytesPhys_memOk {s : State} (a : Agent) (copy : Bool) (pa : Nat) (l : List Byte) (h : s.MemOk) :
    (s.writeBytesPhys a copy pa l).Ends State.MemOk := State.writePhys_memOk _ _ _ _ _ h

/-- Filling the caches keeps the canonical form (R345). -/
theorem State.cacheFirst_memOk {s : State} (a : Agent) (e : Tlb) (h : s.MemOk) : (s.cacheFirst a e).MemOk := by
  unfold State.cacheFirst; split <;> exact h
theorem State.cacheWalk_memOk {s : State} (a : Agent) (e : Tlb) (h : s.MemOk) : (s.cacheWalk a e).MemOk := by
  unfold State.cacheWalk
  split
  · exact h
  · exact State.MemOk.of_eq (State.cacheFirst_memOk a e (s := s.cacheTlb e) (State.MemOk.of_eq h rfl rfl)) rfl rfl
theorem State.cacheRange_memOk {s : State} (a : Agent) (e : RangeEnt) (h : s.MemOk) : (s.cacheRange a e).MemOk := by
  unfold State.cacheRange; split <;> exact h

/-- An atomic at its home keeps the canonical form, however it ends (R266, R284). -/
theorem State.atomicPhys_memOk {s : State} (a : Agent) (pa n : Nat) (op : Away) (f : List Byte → Option (List Byte)) (h : s.MemOk) :
    (s.atomicPhys a pa n op f).Ends State.MemOk := by
  have hm {t : State} (old : List Byte) (ht : t.MemOk) : (match f old with
      | none => MemRes.ok old t
      | some b => MemRes.ok old { t with mem := t.mem.writeBytes pa b }).Ends State.MemOk := by
    split
    · exact ht
    · exact ⟨Mem.wf_writeBytes _ _ _ ht.1, ht.2⟩
  have hr (k : Nat) : MemRes.Ends (α := List Byte) State.MemOk (.err (s.logErr (refuseLog a pa k))) := State.logErr_memOk _ h
  have harr (t : State) (ht : t.MemOk) : (match t.arrayRead a pa n with
      | .ok old u => (match f old with
        | none => MemRes.ok old u
        | some b => MemRes.ok old { u with mem := u.mem.writeBytes pa b })
      | .wait u => .wait u
      | .err u => .err u).Ends State.MemOk := by
    have hu := State.arrayRead_memOk a pa n ht
    revert hu
    cases t.arrayRead a pa n with
    | ok old u => exact hm old
    | wait u => exact id
    | err u => exact id
  have haw (port : Option Nat) : (s.awayAtomic a pa n port op).Ends State.MemOk :=
    have hl : (s.letIn a pa n).2.MemOk := (State.letIn_sameStores ..).memOk h
    ends_ite (State.away_memOk _ _ _ _ hl) hl
  unfold State.atomicPhys
  dsimp only
  split
  · exact State.granaryWrite_memOk _ _ _ _ _ _ _ harr h
  · exact ends_ite (hr _) (harr s h)
  · exact hr _
  · exact haw _
  · split
    · exact hr _
    · exact haw _
  · have hu := State.readPhys_memOk a pa n h
    revert hu
    cases s.readPhys a pa n with
    | ok old t => exact hm old
    | wait t => exact id
    | err t => exact id

/-- A page walk keeps the canonical form, however it ends (R342 to R344). -/
theorem State.walk_memOk (a : Agent) (c v : Nat) (w : Want) (glob : Bool) (k table : Nat) {s : State} (h : s.MemOk) :
    (s.walk a c v w glob k table).Ends State.MemOk := by
  induction k generalizing s glob table with
  | zero => exact h
  | succ k ih =>
    unfold State.walk
    simp only
    generalize hr : s.readPhys (walker a) _ 8 = r
    have hs' := hr ▸ State.readPhys_memOk (walker a) _ 8 h
    cases r with
    | wait t => exact hs'
    | err t => exact hs'
    | ok bytes t =>
      have ht : t.MemOk := hs'
      simp only
      split
      · exact ht
      · split
        · split
          · exact ht
          · exact ih _ _ ht
        · split
          · exact ht
          · generalize (BitVec.ofNat 64 (leNat bytes) ||| 64 ||| _) = pte'
            split
            · exact State.cacheWalk_memOk _ _ ht
            · generalize hq : t.atomicPhys (walker a) _ 8 _ _ = q
              have hu := hq ▸ State.atomicPhys_memOk (walker a) _ 8 _ _ ht
              cases q with
              | ok old u =>
                dsimp only
                split
                · exact State.cacheWalk_memOk _ _ hu
                · exact hu
              | wait u => exact hu
              | err u => exact hu

theorem State.findPage_memOk {s : State} (a : Agent) (c v : Nat) (w : Want) (h : s.MemOk) :
    (s.findPage a c v w).Ends State.MemOk := by
  unfold State.findPage
  split
  · exact xends_ite (State.cacheRange_memOk _ _ h) (State.cacheRange_memOk _ _ h)
  · refine xends_ite h ?_
    split
    · rename_i he
      unfold State.tlbFind at he
      split at he
      · cases he; exact h
      · obtain ⟨e, _, he⟩ := Option.map_eq_some_iff.mp he
        cases he; exact State.cacheFirst_memOk _ _ h
    · exact State.walk_memOk _ _ _ _ _ _ _ h
theorem State.dropAnswered_memOk {s : State} (a : Agent) (c v : Nat) (w : Want) (h : s.MemOk) : (s.dropAnswered a c v w).MemOk := by
  unfold State.dropAnswered
  split
  · exact h
  · split <;> exact h
/-- A translation keeps the canonical form, however it ends (R341, R342). -/
theorem State.translate_memOk {s : State} (a : Agent) (c v : Nat) (w : Want) (h : s.MemOk) :
    (s.translate a c v w).Ends State.MemOk := by
  have ht := State.findPage_memOk a c v w h
  unfold State.translate
  revert ht
  cases s.findPage a c v w with
  | ok pa t => exact fun ht => State.dropAnswered_memOk _ _ _ _ ht
  | _ => exact id

/-- A fault's report keeps the canonical form (R349). -/
theorem State.reportFault_memOk {s : State} (a : Agent) (c v : Nat) (w : Want) (code : Nat) (h : s.MemOk) :
    (s.reportFault a c v w code).2.MemOk := by
  unfold State.reportFault
  simp only
  split
  · exact h
  · split
    · exact h
    · exact State.event_memOk _ _ (State.MemOk.of_eq h rfl rfl)

theorem State.readVirt_memOk {s : State} (a : Agent) (c v n : Nat) (h : s.MemOk) : (s.readVirt a c v n).Ends State.MemOk := by
  unfold State.readVirt
  have ht := State.translate_memOk a c v .load h
  revert ht
  cases s.translate a c v .load with
  | ok pa t =>
    intro ht
    have hr := State.readPhys_memOk a pa n (s := t) ht
    revert hr
    simp only
    cases t.readPhys a pa n <;> exact id
  | fault k t => exact id
  | wait t => exact id
  | err t => exact id

end Sys2Proof.Machine
end

