-- ==== Sys2Proof/Laws/Decode.lean ====
section
/-! SUPPORT. The fields of an assembled word, and decoding against encoding for the fabric maps (R90 to R97) and the reeve words
(R229). -/
namespace Sys2Proof

/-! ### Fields of an operation word -/

/-- The opcode field of a packed operation word (R90). -/
theorem fld_pack_code (code : Nat) (f : FOp) : fld (packFOp code f) 25 7 = BitVec.ofNat 7 code := by
  simp only [fld, packFOp]
  repeat rw [BitVec.extractLsb'_append_eq_of_le (by decide)]
  simp [BitVec.extractLsb'_eq_self]

/-- Unpacking a packed operation word gives its fields back (R90). -/
theorem unpack_pack (code : Nat) (f : FOp) : unpackFOp (packFOp code f) = f := by
  obtain ⟨dst, a, b, deq, pwe, pidx, pmode, x⟩ := f
  simp only [unpackFOp, fld, packFOp, FOp.mk.injEq]
  refine ⟨?_, ?_, ?_, ?_, ?_, ?_, ?_, ?_⟩
  all_goals first
    | (repeat rw [BitVec.extractLsb'_append_eq_of_le (by decide)]
       rw [BitVec.extractLsb'_append_eq_of_add_le (by decide)]; exact BitVec.extractLsb'_eq_self)
    | simp only [BitVec.getLsbD_append]; simp

/-- Packing the unpacked fields of a word gives the word back, so no bit is lost (R90). -/
theorem pack_unpack (w : W32) : packFOp (fld w 25 7).toNat (unpackFOp w) = w := by
  simp only [packFOp, unpackFOp, fld, BitVec.ofNat_toNat, BitVec.setWidth_eq]
  apply BitVec.eq_of_getLsbD_eq
  intro i hi
  simp only [BitVec.getLsbD_append, BitVec.getLsbD_extractLsb', BitVec.getLsbD_ofBool]
  split
  · simp [*]
  split
  · next h0 h1 => simp [h1, show 3 + (i-3) = i by omega]
  split
  · next h0 h1 h2 => simp [h2, show 5 + (i-3-2) = i by omega]
  split
  · next h0 h1 h2 h3 =>
    obtain rfl : i = 8 := by omega
    simp
  split
  · next h => simp [h, show 9 + (i-3-2-3-1) = i by omega]
  split
  · next h => simp [h, show 13 + (i-3-2-3-1-4) = i by omega]
  split
  · next h => simp [h, show 17 + (i-3-2-3-1-4-4) = i by omega]
  split
  · next h => simp [h, show 21 + (i-3-2-3-1-4-4-4) = i by omega]
  · simp [show 25 + (i-3-2-3-1-4-4-4-4) = i by omega, show i - 3 - 2 - 3 - 1-4-4-4-4 < 7 by omega]

/-- The map of the instruction's kind gives the instruction at its own opcode (R94 to R97). -/
theorem fabric_ofCode_all (i : Instr) :
    match i.fabric? with | none => True | some (k, code, f) => ofCode k code f = some i ∧ code < 128 := by
  cases i <;> first | exact trivial | exact And.intro rfl (Nat.le_of_ble_eq_true rfl)

/-- What `fabric?` names, the map gives back (R94 to R97). -/
theorem fabric_ofCode {i : Instr} {k : Kind} {code : Nat} {f : FOp} (h : i.fabric? = some (k, code, f)) :
    ofCode k code f = some i ∧ code < 128 := by
  have := fabric_ofCode_all i
  rwa [h] at this

/-- What the map gives, `fabric?` names (R94 to R97). -/
theorem ofCode_fabric {k : Kind} {code : Nat} {f : FOp} {i : Instr} (h : ofCode k code f = some i) :
    i.fabric? = some (k, code, f) := by
  cases k <;> simp only [ofCode] at h
  · unfold peOfCode at h; split at h <;> first | (rw [← Option.some.inj h]; rfl) | cases h
  · unfold speOfCode at h; split at h <;> first | (rw [← Option.some.inj h]; rfl) | cases h
  · unfold seOfCode at h; split at h <;> first | (rw [← Option.some.inj h]; rfl) | cases h
  · unfold meOfCode at h; split at h <;> first | (rw [← Option.some.inj h]; rfl) | cases h

/-- Which words decode in a map, and to what (R90 to R97). -/
theorem decodeOpWord_ok {k : Kind} {w : W32} {i : Instr} :
    decodeOpWord k w = .ok i ↔ i.fabric? = some (k, (fld w 25 7).toNat, unpackFOp w) ∧ i.wf = true := by
  unfold decodeOpWord
  split
  · next h => exact ⟨fun e => (by cases e), fun e => (by rw [(fabric_ofCode e.1).1] at h; cases h)⟩
  · next j h =>
    split
    · next hw =>
      refine ⟨fun e => ?_, fun e => ?_⟩
      · cases e; exact ⟨ofCode_fabric h, hw⟩
      · rw [(fabric_ofCode e.1).1] at h; cases h; rfl
    · next hw =>
      refine ⟨fun e => (by cases e), fun e => ?_⟩
      rw [(fabric_ofCode e.1).1] at h; cases h; exact absurd e.2 hw

/-- A well-formed fabric instruction's packed word decodes to it (R90 to R97). -/
theorem decodeOpWord_packFOp {i : Instr} {k : Kind} {code : Nat} {f : FOp} (h : i.fabric? = some (k, code, f)) (hw : i.wf = true) :
    decodeOpWord k (packFOp code f) = .ok i := by
  rw [decodeOpWord_ok, fld_pack_code, unpack_pack]
  have := (fabric_ofCode h).2
  refine ⟨?_, hw⟩
  rw [h, BitVec.toNat_ofNat, Nat.mod_eq_of_lt this]

/-- What decodes in a map encodes to the same word (R90 to R97). -/
theorem packFOp_of_decodeOpWord {i : Instr} {k : Kind} {w : W32} (h : decodeOpWord k w = .ok i) : encode i = some w ∧ i.wf = true := by
  rw [decodeOpWord_ok] at h
  refine ⟨?_, h.2⟩
  simp only [encode, encodeFabric, h.1, Option.map, pack_unpack]

/-! ### Fields of a reeve word -/

@[simp] theorem fld_rWord_fn (m : Nat) (d a b : BitVec 5) (fn : BitVec 11) : fld (rWord m d a b fn) 0 11 = fn := by
  simp only [fld, rWord]
  rw [BitVec.extractLsb'_append_eq_of_add_le (by decide)]
  exact BitVec.extractLsb'_eq_self

@[simp] theorem fld_rWord_b (m : Nat) (d a b : BitVec 5) (fn : BitVec 11) : fld (rWord m d a b fn) 11 5 = b := by
  simp only [fld, rWord]
  rw [BitVec.extractLsb'_append_eq_of_le (by decide)]
  rw [BitVec.extractLsb'_append_eq_of_add_le (by decide)]
  exact BitVec.extractLsb'_eq_self

@[simp] theorem fld_rWord_a (m : Nat) (d a b : BitVec 5) (fn : BitVec 11) : fld (rWord m d a b fn) 16 5 = a := by
  simp only [fld, rWord]
  rw [BitVec.extractLsb'_append_eq_of_le (by decide)]
  rw [BitVec.extractLsb'_append_eq_of_le (by decide)]
  rw [BitVec.extractLsb'_append_eq_of_add_le (by decide)]
  exact BitVec.extractLsb'_eq_self

@[simp] theorem fld_rWord_d (m : Nat) (d a b : BitVec 5) (fn : BitVec 11) : fld (rWord m d a b fn) 21 5 = d := by
  simp only [fld, rWord]
  rw [BitVec.extractLsb'_append_eq_of_le (by decide)]
  rw [BitVec.extractLsb'_append_eq_of_le (by decide)]
  rw [BitVec.extractLsb'_append_eq_of_le (by decide)]
  rw [BitVec.extractLsb'_append_eq_of_add_le (by decide)]
  exact BitVec.extractLsb'_eq_self

@[simp] theorem fld_rWord_major (m : Nat) (d a b : BitVec 5) (fn : BitVec 11) : fld (rWord m d a b fn) 26 6 = BitVec.ofNat 6 m := by
  simp only [fld, rWord]
  rw [BitVec.extractLsb'_append_eq_of_le (by decide)]
  rw [BitVec.extractLsb'_append_eq_of_le (by decide)]
  rw [BitVec.extractLsb'_append_eq_of_le (by decide)]
  rw [BitVec.extractLsb'_append_eq_of_le (by decide)]
  exact BitVec.extractLsb'_eq_self

@[simp] theorem fld_iWord_i (m : Nat) (d a : BitVec 5) (i : BitVec 16) : fld (iWord m d a i) 0 16 = i := by
  simp only [fld, iWord]
  rw [BitVec.extractLsb'_append_eq_of_add_le (by decide)]
  exact BitVec.extractLsb'_eq_self

@[simp] theorem fld_iWord_a (m : Nat) (d a : BitVec 5) (i : BitVec 16) : fld (iWord m d a i) 16 5 = a := by
  simp only [fld, iWord]
  rw [BitVec.extractLsb'_append_eq_of_le (by decide)]
  rw [BitVec.extractLsb'_append_eq_of_add_le (by decide)]
  exact BitVec.extractLsb'_eq_self

@[simp] theorem fld_iWord_d (m : Nat) (d a : BitVec 5) (i : BitVec 16) : fld (iWord m d a i) 21 5 = d := by
  simp only [fld, iWord]
  rw [BitVec.extractLsb'_append_eq_of_le (by decide)]
  rw [BitVec.extractLsb'_append_eq_of_le (by decide)]
  rw [BitVec.extractLsb'_append_eq_of_add_le (by decide)]
  exact BitVec.extractLsb'_eq_self

@[simp] theorem fld_iWord_major (m : Nat) (d a : BitVec 5) (i : BitVec 16) : fld (iWord m d a i) 26 6 = BitVec.ofNat 6 m := by
  simp only [fld, iWord]
  rw [BitVec.extractLsb'_append_eq_of_le (by decide)]
  rw [BitVec.extractLsb'_append_eq_of_le (by decide)]
  rw [BitVec.extractLsb'_append_eq_of_le (by decide)]
  exact BitVec.extractLsb'_eq_self

@[simp] theorem fld_xWord_f (m : Nat) (d a b : BitVec 5) (k : Nat) (s f : BitVec 3) : fld (xWord m d a b k s f) 0 3 = f := by
  simp only [fld, xWord]
  rw [BitVec.extractLsb'_append_eq_of_add_le (by decide)]
  exact BitVec.extractLsb'_eq_self

@[simp] theorem fld_xWord_s (m : Nat) (d a b : BitVec 5) (k : Nat) (s f : BitVec 3) : fld (xWord m d a b k s f) 3 3 = s := by
  simp only [fld, xWord]
  rw [BitVec.extractLsb'_append_eq_of_le (by decide)]
  rw [BitVec.extractLsb'_append_eq_of_add_le (by decide)]
  exact BitVec.extractLsb'_eq_self

@[simp] theorem fld_xWord_sub (m : Nat) (d a b : BitVec 5) (k : Nat) (s f : BitVec 3) : fld (xWord m d a b k s f) 6 5 = BitVec.ofNat 5 k := by
  simp only [fld, xWord]
  rw [BitVec.extractLsb'_append_eq_of_le (by decide)]
  rw [BitVec.extractLsb'_append_eq_of_le (by decide)]
  rw [BitVec.extractLsb'_append_eq_of_add_le (by decide)]
  exact BitVec.extractLsb'_eq_self

@[simp] theorem fld_xWord_b (m : Nat) (d a b : BitVec 5) (k : Nat) (s f : BitVec 3) : fld (xWord m d a b k s f) 11 5 = b := by
  simp only [fld, xWord]
  rw [BitVec.extractLsb'_append_eq_of_le (by decide)]
  rw [BitVec.extractLsb'_append_eq_of_le (by decide)]
  rw [BitVec.extractLsb'_append_eq_of_le (by decide)]
  rw [BitVec.extractLsb'_append_eq_of_add_le (by decide)]
  exact BitVec.extractLsb'_eq_self

@[simp] theorem fld_xWord_a (m : Nat) (d a b : BitVec 5) (k : Nat) (s f : BitVec 3) : fld (xWord m d a b k s f) 16 5 = a := by
  simp only [fld, xWord]
  rw [BitVec.extractLsb'_append_eq_of_le (by decide)]
  rw [BitVec.extractLsb'_append_eq_of_le (by decide)]
  rw [BitVec.extractLsb'_append_eq_of_le (by decide)]
  rw [BitVec.extractLsb'_append_eq_of_le (by decide)]
  rw [BitVec.extractLsb'_append_eq_of_add_le (by decide)]
  exact BitVec.extractLsb'_eq_self

@[simp] theorem fld_xWord_d (m : Nat) (d a b : BitVec 5) (k : Nat) (s f : BitVec 3) : fld (xWord m d a b k s f) 21 5 = d := by
  simp only [fld, xWord]
  rw [BitVec.extractLsb'_append_eq_of_le (by decide)]
  rw [BitVec.extractLsb'_append_eq_of_le (by decide)]
  rw [BitVec.extractLsb'_append_eq_of_le (by decide)]
  rw [BitVec.extractLsb'_append_eq_of_le (by decide)]
  rw [BitVec.extractLsb'_append_eq_of_le (by decide)]
  rw [BitVec.extractLsb'_append_eq_of_add_le (by decide)]
  exact BitVec.extractLsb'_eq_self

@[simp] theorem fld_xWord_major (m : Nat) (d a b : BitVec 5) (k : Nat) (s f : BitVec 3) : fld (xWord m d a b k s f) 26 6 = BitVec.ofNat 6 m := by
  simp only [fld, xWord]
  rw [BitVec.extractLsb'_append_eq_of_le (by decide)]
  rw [BitVec.extractLsb'_append_eq_of_le (by decide)]
  rw [BitVec.extractLsb'_append_eq_of_le (by decide)]
  rw [BitVec.extractLsb'_append_eq_of_le (by decide)]
  rw [BitVec.extractLsb'_append_eq_of_le (by decide)]
  rw [BitVec.extractLsb'_append_eq_of_le (by decide)]
  exact BitVec.extractLsb'_eq_self

end Sys2Proof
end

