-- ==== Sys2Proof/Laws/Device.lean ====
section
/-! SUPPORT. What the shared operations of waiting can do: an access of the device's own, a request of an SPE that is issued, and the error
response to an access of a core. -/
namespace Sys2Proof.Machine

/-! ### The device's own accesses (R380) -/

/-- Behind others that wait, an access of the device's own waits. -/
theorem State.devPost_behind {s : State} (op : DevOp) (h : s.devQ ≠ []) : s.devPost op = s.devAdd op := by
  simp [State.devPost, h]

/-- With none before it, an access of the device's own that its stacks let in is made, and what it adds follows it. -/
theorem State.devPost_now {s : State} (op : DevOp) (h : s.devQ = [])
    (ha : (s.devAdd op |>.admitAll { code := 10, unit := 15 } (s.devAdd op |>.devTouches op)).1 = true) :
    s.devPost op = State.devDrain 7
      (({ (s.devAdd op |>.admitAll { code := 10, unit := 15 } (s.devAdd op |>.devTouches op)).2 with devQ := [] } : State).devPerform op) := by
  have hq : (s.devAdd op).devQ = [op] := by simp [State.devAdd, h]
  rw [State.devPost, h]
  simp only [List.isEmpty_nil, if_true]
  rw [State.devDrain, hq]
  simp [ha]

/-- With none before it, one that its stacks do not let in waits. -/
theorem State.devPost_blocked {s : State} (op : DevOp) (h : s.devQ = [])
    (ha : (s.devAdd op |>.admitAll { code := 10, unit := 15 } (s.devAdd op |>.devTouches op)).1 = false) :
    s.devPost op = (s.devAdd op |>.admitAll { code := 10, unit := 15 } (s.devAdd op |>.devTouches op)).2 := by
  have hq : (s.devAdd op).devQ = [op] := by simp [State.devAdd, h]
  rw [State.devPost, h]
  simp only [List.isEmpty_nil, if_true]
  rw [State.devDrain, hq]
  simp [ha]

/-! ### The requests of an SPE (R147, R182, R274, R280) -/

/-- A request that is issued is kept by its element, goes to the held entries, comes to its own bank, or travels to another. -/
theorem State.issueSpe_cases (s : State) (r : SpeReq) :
    (s.orderWaits r = true ∧ s.issueSpe r =
      s.setElem r.srcH r.site { s.elem r.srcH r.site with sendQ := (s.elem r.srcH r.site).sendQ ++ [r] }) ∨
    s.issueSpe r = s.sendSpe r := by
  unfold State.issueSpe
  cases hw : s.orderWaits r
  · simp
  · cases hk : (r.kind.acquires && !s.toHeld r && !permitted s r) <;> simp_all

/-- A request to a bank of another element that the held entries do not take travels there. -/
theorem State.sendSpe_ships {s : State} {r : SpeReq} (held : s.toHeld r = false) (far : ownBank r.srcH r.site r.target = false) :
    s.sendSpe r = s.ship r := by
  simp [State.sendSpe, held, far]

/-! ### The error response to an access of a core (R238) -/

/-- The core traps before a later instruction issues, or goes on with the response on its way; the choice is free (log entry 82). -/
theorem State.errorBack_cases (s : State) (c : CoreId) (d : BitVec 5) (ea : W64) :
    let t : State := { s with freeN := s.freeN + 1 }
    let k := t.coreOf c
    (Config.errorLate s.freeN = false ∧ s.errorBack c d ea = t.takeTrap c 4 ea false) ∨
    (Config.errorLate s.freeN = true ∧ s.errorBack c d ea =
      t.setCore c { k with pc := k.pc + 4, instret := k.instret + 1, owedErr := k.owedErr ++ [{ epc := k.pc, ea := ea, d := d }] }) := by
  unfold State.errorBack
  cases Config.errorLate s.freeN <;> simp

end Sys2Proof.Machine
end

