-- ==== Sys2Proof/Laws/Step.lean ====
section
/-! SUPPORT. A step takes the first turn of the agenda; the turn of a core runs the instruction it fetched. -/
namespace Sys2Proof.Machine
open Sys2Proof

/-- A step with turns left runs the first one over the state with the others left (log entry 1). -/
theorem step_cons {s : State} {x : Turn} {rest : List Turn} (ha : s.agenda = x :: rest) (ho : s.off = false) (hr : s.inReset = false) :
    step s = State.runTurn (s.behind rest) x := by
  unfold step
  rw [ha]
  show (if (s.off && _) = true then _ else if (s.inReset && _) = true then _ else _) = _
  rw [if_neg (by simp [ho]), if_neg (by simp [hr])]
  rfl

/-- A core that may issue is not in the boot ROM (R256). -/
theorem State.canIssue_notRom {t : State} {c : CoreId} (hc : t.canIssue c = true) : (t.coreOf c).inRom = false := by
  simp only [State.canIssue] at hc
  unfold Core.inRom
  cases h : (t.coreOf c).run <;> simp [h] at hc ⊢

/-- The turn of a core that may issue: the trap of a refused fetch; else, once the fetch is let in and its bytes have come, the trap of a
word that is no instruction, or the instruction, with the error responses that are on their way (R224, R231, R238, R381, R386). -/
theorem State.coreTurn_eq {s t : State} {c : CoreId} (e : ({ s with core := c } : State) = t) (hc : t.canIssue c = true) :
    State.coreTurn s c = match t.fetchInstr c with
      | none => .next (t.fetchTrap c)
      | some i =>
        match t.fetchIn c with
        | .wait u => .next u
        | .err u => .next (u.takeTrap c 4 (u.coreOf c).pc false)
        | .ok _ u =>
          match i with
          | .error w => .next (u.takeTrap c 1 (w.setWidth 64) false)
          | .ok i => u.runOn c i := by
  unfold State.coreTurn
  simp only [e, State.canIssue_notRom hc, hc]
  cases t.fetchInstr c with
  | none => rfl
  | some i => cases t.fetchIn c <;> cases i <;> simp

/-- A core for which no error response is on its way runs its instruction (R238). -/
theorem State.runOn_eq {s : State} {c : CoreId} (i : Instr) (h : (s.coreOf c).owedErr = []) : s.runOn c i = exec i s := by
  simp [State.runOn, h]

/-- A fetch that is charged to no budget changes nothing (R256, R258, R381). -/
theorem State.fetchIn_beadle (t : State) : t.fetchIn .beadle = .ok () t := rfl

/-- What a fetch leaves keeps the canonical form, however it ends. -/
theorem State.fetchIn_memOk {t : State} (c : CoreId) (h : t.MemOk) : (t.fetchIn c).Ends State.MemOk := by
  cases c with
  | beadle => exact h
  | reeve g =>
    have hl : (t.letIn (t.coreAgent (.reeve g)) (t.coreOf (.reeve g)).pc.toNat 4).2.MemOk := (State.letIn_sameStores ..).memOk h
    unfold State.fetchIn
    dsimp only
    refine ends_ite h (ends_ite ?_ hl)
    have hu := State.arrayRead_memOk (t.coreAgent (.reeve g)) (t.coreOf (.reeve g)).pc.toNat 4 (State.setCore_memOk (.reeve g)
      { t.coreOf (.reeve g) with fetched := some ((t.coreOf (.reeve g)).pc, (t.coreOf (.reeve g)).instret) } hl)
    revert hu
    generalize State.arrayRead _ _ _ _ = r
    cases r <;> exact id

end Sys2Proof.Machine
end

