-- ==== Sys2Proof/Tests/Slice0.lean ====
section
/-! SUPPORT. The tests: words written out from the spec's encodings, terms that well-formedness refuses, worked examples of the spec, and for
every obligation states and operands that meet its hypotheses. -/
namespace Sys2Proof.Tests
set_option Elab.async false
open Sys2Proof Sys2Proof.Machine

/-! ### Words from the encodings of R89 to R97, R229 to R255, R327, R329, R347 -/

theorem test_words_pe_1 : ∀ p ∈ ([(0x007BCB50, .add ⟨3, 13, 14, 5, true, 2, 2, 0⟩),
    (0x029BCB50, .sub ⟨4, 13, 14, 5, true, 2, 2, 0⟩),
    (0x04BBCB50, .adds ⟨5, 13, 14, 5, true, 2, 2, 0⟩),
    (0x06DBCB50, .subs ⟨6, 13, 14, 5, true, 2, 2, 0⟩),
    (0x087BCB50, .mul ⟨3, 13, 14, 5, true, 2, 2, 0⟩),
    (0x0A9BCB50, .mulh ⟨4, 13, 14, 5, true, 2, 2, 0⟩),
    (0x0CBBCB50, .mulhu ⟨5, 13, 14, 5, true, 2, 2, 0⟩),
    (0x0EDA0B50, .neg ⟨6, 13, 0, 5, true, 2, 2, 0⟩),
    (0x107A0B50, .abs ⟨3, 13, 0, 5, true, 2, 2, 0⟩),
    (0x129BCB50, .and ⟨4, 13, 14, 5, true, 2, 2, 0⟩),
    (0x14BBCB50, .or ⟨5, 13, 14, 5, true, 2, 2, 0⟩),
    (0x16DBCB50, .xor ⟨6, 13, 14, 5, true, 2, 2, 0⟩),
    (0x187BCB50, .andn ⟨3, 13, 14, 5, true, 2, 2, 0⟩),
    (0x1A9BCB50, .shl ⟨4, 13, 14, 5, true, 2, 2, 0⟩),
    (0x1CBBCB50, .shr ⟨5, 13, 14, 5, true, 2, 2, 0⟩),
    (0x1EDBCB50, .sra ⟨6, 13, 14, 5, true, 2, 2, 0⟩),
    (0x207A0B50, .clz ⟨3, 13, 0, 5, true, 2, 2, 0⟩),
    (0x229A0B50, .popc ⟨4, 13, 0, 5, true, 2, 2, 0⟩),
    (0x24BBCB50, .min ⟨5, 13, 14, 5, true, 2, 2, 0⟩),
    (0x26DBCB50, .max ⟨6, 13, 14, 5, true, 2, 2, 0⟩),
    (0x287BCB50, .minu ⟨3, 13, 14, 5, true, 2, 2, 0⟩),
    (0x2A9BCB50, .maxu ⟨4, 13, 14, 5, true, 2, 2, 0⟩),
    (0x30BBCB52, .cmp ⟨5, 13, 14, 5, true, 2, 2, 2⟩),
    (0x32DBCB50, .tst ⟨6, 13, 14, 5, true, 2, 2, 0⟩)] : List (W32 × Instr)), (decodeOpWord .pe p.1).toOption = some p.2 := by
  decide +kernel

theorem test_words_pe_2 : ∀ p ∈ ([(0x347BCB51, .sel ⟨3, 13, 14, 5, true, 2, 2, 1⟩),
    (0x369BCB52, .clamp ⟨4, 13, 14, 5, true, 2, 2, 2⟩),
    (0x40BBCB53, .fadd ⟨5, 13, 14, 5, true, 2, 2, 3⟩),
    (0x42DBCB51, .fsub ⟨6, 13, 14, 5, true, 2, 2, 1⟩),
    (0x447BCB52, .fmul ⟨3, 13, 14, 5, true, 2, 2, 2⟩),
    (0x469BCB53, .fma ⟨4, 13, 14, 5, true, 2, 2, 3⟩),
    (0x48BBCB50, .fmin ⟨5, 13, 14, 5, true, 2, 2, 0⟩),
    (0x4ADBCB50, .fmax ⟨6, 13, 14, 5, true, 2, 2, 0⟩),
    (0x4C7A0B50, .fneg ⟨3, 13, 0, 5, true, 2, 2, 0⟩),
    (0x4E9A0B50, .fabs ⟨4, 13, 0, 5, true, 2, 2, 0⟩),
    (0x50BBCB52, .fcmp ⟨5, 13, 14, 5, true, 2, 2, 2⟩),
    (0x52DA0B53, .fcvti ⟨6, 13, 0, 5, true, 2, 2, 3⟩),
    (0x547A0B51, .icvtf ⟨3, 13, 0, 5, true, 2, 2, 1⟩),
    (0x569BCB52, .fscale ⟨4, 13, 14, 5, true, 2, 2, 2⟩),
    (0x58BA0B53, .frcp ⟨5, 13, 0, 5, true, 2, 2, 3⟩),
    (0x5ADA0B51, .frsq ⟨6, 13, 0, 5, true, 2, 2, 1⟩),
    (0x5C7A0B52, .fexp2 ⟨3, 13, 0, 5, true, 2, 2, 2⟩),
    (0x5E9A0B53, .flog2 ⟨4, 13, 0, 5, true, 2, 2, 3⟩),
    (0x60BA0B50, .mov ⟨5, 13, 0, 5, true, 2, 2, 0⟩),
    (0x637A0B52, .steer ⟨11, 13, 0, 5, true, 2, 2, 2⟩),
    (0x647BCB53, .merge ⟨3, 13, 14, 5, true, 2, 2, 3⟩),
    (0x669A0B51, .filt ⟨4, 13, 0, 5, true, 2, 2, 1⟩),
    (0x68BA0B50, .dup ⟨5, 13, 0, 5, true, 2, 2, 0⟩),
    (0x6BFA0B50, .drop ⟨15, 13, 0, 5, true, 2, 2, 0⟩)] : List (W32 × Instr)), (decodeOpWord .pe p.1).toOption = some p.2 := by
  decide +kernel

theorem test_words_pe_3 : ∀ p ∈ ([(0x707A0B51, .mark ⟨3, 13, 0, 5, true, 2, 2, 1⟩),
    (0x729A0B50, .tagof ⟨4, 13, 0, 5, true, 2, 2, 0⟩),
    (0x74BA0B50, .strip ⟨5, 13, 0, 5, true, 2, 2, 0⟩),
    (0x76DA0B50, .passm ⟨6, 13, 0, 5, true, 2, 2, 0⟩),
    (0x78600B50, .hole ⟨3, 0, 0, 5, true, 2, 2, 0⟩),
    (0x809BCB53, .radd ⟨4, 13, 14, 5, true, 2, 2, 3⟩),
    (0x82BBCB51, .rfadd ⟨5, 13, 14, 5, true, 2, 2, 1⟩),
    (0x84DBCB52, .rmax ⟨6, 13, 14, 5, true, 2, 2, 2⟩),
    (0x867BCB53, .rfmax ⟨3, 13, 14, 5, true, 2, 2, 3⟩),
    (0x91EA6B51, .plog ⟨15, 5, 3, 5, true, 2, 2, 1⟩),
    (0x93A00B52, .psend ⟨13, 0, 0, 5, true, 2, 2, 2⟩),
    (0xA0DA0B50, .cnt ⟨6, 13, 0, 5, true, 2, 2, 0⟩),
    (0xA3E00B50, .nop ⟨15, 0, 0, 5, true, 2, 2, 0⟩),
    (0xA5E00B50, .halt ⟨15, 0, 0, 5, true, 2, 2, 0⟩),
    (0xA7FA0B53, .evt ⟨15, 13, 0, 5, true, 2, 2, 3⟩)] : List (W32 × Instr)), (decodeOpWord .pe p.1).toOption = some p.2 := by
  decide +kernel

theorem test_words_spe : ∀ p ∈ ([(0x00DA0B51, .ld ⟨6, 13, 0, 5, true, 2, 2, 1⟩),
    (0x03FBCB52, .st ⟨15, 13, 14, 5, true, 2, 2, 2⟩),
    (0x109BCB50, .aadd ⟨4, 13, 14, 5, true, 2, 2, 0⟩),
    (0x12BBCB50, .asub ⟨5, 13, 14, 5, true, 2, 2, 0⟩),
    (0x14DBCB50, .amin ⟨6, 13, 14, 5, true, 2, 2, 0⟩),
    (0x167BCB50, .amax ⟨3, 13, 14, 5, true, 2, 2, 0⟩),
    (0x189BCB50, .aminu ⟨4, 13, 14, 5, true, 2, 2, 0⟩),
    (0x1ABBCB50, .amaxu ⟨5, 13, 14, 5, true, 2, 2, 0⟩),
    (0x1CDBCB51, .aand ⟨6, 13, 14, 5, true, 2, 2, 1⟩),
    (0x1E7BCB50, .aor ⟨3, 13, 14, 5, true, 2, 2, 0⟩),
    (0x209BCB51, .axor ⟨4, 13, 14, 5, true, 2, 2, 1⟩),
    (0x22BBCB50, .aswap ⟨5, 13, 14, 5, true, 2, 2, 0⟩),
    (0x24DBCB51, .acas ⟨6, 13, 14, 5, true, 2, 2, 1⟩),
    (0x267BCB50, .afadd ⟨3, 13, 14, 5, true, 2, 2, 0⟩),
    (0x309A0B50, .itake ⟨4, 13, 0, 5, true, 2, 2, 0⟩),
    (0x33FBCB50, .iput ⟨15, 13, 14, 5, true, 2, 2, 0⟩),
    (0x34DA0B50, .iread ⟨6, 13, 0, 5, true, 2, 2, 0⟩),
    (0x37FA0B50, .iclr ⟨15, 13, 0, 5, true, 2, 2, 0⟩),
    (0x40800B51, .tclaim ⟨4, 0, 0, 5, true, 2, 2, 1⟩),
    (0x43FA0B50, .tcommit ⟨15, 13, 0, 5, true, 2, 2, 0⟩),
    (0x44C00B51, .ttake ⟨6, 0, 0, 5, true, 2, 2, 1⟩),
    (0x47FA0B50, .tfree ⟨15, 13, 0, 5, true, 2, 2, 0⟩),
    (0x48800B51, .tstat ⟨4, 0, 0, 5, true, 2, 2, 1⟩)] : List (W32 × Instr)), (decodeOpWord .spe p.1).toOption = some p.2 := by
  decide +kernel

theorem test_words_se : ∀ p ∈ ([(0x01FA0B53, .sload ⟨15, 13, 0, 5, true, 2, 2, 3⟩),
    (0x03FA0B51, .sstore ⟨15, 13, 0, 5, true, 2, 2, 1⟩),
    (0x05FA0B52, .sgather ⟨15, 13, 0, 5, true, 2, 2, 2⟩),
    (0x07FA0B53, .sscatter ⟨15, 13, 0, 5, true, 2, 2, 3⟩),
    (0x09FA0B51, .sfeed ⟨15, 13, 0, 5, true, 2, 2, 1⟩),
    (0x0BFA0B52, .sbfill ⟨15, 13, 0, 5, true, 2, 2, 2⟩),
    (0x0DFA0B53, .sdrain ⟨15, 13, 0, 5, true, 2, 2, 3⟩),
    (0x0FE00B51, .swait ⟨15, 0, 0, 5, true, 2, 2, 1⟩),
    (0x11E00B52, .scancel ⟨15, 0, 0, 5, true, 2, 2, 2⟩),
    (0x13FA0B53, .sresume ⟨15, 13, 0, 5, true, 2, 2, 3⟩),
    (0x14600B51, .spos ⟨3, 0, 0, 5, true, 2, 2, 1⟩)] : List (W32 × Instr)), (decodeOpWord .se p.1).toOption = some p.2 := by
  decide +kernel

theorem test_words_me : ∀ p ∈ ([(0x01FA0B52, .mma ⟨15, 13, 0, 5, true, 2, 2, 2⟩),
    (0x03FA0B53, .mmas ⟨15, 13, 0, 5, true, 2, 2, 3⟩),
    (0x05E00B51, .accz ⟨15, 0, 0, 5, true, 2, 2, 1⟩),
    (0x07FA0B52, .accmov ⟨15, 13, 0, 5, true, 2, 2, 2⟩),
    (0x09E00B53, .accrd ⟨15, 0, 0, 5, true, 2, 2, 3⟩),
    (0x0BFA0B51, .accwr ⟨15, 13, 0, 5, true, 2, 2, 1⟩),
    (0x0DFA0B50, .bsel ⟨15, 13, 0, 5, true, 2, 2, 0⟩),
    (0x0FFA0B50, .rung ⟨15, 13, 0, 5, true, 2, 2, 0⟩),
    (0x11FA0B50, .monset ⟨15, 13, 0, 5, true, 2, 2, 0⟩),
    (0x12A00B50, .monrd ⟨5, 0, 0, 5, true, 2, 2, 0⟩),
    (0x15E00B50, .monclr ⟨15, 0, 0, 5, true, 2, 2, 0⟩),
    (0x17E00B51, .mwait ⟨15, 0, 0, 5, true, 2, 2, 1⟩)] : List (W32 × Instr)), (decodeOpWord .me p.1).toOption = some p.2 := by
  decide +kernel

theorem test_words_reeve_1 : ∀ p ∈ ([(0x01879800, .reeveAdd 12 7 19),
    (0x01879801, .reeveSub 12 7 19),
    (0x01879802, .reeveAnd 12 7 19),
    (0x01879803, .reeveOr 12 7 19),
    (0x01879804, .reeveXor 12 7 19),
    (0x01879805, .sll 12 7 19),
    (0x01879806, .srl 12 7 19),
    (0x01879807, .reeveSra 12 7 19),
    (0x01879808, .slt 12 7 19),
    (0x01879809, .sltu 12 7 19),
    (0x0187980A, .reeveMul 12 7 19),
    (0x0187980B, .reeveMulh 12 7 19),
    (0x0187980C, .reeveMulhu 12 7 19),
    (0x0187980D, .div 12 7 19),
    (0x0187980E, .divu 12 7 19),
    (0x0187980F, .rem 12 7 19),
    (0x01879810, .remu 12 7 19),
    (0x01879811, .reeveMin 12 7 19),
    (0x01879812, .reeveMax 12 7 19),
    (0x05878123, .addi 12 7 33059),
    (0x09878123, .andi 12 7 33059),
    (0x0D878123, .ori 12 7 33059),
    (0x11878123, .xori 12 7 33059),
    (0x15870029, .slli 12 7 41)] : List (W32 × Instr)), (decodeReeve p.1).toOption = some p.2 := by
  decide +kernel

theorem test_words_reeve_2 : ∀ p ∈ ([(0x19870029, .srli 12 7 41),
    (0x1D870029, .srai 12 7 41),
    (0x21878123, .slti 12 7 33059),
    (0x25808123, .lui 12 33059),
    (0x40F38005, .beq 7 19 32773),
    (0x44F38005, .bne 7 19 32773),
    (0x48F38005, .blt 7 19 32773),
    (0x4CF38005, .bge 7 19 32773),
    (0x50F38005, .bltu 7 19 32773),
    (0x54F38005, .bgeu 7 19 32773),
    (0x59900003, .jal 12 1048579),
    (0x5D878123, .jalr 12 7 33059),
    (0x61878123, .lb 12 7 33059),
    (0x65878123, .lh 12 7 33059),
    (0x69878123, .lw 12 7 33059),
    (0x6D878123, .reeveLd 12 7 33059),
    (0x71878123, .lbu 12 7 33059),
    (0x75878123, .lhu 12 7 33059),
    (0x79878123, .lwu 12 7 33059),
    (0x82678123, .sb 19 7 33059),
    (0x86678123, .sh 19 7 33059),
    (0x8A678123, .sw 19 7 33059),
    (0x8E678123, .sd 19 7 33059),
    (0x91879950, .amoadd 12 7 19 2 2 1)] : List (W32 × Instr)), (decodeReeve p.1).toOption = some p.2 := by
  decide +kernel

theorem test_words_reeve_3 : ∀ p ∈ ([(0x91879951, .amoswap 12 7 19 2 2 1),
    (0x91879952, .amoand 12 7 19 2 2 1),
    (0x91879953, .amoor 12 7 19 2 2 1),
    (0x91879954, .amoxor 12 7 19 2 2 1),
    (0x91879955, .amomin 12 7 19 2 2 1),
    (0x91879956, .amomax 12 7 19 2 2 1),
    (0x91879957, .amocas 12 7 19 2 2 1),
    (0x94000017, .fence 2 7),
    (0x99800010, .pfence 12 2),
    (0x9D800008, .csrr 12 8),
    (0x9D874008, .csrw 12 7 8),
    (0x9D878008, .csrs 12 7 8),
    (0x9D87C008, .csrc 12 7 8),
    (0xA1870000, .cfgld 12 7),
    (0xA1800042, .cfgarm 12 2),
    (0xA1800080, .cfgstop 12),
    (0xA18700C0, .cfgswap 12 7),
    (0xA1800100, .cfgfallow 12),
    (0xA1800150, .cutreq 12 2),
    (0xA1870180, .elrd 12 7),
    (0xA18799C0, .elwr 12 7 19),
    (0xA1870201, .stallrd 12 7 1),
    (0xA5879812, .copy 12 7 19 2 2),
    (0xA9879800, .binit 12 7 19)] : List (W32 × Instr)), (decodeReeve p.1).toOption = some p.2 := by
  decide +kernel

theorem test_words_reeve_4 : ∀ p ∈ ([(0xA9879852, .barv 12 7 19 2 1),
    (0xA9879892, .bexp 12 7 19 2 1),
    (0xA98798D1, .bwait 12 7 19 2 1),
    (0xA9870100, .bstat 12 7),
    (0xAD870012, .tspawn 12 7 2 1),
    (0xAD800051, .tpop 12 2 1),
    (0xAD870092, .tjoin 12 7 2 1),
    (0xAC0700D2, .tdone 7 2 1),
    (0xAD870100, .launch 12 7),
    (0xAD870140, .launchi 12 7),
    (0xAD870180, .gang 12 7),
    (0xB1870000, .wait 12 7),
    (0xB1879840, .sleep 12 7 19),
    (0xB40000A5, .trap 165),
    (0xB4000100, .tret),
    (0xB8000000, .reeveNop),
    (0xB8000001, .reeveHalt),
    (0xB9870002, .census 12 7)] : List (W32 × Instr)), (decodeReeve p.1).toOption = some p.2 := by
  decide +kernel

theorem test_words_examples :
    [0x01F00109, 0x13F20131].map (fun w => (decodeOpWord .se w).toOption) =
      [some (.sload ⟨15, 8, 0, 0, true, 0, 1, 1⟩), some (.sresume ⟨15, 9, 0, 0, true, 1, 2, 1⟩)] ∧
    (decodeOpWord .pe 0x8119A601).toOption = some (.radd ⟨8, 12, 13, 3, false, 0, 0, 1⟩) ∧
    (decodeOpWord .me 0x17E00000).toOption = some (.mwait ⟨15, 0, 0, 0, false, 0, 0, 0⟩) := by decide +kernel

theorem test_words_program :
    [0x6CA10000, 0xA0C50000, 0x44C0000F, 0xA0C00042, 0x44C0000D, 0x6CE10018, 0x05000001, 0xA8074000, 0x05801004, 0x01A70000, 0xA5895012,
      0xA9676052, 0xA9C758D1, 0x45C00002, 0xAC0200C0, 0xB4000001].map (fun w => (decodeReeve w).toOption) =
    [some (.reeveLd 5 1 0), some (.cfgld 6 5), some (.bne 6 0 15), some (.cfgarm 6 2), some (.bne 6 0 13), some (.reeveLd 7 1 24),
      some (.addi 8 0 1), some (.binit 0 7 8), some (.addi 12 0 4100), some (.reeveAdd 13 7 0), some (.copy 12 9 10 2 2),
      some (.barv 11 7 12 2 1), some (.bwait 14 7 11 2 1), some (.bne 14 0 2), some (.tdone 2 0 0), some (.trap 1)] := by decide +kernel

theorem test_trigger_word : unpackTrig 0x80001000 =
    ⟨true, false, false, false, 0, false, false, 0, 0, 1, 0, 0, 0, 0, 0⟩ := by decide +kernel

theorem test_words_queue : ∀ p ∈ ([(0x50100, .queueNop ⟨5, 1, 2, 3⟩), (0x50101, .qconf ⟨5, 1, 2, 3⟩), (0x50102, .qpush ⟨5, 1, 2, 3⟩),
      (0x50103, .qstop ⟨5, 1, 2, 3⟩), (0x50104, .qstart ⟨5, 1, 2, 3⟩), (0x50105, .qchain ⟨5, 1, 2, 3⟩),
      (0x50106, .qexpert ⟨5, 1, 2, 3⟩)] : List (W64 × Instr)), (decodeQueueCmd p.1 1 2 3).toOption = some p.2 := by decide +kernel

theorem test_words_xlat : ∀ p ∈ ([(0x50100, .xlateNop ⟨5, 1, 2, 3⟩), (0x50101, .invva ⟨5, 1, 2, 3⟩), (0x50102, .invasid ⟨5, 1, 2, 3⟩),
      (0x50103, .invctx ⟨5, 1, 2, 3⟩), (0x50104, .resolve ⟨5, 1, 2, 3⟩), (0x50105, .refuse ⟨5, 1, 2, 3⟩),
      (0x50106, .release ⟨5, 1, 2, 3⟩)] : List (W64 × Instr)), (decodeXlatCmd p.1 1 2 3).toOption = some p.2 := by decide +kernel

def blk : Block := ⟨0x40, 0, 0, 1, 2, 3, 4, 5, 6⟩

theorem test_block_kinds : (List.range 12).map (fun k => blockOp k 9 blk) =
    [none, some (.launchBlock 9 blk), some (.launchiBlock 9 blk), some (.gangBlock 9 blk), some (.copyBlock 9 blk), some (.binitBlock 9 blk),
      some (.signal 9 blk), some (.waitb 9 blk), some (.stage 9 blk), some (.persist 9 blk), some (.fenceBlock 9 blk), none] := by rfl

theorem test_words_refused :
    (decodeOpWord .pe 0x2C600000).toOption = none ∧ (decodeOpWord .se 0x17F00000).toOption = none ∧ (decodeReeve 0x28000000).toOption = none ∧
    (decodeReeve 0x00000013).toOption = none ∧ (decodeReeve 0xB4000001).isOk = true ∧ (decodeReeve 0xB4000101).toOption = none ∧
    (decodeQueueCmd 0x107 0 0 0).toOption = none ∧ (decodeQueueCmd 0x201 0 0 0).toOption = none ∧
    (decodeQueueCmd 0x400101 0 0 0).toOption = none ∧ (decodeXlatCmd 0x1000101 0 0 0).toOption = none := by decide +kernel

/-! ### Ill-formed terms -/

def op (dst a b deq : BitVec 4) (pwe : Bool) (pidx : BitVec 3) (pmode : BitVec 2) (x : BitVec 3) : FOp := ⟨dst, a, b, deq, pwe, pidx, pmode, x⟩

/-- Each check on a fabric operation word: its destination class, an unread operand field, its x class, the predicate index, the operands
of PLOG, predicate fields without a write (R55, R90, R92), the inputs of a reduction (R132), a write of p4 by an SPE (R27). -/
theorem test_wf_fabric :
    (Instr.add (op 15 12 13 3 true 5 3 0)).wf = true ∧ (Instr.fma (op 8 0 1 0 false 0 0 0)).wf = false ∧
    (Instr.halt (op 14 0 0 0 false 0 0 0)).wf = false ∧ (Instr.steer (op 7 0 0 0 false 0 0 0)).wf = false ∧
    (Instr.psend (op 11 0 0 0 false 0 0 0)).wf = false ∧
    (Instr.hole (op 8 1 0 0 false 0 0 0)).wf = false ∧ (Instr.neg (op 0 0 1 0 false 0 0 0)).wf = false ∧
    (Instr.add (op 0 0 0 0 false 0 0 1)).wf = false ∧ (Instr.fadd (op 0 0 0 0 false 0 0 4)).wf = false ∧
    (Instr.ld (op 0 0 0 0 false 0 0 7)).wf = false ∧ (Instr.tclaim (op 0 0 0 0 false 0 0 2)).wf = false ∧
    (Instr.add (op 0 0 0 0 true 6 0 0)).wf = false ∧ (Instr.plog (op 15 8 0 0 true 0 0 0)).wf = false ∧
    (Instr.add (op 0 0 0 0 false 1 0 0)).wf = false ∧ (Instr.add (op 0 0 0 0 false 0 1 0)).wf = false ∧
    (Instr.radd (op 8 0 1 0 false 0 0 0)).wf = false ∧ (Instr.radd (op 8 12 12 0 false 0 0 0)).wf = false ∧
    (Instr.ld (op 0 0 0 0 true 4 0 0)).wf = false := by decide +kernel

/-- Each check on a reeve instruction: an order flag with scope 0, a scope with no flag, a reserved scope, FENCE without an order, a
persistence scope, a control register, COPY's register pair (R225, R230, R243, R244, R250). -/
theorem test_wf_reeve :
    (Instr.amoadd 1 2 3 2 1 0).wf = true ∧ (Instr.amoadd 1 2 3 0 1 0).wf = false ∧ (Instr.amoadd 1 2 3 2 0 0).wf = false ∧
    (Instr.barv 1 2 3 6 1).wf = false ∧ (Instr.fence 2 4).wf = false ∧ (Instr.fence 0 1).wf = false ∧ (Instr.pfence 1 3).wf = false ∧
    (Instr.cutreq 1 0).wf = false ∧ (Instr.csrr 1 0x14).wf = false ∧ (Instr.copy 3 1 2 0 0).wf = false ∧ (Instr.copy 30 1 2 0 0).wf = false := by
  decide +kernel

/-- Each range of a number that names an agent, a queue, a context or a block's field (R3, R327, R329, R347). -/
theorem test_wf_ranges :
    (Instr.qstop ⟨64, 0, 0, 0⟩).wf = false ∧ (Instr.invva ⟨64, 0, 0, 0⟩).wf = false ∧ (Instr.fenceBlock 0 ⟨0, 0x20, 0, 0, 0, 0, 0, 0, 0⟩).wf = false ∧
    (Instr.fenceBlock 0 ⟨0, 0x18, 0, 0, 0, 0, 0, 0, 0⟩).wf = false ∧ (Instr.fenceBlock 0 ⟨0, 0, 1, 0, 0, 0, 0, 0, 0⟩).wf = false ∧
    (Instr.meRow 256 0).wf = false ∧ (Instr.meRow 0 64).wf = false ∧ (Instr.storePerform 257).wf = false ∧ (Instr.storePerform 256).wf = true ∧
    (Instr.speCompletion 0 0 16).wf = false ∧ (Instr.deferredRequestPerform 0 16).wf = false ∧ (Instr.streamPosition 0 0 4).wf = false ∧
    (Instr.popRead 64).wf = false ∧ (Instr.expertWindowEnd 256).wf = false ∧ (Instr.pageWalk 0 0 3).wf = false ∧
    (Instr.elementRecord 0 66).wf = false ∧ (Instr.channelStateReplay 0 0 6).wf = false ∧ (Instr.hbmRateCapGrant 8).wf = false ∧
    (Instr.nodispatch 32).wf = false ∧ (Instr.inrushRampStart 2).wf = false ∧ (Instr.mext 8).wf = false ∧
    (Instr.ualinkPortDown 18).wf = false := by decide +kernel

/-! ### Small states for the tests -/

/-- The beadle running at 0x1000, register n of g1 to g4 holding 0x4000, 0x4040, 3 and −1. -/
def low : State := { State.reset with
  beadle := { run := .running, pc := 0x1000, arenaBase := 0x1000, arenaBound := 0x20000, tvec := 0x2000,
              g := [(1, 0x4000), (2, 0x4040), (3, 3), (4, 0xFFFFFFFFFFFFFFFF)] },
  boot := { go := true } }

/-- The descriptor of a context: code from 0x1000 to 0x20000, a refill of 1,000, a save area of 4 GiB at 0x4000_0000, its event ring at
0x8000, one range entry that maps the lowest 512 GiB to themselves, readable and writable (R337, R340). -/
def desc : List Byte :=
  leBytes 8 0xA000000000000000 ++ leBytes 8 0x1000 ++ leBytes 8 0x20000 ++ leBytes 2 0 ++ leBytes 2 1 ++ leBytes 4 1 ++ leBytes 24 0 ++
  leBytes 8 1000 ++ leBytes 8 1 ++ leBytes 8 0x40000000 ++ leBytes 8 0x100000000 ++ leBytes 8 0x8000 ++ leBytes 16 0 ++ leBytes 4 1 ++
  leBytes 140 0 ++ leBytes 8 0 ++ leBytes 8 0x8000000000 ++ leBytes 8 0 ++ leBytes 8 7

def task0 : Task := { record := 0x4000, body := leBytes 64 0, queue := 3, prio := 0, pushed := 0, comps := [0] }

/-- Hamlet 0 as an armed region of its own in free mode, of context 1, its reeve running as `low`'s beadle does. -/
def up : State := { low with
  core := .reeve 0,
  hamlets := [(0, { ctx := some 1, region := some 0, reeve := { low.beadle with ctx := 1, record := 0x4000 } })],
  regions := [(0, { ctx := 1, st := .armed, free := true, task := some task0 })],
  market := { desc := [(1, desc)], balance := [(1, 1000)] } }

/-- The same, with the region changed. -/
def upWith (f : Region → Region) : State := up.setRegion 0 (f (up.region 0))
/-- The same, with the hamlet changed. -/
def upHam (s : State) (f : Hamlet → Hamlet) : State := s.setHam 0 (f (s.ham 0))
/-- The same, with the reeve changed. -/
def upReeve (s : State) (f : Core → Core) : State := upHam s fun x => { x with reeve := f x.reeve }
/-- The same in held mode, with a held-write buffer of 1,024 entries. -/
def held : State := upHam (upWith fun r => { r with free := false }) fun x => { x with heldSpan := some (0x10000, 0x20000) }

/-- An element of hamlet 0 with one valid slot, of trigger word `trig` and operation word `w`, that runs. -/
def atSite (site : Nat) (trig w : W32) (f : Elem → Elem) : State :=
  (({ up with curH := 0, curSite := site, curSlot := 0 } : State)).setElem 0 site (f { slots := [(0, w ++ trig)] })

/-- A trigger word that needs nothing. -/
def always : W32 := 0x80000000

/-- A token of DATA. -/
def dat (v : W40) : QEnt := .tok ⟨0, v⟩
/-- Input queue q with entries. -/
def withIn (q : Nat) (l : List QEnt) (e : Elem) : Elem := { e with inq := Tab.put e.inq q { ents := l } }


/-- Which of the three answers a memory access gets: done, waiting, an error response. -/
def isOk {α : Type} : MemRes α → Bool
  | .ok _ _ => true
  | _ => false
def isWait {α : Type} : MemRes α → Bool
  | .wait _ => true
  | _ => false
def isErr {α : Type} : MemRes α → Bool
  | .err _ => true
  | _ => false
/-- A machine of which the sector that holds a byte of memory cannot be corrected (R386). -/
def lost (s : State) (pa : Nat) : State := { s with ecc := [(pa / 32, .many)] }
/-! ### States and operands that meet the hypotheses of each obligation -/

theorem test_meets_EncodeThenDecode :
    (Instr.add ⟨15, 15, 15, 15, true, 5, 3, 0⟩).wf = true ∧ (Instr.add ⟨15, 15, 15, 15, true, 5, 3, 0⟩).fabric? = some (.pe, 0, ⟨15, 15, 15, 15, true, 5, 3, 0⟩) ∧
    (Instr.trap 255).wf = true ∧ encodeReeve (.trap 255) = some 0xB40000FF ∧
    (Instr.qexpert ⟨63, 1, 2, 3⟩).wf = true ∧ encodeQueueCmd (.qexpert ⟨63, 1, 2, 3⟩) = some (0x3F0106, 1, 2, 3) ∧
    (Instr.release ⟨63, 1, 2, 3⟩).wf = true ∧ encodeXlatCmd (.release ⟨63, 1, 2, 3⟩) = some (0x3F0106, 1, 2, 3) := by decide +kernel

theorem test_meets_DecodeThenEncode : (∃ i, decodeOpWord .me 0x17E00000 = .ok i) ∧ (∃ i, decodeReeve 0xB80000A5 = .error i) ∧
    (∃ i, decodeReeve 0xB8000001 = .ok i) := ⟨⟨_, rfl⟩, ⟨_, rfl⟩, ⟨_, rfl⟩⟩

theorem test_meets_ReservedRefused :
    ((0x28000000 : W32).extractLsb' 26 6).toNat = 0x0A ∧ ((0x7C000000 : W32).extractLsb' 26 6).toNat = 0x1F ∧
    0x2F ≤ ((0xBC000000 : W32).extractLsb' 26 6).toNat ∧ opClass .pe ((0x2C000000 : W32).extractLsb' 25 7).toNat = none ∧
    opClass .me ((0xFE000000 : W32).extractLsb' 25 7).toNat = none ∧ 7 ≤ ((7 : W64).extractLsb' 0 8).toNat ∧
    ((0x206 : W64).extractLsb' 0 8).toNat ≤ 6 ∧ (0x206 : W64).extractLsb' 8 8 ≠ 1 ∧ ((0x400106 : W64).extractLsb' 0 8).toNat ≤ 6 ∧
    (0x400106 : W64).extractLsb' 8 8 = 1 ∧ 64 ≤ ((0x400106 : W64).extractLsb' 16 8).toNat := by decide +kernel

/-- A core's turn, with an instruction at the end of its arena. -/
def coreTurn0 : State := { low with agenda := [.core .beadle], mem := low.mem.writeLE 0x1FFFC 4 0xB8000000,
                                    beadle := { low.beadle with pc := 0x1FFFC } }
/-- A reeve's turn at a NOP, its parish's budget as given, its fetch charged already or not. -/
def reeveTurn0 (left : Nat) (paid : Bool) : State :=
  let s := upReeve up fun k => { k with fetched := if paid then some (0x1000, 0) else none }
  { s.setParish 0 { up.parish 0 with left := left } with agenda := [.core (.reeve 0)], mem := up.mem.writeLE 0x1000 4 0xB8000000 }
/-- The beadle's turn at a NOP, an error response on its way to register d. -/
def errTurn0 (d : BitVec 5) : State := { coreTurn0 with beadle := { coreTurn0.beadle with owedErr := [{ epc := 0x1FFF8, ea := 0x5000, d := d }] } }
theorem test_meets_StepRunsCoreInstruction :
    coreTurn0.beadle.owedErr = [] ∧ (errTurn0 7).beadle.owedErr = { epc := 0x1FFF8, ea := 0x5000, d := 7 } :: [] ∧
    ((errTurn0 0).runs .beadle []).errorDue .beadle = true ∧ ((errTurn0 7).runs .beadle []).errorDue .beadle = false ∧
    (match exec .reeveNop ((errTurn0 7).runs .beadle []) with | .next _ => true | _ => false) = true ∧
    coreTurn0.agenda = .core .beadle :: [] ∧ coreTurn0.off = false ∧ coreTurn0.inReset = false ∧ (coreTurn0.runs .beadle []).canIssue .beadle = true ∧
    coreTurn0.beadle.pc.toNat + 4 = coreTurn0.beadle.arenaBound.toNat ∧ coreTurn0.beadle.arenaBase.toNat ≤ coreTurn0.beadle.pc.toNat ∧
    (decodeReeve (BitVec.ofNat 32 (coreTurn0.mem.readLE coreTurn0.beadle.pc.toNat 4))).toOption = some .reeveNop ∧
    (let k (p : Bool) := (reeveTurn0 4096 p).coreOf (.reeve 0)
     (k true).fetched = some ((k true).pc, (k true).instret) ∧ (k false).fetched ≠ some ((k false).pc, (k false).instret)) ∧
    (let t (n : Nat) := (reeveTurn0 n false).runs (.reeve 0) []
     (t 4096).canIssue (.reeve 0) = true ∧ isOk ((t 4096).fetchIn (.reeve 0)) = true ∧ isWait ((t 31).fetchIn (.reeve 0)) = true ∧
       isErr ((lost (t 4096) 0x1000).fetchIn (.reeve 0)) = true ∧ ((t 4096).letIn ((t 4096).coreAgent (.reeve 0)) 0x1000 4).1 = true ∧
       (t 4096).eccOf 0x1000 4 = [] ∧ ((t 31).letIn ((t 31).coreAgent (.reeve 0)) 0x1000 4).1 = false) ∧
    (decodeReeve (BitVec.ofNat 32 ((reeveTurn0 4096 true).mem.readLE 0x1000 4))).toOption = some .reeveNop := by decide +kernel

/-- Two slots of a PE that are both ready: MOV of one register and of another. -/
def slots2 : State := (({ atSite 1 always 0x60200000 id with agenda := [.fire 0 1] } : State)).setElem 0 1
  { slots := [(0, 0x6020000080000000), (3, 0x6064000080000000)] }
theorem test_meets_StepRunsSlotInstruction :
    slots2.agenda = .fire 0 1 :: [] ∧ slots2.off = false ∧ slots2.inReset = false ∧ (slots2.behind []).firstPick 0 1 = some 0 ∧ (slots2.behind []).secondPick 0 1 0 = some 3 ∧
    (decodeOpWord (siteKind 1) ((slots2.elem 0 1).slotWord 0)).toOption = some (.mov ⟨1, 0, 0, 0, false, 0, 0, 0⟩) ∧
    (∃ u, exec (.mov ⟨1, 0, 0, 0, false, 0, 0, 0⟩) ((slots2.behind []).atSlot 0 1 0) = .next u) ∧
    ((atSite 1 always 0x60200000 id).firstPick 0 1 = some 0 ∧ (atSite 1 always 0x60200000 id).secondPick 0 1 0 = none) ∧
    (let s : State := { slots2 with agenda := [.second 0 1 3] }
     s.agenda = .second 0 1 3 :: [] ∧ (decodeOpWord (siteKind 1) ((s.elem 0 1).slotWord 3)).toOption = some (.mov ⟨3, 2, 0, 0, false, 0, 0, 0⟩)) := by
  refine ⟨rfl, rfl, rfl, ?_, ?_, ?_, ⟨_, rfl⟩, ?_, rfl, ?_⟩ <;> decide +kernel

/-- A command in each ring, at their first entries. -/
def rings (q x : Nat) (l : List Turn) : State := { low with
  boot := { low.boot with mktRing := 0x8000, xlRing := 0xA000 }
  mem := ((((low.mem.writeLE 0x8000 8 1).writeLE 0x8040 8 q).writeLE 0xA000 8 1).writeLE 0xA040 8 x), agenda := l }
/-- How the read of a ring's head ends: a command that decodes, one that is refused, one that cannot be read, none, a wait. -/
def ringEnd (s : State) (base : Nat) (decode : W64 → W64 → W64 → W64 → Except Nat Instr) : Nat :=
  match s.ringNext marketAgent base with
  | .cmd w _ => if (decode w.1 w.2.1 w.2.2.1 w.2.2.2).isOk then 0 else 1
  | .bad _ => 2
  | .empty _ => 3
  | .wait _ => 4
/-- A machine whose HBM has used up its bytes of the interval. -/
def spent (s : State) : State := { s with hbm := (List.range 32).map fun k => (k, { used := 3200000 }) }
theorem test_meets_StepRunsCommands :
    (let t := (rings 0x101 0x101 [.queueCmd, .xlatCmd]).behind []
     let u := (rings 0x107 0x201 []).behind []
     let e : State := { t with mem := low.mem }
     (rings 0x101 0x101 [.queueCmd]).agenda = .queueCmd :: [] ∧ (rings 0x101 0x101 [.xlatCmd]).agenda = .xlatCmd :: [] ∧ t.boot.go = true ∧
     ringEnd t 0x8000 decodeQueueCmd = 0 ∧ ringEnd t 0xA000 decodeXlatCmd = 0 ∧ ringEnd u 0x8000 decodeQueueCmd = 1 ∧
     ringEnd u 0xA000 decodeXlatCmd = 1 ∧ ringEnd (lost t 0x8040) 0x8000 decodeQueueCmd = 2 ∧ ringEnd (lost t 0xA040) 0xA000 decodeXlatCmd = 2 ∧
     ringEnd e 0x8000 decodeQueueCmd = 3 ∧ ringEnd e 0xA000 decodeXlatCmd = 3 ∧ ringEnd (spent t) 0x8000 decodeQueueCmd = 4 ∧
     ringEnd (spent t) 0xA000 decodeXlatCmd = 4) ∧
    (∃ u, exec .lock { (rings 0 0 [.event .lock]).behind [] with again := false } = .next u ∧ u.again = false) ∧
    (∃ u, exec (.sensorPoll []) { { (rings 0 0 [.event (.sensorPoll [])]).behind [] with cycle := 1 } with again := false } = .next u ∧ u.again = true) ∧
    (∃ b t e u, (rings 0x101 0 []).readPhys marketAgent 0x8000 16 = .ok b t ∧ leNat ((b.drop 8).take 8) < leNat (b.take 8) ∧
      t.readPhys marketAgent (0x8000 + 64 + 32 * (0 % 126)) 32 = .ok e u) ∧
    low.devWaits 0x8000 4096 = false ∧ ({ low with devQ := [.write marketAgent 0x8008 [1]] } : State).devWaits 0x8000 4096 = true ∧
    (∃ b t, low.readPhys marketAgent 0x8000 16 = .ok b t ∧ leNat (b.take 8) ≤ leNat ((b.drop 8).take 8)) ∧
    State.reset.agenda = [] ∧ State.reset.off = false ∧ State.reset.inReset = false ∧ ({ State.reset with inReset := true } : State).inReset = true ∧
    ({ State.reset with off := true } : State).off = true ∧ ({ low with agenda := [.tick] } : State).agenda = .tick :: [] ∧ low.off = false := by
  refine ⟨?_, ⟨_, rfl, rfl⟩, ⟨_, rfl, rfl⟩, ⟨_, _, _, _, rfl, ?_, rfl⟩, ?_, ?_, ⟨_, _, rfl, ?_⟩, rfl, rfl, rfl, rfl, rfl, rfl, rfl⟩ <;> decide +kernel

theorem test_meets_FetchTraps :
    (low.runs .beadle []).canIssue .beadle = true ∧ low.off = false ∧ low.inReset = false ∧ isOk ((low.runs .beadle []).fetchIn .beadle) = true ∧
    (let k := { low.beadle with pc := 0xFFC }; k.pc.toNat < k.arenaBase.toNat) ∧
    (let k := { low.beadle with pc := 0x1FFFD }; k.arenaBound.toNat < k.pc.toNat + 4) ∧
    (decodeReeve (BitVec.ofNat 32 ((low.mem.writeLE 0x1000 4 0x28000000).readLE low.beadle.pc.toNat 4))).isOk = false := by decide +kernel

/-- The slots of a PE: two normal ones that move into registers 0 and 3, and two high ones that move into registers x and y. -/
def slotsH (x y : W64) : State := slots2.setElem 0 1
  { slots := [(0, 0x6020000080000000), (3, 0x6064000080000000), (5, 0x60020000C0000000 + 0x20000000000000 * x), (9, 0x60020000C0000000 + 0x20000000000000 * y)] }
/-- One high slot, into register x, and the normal ones. -/
def slotsN (x : W64) : State := slots2.setElem 0 1
  { slots := [(0, 0x6020000080000000), (3, 0x6064000080000000), (5, 0x60020000C0000000 + 0x20000000000000 * x)] }
/-- Two normal slots that move into one register. -/
def slotsC : State := slots2.setElem 0 1 { slots := [(0, 0x6020000080000000), (3, 0x6024000080000000)] }
theorem test_meets_SlotPicks :
    slots2.firstPick 0 1 = some 0 ∧ slots2.slotHigh 0 1 0 = false ∧ slots2.secondPick 0 1 0 = some 3 ∧ slots2.readySlots 0 1 = [0, 3] ∧
    (slots2.elem 0 1).pairOk .pe 0 3 = true ∧
    (slotsC.readySlots 0 1 = [0, 3] ∧ slotsC.firstPick 0 1 = some 0 ∧ (slotsC.elem 0 1).pairOk .pe 0 3 = false) ∧
    ((slotsH 3 2).readySlots 0 1 = [0, 3, 5, 9] ∧ (slotsH 3 2).firstPick 0 1 = some 5 ∧ (slotsH 3 2).slotHigh 0 1 5 = true ∧
      (slotsH 3 2).slotHigh 0 1 9 = true ∧ ((slotsH 3 2).elem 0 1).pairOk .pe 5 9 = true) ∧
    ((slotsH 2 2).readySlots 0 1 = [0, 3, 5, 9] ∧ (slotsH 2 2).firstPick 0 1 = some 5 ∧ ((slotsH 2 2).elem 0 1).pairOk .pe 5 9 = false ∧
      ((slotsH 2 2).elem 0 1).pairOk .pe 5 0 = true ∧ (slotsH 2 2).slotHigh 0 1 0 = false ∧ ((slotsH 2 2).elem 0 1).ptr = 15) ∧
    ((slotsN 1).readySlots 0 1 = [0, 3, 5] ∧ (slotsN 1).firstPick 0 1 = some 5 ∧ ((slotsN 1).elem 0 1).pairOk .pe 5 0 = false) ∧
    up.firstPick 0 1 = none := by decide +kernel

/-! The reeve -/

theorem test_meets_ReeveArithmetic :
    low.Issues ∧ up.Issues ∧ ((0x00000013 : W32).extractLsb' 26 6 = 0 ∧ 19 ≤ ((0x00000013 : W32).extractLsb' 0 11).toNat) ∧
    (let s := { low with beadle := { low.beadle with g := [(1, 0x8000000000000000), (2, 0xFFFFFFFFFFFFFFFF)] } }
     s.reg s.core 1 = 0x8000000000000000 ∧ s.reg s.core 2 = BitVec.allOnes 64) ∧ 64 ≤ (64 : BitVec 16).toNat ∧ (1 : BitVec 5) ≠ 0 := by
  unfold State.Issues; decide +kernel

theorem test_meets_ReeveControlFlow :
    low.Issues ∧ low.reg low.core 1 ≠ low.reg low.core 2 ∧ (low.reg low.core 4).toInt < (low.reg low.core 3).toInt ∧
    (low.reg low.core 3).toNat < (low.reg low.core 4).toNat ∧ (low.reg low.core 1 + (4 : BitVec 16).signExtend 64).toNat % 4 = 0 ∧
    (low.reg low.core 1 + (1 : BitVec 16).signExtend 64).toNat % 4 ≠ 0 := by unfold State.Issues; decide +kernel

theorem test_meets_RegisterOnlyFrame :
    regOnly (.reeveAdd 0 1 2) = some 0 ∧ regOnly (.beq 1 2 0) = some 0 ∧ up.Issues ∧ (∃ t, exec (.reeveAdd 31 1 2) up = .next t) := by
  refine ⟨rfl, rfl, ?_, _, rfl⟩
  unfold State.Issues; decide +kernel

theorem test_meets_TrapEntry :
    (low.coreOf .beadle).mT = false ∧ (up.coreOf (.reeve 0)).mT = false ∧ ((upReeve up fun k => { k with mT := true }).coreOf (.reeve 0)).mT = true ∧
    ({ low with beadle := { low.beadle with mT := true } } : State).beadle.mT = true ∧ low.boot.go = true ∧
    ({ low with boot := { low.boot with go := false } } : State).boot.go = false ∧ low.devQ = [] ∧
    (low.admitAll { code := 10, unit := 15 } (low.devTouches (.log .error (leBytes 32 9) true))).1 = true ∧ low.eccOf low.boot.elog.toNat 24 = [] ∧
    ({ low with devQ := [.write marketAgent 0x8008 [1]] } : State).devQ ≠ [] ∧
    low.alog.held.length + low.blog.held.length + low.elog.held.length < 64 := by decide +kernel

theorem test_meets_TrapReturn :
    (upReeve up fun k => { k with mT := true }).Issues ∧ ((upReeve up fun k => { k with mT := true }).coreOf (.reeve 0)).mT = true ∧ up.Issues ∧
    (up.coreOf up.core).mT = false := by unfold State.Issues; decide +kernel

theorem test_meets_SystemInstructions :
    low.Issues ∧ low.core = .beadle ∧ up.core = .reeve 0 ∧ up.Issues ∧ (low.reg .beadle 1).toNat % 64 = 0 ∧
    (low.reg .beadle 1).toNat + 9792 ≤ 0x8000000000 ∧ low.MemOk ∧ low.beadle.storeBuf = [] ∧
    (match low.readLogs (low.coreAgent .beadle) [.array, .bus, .error] with
      | .ok _ u => (u.letIn (u.coreAgent .beadle) (low.reg .beadle 1).toNat 9792).1 | _ => false) = true ∧
    isWait ((spent low).readLogs ((spent low).coreAgent .beadle) [.array, .bus, .error]) = true ∧
    (low.logBase .error + 24 ≤ 0x8000000000 ∧ (low.letIn (low.coreAgent .beadle) (low.logBase .error) 24).1 = true ∧
      low.eccOf (low.logBase .error) 24 = []) ∧
    (let x : OwedErr := { epc := 0x1FF8, ea := 0x5000, d := 7, ran := true }
     let k := (upReeve up fun k => { k with owedErr := [x] }).coreOf (coreOfNum 0)
     k.owedErr.find? (fun x => decide (x.epc = 0x1FF8 ∧ x.ea = 0x5000)) = some x ∧ k.owedErr.find? (fun x => decide (x.epc = 0 ∧ x.ea = 0)) = none ∧
       k.run.live = true ∧ k.mT = false) ∧
    (let s (r : Run) := upReeve up fun k => { k with run := r }
     ((s (.xlat 7 (some true) 0x5000 .page)).coreOf (coreOfNum 0)).run = .xlat 7 (some true) 0x5000 .page ∧
     ((s (.xlat 7 (some false) 0x5000 .access)).coreOf (coreOfNum 0)).run = .xlat 7 (some false) 0x5000 .access ∧
     ((s (.xlat 7 (some false) 0x5000 (.code 3))).coreOf (coreOfNum 0)).run = .xlat 7 (some false) 0x5000 (.code 3) ∧
     (let w := { s .bwait with mem := low.mem.writeLE 0x1000 4 0xA9C758D1 }
      (w.coreOf (coreOfNum 0)).run = .bwait ∧ w.fetchWord (.reeve 0) = some 0xA9C758D1 ∧
      (decodeReeve 0xA9C758D1).toOption = some (.bwait 14 7 11 2 1) ∧
      (w.setCore (.reeve 0) { w.coreOf (.reeve 0) with run := .running }).canIssue (.reeve 0) = true)) := by
  unfold State.Issues State.MemOk; decide +kernel

theorem test_meets_ControlRegisters :
    up.IssuesReeve 0 ∧ (up.coreOf (.reeve 0)).evq = [] ∧ ((upReeve up fun k => { k with evq := [7, 8] }).coreOf (.reeve 0)).evq = [7, 8] ∧
    (upReeve up fun k => { k with evq := [7, 8] }).IssuesReeve 0 ∧ (up.coreOf (.reeve 0)).evMark ≠ some 0 ∧
    ((upReeve up fun k => { k with evq := [7, 8], evMark := some 0 }).coreOf (.reeve 0)).evMark = some 0 ∧ up.regionOf 0 = some (0, up.region 0) ∧
    (0x000 : BitVec 12).toNat ∈ [0x000, 0x001, 0x013] ∧
    (let s (fresh : Nat) := upReeve up fun k => { k with evq := [7, 8], evFresh := fresh }
     let seen (s : State) := (s.coreOf (.reeve 0)).evq.take ((s.coreOf (.reeve 0)).evq.length - (s.coreOf (.reeve 0)).evFresh)
     seen (s 2) = [] ∧ seen (s 1) = [7] ∧ (s 1).IssuesReeve 0) ∧
    (let s := upHam up fun x => { x with region := none }
     s.IssuesReeve 0 ∧ s.regionOf 0 = none ∧ 0 < 256) ∧ (up.region 0).n ≤ 8 ∧ 0 < 0 + (up.region 0).n ∧
    (let s (v : W64) : State := { low with beadle := { low.beadle with g := [(1, v)] } }
     (s 0).Issues ∧ (s 0).core = .beadle ∧ ((s 0xFF00FFF000).reg .beadle 1).toNat % 4096 = 0 ∧ 0xFF00000000 ≤ ((s 0xFF00000000).reg .beadle 1).toNat ∧
      ((s 0xFF00FFF000).reg .beadle 1).toNat < 0xFF01000000 ∧ ((s 0xFEFFFFF000).reg .beadle 1).toNat < 0xFF00000000 ∧
      0xFF01000000 < ((s 0xFF01001000).reg .beadle 1).toNat) := by unfold State.IssuesReeve State.Issues; decide +kernel

theorem test_meets_Loads :
    (let s := lost up 0x4008
     s.Issues ∧ (match s.coreXlat s.core 0x4008 .load with | .ok pa t => decide (pa = 0x4008) && isErr (t.coreReadAt s.core 0x4008 8) | _ => false) = true) ∧
    up.Issues ∧ (let ea := up.reg up.core 1 + (8 : BitVec 16).signExtend 64
     ea.toNat % 8 = 0 ∧ (∃ t, up.coreXlat up.core ea.toNat .load = .ok 0x4008 t ∧ coreRefuses up.core 0x4008 false = none ∧
       (∃ b u, t.coreReadAt up.core 0x4008 8 = .ok b u))) ∧
    up.HbmOpen (up.coreAgent (.reeve 0)) 0x4008 8 ∧
    (let s := upReeve up fun k => { k with storeBuf := [{ pa := 0x400A, bytes := [1, 2] }] }
     s.ownWrites (.reeve 0) = [] ++ (0x4008 + 2, 1) :: [(0x400B, 2)] ∧ (∀ x ∈ [((0x400B : Nat), (2 : Byte))], x.1 ≠ 0x4008 + 2)) := by
  unfold State.HbmOpen
  refine ⟨?_, ?_, ⟨?_, _, rfl, ?_, _, _, rfl⟩, ?_, ?_⟩
  · unfold State.Issues; decide +kernel
  · unfold State.Issues; decide +kernel
  all_goals decide +kernel

theorem test_meets_TrapsOfAccesses :
    up.Issues ∧ low.Issues ∧ low.core = .beadle ∧ (up.reg up.core 1 + (7 : BitVec 16).signExtend 64).toNat % 2 ≠ 0 ∧
    (up.reg up.core 1 + (4 : BitVec 16).signExtend 64).toNat % 8 ≠ 0 ∧ (up.reg up.core 3).toNat % 4 ≠ 0 ∧ (up.reg up.core 3).toNat % 64 ≠ 0 ∧
    (let s := upHam up fun x => { x with region := some 1 }
     s.core = .reeve 0 ∧ s.Issues ∧ s.regionOf 0 = some (1, {})) := by unfold State.Issues; decide +kernel

theorem test_meets_Stores :
    (let ea := up.reg up.core 1 + (8 : BitVec 16).signExtend 64
     up.Issues ∧ ea.toNat % 8 = 0 ∧ ∃ t, up.coreXlat up.core ea.toNat .store = .ok 0x4008 t ∧ coreRefuses up.core 0x4008 true = none ∧
       (t.coreOf up.core).storeBuf.length < 8) ∧
    (let s := upReeve up fun k => { k with storeBuf := [{ pa := 0x400A, bytes := [1, 2] }] }
     (s.coreOf (coreOfNum 0)).storeBuf = { pa := 0x400A, bytes := [1, 2] } :: [] ∧ s.heldMode 0 = false ∧
       s.HbmOpen (s.coreAgent (coreOfNum 0)) 0x400A 2 ∧ s.MemOk) ∧
    (let s := upReeve held fun k => { k with storeBuf := [{ pa := 0x400A, bytes := [1, 2] }] }
     (s.coreOf (coreOfNum 0)).storeBuf = { pa := 0x400A, bytes := [1, 2] } :: [] ∧ s.heldMode 0 = true ∧
       (s.ham 0).heldUsed < (s.ham 0).heldRoom ∧ placeOf 0x400A = .hbm) := by
  unfold State.HbmOpen State.MemOk
  refine ⟨⟨?_, ?_, _, rfl, ?_, ?_⟩, ?_, ?_⟩
  · unfold State.Issues; decide +kernel
  all_goals decide +kernel

theorem test_meets_Atomics :
    up.Issues ∧ up.drained up.core = true ∧ up.heldMode 0 = false ∧ (up.reg up.core 1).toNat % 8 = 0 ∧
    (∃ t, up.coreXlat up.core (up.reg up.core 1).toNat .atomic = .ok 0x4000 t ∧ t.MemOk ∧ t.HbmOpen (t.coreAgent up.core) 0x4000 8 ∧
      t.HbmOpen (t.coreAgent up.core) 0x4000 4) ∧ up.released up.core = true ∧
    (let s := upHam up fun x => { x with held := [{ op := .write 3 0 [(0x5000, 7)], tag := 0, idx := 0 }] }
     s.Issues ∧ s.drained s.core = true ∧ (2 : BitVec 2).getLsbD 1 = true ∧ s.released s.core = false ∧
      (match s.coreXlat s.core (s.reg s.core 1).toNat .atomic with | .ok pa t => !t.outbound 0 pa | _ => false) = true) := by
  unfold State.Issues State.MemOk State.HbmOpen
  refine ⟨?_, ?_, ?_, ?_, ⟨_, rfl, ?_, ?_, ?_⟩, ?_, ?_⟩ <;> decide +kernel

theorem test_meets_FencesAndHeldRequests :
    held.IssuesReeve 0 ∧ held.drained (.reeve 0) = true ∧ held.heldMode 0 = true ∧ (held.reg (.reeve 0) 1).toNat % 64 = 0 ∧
    (∃ t, held.coreXlat (.reeve 0) (held.reg (.reeve 0) 1).toNat .atomic = .ok 0x4000 t ∧ t.heldMode 0 = true ∧ t.inOwnGreens 0 0x4000 = false ∧
      coreRefuses (.reeve 0) 0x4000 true = none) ∧
    ((up.coreOf (.reeve 0)).storeBuf = [] ∧ (up.ham 0).carter.q = [] ∧ (up.ham 0).carter.cur = none) ∧
    (let s := upReeve up fun k => { k with storeBuf := [{ pa := 0, bytes := [] }] }
     s.IssuesReeve 0 ∧ (s.coreOf (.reeve 0)).storeBuf ≠ []) ∧ held.regionOf 0 = some (0, held.region 0) ∧
    (let s (b : List StoreEnt) := upHam up fun x => { x with region := none, reeve := { x.reeve with storeBuf := b } }
     (s []).IssuesReeve 0 ∧ (s []).regionOf 0 = none ∧ ((s []).coreOf (.reeve 0)).storeBuf = [] ∧ (s [{ pa := 0, bytes := [] }]).IssuesReeve 0 ∧
       (s [{ pa := 0, bytes := [] }]).regionOf 0 = none ∧ ((s [{ pa := 0, bytes := [] }]).coreOf (.reeve 0)).storeBuf ≠ []) ∧
    (low.coreOf .beadle).relScope = none ∧ ((upReeve up fun k => { k with relScope := some 3 }).coreOf (.reeve 0)).relScope = some 3 ∧
    (1 : BitVec 3).getLsbD 1 = false ∧ (2 : BitVec 3).getLsbD 1 = true ∧ (4 : BitVec 3).getLsbD 2 = true ∧
    low.Issues ∧ low.core = .beadle ∧ low.beadle.storeBuf = [] ∧ ({ run := .cutWait 4 (.pfence 3) } : Core).run = .cutWait 4 (.pfence 3) ∧ 4 ≤ 5 := by
  unfold State.IssuesReeve State.Issues
  refine ⟨?_, ?_, ?_, ?_, ⟨_, rfl, ?_, ?_, ?_⟩, ?_, ?_, ?_, ?_, ?_⟩ <;> decide +kernel

/-! Configuration, items, copies, barriers, tasks, waits -/

/-- An image of one PE record at 0x4000: its slot 2 is the example of R136. -/
def image0 : Mem := (((((low.mem.writeLE 0x4000 6 0x14D495A46).writeLE 0x4008 4 0x10001).writeLE 0x4010 2 328).writeLE 0x4041 1 1).writeLE 0x4098 8
  0x8119A60180001000)
/-- A region that is loaded, or empty, over the image. -/
def region0 (f : Region → Region) : State := { upWith f with mem := image0 }

theorem test_meets_LoadAndArm :
    up.IssuesLead 0 ∧ (up.region 0).st = .armed ∧ (region0 fun r => { r with st := .empty }).IssuesLead 0 ∧
    (let s (n : Nat) := (region0 fun r => { r with st := .empty }).setParish 0 { up.parish 0 with left := n }
     isOk ((s 4096).imageIn 0 0x4000) = true ∧ isWait ((s 31).imageIn 0 0x4000) = true ∧ isErr ((lost (s 4096) 0x4000).imageIn 0 0x4000) = true) ∧
    ((region0 fun r => { r with st := .empty }).region 0).failed = none ∧ ((region0 fun r => { r with st := .loaded }).region 0).mism = [] ∧
    ((region0 fun r => { r with st := .empty, failed := some 0x55 }).region 0).failed = some 0x55 ∧
    (let e : Edge := ⟨0, 1, 2, 3, 0, 5, 6, 7⟩
     let s := region0 fun r => { r with st := .loaded, mism := [(0, 3, 7)], edges := [e] }
     s.IssuesLead 0 ∧ (s.region 0).mism = (0, 3, 7) :: [] ∧ (s.region 0).edges[0]? = some e) ∧
    (let s := upWith fun r => { r with st := .loaded }
     let q := s.setQuad 0 { s.quad 0 with accepted := [4] }
     q.IssuesLead 0 ∧ (q.quad (quadOf 0)).accepted ≠ [] ∧ (q.coreOf (.reeve 0)).storeBuf = []) ∧
    (let s := upReeve up fun k => { k with storeBuf := [{ pa := 0, bytes := [] }] }
     s.IssuesLead 0 ∧ (s.coreOf (.reeve 0)).storeBuf ≠ []) ∧
    (up.coreOf (.reeve 0)).storeBuf = [] ∧ (up.ham 0).carter.q = [] ∧ (up.ham 0).carter.cur = none ∧ (up.quad (quadOf 0)).accepted = [] ∧
    (match checkImage image0 (up.ham 0).reeve 0x4000 1 with | .good t => decide (Tab.get t 0 (64 * (0 - 0) + 1) ≠ 0) | _ => false) = true ∧
    (match checkImage low.mem (up.ham 0).reeve 0x4000 1 with | .bad r => decide (r = report 5 5 0 0 0) | _ => false) = true ∧ (match checkImage image0 (up.ham 0).reeve 0xFC0 1 with | .arena p => decide (p = 0xFC0) | _ => false) = true := by
  unfold State.IssuesLead State.IssuesReeve
  decide +kernel

/-- An operand that names an item of an element of hamlet 0: item, site. -/
def item (n site : Nat) : State := upReeve up fun k => { k with g := [(1, BitVec.ofNat 64 (512 * n + site))] }
theorem test_meets_StopSwapFallowItems :
    up.IssuesLead 0 ∧ (up.region 0).st = .armed ∧ up.headcount 0 = 0 ∧ (up.region 0).stopping = none ∧
    (let s := upWith fun r => { r with stopping := some { info := 4 } }
     s.IssuesLead 0 ∧ (s.region 0).st = .armed ∧ s.headcount 0 = 0 ∧ (s.region 0).stopping ≠ none) ∧
    (let s (n : Nat) := upHam (item n 0) fun x => { x with region := none, troughs := [] }
     (s 63).IssuesReeve 0 ∧ (s 63).regionOf 0 = none ∧ ((s 63).reg (.reeve 0) 1).toNat / 512 < 64 ∧ 64 ≤ ((s 127).reg (.reeve 0) 1).toNat / 512 ∧
       ((s 127).reg (.reeve 0) 1).toNat % 512 = 0 ∧ ((s 127).trough 0 15).writeOk 3 0 = true ∧ ((s 127).coreOf (.reeve 0)).storeBuf = []) ∧
    (let s := upHam (item 67 0) fun x => { x with troughs := [] }
     s.troughBound 0 0 = false ∧ (s.trough 0 0).writeOk 3 0 = true ∧ (s.trough 0 0).writeOk 3 1 = false ∧
       (s.setElem 0 32 { bind4 := some 0 }).troughBound 0 0 = true ∧ s.IssuesReeve 0 ∧ s.afterWait (some 0) (s.ham 0).capR.isSome 0 = false) ∧
    (let s (late : Bool) := upHam ((item 67 0).setRegion 0 { up.region 0 with cut := some { seq := 4, start := 0 } })
       fun x => { x with capR := if late then some {} else none }
     (s true).IssuesReeve 0 ∧ (s true).regionOf 0 = some (0, (s true).region 0) ∧ (s true).afterWait (some 0) ((s true).ham 0).capR.isSome 0 = true ∧
       ((s true).region 0).cut ≠ none ∧ ((s true).ham 0).capR.isSome = true ∧ ((s false).ham 0).capR.isSome = false ∧ (up.region 0).cut = none ∧
       (s false).IssuesReeve 0 ∧ (∀ f' r', (item 67 0).regionOf 0 = some (f', r') → r'.cut = none)) ∧
    (upWith fun r => { r with st := .loaded }).IssuesLead 0 ∧ ((upWith fun r => { r with st := .loaded }).region 0).st ≠ .armed ∧
    (up.setElem 0 1 (withIn 0 [dat 1] {})).headcount 0 ≠ 0 ∧
    (∀ n ∈ [0, 7, 8, 11, 12, 13, 14, 15, 16, 31, 32, 63, 64, 127], let s := item n 0
      s.IssuesReeve 0 ∧ (s.reg (.reeve 0) 1).toNat < 2 ^ 16 ∧ (s.reg (.reeve 0) 1).toNat / 64 % 8 < (s.region 0).n ∧
        (s.reg (.reeve 0) 1).toNat / 512 % 128 = n) ∧
    (∀ n ∈ [0, 7, 8, 11, 12], let s := (item n 0).setRegion 0 { up.region 0 with st := .loaded }
      s.IssuesReeve 0 ∧ (s.region 0).st ≠ .armed ∧ (s.reg (.reeve 0) 1).toNat / 512 % 128 = n) ∧
    ((item 64 1).IssuesReeve 0 ∧ ((item 64 1).reg (.reeve 0) 1).toNat % 64 ≠ 0) ∧
    (item 5 1).regionOf 0 = some (0, up.region 0) ∧ ((upReeve up fun k => { k with run := .cfgWait 3 }).coreOf (.reeve 0)).run = .cfgWait 3 ∧
    ({ info := 4 } : Stopping).swap = none := by
  have one : (item 67 0).regionOf 0 = some (0, (item 67 0).region 0) := by decide +kernel
  refine ⟨?_, ?_, ?_, ?_, ?_, ?_, ?_, ⟨?_, ?_, ?_, ?_, ?_, ?_, ?_, ?_, ?_⟩, ?_⟩
  case refine_16 => rw [one]; rintro f' r' h; cases h; decide +kernel
  all_goals (try unfold State.IssuesLead); (try unfold State.IssuesReeve); decide +kernel

/-- The image with one scale edge of formats 1 and 2, from the stream engine 0 to the ME 28. -/
def image1 : Mem := ((image0.writeLE 0x400C 2 1).writeLE 0x4010 2 344).writeLE 0x4148 8 0x02_04_1C_00_01_04_00_00
def swapped (m : Mem) (bench : Bool) : State :=
  let s := upReeve up fun k => { k with run := .cfgWait 3 }
  { s.setRegion 0 { s.region 0 with bench := bench } with mem := m }
theorem test_meets_swap :
    (let x (a : W64) : Stopping := { info := 6, swap := some a }
     let m (s : State) (a : W64) : Mem := let u := s.disarm 0 6; u.seenBy (.reeve 0) (u.stagedMem 0 a)
     let good (s : State) : Bool := match checkImage (m s 0x4000) ((s.disarm 0 6).ham 0).reeve 0x4000 (s.region 0).n with
       | .good t => decide (Tab.get t 0 (64 * (0 - 0) + 1) ≠ 0)
       | _ => false
     (x 0x4000).swap = some 0x4000 ∧ ((swapped image0 false).coreOf (.reeve 0)).run = .cfgWait 3 ∧
     good (swapped image0 false) = true ∧ mismatches (imageEdges (m (swapped image0 false) 0x4000) 0x4000) = [] ∧
     (∀ b ∈ [true, false], let s := swapped image1 b
       good s = true ∧ (s.region 0).bench = b ∧ mismatches (imageEdges (m s 0x4000) 0x4000) = [(0, 1, 2)] ∧
         (imageEdges (m s 0x4000) 0x4000)[0]? = some ⟨0, 0, 4, 1, 0, 28, 4, 2⟩) ∧
     (match checkImage (m (swapped low.mem false) 0x4000) (((swapped low.mem false).disarm 0 6).ham 0).reeve 0x4000 1 with
       | .bad r => decide (r = report 5 5 0 0 0)
       | _ => false) = true) := by decide +kernel
/-- Every item of STALLRD that a kind of element has beside the first four, and one that it has not. -/
theorem test_meets_stallItems :
    (∀ x ∈ [(4, 32, Kind.spe), (8, 0, .se), (9, 0, .se), (10, 0, .se), (11, 0, .se), (12, 0, .se), (13, 0, .se), (14, 0, .se), (15, 0, .se), (16, 0, .se),
        (20, 24, .me), (24, 24, .me), (25, 24, .me), (26, 24, .me), (27, 24, .me), (28, 24, .me), (29, 24, .me),
        (4, 1, .pe), (5, 32, .spe), (17, 0, .se), (21, 24, .me)],
      let s := item x.1 x.2.1
      s.IssuesReeve 0 ∧ (s.reg (.reeve 0) 1).toNat % 64 = x.2.1 ∧ (s.reg (.reeve 0) 1).toNat / 512 % 128 = x.1 ∧ siteKind x.2.1 = x.2.2) := by
  unfold State.IssuesReeve
  decide +kernel

theorem test_meets_Copies :
    (let s (g : Tab W64) := upReeve up fun k => { k with g := g }
     (s [(2, 0x10000000000)]).IssuesReeve 0 ∧ 2 ^ 40 ≤ ((s [(2, 0x10000000000)]).reg (.reeve 0) 2).toNat ∧
     ((s [(2, 0xFFFFFFFFFF), (3, 8)]).reg (.reeve 0) 2).toNat < 2 ^ 40 ∧ ((s [(2, 0xFFFFFFFFFF), (3, 8)]).reg (.reeve 0) (2 + 1)).toNat % 32 ≠ 0 ∧
     ((s [(3, 64)]).reg (.reeve 0) (2 + 1)).toNat % 32 = 0 ∧ ((s []).coreOf (.reeve 0)).storeBuf = [] ∧ ((s []).ham 0).carter.q.length < 16) ∧
    (let x : CopyCmd := { src := 0x5000, dst := 0x6FF0, size := 4100, comp := 0x8040, acq := false, rel := true, scope := 2 }
     let s (r : CopyRun) : State := upHam up fun y => { y with carter := { cur := some r } }
     let a := carterAgent (s { cmd := x }) 0
     (∀ q ∈ [x, { x with acq := true, held := 2 }, { x with acq := true, held := 1 }],
       (upHam up fun y => { y with carter := { q := [q] }, held := [{ op := .write 3 32 [(0x6000, 1)], tag := 3, idx := 1 }] }).engineFree 0 = true) ∧ (s { cmd := x }).engineFree 0 = true ∧
     (∃ t b u w, (s { cmd := x }).translate a 1 0x6FF0 .store = .ok 0x6FF0 t ∧ copyHold 0 { cmd := x } t 0x6FF0 = false ∧
       copyAfter 0 t 0x6FF0 = false ∧ t.copyRead a 1 (pagePieces 0x5000 16) [] = .ok b u ∧ u.writeBytesPhys a true 0x6FF0 b = .ok () w) ∧
     (match (s { cmd := x }).translate a 1 0x8000000000 .store with | .fault v _ => decide (v = 1) | _ => false) = true ∧
     (s { cmd := x, finished := true }).completionHeld 0 { cmd := x, finished := true } = false ∧
     (let r := (s { cmd := x, finished := true }).owedBarrier a 1 0x8040 false (-(BitVec.ofNat 64 4100)) 0
      r.1 = none ∧ r.2.1 = true)) := by
  unfold State.IssuesReeve
  refine ⟨?_, ?_, ?_, ⟨_, _, _, _, rfl, ?_, ?_, rfl, rfl⟩, ?_, ?_, ?_⟩ <;> decide +kernel

/-- A barrier of two arrivals at 0x4000, one of them made. -/
def barrier0 : State := { up with mem := low.mem.writeLE 0x4000 8 0x0000_0005_0001_0002 }
/-- A gang of two regions, of hamlets 0 and 8, with SLEW at one parish and 10 cycles, that runs on the reeve of hamlet 8. -/
def gang2 (r : Run) : State :=
  let x (f n : Nat) : Hamlet := { (up.ham 0) with region := some f, reeve := { (up.ham 0).reeve with run := if n = 1 then r else .running } }
  let y (n : Nat) : Region := { up.region 0 with task := some { task0 with gang := some (7, n) } }
  { up with slew := 0xA0001, hamlets := [(0, x 0 0), (8, x 8 1)], regions := [(0, y 0), (8, y 1)] }
theorem test_meets_Barriers :
    (let x : Bar := { gen := 65535, arrived := 1, expected := 2, count := 5, status := 0, link := 0 }
     (x.update true (-5) 0).2 = true ∧ (x.update true 0 0).2 = false ∧ ({ x with arrived := 2 }.update false (-5) 0).2 = true ∧
     (x.update false (-6) 0).2 = false ∧ (x.count + (-6 : W64)).toInt < 0) ∧
    barrier0.Issues ∧ barrier0.drained barrier0.core = true ∧ barrier0.heldMode 0 = false ∧ (barrier0.reg barrier0.core 1).toNat % 32 = 0 ∧
    barrier0.released barrier0.core = true ∧ barrier0.slewDelay barrier0.core = 0 ∧ (gang2 .running).slewDelay (.reeve 8) = 11 ∧
    (gang2 (.slew 5 3 0)).engineFree 8 = true ∧ ((gang2 (.slew 5 3 0)).coreOf (coreOfNum 8)).run = .slew 5 3 0 ∧
    (∃ t, barrier0.coreXlat barrier0.core 0x4000 .atomic = .ok 0x4000 t ∧ t.MemOk ∧ t.HbmOpen (t.coreAgent barrier0.core) 0x4000 32 ∧ (Bar.ofBytes (t.mem.readBytes 0x4000 32)).gen = 5 ∧
      ((Bar.ofBytes (t.mem.readBytes 0x4000 32)).update true 3 0).2 = false ∧ (Bar.ofBytes (t.mem.readBytes 0x4000 32)).link = 0) ∧
    (65535 : W64) ≠ 0 ∧ (65535 : W64).toNat < 65536 ∧ 65536 ≤ (65536 : W64).toNat := by
  unfold State.Issues State.MemOk State.HbmOpen
  refine ⟨?_, ?_, ?_, ?_, ?_, ?_, ?_, ?_, ?_, ?_, ⟨_, rfl, ?_, ?_, ?_, ?_, ?_⟩, ?_⟩ <;> decide +kernel

/-- A record of context c at 0x4000, queue 3 of context 1 with n of its 2 entries taken, and a LAUNCH block at 0x4040. -/
def record0 (c n join : Nat) : State :=
  ({ up with mem := ((low.mem.writeLE 0x4010 4 join).writeLE 0x4014 2 c).writeLE 0x4040 2 0x101 } : State).setQueue 3
    { conf := true, ring := 0x10000, log2 := 1, ctx := 1, en := true, ents := List.replicate n { addr := 0x4000, pushed := 0, ctx := 1 }, tail := n }
/-- A record of context 1 and no other field. -/
def record1 : List Byte := leBytes 20 0 ++ [1] ++ leBytes 43 0
/-- A machine whose every parish is gated, with the record at 0x4000 at the head of queue 3 and offered to the reeve of hamlet 0. -/
def offered (left : List (Nat × Region)) : State :=
  let s := upReeve (record0 1 0 0) fun k => { k with offer := some (3, 0x4000) }
  let q : QRec := { addr := 0x4000, pushed := 0, ctx := 1, body := some record1, left := left }
  { s.setQueue 3 { s.queue 3 with ents := [q] } with parishes := (List.range 32).map fun p => (p, { pctl := 1 }) }
theorem test_meets_Tasks :
    (record0 1 0 0).IssuesReeve 0 ∧ (record0 1 0 0).drained (.reeve 0) = true ∧ (record0 1 0 0).heldMode 0 = false ∧
    ((record0 1 0 0).reg (.reeve 0) 1).toNat % 64 = 0 ∧
    (∃ t, (record0 1 0 0).pushRecord ((record0 1 0 0).coreAgent (.reeve 0)) 1 0x4000 = .pushed t) ∧
    (∃ t, (record0 1 2 0).pushRecord ((record0 1 2 0).coreAgent (.reeve 0)) 1 0x4000 = .full t) ∧
    (∃ t, (record0 2 0 0).pushRecord ((record0 2 0 0).coreAgent (.reeve 0)) 1 0x4000 = .otherCtx t) ∧
    ((record0 1 0 0).reg (.reeve 0) 1 = ((record0 1 0 0).coreOf (.reeve 0)).record ∧
      (record0 1 0 0).reg (.reeve 0) 2 ≠ ((record0 1 0 0).coreOf (.reeve 0)).record ∧
      (record0 1 0 0).reg (.reeve 0) 2 ∉ ((record0 1 0 0).coreOf (.reeve 0)).popped) ∧
    (∃ b t, (record0 1 0 0).readVirt ((record0 1 0 0).coreAgent (.reeve 0)) 1 0x4040 16 = .ok b t ∧ t.submitCause 1 (some 1) b = 0 ∧
      t.submitCause 1 (some 2) b ≠ 0) ∧
    (∀ n ∈ [0, 1, 2], (record0 1 0 n).mem.readLE 0x4010 4 = n) ∧
    (∃ t, (record0 1 0 1).coreXlat (.reeve 0) (0x4000 + 16) .atomic = .ok 0x4010 t ∧ t.MemOk ∧ t.HbmOpen (t.coreAgent (.reeve 0)) 0x4010 4) ∧
    (let s (left : List (Nat × Region)) := offered left
     (s []).IssuesReeve 0 ∧ ((s []).coreOf (.reeve 0)).offer = some (3, 0x4000) ∧ (up.coreOf (.reeve 0)).offer = none ∧
     (s []).offerStands (s []).topPrio 0 3 0x4000 = true ∧ (s [(9, {})]).offerStands (s [(9, {})]).topPrio 0 3 0x4000 = false ∧
     ((s []).queue 3).ents = [{ addr := 0x4000, pushed := 0, ctx := 1, body := some record1 }] ∧ recFlag record1 0 = false) := by
  unfold State.IssuesReeve State.MemOk State.HbmOpen
  refine ⟨?_, ?_, ?_, ?_, ⟨_, rfl⟩, ⟨_, rfl⟩, ⟨_, rfl⟩, ?_, ⟨_, _, rfl, ?_, ?_⟩, ?_, ⟨_, rfl, ?_, ?_⟩, ?_⟩ <;> decide +kernel

theorem test_meets_Waits :
    (let s (v : W64) := upReeve up fun k => { k with g := [(1, v)] }
     (s 0).Issues ∧ (s 0).reg (s 0).core 1 = 0 ∧ 64 ≤ ((s 64).reg (s 64).core 1).toNat ∧ ((s 63).reg (s 63).core 1).toNat < 64 ∧
     (s 63).waitEvents (s 63).core ((s 63).cutsOf (s 63).core) &&& 63 ≠ 0 ∧ (s 1).waitEvents (s 1).core ((s 1).cutsOf (s 1).core) &&& 1 = 0) ∧
    (let s := upReeve up fun k => { k with run := .wait 4 9 (some 0) 0 }
     s.coreFree (coreOfNum 0) = true ∧ (s.coreOf (coreOfNum 0)).run = .wait 4 9 (some 0) 0 ∧ s.waitEvents (coreOfNum 0) 0 &&& 4 ≠ 0) := by
  unfold State.Issues; decide +kernel

/-! Firings -/

/-- A running element at a site of hamlet 0, its one slot, number 0, ready whenever its operation is. -/
def el (site : Nat) (f : Elem → Elem) : State := atSite site always 0 f
/-- The operation of two registers d1 and d2 into d3. -/
def f0 : FOp := ⟨3, 1, 2, 0, false, 0, 0, 0⟩
/-- Registers d1 and d2. -/
def withD (x y : W40) (e : Elem) : Elem := { e with d := [(1, x), (2, y)] }
/-- Output queue 0, and port 0, feed the router's own output lanes 0 and 20, so that both are routed. -/
def withOut (e : Elem) : Elem := { e with sw := [(0, 0xC000), (20, 0xC200)] }

theorem test_meets_FiringCommits :
    (Instr.add f0).fabric? = some (.pe, 0, f0) ∧ up.elemRuns 0 1 = true ∧ (({ el 1 id with curSlot := 1 } : State).curTrig.valid = false) ∧
    ((el 1 fun e => { e with halted := true }).elemRuns 0 1 = false) ∧ (∀ q ∈ deqList (15 : BitVec 4), q < 4) ∧
    (Elem.outRouted (withOut {}) 0 = true ∧ Elem.outRouted (withOut {}) 4 = true ∧ Elem.outRouted {} 5 = false) ∧
    f0.dst.toNat = 3 ∧ ({ f0 with pwe := true, pidx := 5 } : FOp).pidx.toNat = 5 ∧
    (let s := el 1 fun e => { withOut e with outq := [(0, { ents := [dat 1, dat 2] })] }
     s.slotReady (s.cur.opNeed (.add { f0 with dst := 8 }) s.curSlot (s.ham s.curH).reeve) = false) ∧
    (let s (p : List Pending) := el 32 fun e => { withD 0x100 7 e with pend := p }
     let r (k : SpeKind) (size : Nat) (posted : Bool) := (s []).speReq f0 k size posted 7
     let t := s [{ req := r .ld 4 false }]
     (t.cur.operand f0.a).tag = 0 ∧ (t.cur.operand f0.b).tag = 0 ∧ (speAddr 0 (r .ld 4 false).addr).isSome = true ∧ (r .ld 8 false).addr.toNat % 8 = 0 ∧
     (∀ c ∈ [OpClass.a1, .a2, .n1, .n2, .d3], ∀ x ∈ [XClass.sz, .sz4, .z, .w], ∀ k ∈ [SpeKind.ld, .st, .itake, .iread, .iput, .iclr, .aadd, .acas, .afadd],
       ∀ p ∈ [true, false], t.slotReady (speNeed t f0 c x (some (r k 4 p)) p) = false) ∧
     t.slotReady (t.troughNeed f0 .a0 false fun _ => true) = false ∧ t.slotReady (t.troughNeed f0 .n1 true fun _ => true) = false ∧
     t.slotReady (t.troughNeed f0 .a0 true fun _ => false) = false) ∧
    (let s := el 0 fun e => { withD 0x100 0 e with streams := [(2, { st := .running, queued := some (.sload, 0, 0) })] }
     let f : FOp := ⟨15, 1, 0, 0, false, 0, 0, 2⟩
     (s.cur.operand f.a).tag = 0 ∧ s.slotReady { baseNeed .n1 .sn f with held := (s.cur.stream (f.x.toNat % 4)).queued.isSome } = false ∧
       s.slotReady { baseNeed .n0 .sn f with held := (s.cur.stream (f.x.toNat % 4)).busy } = false) := by decide +kernel

/-- 1 and the number behind it, the value half way between, and one nearer to 1. -/
theorem test_meets_RoundingSound :
    (let one : W40 := 0x3FF8000000
     let next : W40 := 0x3FF8000001
     let v : FVal := .fin false (2 ^ 28 + 1) (-28)
     let top : FVal := .fin false (2 ^ 28 - 1) 996
     let apart (a b : FVal) : FVal := (a.add .rne b.neg).abs
     (f40Val one = .fin false (2 ^ 27) (-27) ∧ f40Val next = .fin false (2 ^ 27 + 1) (-27)) ∧ FVal.feq (.fin false 1 0) (f40Val one) = true ∧
     top.lt (.fin false (2 ^ 28 + 1) (-28)) = false ∧ v.lt (f40Val one) = false ∧ (f40Val next).lt v = false ∧ v.abs.lt (f40Val one).abs = false ∧
     f40Round .rne v = one ∧ (apart v (f40Val one)).lt (apart v (f40Val next)) = false ∧ (f40Val one).feq (f40Val next) = false) ∧
    (let one : W32 := 0x3F800000
     let next : W32 := 0x3F800001
     let v : FVal := .fin false (2 ^ 24 + 1) (-24)
     let top : FVal := .fin false (2 ^ 24 - 1) 104
     let apart (a b : FVal) : FVal := (a.add .rne b.neg).abs
     (f32Val one = .fin false (2 ^ 23) (-23) ∧ f32Val next = .fin false (2 ^ 23 + 1) (-23)) ∧ FVal.feq (.fin false 1 0) (f32Val one) = true ∧
     top.lt (.fin false (2 ^ 24 + 1) (-24)) = false ∧ v.lt (f32Val one) = false ∧ (f32Val next).lt v = false ∧ v.abs.lt (f32Val one).abs = false ∧
     f32Round .rne v = one ∧ (apart v (f32Val one)).lt (apart v (f32Val next)) = false ∧ (f32Val one).feq (f32Val next) = false) := by decide +kernel

theorem test_meets_TagRule :
    (⟨10, 1⟩ : Token).tag = 10 ∧ (1 ≤ (⟨1, 0⟩ : Token).tag.toNat ∧ (⟨9, 0⟩ : Token).tag.toNat ≤ 9) ∧ ¬ (1 ≤ (⟨0, 5⟩ : Token).tag.toNat) ∧
    (⟨11, 0⟩ : Token).tag = 11 ∧ ¬ ((⟨11, 0⟩ : Token).tag.toNat ≤ 9) := by decide +kernel

/-- Every operand class that the tables state is ready in this element. -/
theorem test_meets_IntegerTable :
    (∀ c ∈ [OpClass.a2, .a1], ∀ x ∈ [XClass.z, .ic, .cr], (el 1 id).slotReady (baseNeed c x f0) = true) := by decide +kernel

theorem test_meets_FloatTable :
    (∀ c ∈ [OpClass.a2, .a1, .d3], ∀ x ∈ [XClass.z, .rm, .fc], (el 1 id).slotReady (baseNeed c x f0) = true) ∧
    ((0x7FF8000000 : W40).extractLsb' 28 11 = 0x7FF ∧ (0x7FF8000000 : W40).extractLsb' 0 28 ≠ 0) ∧
    ¬ ((0x3FF8000000 : W40).extractLsb' 28 11 = 0x7FF) := by decide +kernel

theorem test_meets_TokenAndPredicateTable :
    (el 1 id).slotReady (baseNeed .a1 .z f0) = true ∧ (el 1 id).slotReady (baseNeed .a1 .pi f0) = true ∧
    (el 1 id).slotReady (baseNeed .a1 .rk f0) = true ∧ (el 1 id).slotReady (baseNeed .a0 .z { f0 with dst := 8 }) = true ∧
    (el 1 id).slotReady (baseNeed .n1 .z { f0 with dst := 15 }) = true ∧ (el 1 id).slotReady (dupNeed { f0 with dst := 8 }) = true ∧
    (el 1 id).slotReady (baseNeed .a2 .pi f0) = true ∧ (el 1 id).slotReady (mergeNeed f0 (el 1 id).cur) = true ∧
    (el 1 id).slotReady (steerNeed { f0 with dst := 8 } (el 1 id).cur) = true ∧
    (el 1 id).slotReady (baseNeed .pp .lf { f0 with dst := 15 }) = true ∧ (el 1 id).slotReady (baseNeed .pq .pi { f0 with dst := 12 }) = true ∧
    (el 1 id).slotReady (baseNeed .n0 .z { f0 with dst := 15 }) = true := by decide +kernel

/-- RADD o0, i0, d2 at rank 1: a fold, and a release. -/
def fr : FOp := ⟨8, 12, 2, 1, false, 0, 0, 1⟩
theorem test_meets_Reductions :
    12 ≤ fr.a.toNat ∧ fr.b.toNat < 12 ∧
    (∀ t ∈ [(⟨0, 5⟩ : Token), ⟨2, 0⟩, ⟨8, 0⟩], let s := el 1 (withIn 0 [.tok t])
      let st : SlotSt := { acc := 0, openA := true, openB := false }
      s.cur.slotOf s.curSlot st = st ∧ st.flt = none ∧ st.mkr = none ∧ s.slotReady (redNeed .radd fr s.cur st) = true ∧
        s.slotReady (redNeed .rfadd fr s.cur { st with acc := 0x8000000000 }) = true ∧ s.slotReady (redNeed .rmax fr s.cur { st with acc := 0xFF80000000 }) = true ∧
        s.slotReady (redNeed .rfmax fr s.cur { st with acc := 0xFFF0000000 }) = true) ∧
    (fr.x.toNat + 1 ≤ (⟨2, 0⟩ : Token).tag.toNat ∧ (⟨8, 0⟩ : Token).tag.toNat ≤ 8) := by decide +kernel

theorem test_meets_CountHaltStall :
    (∀ t ∈ [(⟨0, 5⟩ : Token), ⟨1, 0⟩, ⟨8, 0⟩], (el 1 (withIn 0 [.tok t])).slotReady (baseNeed .a1 .z { fr with x := 0 }) = true) ∧
    (el 1 id).slotReady (baseNeed .n0 .z { f0 with dst := 15 }) = true ∧ (el 1 id).slotReady (evtNeed f0 ((el 1 id).ham 0).reeve) = true ∧
    (el 1 id).elemRuns 0 1 = true ∧ ((el 1 id).elem 0 1).fired = false ∧ ((el 1 id).elem 0 1).validSlots ≠ [] ∧
    ((el 1 fun e => { e with fired := true }).elem 0 1).fired = true := by decide +kernel

/-- An SPE of hamlet 0 that owns banks 0 and 1, with an address in d1 and a value in d2. -/
def spe (addr val : W40) : State := el 32 (withD addr val)
/-- The conditions of `State.Serves`, as one Boolean. -/
def serves (s : State) (r : SpeReq) (c : OpClass) (x : XClass) : Bool :=
  (speAddr r.srcH r.addr).isSome && decide (r.addr.toNat % r.size = 0) && ownBank r.srcH r.site r.target && permitted s r &&
  (s.heldOn r).isEmpty && !s.mustQueue r && !s.orderWaits r && (s.eccOf (greenPa r.target.1 r.target.2) r.size).isEmpty && !s.greenRefused (r.agent s) r.target.1 r.target.2 r.size r.kind.writes &&
  s.slotReady (speNeed s r.op c x (some r) r.posted)
theorem serves_iff (s : State) (r : SpeReq) (c : OpClass) (x : XClass) : serves s r c x = true ↔ s.Serves r c x := by
  simp [serves, State.Serves, and_assoc]

theorem test_meets_GreenAccess :
    (let s := spe 0x3FFF8 7
     (s.cur.operand f0.a).tag = 0 ∧ (s.cur.operand f0.b).tag = 0 ∧
     (∀ x ∈ [(0 : BitVec 3), 1, 2, 3, 4, 5], serves s (s.speReq { f0 with x := x } .ld (2 ^ (x.toNat % 4)) false 0) .a1 .sz = true) ∧
     (∀ x ∈ [(0 : BitVec 3), 1, 2, 3], serves s (s.speReq { f0 with dst := 15, x := x } .st (2 ^ (x.toNat % 4)) true 7) .n2 .sz4 = true) ∧
     (∀ k ∈ [SpeKind.aadd, .asub, .amin, .amax, .aminu, .amaxu, .aand, .aor, .axor, .aswap], serves s (s.speReq f0 k 4 false 7) .a2 .w = true) ∧
     (∀ k ∈ [SpeKind.aand, .aor, .axor, .aswap], serves s (s.speReq { f0 with x := 1 } k 8 false 7) .a2 .w = true ∧
       serves s (s.speReq { f0 with x := 1, dst := 15 } k 8 true 7) .a2 .w = true) ∧
     serves s (s.speReq f0 .acas 4 false 7) .d3 .w = true ∧ serves s (s.speReq { f0 with x := 1 } .acas 8 false 7) .d3 .w = true ∧
     serves s (s.speReq f0 .afadd 4 false 7) .a2 .z = true) := by decide +kernel

theorem test_meets_Presence :
    (let s := spe 0x100 7
     let full : State := { s with pres := [(0x20000000100 / 8, true)] }
     (s.cur.operand f0.a).tag = 0 ∧ serves full (full.speReq f0 .itake 8 false 0) .a1 .z = true ∧ serves full (full.speReq f0 .iread 8 false 0) .a1 .z = true ∧
     (s.cur.operand f0.b).tag = 0 ∧ serves s (s.speReq { f0 with dst := 15 } .iput 8 true 7) .n2 .z = true ∧
     serves s (s.speReq { f0 with dst := 15 } .iclr 8 true 0) .n1 .z = true ∧
     (let q := s.speReq f0 .itake 8 false 0
      (speAddr q.srcH q.addr).isSome = true ∧ q.addr.toNat % 8 = 0 ∧ ownBank q.srcH q.site q.target = true ∧ permitted s q = false ∧
        s.mustQueue q = false ∧ s.heldMode s.curH = false ∧ s.slotReady (speNeed s f0 .a1 .z (some q) q.posted) = true ∧
        (Tab.get (s.ham s.curH).defer [] (bankOf q.target.2)).length < 8)) := by decide +kernel

theorem test_meets_SplitRequests :
    (let s := spe 0x40000 7
     let r := s.speReq f0 .ld 1 false 0
     (s.cur.operand f0.a).tag = 0 ∧ (speAddr r.srcH r.addr).isSome = true ∧ r.addr.toNat % r.size = 0 ∧ ownBank r.srcH r.site r.target = false ∧
       s.slotReady (speNeed s f0 .a1 .sz (some r) false) = true) ∧
    (let s := spe 0x20000000 7
     let r := s.speReq f0 .ld 1 false 0
     (speAddr r.srcH r.addr).isSome = false ∧ s.slotReady (speNeed s f0 .a1 .sz none false) = true) ∧
    ((((spe 0x101 7).speReq { f0 with x := 1 } .ld 2 false 0).addr.toNat % 2) ≠ 0) ∧
    (let s := spe 0x40000 7
     let q := s.speReq f0 .st 1 true 7
     let t := s.setHam 0 { s.ham 0 with msgs := [q], defer := [(2, [q])] }
     (t.ham 0).msgs = q :: [] ∧ q.kind.writes = true ∧ t.mustQueue q = false ∧ t.afterWait (some q.srcH) (q.isAfter t) q.target.1 = false ∧ permitted t q = true ∧
       Tab.get (t.ham 0).defer [] 2 = q :: []) ∧
    (let s := spe 0x40000 7
     let p : Pending := { req := s.speReq { f0 with pwe := true } .ld 1 false 0, result := some (⟨0, 9⟩, true) }
     let t := s.setElem 0 32 { s.cur with pend := [p] }
     (t.elem 0 32).pend.find? (fun p => decide (p.req.slot = 0) && p.result.isSome) = some p ∧ p.req.op.dst.toNat < 8 ∧ p.req.op.pwe = true ∧
       p.req.op.pmode = 0) := by decide +kernel

/-- A trough of four slots of 256 bytes at 0x1000 of hamlet 0's green, each counter at one, bound to p4 of the SPE. -/
def trough0 : Trough := { base := 0x1000, log2 := 8, en := 1, count := 4, free := 1, filled := 1, claimed := 1, taken := 1, ci := 3, mi := 2, ti := 1, fi := 0 }
def speT (addr : W40) : State :=
  let s := el 32 fun e => { withD addr 0 e with bind4 := some 5 }
  s.setHam 0 { s.ham 0 with troughs := [(5, trough0)] }
theorem test_meets_Troughs :
    (let s := speT 0x1200
     let t := s.trough s.curH 5
     let next (i : W16) : W16 := if i.toNat + 1 = t.count.toNat then 0 else i + 1
     s.cur.boundTrough f0 = some 5 ∧ t.usable = true ∧ (s.cur.operand f0.a).tag = 0 ∧ 0 < t.free.toNat - t.freed ∧
     0 < t.filled.toNat - t.committed ∧ 0 < t.claimed.toNat - t.clm ∧ 0 < t.taken.toNat - t.tkn ∧
     (s.cur.operand f0.a).data.toNat % 2 ^ 32 = t.base.toNat + t.mi.toNat * 2 ^ t.log2.toNat ∧ next t.ci = 0 ∧ next t.mi = 3 ∧
     s.slotReady (s.troughNeed f0 .a0 true fun t => decide (0 < t.freeNow)) = true ∧
     s.slotReady (s.troughNeed f0 .a0 true fun t => decide (0 < t.filledNow)) = true ∧
     s.slotReady (s.troughNeed f0 .a0 false fun _ => true) = true ∧ s.slotReady (s.troughNeed { f0 with dst := 15 } .n1 true fun _ => true) = true) ∧
    (let s := speT 0x1200
     let u := s.setTrough s.curH 5 { trough0 with en := 0 }
     (u.trough 0 5).usable = false ∧ (∀ g ∈ [fun (_ : Trough) => true, fun t => decide (0 < t.freeNow), fun t => decide (0 < t.filledNow)],
       u.slotReady (u.troughNeed f0 .a0 true g) = true)) ∧
    (let s := speT 0x1000
     let t := s.trough s.curH 5
     (s.cur.operand f0.a).data.toNat % 2 ^ 32 = t.base.toNat + t.fi.toNat * 2 ^ t.log2.toNat ∧
       (s.cur.operand f0.a).data.toNat % 2 ^ 32 ≠ t.base.toNat + t.mi.toNat * 2 ^ t.log2.toNat) := by decide +kernel

/-- 2.5, −2.5 and 1 as numbers to round and to compare, and the infinities. -/
theorem test_meets_FloatValues :
    (∀ s ∈ [false, true], let a : W40 := if s then 0xC00A000000 else 0x400A000000
      f40Val a = .fin s (5 * 2 ^ 25) (-26) ∧
      (let x := inUnits (5 * 2 ^ 25) (-26) 0
       (Nearest x.1 x.2 2 ∧ x.1 / x.2 = 2 ∧ (x.1 + x.2 - 1) / x.2 = 3))) ∧
    f40Val 0x3FF8000000 = .fin false (2 ^ 27) (-27) ∧ f40Val 0x7FF0000000 = .inf false ∧ f40Val 0xFFF0000000 = .inf true ∧
    (let units (s : Bool) (m : Nat) (e lo : Int) : Int := (if s then -(m : Int) else m) * 2 ^ (e - lo).toNat
     units true (5 * 2 ^ 25) (-26) (-27) < units false (2 ^ 27) (-27) (-27)) ∧
    (0x7FF0000000 : W40).getLsbD 39 = false := by
  unfold Nearest
  decide +kernel
/-- An element whose operand a is the head of i0, a token of a tag. -/
def fi : FOp := { f0 with a := 12 }
def odd (site : Nat) (t : Nat) : State := el site (withIn 0 [.tok ⟨BitVec.ofNat 4 t, 0⟩])
/-- Requests, trough steps, stream commands and matrix commands of operands that are no DATA. -/
theorem test_meets_NoData :
    (∀ t ∈ [1, 2, 9, 11], let s := odd 32 t
      (s.cur.operand fi.a).tag.toNat = t ∧
      (∀ c ∈ [OpClass.a1, .a2, .n1, .n2, .d3], ∀ x ∈ [XClass.sz, .sz4, .z, .w], ∀ p ∈ [true, false], s.slotReady (speNeed s fi c x none p) = true) ∧
      s.slotReady { baseNeed .n1 .tb fi with held := s.completionsHold false } = true) ∧
    (∀ t ∈ [1, 2, 9, 11], let s := odd 0 t
      (s.cur.operand fi.a).tag.toNat = t ∧ s.slotReady { baseNeed .n1 .sn fi with held := (s.cur.stream 2).queued.isSome } = true ∧
        s.slotReady (baseNeed .n1 .sn fi) = true) ∧
    (∀ t ∈ [1, 2, 9, 11], let s := odd 24 t
      (s.cur.operand fi.a).tag.toNat = t ∧
      (∀ x ∈ [XClass.ac, .z], ∀ b ∈ [decide (4 ≤ s.cur.me.opq.length), s.writeHeld 1 || s.cur.me.mv.isSome, s.writeHeld 1 || s.cur.me.wr.isSome, false],
        s.slotReady { baseNeed .n1 x fi with held := b } = true)) := by decide +kernel

/-- The SPE at site 32 with an address and a value, its region in held mode or not, and what its element and hamlet hold beside them. -/
def speIn (heldMode : Bool) (addr : W40) (p : List Pending) (m : List SpeReq) : State :=
  let s := spe addr 7
  let s := s.setElem 0 32 { s.cur with pend := p }
  let s := s.setRegion 0 { s.region 0 with free := !heldMode }
  (s.setHam 0 { s.ham 0 with msgs := m, heldSpan := some (0x10000, 0x20000) }).atStart
/-- Requests of every kind that leave the element for a bank of another: at once, to the held entries, and behind an earlier one. -/
theorem test_meets_Departures :
    (let all : List (SpeKind × OpClass × XClass) := [(.ld, .a1, .sz), (.st, .n2, .sz4), (.itake, .a1, .z), (.iread, .a1, .z), (.iput, .n2, .z),
       (.iclr, .n1, .z), (.acas, .d3, .w), (.afadd, .a2, .z), (.aadd, .a2, .w), (.asub, .a2, .w), (.amin, .a2, .w), (.amax, .a2, .w), (.aminu, .a2, .w),
       (.amaxu, .a2, .w), (.aand, .a2, .w), (.aor, .a2, .w), (.axor, .a2, .w), (.aswap, .a2, .w)]
     let meets (s : State) (x : SpeKind × OpClass × XClass) (order held : Bool) : Bool :=
       let r := s.speReq f0 x.1 8 (decide (x.1 ∈ [.st, .iput, .iclr])) 7
       (speAddr r.srcH r.addr).isSome && decide (r.addr.toNat % r.size = 0) && !ownBank r.srcH r.site r.target &&
         s.slotReady (speNeed s f0 x.2.1 x.2.2 (some r) r.posted) && (s.orderWaits r == order) && (s.toHeld r == held)
     (∀ x ∈ all, meets (speIn false 0x40000 [] []) x false false = true) ∧
     (∀ x ∈ all, meets (speIn true 0x81000000 [] []) x false x.1.writes = true) ∧
     (let q := { (speIn false 0x40000 [] []).speReq { f0 with x := 3 } .ld 8 false 0 with slot := 1 }
      let s : State := { speIn false 0x40000 [{ req := q }] [q] with cycle := 5, pres := [(0x20000040000 / 8, true)] }
      ∀ x ∈ all, meets s x true false = true ∧ permitted s (s.speReq f0 .itake 8 false 7) = true)) := by decide +kernel
/-! Streams, the matrix element, routers -/

/-- The stream element at site 0 with registers d1, d2 and stream 2 as given. -/
def se (d1 : W40) (x : Stream) : State := el 0 fun e => { withD d1 0 e with streams := [(2, x)] }
/-- Stream 2. -/
def fs : FOp := ⟨15, 1, 0, 0, false, 0, 0, 2⟩
/-- A control block: base, format, flags, ME target, first row, index format, count of dimension 0, count of dimension 1, stride of each. -/
def scb (base fmt flags me ixFmt c0 c1 : Nat) : List Byte :=
  leBytes 8 base ++ leBytes 8 0x6000 ++ [BitVec.ofNat 8 fmt, 2, 0, 0] ++ leBytes 2 flags ++ [BitVec.ofNat 8 me, 0, BitVec.ofNat 8 ixFmt, 0, 5] ++
  leBytes 5 0 ++ leBytes 4 c0 ++ leBytes 4 c1 ++ leBytes 24 0 ++ leBytes 6 1 ++ leBytes 6 c0 ++ leBytes 36 0 ++ leBytes 16 0
/-- A running stream of 128 by 2 elements. -/
def stream0 (k : StKind) (pos flags : Nat) : Stream := { st := .running, kind := k, pos := pos, scb := scb 0x5000 21 flags 3 21 128 2 }

theorem test_meets_StreamInstructions :
    ((se 0x1FFF80 {}).cur.operand fs.a).tag = 0 ∧ ((se 0x1FFF80 {}).cur.operand fs.a).data.toNat % 2 ^ 32 % 128 = 0 ∧
    ((se 0x1FFF80 {}).cur.operand fs.a).data.toNat % 2 ^ 32 < 2 ^ 21 ∧ 2 ^ 21 ≤ ((se 0x200000 {}).cur.operand fs.a).data.toNat % 2 ^ 32 ∧
    ((se 0x1FFF81 {}).cur.operand fs.a).data.toNat % 2 ^ 32 % 128 ≠ 0 ∧ ((se 0 {}).cur.stream 2).queued = none ∧
    (∀ c ∈ [OpClass.n1, .n0, .a0], (se 0 {}).slotReady (baseNeed c .sn fs) = true) ∧
    ((se 0 (stream0 .sload 0 0)).cur.stream 2).st ≠ .idle ∧
    (let x := { stream0 .sload 7 0 with st := .stopped }
     ((se 255 x).cur.stream 2).st = .stopped ∧ ((se 255 x).cur.stream 2).cancelling = false ∧
       ((se 255 x).cur.operand fs.a).data.toNat % 2 ^ 32 < x.total ∧ x.total = 256 ∧
       x.total ≤ ((se 256 x).cur.operand fs.a).data.toNat % 2 ^ 32) := by decide +kernel

/-- The hypotheses that a stream acts, as the obligation writes them. -/
def streamActs (s : State) (x : Stream) : Bool :=
  s.streamRuns 0 x && x.active && x.ready && !x.cancelling && !x.wstat.getLsbD 10
/-- Trough 5 with slots both free and filled. -/
def seT (x : Stream) : State := let s := se 0 x; s.setHam 0 { s.ham 0 with troughs := [(5, trough0)] }
/-- Elements that meet the cases of the conversions: of each float layout a finite code, its NaN and its infinity; of an MX format; of a unit
format. -/
theorem test_meets_Conversions :
    ((3, 4, 3, 7, 1) ∈ layouts ∧ (9, 8, 7, 127, 2) ∈ layouts ∧ (11, 8, 10, 127, 2) ∈ layouts ∧ (14, 3, 2, 3, 0, (4 : Int)) ∈ mxLayouts) ∧
    (14 < 2 ^ 4 ∧ 7 < 2 ^ 3 ∧ 15 < 2 ^ 4 ∧ 255 = 2 ^ 8 - 1 ∧ 0 < 2 ^ 7 ∧ (1 : Nat) ≠ 0) ∧ (0x1FFF < 2 ^ 13 ∧ (0x1FFF : Nat) ≠ 0) ∧
    (let r (c : Nat) (h : List Byte) : Raw := { n := 0, code := c, hdr := h }
     (r 0x85 []).code = 2 ^ 7 + 0 * 2 ^ 3 + 5 ∧ (r 5 [0xFF]).hdr = [0xFF] ∧ (r 5 [0x7F]).hdr = [0x7F] ∧ ((0x7F : Byte) ≠ 0xFF) ∧
     (r 5 (leBytes 4 (0x3F800000 : W32).toNat ++ [0, 1])).hdr = leBytes 4 (0x3F800000 : W32).toNat ++ [0, 1] ∧
     (1 : Byte) ∈ [(0 : Byte), 1] ∧ (1 : Byte) ≠ 0 ∧ (∀ b ∈ [(0 : Byte), 0], b = 0) ∧ ((0x7F800000 : W32).extractLsb' 23 8 = 0xFF) ∧
     ((0x3F800000 : W32).extractLsb' 23 8 ≠ 0xFF)) ∧
    (let a := inUnits 5 0 1
     Nearest a.1 a.2 2) ∧ (fieldVal 2 3 false 7 3).lt (.fin false 29 0) = true ∧ (fieldVal 2 3 false 7 3).lt (.fin false 28 0) = false ∧
    FVal.isZero (.fin true 0 0) = true ∧ floorLog2 5 0 = 2 ∧ floorLog2 1 0 ≤ 2 ∧ (21, 32, (-2147483648 : Int), (2147483647 : Int)) ∈
      ([(5, 4, -8, 7), (6, 4, 0, 15), (7, 8, -128, 127), (8, 8, 0, 255), (22, 16, -32768, 32767), (21, 32, -2147483648, 2147483647)] :
        List (Nat × Nat × Int × Int)) := by
  unfold Nearest
  refine ⟨?_, ?_, ?_, ?_, ?_, ?_⟩ <;> decide +kernel

/-- A load and a store of plain 32-bit elements, and a store whose last sector is still to be written. -/
theorem test_meets_PlainElements :
    (let x := stream0 .sload 0 0
     let s := se 0 x
     let a := seAgent s 0 0 2
     s.stream 0 0 2 = x ∧ fmtBits x.fmt = 32 ∧ x.line = none ∧ x.onTrough = false ∧ x.flag 12 = false ∧ x.refused = false ∧ fmtMx x.fmt = false ∧
     fmtUnit x.fmt = false ∧ 0x5000 % 32 + 4 ≤ 32 ∧
     ∃ t l u, s.translate a ((s.ham 0).ctx.getD 0) 0x5000 .load = .ok 0x5000 t ∧
       t.readPhys (t.seReader 0 0 2 0x5000 0x5000) 0x5000 32 = .ok l u) ∧
    (let x := stream0 .sstore 0 0
     let s := (se 0 x).setElem 0 0 (withIn 2 [dat 7] ((se 0 x).elem 0 0))
     streamActs s x = true ∧ s.stream 0 0 2 = x ∧ x.pos < x.total ∧ x.out = [] ∧ (s.elem 0 0).inPresent 2 = true ∧ ((s.elem 0 0).headTok 2).tag = 0 ∧
     ∃ t, s.translate (seAgent s 0 0 2) ((s.ham 0).ctx.getD 0) 0x5000 .store = .ok 0x5000 t) ∧
    (let x := { stream0 .sstore 256 0 with out := [(255, 0x5000, 5, 0xFF)] }
     let s := se 0 x
     streamActs s x = true ∧ x.total ≤ x.pos ∧ ([((0 : Nat), (5 : Byte))].map fun q => q.1).Nodup ∧
     x.out = [((0 : Nat), (5 : Byte))].map (fun q => (x.pos - 1, 32 * 0x280 + q.1, q.2, (0xFF : Byte))) ∧
     ∃ t, s.translate (seAgent s 0 0 2) ((s.ham 0).ctx.getD 0) (32 * 0x280 + 0) .store = .ok 0x5000 t ∧ t.outbound 0 0x5000 = false ∧
       t.HbmOpen (seAgent t 0 0 2) 0x5000 32 ∧ t.MemOk) := by
  unfold State.HbmOpen State.MemOk
  refine ⟨⟨?_, ?_, ?_, ?_, ?_, ?_, ?_, ?_, ?_, _, _, _, rfl, rfl⟩, ⟨?_, ?_, ?_, ?_, ?_, ?_, _, rfl⟩, ?_, ?_, ?_, ?_, _, rfl, ?_, ?_, ?_⟩ <;> decide +kernel

theorem test_meets_StreamSteps :
    (let s (b : List Byte) : State := { se 0 { st := .starting, scbOff := 0x80 } with mem := low.mem.writeBytes 0x20000000080 b }
     ((s []).stream 0 0 2).st = .starting ∧ (s []).hamletRuns 0 = true ∧ ((s []).stream 0 0 2).cancelling = false ∧ (s []).requestsBefore 0 0 = false ∧
     (∀ p ∈ [(21, true), (25, false)], (match (s (scb 0x5000 p.1 0 0 0 128 2)).readPhys (seAgent (s []) 0 0 2) 0x20000000080 128 with
       | .ok b t => (Stream.failing t 0 0 { t.stream 0 0 2 with scb := b } == 0) == p.2 | _ => false) = true)) ∧
    (∀ k ∈ [StKind.sload, .sstore], let x := stream0 k 0 0x2000
     x.onTrough = true ∧ x.slot = none ∧ x.finished = false ∧ (seT x).hamletRuns 0 = true ∧ (seT x).ownWait 0 0 = false ∧ ((seT x).trough 0 x.trough).usable = true ∧
       0 < ((seT x).trough 0 x.trough).filledNow ∧ 0 < ((seT x).trough 0 x.trough).freeNow) ∧
    (let x := stream0 .sload 255 0
     streamActs (se 0 x) x = true ∧ x.eod = none ∧ x.pos < x.total ∧ ((se 0 x).elem 0 0).outRoom 2 = true ∧
       (match (se 0 x).readElem 0 0 2 x x.pos with | .ok _ _ _ => true | _ => false) = true) ∧
    (let x := stream0 .sscatter 0 0x1000
     let s := (se 0 x).setElem 0 0 (withIn 2 [.tok ⟨11, 0⟩] ((se 0 x).elem 0 0))
     streamActs s x = true ∧ x.pos < x.total ∧ (s.elem 0 0).inPresent 2 = true ∧ ((s.elem 0 0).headTok 2).tag = 11) ∧
    (let x := stream0 .sgather 0 0x1000
     streamActs (se 0 x) x = true ∧ x.gtoks = [] ∧ x.eod = none ∧ x.gather = none ∧ x.endAt = none ∧ x.pos < x.total) ∧
    (let x := { stream0 .sgather 0 0x1000 with gtoks := [⟨0, 3⟩] }
     streamActs (se 0 x) x = true ∧ x.finished = false ∧ ((se 0 x).elem 0 0).outRoom 2 = true) ∧
    (let x := { stream0 .sfeed 128 0 with port := false }
     x.kind.matrix = true ∧ streamActs (se 0 x) x = true ∧ (se 0 x).portFree 0 0 2 x = true ∧ (se 0 x).placesFree 0 x = true ∧ 0 ≠ 24 + x.meX ∧ 128 * (x.rowsDone + 1) ≤ x.pos ∧
       (se 0 x).placeFree 0 x x.rowsDone = true) := by decide +kernel

/-- The matrix element at site 24 with register d1 and its matrix state. -/
def mel (d1 : W40) (m : ME) : State := el 24 fun e => { withD d1 0 e with me := m }
/-- Accumulator 1. -/
def fm : FOp := ⟨15, 1, 0, 0, false, 0, 0, 1⟩
theorem test_meets_MatrixInstructions :
    ((mel 5 {}).cur.operand fm.a).tag = 0 ∧ (mel 5 {}).cur.me.opq.length < 4 ∧ (mel 5 {}).writeHeld 1 = false ∧ (mel 5 {}).readHeld 1 = false ∧
    (mel 5 {}).cur.me.mv = none ∧ (mel 5 {}).cur.me.rd = none ∧ (mel 5 {}).cur.me.wr = none ∧ (mel 3 {}).readHeld 3 = false ∧
    (let v (n : W40) : W32 := ((mel n {}).cur.operand fm.a).data.extractLsb' 0 32
     (v 3).toNat < 4 ∧ (v 3).toNat ≠ 1 ∧ (v 1).toNat = fm.x.toNat % 4 ∧ 4 ≤ (v 4).toNat ∧ (v 1023).toNat < 1024 ∧ ¬ ((v 1023).toNat % 32 + (v 1023).toNat / 32 + 1 ≤ 32) ∧
     (v 31).toNat % 32 + (v 31).toNat / 32 + 1 ≤ 32 ∧ (v 15).toNat < 16 ∧ (v 15).extractLsb' 0 2 ≤ (v 15).extractLsb' 2 2 ∧
     (v 3).extractLsb' 2 2 < (v 3).extractLsb' 0 2 ∧ 16 ≤ (v 16).toNat ∧ (v 65536).extractLsb' 16 14 ≠ 0 ∧
     (1024 ≤ (v 1024).toNat) ∧ (32 < (v 1023).toNat % 32 + (v 1023).toNat / 32 % 32 + 1) ∧
     (∀ x ∈ [(0, (0xFFFF : W40)), (1, 0x4000FFFF), (2, 0x80000000), (3, 0xC0000001), (3, 0xC00000FF), (3, 0xC0000000), (3, 0xC0000100)],
       (v x.2).extractLsb' 16 14 = 0 ∧ (v x.2).toNat / 2 ^ 30 = x.1) ∧ (v 0xC00000FF).toNat % 65536 = 255 ∧ (v 0xC0000100).toNat % 65536 = 256) ∧
    (∀ c ∈ [OpClass.n1, .n0], ∀ x ∈ [XClass.ac, .z], (mel 5 {}).slotReady (baseNeed c x fm) = true) ∧
    (∀ d ∈ [(0 : BitVec 4), 6, 7, 8, 11, 12, 13, 14, 15], (mel 5 {}).slotReady { baseNeed .a0 .z { fm with dst := d } with empties := monrdEmpties d } = true) := by
  decide +kernel

/-- An operation on accumulator 1 of one row and one block, with its slot and row full, or empty. -/
def meOp0 : MeOp := { sparse := false, acc := 1, desc := 0, start := 0, ceil := 3, bSat := 0, bUfl := 0xFFFF, bCnc := 0xFFFF, shift := 16, base := 0 }
def me0 (full : Bool) : ME := { opq := [meOp0], rows := [(0, { full := full, fmt := 9 })], tiles := [(0, { full := full, fmt := 9 })] }
/-- Groups of a finite value and of none, sums of terms and of none, and positions that are finite or not. -/
theorem test_meets_BlockArithmetic :
    (let v : MeVal := { m := 5, e := 1 }
     let w : MeVal := { nonfin := true }
     let fin (l : List MeVal) := l.filter fun v => !v.nonfin && decide (v.m ≠ 0)
     fin [w, {}] = [] ∧ fin [v, w] = [v] ∧ floorLog2 5 1 = 3) ∧
    (let ts : List (Int × Int) := [(3, 2), (0, 9), (-1, 0)]
     (∃ t ∈ ts, t.1 ≠ 0 ∧ floorLog2 t.1.natAbs t.2 = 3) ∧ (∀ t ∈ ts, t.1 ≠ 0 → floorLog2 t.1.natAbs t.2 ≤ 3) ∧ (-60 : Int) ≤ 3 - 60 ∧
       (∀ t ∈ ts, (-60 : Int) ≤ t.2)) ∧
    (let t (v : MeVal) : Tile := { vals := [(0, v)] }
     let a : List AGroup := (List.range 8).map fun _ => { q := [], e := 0 }
     (∃ g ∈ (colGroups false 8 (t { nonfin := true }) 0).1, ∃ v ∈ g.1, v.1.nonfin = true) ∧
     (∀ g ∈ (colGroups false 8 (t { m := 1 }) 0).1, ∀ v ∈ g.1, v.1.nonfin = false) ∧ a.length = 8 ∧
     f32Val 0x3F800000 = .fin false 8388608 (-23)) := by decide +kernel

theorem test_meets_MatrixSteps :
    (mel 0 {}).hamletRuns 0 = true ∧ meOp0.since < { mel 0 {} with cycle := 1 }.cycle ∧
    (∀ b ∈ [true, false], let m := ((mel 0 (me0 b)).elem 0 24).me
     m.att = none ∧ m.opq = meOp0 :: [] ∧ (mel 0 (me0 b)).underRead 0 24 1 = false ∧ m.underWrite 1 = false ∧ (decide (m.refusal meOp0 = 0) = b)) ∧
    (let a : Attempt := { op := meOp0, rung := 0 }
     a.check = false ∧ { a with check := true }.check = true ∧ a.integer = false ∧ meOp0.bSat.toNat < { a with sat := 1 }.sat ∧ a.rung < meOp0.ceil.toNat ∧
       ¬ (meOp0.bSat.toNat < a.sat ∨ meOp0.bUfl.toNat < a.ufl ∨ meOp0.bCnc.toNat < a.cnc) ∧ a.kb + 1 = descNk meOp0.desc ∧
       a.kb + 1 ≠ descNk 0x400 ∧ 0 < descM meOp0.desc ∧ meOp0.ceil.toNat ≤ { a with rung := 3, sat := 1 }.rung ∧
       (a.overr || decide (meOp0.bSat.toNat < a.sat)) = false ∧ ({ a with overr := true }.overr || decide (meOp0.bSat.toNat < a.sat)) = true ∧
       meOp0.acc < 4 ∧ a.sat ≤ 0xFFFF ∧ a.replays < 256) ∧
    (let x : MvX := { src := 0, dst := 1, row := 31 }
     x.src ≠ x.dst ∧ x.row = 31) ∧
    (let s := el 24 fun e => withOut { e with me := { rd := some { acc := 1, sent := [(0, 1055)] } } }
     Tab.get [(0, 1055)] 0 0 < 1056 ∧ (s.elem 0 24).outRoom 0 = true ∧ ((s.elem 0 24).outQ 0).fresh = 0 ∧ (s.elem 0 24).outRouted 0 = true) ∧
    (let s := el 24 fun e => withIn 3 [dat 9] { e with me := { wr := some { acc := 1, row := 0, left := 1, served := [(3, 30)] } } }
     Tab.get [(3, 30)] 0 3 < 31 ∧ (s.elem 0 24).inPresent 3 = true ∧ ((s.elem 0 24).inQ 3).gone = 0 ∧ ((s.elem 0 24).headTok 3).tag = 0) := by
  decide +kernel

/-- Site 1 sends o0 to its own i0, the head of o0 as given. -/
def cross (t : Token) (bench : Bool) : State :=
  (el 1 fun e => { e with sw := [(16, 0xC000)], outq := [(0, { ents := [.tok t] })] }).setRegion 0 { up.region 0 with bench := bench }
theorem test_meets_TokenCrossing :
    (cross ⟨0, 5⟩ false).routersMove 0 = true ∧ ((cross ⟨0, 5⟩ false).spotHead (0, 1, 0)).isSome = true ∧
    (0, 1, 0) ∈ ((cross ⟨0, 5⟩ false).feeds 0).map (fun f => f.1) ∧
    (((cross ⟨0, 5⟩ false).feeds 0).filter fun f => decide (f.1 = (0, 1, 0))).flatMap (fun f => f.2) = [(0, 1, 16)] ∧
    (cross ⟨0, 5⟩ false).laneAccepts [(0, 1, 0)] (0, 1, 16) = true ∧ (cross ⟨15, 5⟩ true).routersMove 0 = true ∧
    badTag (.tok ⟨15, 5⟩) = true ∧ badTag (.tok ⟨11, 0⟩) = false ∧ (laneQueue 16).isSome = true := by decide +kernel


/-- The machine of `up` with a record of context `c` at 0x4000 that names priority 0, queue 3 of context `d` with ring log2 and entries
as given, and chain 0 of context 1 at 0x6000. -/
def mkt (c d : Nat) (l : List QRec) (f : Chain → Chain) : State := { up with
  mem := up.mem.writeBytes 0x4014 [BitVec.ofNat 8 c],
  market := { up.market with
    qs := [(3, { conf := true, ring := 0x9000, log2 := 6, ctx := d, weight := 1, en := true, ents := l })],
    chains := [f { id := 0, ctx := 1, cur := 0x6000 }] } }
def same (x : Chain) : Chain := x
def rec0 : QRec := { addr := 0x4000, pushed := 0, ctx := 1 }
def qc (q : Byte) (a b c : W64) : QCmd := ⟨q, a, b, c⟩
theorem test_meets_QueueCommands :
    up.MemOk ∧ up.boot.go = true ∧ up.eccOf (up.boot.mktRing.toNat + 64 + 4) 4 = [] ∧ up.eccOf (up.boot.mktRing.toNat + 8) 8 = [] ∧
    isOk (up.readPhys marketAgent up.boot.mktRing.toNat 16) = true ∧ isWait ((spent up).readPhys marketAgent up.boot.mktRing.toNat 16) = true ∧
    (up.queue 3).stopped = false ∧ up.mem.readLE (up.boot.mktRing.toNat + 8) 8 + 1 < 2 ^ 64 ∧
    (up.queue 3).en = false ∧ (qconfOf 0x9000 0x02100106 0).isSome = true ∧ qconfOf 0x9001 0x02100106 0 = none ∧
    (let s := mkt 1 1 [rec0] same
     (s.queue 3).en = true ∧ (s.queue 3).ents ≠ [] ∧ s.market.ringFault = none ∧ (s.queue 2).conf = false ∧ (s.queue 3).conf = true ∧
       s.descKnown (s.queue 3).ctx = true ∧
       (match s.pushRecord marketAgent 1 0x4000 with | .pushed _ => true | _ => false) = true) ∧
    (let s := mkt 1 1 (List.replicate 64 rec0) same
     (match s.pushRecord marketAgent 1 0x4000 with | .full _ => true | _ => false) = true) ∧
    (let s := mkt 2 1 [] same
     (match s.pushRecord marketAgent 1 0x4000 with | .otherCtx _ => true | _ => false) = true) ∧
    (match up.readVirt marketAgent 1 0x4000 16 with | .ok b t => decide (t.submitCause 1 none b ≠ 0) | _ => false) = true ∧
    (let s : State := { up with mem := up.mem.writeBytes 0x4000 [1, 1] }
     (match s.readVirt marketAgent 1 0x4000 16 with | .ok b t => decide (t.submitCause 1 none b = 0) | _ => false) = true) ∧
    (let a : W64 := 0x0001_0001_0001_0005
     a.extractLsb' 8 8 = 0 ∧ a.extractLsb' 48 16 ≠ 0) := by unfold State.MemOk; decide +kernel

/-- A copy of `n` bytes at offset `o`. -/
def run0 (n : Nat) (f : Bool) : CopyRun :=
  { cmd := { src := 0x7000, dst := 0x7100, size := n, comp := 0, acq := false, rel := false, scope := 0 }, finished := f }
def picks (s : State) (n : Nat) (room : Nat → Bool) : Bool :=
  match s.pickQueues 1 0x4000 n 0 [] with
  | .ok l t => l.all fun p => decide ((t.queue p.1).lacks (l.filter fun r => decide (r.1 = p.1)).length = !room p.1)
  | _ => false
theorem test_meets_ChainBlocks :
    (let s := mkt 1 1 [] same
     ({ id := 0, ctx := 1, cur := 0x6000 } : Chain).mute = false ∧
     (match s.translate marketAgent 1 0x6004 .store with
      | .ok pa t => !t.channelAfter pa && isOk (t.writeBytesPhys marketAgent false pa (leBytes 4 0)) &&
          isErr ((lost t pa).writeBytesPhys marketAgent false pa (leBytes 4 0))
      | _ => false) = true) ∧
    (let s := mkt 1 1 [] same
     s.boot.go = true ∧ s.chainOf 0 = some { id := 0, ctx := 1, cur := 0x6000 } ∧ picks s 1 (fun _ => true) = true ∧
       (match s.pickQueues 1 0x4000 1 0 [] with | .ok (p :: _) t => !(t.queue p.1).lacks 1 | _ => false) = true) ∧
    picks (mkt 1 1 (List.replicate 64 rec0) same) 1 (fun _ => false) = true ∧
    (let s : State := { mkt 1 1 [] same with mem := (mkt 1 1 [] same).mem.writeLE 0x5000 8 1 }
     (match s.readVirt marketAgent 1 0x5000 8 with | .ok w t => decide (leNat w % 2 ^ 32 = 1) && picks t 1 (fun _ => true) | _ => false) = true ∧
     (match s.readVirt marketAgent 1 0x5020 8 with | .ok w _ => decide (leNat w / 2 ^ 32 % 2 ^ 16 = 0 ∧ leNat w / 2 ^ 32 % 2 ^ 16 ≠ 1) | _ => false) = true) ∧
    (∀ x ∈ [({ id := 0, ctx := 1, cur := 0x6000, ready := true } : Chain), { id := 0, ctx := 1, cur := 0x6000, ready := true, count := some 1 }],
      (mkt 1 1 [] fun _ => x).chainOf 0 = some x ∧ x.fault = none ∧ x.ended = none ∧ x.ready = true) ∧
    (run0 0x40 false).finished = false ∧ (run0 0 true).finished = true ∧ (run0 0 true).cmd.comp = 0 ∧
    (let x : Chain := { id := 0, ctx := 1, cur := 0x6000, copy := some (run0 0x40 false) }
     let s := mkt 1 1 [] fun _ => x
     s.chainOf 0 = some x ∧ x.fault = none ∧ x.ended = none ∧
       (match s.granuleStep marketAgent 1 (run0 0x40 false) (fun _ _ => false) State.channelAfter with | .next _ _ => true | _ => false) = true) ∧
    (let s := mkt 1 1 [] same
     (match s.translate marketAgent 1 0x4040 .atomic with
      | .ok pa t => (match t.barrierPhys marketAgent (some 1) pa true 3 0 with | .ok _ _ => true | _ => false) &&
          (match t.atomicPhys marketAgent pa 32 (.binit 2 0) (fun _ => some (Bar.toBytes ⟨0, 0, 2, 0, 0, 0⟩)) with | .ok _ _ => true | _ => false)
      | _ => false) = true ∧
     (match s.readVirt marketAgent 1 0x4040 8 with | .ok w _ => decide (leNat w / 2 ^ 32 % 2 ^ 16 = 0 ∧ leNat w / 2 ^ 32 % 2 ^ 16 ≠ 1) | _ => false) = true) ∧
    (let x : Chain := { id := 0, ctx := 1, cur := 0x6000, persist := some [(0, 0)] }
     let s := upHam (mkt 1 1 [] fun _ => x) fun y => { y with cutSeq := 1 }
     s.chainOf 0 = some x ∧ (∀ p ∈ [((0 : Nat), (0 : Nat))], p.2 < (s.ham p.1).cutSeq) ∧
      held.heldMode 0 = true ∧ (held.ham 0).cutSeq ≤ 0) := by decide +kernel
/-- `up` with a write of the device that waits: to the market ring, or elsewhere. -/
def late (pa : Nat) : State := { up with devQ := [.write marketAgent pa (leBytes 8 0)] }
theorem test_meets_deviceWrites :
    (let own : Agent := { code := 10, unit := 15 }
     let base := up.boot.mktRing.toNat
     up.devQ = [] ∧ (up.admitAll own [(base + 68, 4)]).1 = true ∧
       ((up.devWrite marketAgent (base + 68) (leBytes 4 9)).admitAll own [(base + 8, 8)]).1 = true ∧
       up.devWaits base 4096 = false ∧ (late (base + 8)).devQ ≠ [] ∧ (late (base + 8)).devWaits base 4096 = true ∧
       (late (base + 4096)).devWaits base 4096 = false ∧ isOk ((late (base + 4096)).readPhys marketAgent base 16) = true) := by decide +kernel

/-- The machine of `up` with an outstanding fault 7 of context 1, and its descriptor in memory. -/
def faulted : State := { up with
  mem := up.mem.writeBytes (up.boot.ctxBase.toNat + 2048) desc
  market := { up.market with faults := [{ ctx := 1, id := 7, page := 0, acc := 0, ham := 0 }] } }
def xc (c : Byte) (a b d : W64) : XCmd := ⟨c, a, b, d⟩
theorem test_meets_TranslationCommands :
    up.boot.go = true ∧ up.market.invWait = none ∧ faulted.faultOpen 1 7 = true ∧ up.faultOpen 1 7 = false ∧
    (let d (s : State) := ((s.dropTlb fun e => decide (e.ctx = 1)).dropRanges 1).readDesc 1
     isOk (d faulted) = true ∧ isErr (d up) = true ∧ isWait (d (spent faulted)) = true) ∧
    isOk (faulted.readDesc 1) = true ∧ isErr (up.readDesc 1) = true ∧
    (match faulted.readDesc 1 with | .ok _ t => decide ((t.ham 0).ctx = some 1 ∧ (t.ham 0).region = some 0 ∧ (t.ham 9).ctx ≠ some 1) | _ => false) = true ∧
    (match (upHam faulted fun x => { x with region := none }).readDesc 1 with
     | .ok _ t => decide ((t.ham 0).ctx = some 1 ∧ (t.ham 0).region = none) | _ => false) = true ∧ (faulted.ham 0).ctx = some 1 ∧ (faulted.ham 0).region = some 0 ∧
    ((upHam faulted fun x => { x with region := none }).ham 0).region = none ∧
    (let w : InvWait := { ctx := 1, held := [], release := some 0 }
     let s : State := { up with market := { up.market with invWait := some w } }
     s.market.invWait = some w ∧ w.release = some 0 ∧ s.releaseDone 1 0 = true ∧
      (s.setRegion 0 { s.region 0 with task := some { task0 with abandoned := true } }).releaseDone 1 0 = false) ∧
    (let t := (up.dropTlb fun e => decide (e.ctx = 1) && true).markOld 1 false
     (match t.market.invWait with | some w => t.oldDone w | none => false) = true) ∧
    (let s := upReeve up fun k => { k with storeBuf := [{ pa := 0x4000, bytes := [1] }] }
     let t := (s.dropTlb fun e => decide (e.ctx = 1) && true).markOld 1 false
     (match t.market.invWait with | some w => !t.oldDone w | none => false) = true) ∧
    (match up.translate (up.coreAgent (.reeve 0)) 1 0x4000 .load with | .ok .. => true | _ => false) = true ∧
    (match up.translate (up.coreAgent (.reeve 0)) 1 0x9000000000 .load with | .fault .. => true | _ => false) = true := by decide +kernel

/-- The record at 0x4000 as a pop read returns it: context 1 and no other field. -/
def body0 : List Byte := leBytes 20 0 ++ [1] ++ leBytes 43 0
theorem test_meets_MarketEvents :
    (let s (n : Byte) : State := { mkt 1 1 [rec0] same with mem := up.mem.writeBytes 0x4014 [1, 0, 0, 0, n] }
     let ok (n : Byte) : Bool := match (s n).popRecords 1 rec0.records [] with | .ok _ _ => true | _ => false
     ((s 0).queue 3).ents = [rec0] ∧ rec0.body = none ∧ rec0.fault = none ∧ (s 0).descKnown 1 = true ∧ ok 0 = true ∧ ok 9 = false ∧
       (match (s 9).popRecords 1 rec0.records [] with | .bad .. => true | _ => false) = true ∧
       (match (s 9).copyRead marketAgent 1 [(0x4000, 64)] [] with | .ok .. => true | _ => false) = true) ∧
    (let s : State := { mkt 1 1 [{ rec0 with body := some body0 }] same with mem := faulted.mem, hamlets := [], regions := [] }
     let s1 := s.freshReservation
     let t := [3]
     (List.range 64).filter (fun q => (s1.headOf q).isSome) = [3] ∧ s1.headPrio 3 = 0 ∧ (s1.pickContext t).1 = some 1 ∧
       t.find? (fun q => decide ((s1.queue q).ctx = 1)) = some 3 ∧ (s1.pickContext t).2.headOf 3 = some ({ rec0 with body := some body0 }, body0) ∧
       (match (s1.pickContext t).2.tryHead 3 { rec0 with body := some body0 } body0 with | .placed _ => true | _ => false) = true) ∧
    (List.range 64).filter (fun q => (up.freshReservation.headOf q).isSome) = [] ∧
    (let r := (upWith fun r => { r with placed := true }).region 0
     r.task = some task0 ∧ r.placed = true ∧ r.resume = false ∧ (upWith fun r => { r with placed := true }).readsBack 0 = false ∧
       isOk ((upWith fun r => { r with placed := true }).stageReads 0 r.ctx task0.record) = true) ∧
    (Tab.get up.market.experts {} 0).start + 1100 * (Tab.get up.market.experts {} 0).window.toNat ≤ up.cycle ∧
    (let l : LinkPush := { addr := 0x4000, ctx := 1 }
     let s : State := { up with market := { up.market with links := [l], evHeld := [(1, [{ va := 0, cause := 3, agent := 3 }])] } }
     s.market.links = [l] ∧ s.market.killing.contains l.ctx = false ∧ l.fault = none ∧ s.descKnown l.ctx = true ∧
       Tab.get s.market.evHeld [] 1 ≠ [] ∧ s.eventFull 1 = false) ∧
    (let s : State := { up with regions := [], market := { up.market with killing := [1] } }
     s.market.killing.contains 1 = true ∧ s.market.descBad.contains 1 = false ∧ s.regionsOf 1 = [] ∧ s.market.owed = []) := by decide +kernel

/-- `up` with a task-holding region in a running cut. -/
def cutting : State := upWith fun r => { r with cut := some { seq := 4, start := 0 } }
/-- The same with every agent recorded. -/
def cutDone : State := upHam cutting fun x => { x with
  elems := (List.range 64).map fun i => (i, { recorded := true }), capR := some {}, capC := some {}, capE := (List.range 64).map fun i => (i, {}),
  capG := some {} }
def write0 : HeldOp := .write 3 0 [(0x5000, 7)]
def spe0 : SpeReq :=
  { kind := .st, srcH := 0, site := 32, slot := 0, addr := 0x10, size := 4, zext := false, val := 1, expv := 0, op := f0, posted := true }
theorem test_meets_CutsAndHeldEntries :
    (let r := up.region 0
     r.cut = none ∧ r.stopping = none ∧ r.pre = false ∧ r.task ≠ none ∧ r.fallow = none ∧ r.frozen = false ∧ r.placed = false ∧
       r.lastCutStart < { up with cycle := 0x100000 }.cycle ∧ (0x100000 - r.lastCutStart) % (up.ham 0).reeve.shadowIval.toNat = 0) ∧
    cutting.regionOf 0 = some (0, cutting.region 0) ∧ (cutting.region 0).cut = some { seq := 4, start := 0 } ∧
    (cutting.elem 0 3).recorded = false ∧ cutting.atRecordPoint 0 3 = true ∧ (cutting.ham 0).capR = none ∧ (cutting.ham 0).capC = none ∧
    (cutting.ham 0).reeve.storeBuf = [] ∧
    (let s := upHam cutDone fun x => { x with afterQ := [spe0] }
     (s.ham 0).afterQ = spe0 :: [] ∧ s.afterWait (some spe0.srcH) (spe0.isAfter s) 0 = false ∧
       ((s.setHam 0 { s.ham 0 with afterQ := [] }).serve spe0).1 = true) ∧
    (let q := { spe0 with after := some 4 }
     let s := upHam cutting fun x => { x with afterQ := [q] }
     (s.ham 0).afterQ = q :: [] ∧ q.kind.writes = true ∧ s.afterWait (some q.srcH) (q.isAfter s) 0 = true) ∧
    cutDone.recordCount 0 = 0 ∧ (∀ h ∈ (cutDone.region 0).hamlets 0, (cutDone.ham h).cutReady = true) ∧
    (let s : State := { cutting with cycle := 4096 }
     (s.setRegion 0 { s.region 0 with cut := some { seq := 4, start := 0, stopped := true } }).quiescent 0 = true) ∧
    (let s : State := { (upReeve cutting fun k => { k with storeBuf := [{ pa := 0, bytes := [] }] }) with cycle := 4096 }
     (s.setRegion 0 { s.region 0 with cut := some { seq := 4, start := 0, stopped := true } }).quiescent 0 = false) ∧
    (let e : Held := { op := write0, tag := 2, idx := 5 }
     let s := upHam held fun x => { x with held := [e], cutSeq := 3 }
     (s.ham 0).held.find? (fun e => !e.sent && decide (e.tag < (s.ham 0).cutSeq)) = some e ∧ e.fault = none ∧ s.regionOf 0 = some (0, s.region 0) ∧
       (s.region 0).frozen = false ∧ (s.region 0).fallow = none ∧
       isOk (s.writePhys { code := 3, ctx := some 1, ham := some 0, site := 0, unit := 8, posted := true } false (0x5000 - 0x5000 % 32) 32
         [(0x5000, 7)]) = true ∧ e.op = .write 3 0 ((0x5000, 7) :: [])) ∧
    (let d : Held := { op := .write 3 0 [(0x6000, 7)], tag := 2, idx := 4, sent := true }
     let e : Held := { op := write0, tag := 2, idx := 5 }
     let s := upHam held fun x => { x with held := [d, e], cutSeq := 3 }
     (s.ham 0).held.find? (fun e => !e.sent && decide (e.tag < (s.ham 0).cutSeq)) = some e ∧ d.sent = true ∧ d.done = false ∧ d.idx < e.idx ∧
       d.before e = false) ∧
    (let d : Held := { op := write0, tag := 2, idx := 5, sent := true, done := true }
     let e : Held := { op := .reeve { req := .tspawn, d := 0, gd := 0, ga := 0x4000, gb := 0 }, tag := 2, idx := 5, sent := true, done := true }
     let s (x : Held) := upHam (upReeve held fun k => { k with run := .heldWait 5 0 }) fun y => { y with held := [{ d with done := false, idx := 3 }, x] }
     ((s d).ham 0).held.find? (fun e => e.sent && e.done) = some d ∧ ((s e).ham 0).held.find? (fun e => e.sent && e.done) = some e ∧
       ((s e).ham 0).reeve.run = .heldWait 5 0) ∧
    (let x := ((upReeve held fun k => { k with run := .heldWait 5 0 }).ham 0)
     x.reeve.run = .heldWait 5 0) ∧
    (let s := el 0 fun e => { e with replayIn := [(2, [dat 9])] }
     Tab.get (s.elem 0 0).replayIn [] 2 = [dat 9] ∧ s.hamletRuns 0 = true ∧ ((s.elem 0 0).inQ 2).occ < (s.elem 0 0).depthOf 2) := by
  decide +kernel

/-- The region is being pre-empted and every engine has acknowledged. -/
def stopping (cut : Bool) : State :=
  let s := upWith fun r => { r with pre := true, preCut := cut }
  upHam s fun x => { x with acks := List.range 66 }
theorem test_meets_Preemption :
    up.gangOf 0 = [0] ∧ (up.region 0).mayPreempt = true ∧
    (let s := upWith fun r => { r with pre := true }
     s.regionOf 0 = some (0, s.region 0) ∧ (s.region 0).pre = true ∧ (s.region 0).preCut = false ∧ (s.region 0).frozen = false ∧
       (s.region 0).fallow = none ∧ ∀ i ∈ [0, 1, 24, 32, 64, 65], (s.ham 0).acks.contains i = false ∧ s.atStopPoint 0 i = true) ∧
    (let s := (upWith fun r => { r with pre := true }).setElem 0 0 { streams := [(2, { st := .running, kind := .sgather, fault := some 7 })] }
     (s.ham 0).acks.contains 0 = false ∧ s.atStopPoint 0 0 = true ∧ siteKind 0 = .se ∧ (s.stream 0 0 2).fault.isSome = true) ∧
    (stopping false).gangOf 0 = [0] ∧ (stopping false).engineStopped 0 = true ∧ ((stopping false).region 0).preCut = false ∧
    (stopping true).engineStopped 0 = true ∧ ((stopping true).region 0).preCut = true ∧
    (∀ h ∈ ((stopping true).region 0).hamlets 0, ((stopping true).ham h).held = []) ∧ (stopping true).parkedFull [0] = [] := by decide +kernel

def hdr0 : Header := ({ valid := true, ctx := 1, seq := 4 } : Header).sealed
def frame1 (off : Nat) : Frame := { ctx := 1, slot := 0, seq := 4, snap := { hdr := hdr0, reeve := { record := 0x4000 } }, off := off }
/-- A parked context's frame 0 in its save area, and the read-back at an offset. -/
def back (off : Nat) : State :=
  let s := upWith fun r => { r with placed := true, resume := true }
  upHam { s with mem := s.mem.writeBytes 0x40000000 hdr0.bytes64 } fun x => { x with frames := [frame1 off] }
/-- A descriptor with a refill of 500 µJ. -/
def descQ : List Byte := desc.take 56 ++ leBytes 8 500 ++ desc.drop 64
def metered : State := { up with market := { up.market with desc := [(1, descQ)], balance := [(1, 100)] } }
theorem test_meets_SpillAndEnergy :
    (let p : Spill := { slot := 0, ctx := 1 }
     let s := upHam up fun x => { x with spill := some p }
     (s.ham 0).spill = some p ∧ s.spillRuns 0 = true ∧ p.stopped = false ∧ p.fault = none ∧ p.off < 64 + slotBytes ∧
       0x400000 * (4 * 0 + 0) + (64 + 4096) ≤ s.descField 1 80 8 ∧
       ((s.ham 0).slot 0).bad = none ∧
       (match (s.readLines 0 0 0 16).copyWrite (spillAgent 1 0) 1 (pagePieces (s.frameAddr 1 0 0 + 64) 4096)
          ((List.range 4096).map fun i => Config.spillBody 0 (64 + i)) with | .ok [] _ => true | _ => false) = true ∧
       (match s.copyWrite (spillAgent 1 0) 1 (pagePieces (s.frameAddr 1 0 0) 64) hdr0.bytes64 with | .ok [] _ => true | _ => false) = true) ∧
    (let s := back 0
     (s.ham 0).frames.find? (fun f => decide (f.ctx = 1) && f.isOf (s.region 0)) = some (frame1 0) ∧ s.spillRuns 0 = true ∧ s.regionOf 0 = some (0, s.region 0) ∧ (s.region 0).placed = true ∧
       (s.region 0).resume = true ∧ (s.region 0).ctx = 1 ∧
       (frame1 0).stopped = false ∧
       (match s.copyRead (spillAgent 1 0) 1 (pagePieces (s.frameAddr 1 0 0) 64) [] with
        | .ok b t => frameValid b 1 4 && !(t.ham 0).openSlots.isEmpty | _ => false) = true) ∧
    (let s := back (64 + slotBytes - 4096)
     let at' := s.frameAddr 1 0 0 + (64 + slotBytes - 4096)
     { frame1 8 with fills := some 2 }.fills = some 2 ∧
     (match s.copyRead (spillAgent 1 0) 1 (pagePieces at' 4096) [] with | .ok _ _ => true | _ => false) = true) ∧
    (let r : EnergyReport := { still := 16, dynamic := 97, activity := [1] }
     let total := ((List.range 8).map fun k => r.activity.getD k 0).sum
     total ≠ 0 ∧ (∀ i, i < 8 → (r.still * total + 8 * r.dynamic * r.activity.getD i 0) % (8 * total) = 0) ∧
       (1 * 1 + 8 * 1 * 0) % (8 * 1) ≠ 0) ∧
    (metered.ham 0).ctx = some 1 ∧ metered.refillOf 1 ≠ 0 ∧ ({ metered with cycle := 1099 }.cycle + 1) % 1100 = 0 ∧
    (∀ i, i < 8 → 1 ≤ i → (metered.ham i).ctx = none) ∧ 0 < Tab.get metered.market.balance 0 1 - Int.ofNat (16 / 8 + 97) ∧
    Tab.get metered.market.balance 0 1 - Int.ofNat (16 / 8 + 98) ≤ 0 ∧ (metered.cycle + 1) % 1100 ≠ 0 ∧ metered.regions = [(0, metered.region 0)] ∧ (metered.region 0).ctx = 1 ∧
    metered.gangOf 0 = [0] ∧ (metered.region 0).mayPreempt = true := by decide +kernel
/-- Context 1 with an event record that is held, its ring full or not, and one on its way or not. -/
def events (count : Nat) (way : Bool) : State :=
  let r : EvRec := { va := 0, cause := 3, agent := 3 }
  { up with
    mem := up.mem.writeLE (up.descField 1 88 8) 8 count
    market := { up.market with evHeld := [(1, [r])] }
    devQ := if way then [.event 1 r true] else [] }
theorem test_meets_heldEvents :
    rec0.slot = none ∧ ((upWith fun r => { r with placed := true }).region 0).frozen = false ∧
    Tab.get (events 0 false).market.evHeld [] 1 = { va := 0, cause := 3, agent := 3 } :: [] ∧
    ((events 125 false).eventFull 1 = false ∧ (events 125 false).eventOnWay 1 = false ∧ (events 125 false).devQ = []) ∧
    ((late 0x4000).eventOnWay 1 = false ∧ (late 0x4000).devQ ≠ []) ∧
    (events 126 false).eventFull 1 = true ∧ (events 0 true).eventOnWay 1 = true ∧
    (let base := up.descField 1 88 8
     up.eccOf base 16 = [] ∧ up.eccOf (base + 64 + 32 * (up.mem.readLE base 8 % 126)) 32 = []) := by decide +kernel

/-- Held entries: a write to another region's green, one that no cut holds, and a reeve's request that returned a value or a trap. -/
theorem test_meets_heldWrites :
    (∀ h ∈ (cutting.region 0).hamlets 0, cutting.eccOf (greenPa h 0) 0x200000 = []) ∧
    (let e : Held := { op := .write 3 0 [(0x20001000000, 7)], tag := 2, idx := 5 }
     let far : State :=
       let s := upHam held fun x => { x with held := [e], cutSeq := 3 }
       { s with
         hamlets := s.hamlets ++ [(8, { ctx := some 1, region := some 8 })]
         regions := s.regions ++ [(8, { up.region 0 with cut := some { seq := 4, start := 0 } })] }
     let a : Agent := { code := 3, ctx := some 1, ham := some 0, site := 0, unit := 8, posted := true }
     (far.ham 0).held.find? (fun e => !e.sent && decide (e.tag < (far.ham 0).cutSeq)) = some e ∧
       far.agentAfter a (0x20001000000 - 0x20001000000 % 32) = true ∧ held.agentAfter a 0x5000 = false) ∧
    (let e (r : HeldRet) : Held := { op := .reeve { req := .tspawn, d := 0, gd := 0, ga := 0x4000, gb := 0 }, tag := 2, idx := 5, sent := true, done := true, ret := r }
     (e (.value 6)).ret = .value 6 ∧ (e (.trap 4 0x4000)).ret = .trap 4 0x4000 ∧
       ∀ r ∈ [HeldRet.value 6, .trap 4 0x4000], let s := upHam (upReeve held fun k => { k with run := .heldWait 5 0 }) fun y => { y with held := [e r] }
         (s.ham 0).held.find? (fun e => e.sent && e.done) = some (e r) ∧ (s.ham 0).reeve.run = .heldWait 5 0) ∧
    ((upWith fun r => { r with pre := true }).region 0).placed = false := by decide +kernel

/-- Hamlet 0 in the fallow configuration since cycle 0, with a token in it, or none. -/
def fallow (n : Nat) : State := upHam (upWith fun r => { r with fallow := some 0 }) fun x => { x with
  elems := [(1, { outq := [(0, { ents := List.replicate n (dat 5) })] })] }
/-- The frozen region of hamlet 0 with a valid bank of cut 4. -/
def banked (free : Bool) : State :=
  upHam (upWith fun r => { r with frozen := true, free := free }) fun x => { x with slots := [(0, { use := .bank false, ctx := 1, snap := { hdr := hdr0 } })] }
theorem test_meets_RecoveryAndContainment :
    (0 : Nat) < 8 ∧ (8 : Nat) ≤ 12 ∧ up.quadRegions 1 = [] ∧ up.quadRegions 0 = [0] ∧ low.regions = [] ∧
    (banked false).quadRegions 0 = [0] ∧ ((banked false).region 0).frozen = true ∧ (banked false).commonCut 0 = some 4 ∧
    ((banked false).region 0).free = false ∧ ((banked false).region 0).pre = false ∧ up.commonCut 0 = none ∧ up.regionOf 9 = none ∧
    (banked false).regionOf 0 = some (0, (banked false).region 0) ∧ (((banked false).freeze 0).recover 0).1 = some 4 ∧
    (Tab.get (up.quad 0).spares [] 0).length < 4 ∧
    (let s := up.setQuad 0 { up.quad 0 with spares := [(0, [1, 2, 3, 4])] }
     4 ≤ (Tab.get (s.quad 0).spares [] 0).length) ∧
    (let a : Agent := up.coreAgent (.reeve 0)
     let s := up.setQuad 0 { up.quad 0 with parity := [(0, [[3], [3], [3], [3]])], spares := [(0, [1, 2, 4, 5])] }
     placeOf granaryBase = .granary 0 0 ∧ (up.letIn a granaryBase 8).1 = true ∧ ((up.letIn a granaryBase 8).2.busCross 0 0 8).1 = true ∧
       (s.letIn a granaryBase 8).1 = true ∧ ((s.letIn a granaryBase 8).2.busCross 0 0 8).1 = false ∧ up.eccOf granaryBase 512 = [] ∧
       (granaryBase / 32, CellErr.many) ∈ (lost up granaryBase).eccOf granaryBase 512) ∧
    ((fallow 0).region 0).fallow = some 0 ∧ (fallow 0).headcount 0 = 0 ∧ (fallow 0).noneOutstanding 0 = true ∧
    (let s : State := { fallow 1 with cycle := 4096 }
     (s.region 0).fallow = some 0 ∧ 0 + 4096 ≤ s.cycle ∧ s.headcount 0 ≠ 0) := by decide +kernel

/-- The machine of `low` with parish 2 changed. -/
def par (f : Parish → Parish) : State := { low.setParish 2 (f (low.parish 2)) with cycle := 0x10000 }
theorem test_meets_Gating :
    (let x := (par fun x => x).parish 2
     x.st ≤ 3 ∧ x.gating = false ∧ x.ack.getLsbD 0 = false ∧ x.pctl.getLsbD 1 = false) ∧
    (let x := (par fun x => { x with pctl := 0x11F, ack := 0x1F, st := 2 }).parish 2
     x.st ≤ 3 ∧ x.gating = false ∧ (∀ m, m < 5 → x.ack.getLsbD m = true) ∧ x.highest = some 4) ∧
    (let s := par fun x => { x with pctl := 0x107, ack := 3, st := 2 }
     (s.parish 2).highest = some 2 ∧ (s.parish 2).ack.getLsbD 2 = false ∧ s.stepDone 2 2 = true) ∧
    (let s := par fun x => { x with st := 1 }
     (s.parish 2).st = 1 ∧ (s.parish 2).holdStart + 1100 * (s.parish 2).phold.toNat ≤ s.cycle ∧ s.parishIdle 2 = true) ∧
    ((par fun x => { x with st := 3 }).parish 2).st = 3 ∧ ((par fun x => { x with gating := true }).parish 2).gating = true ∧
    (let s : State := { par fun x => { x with st := 4, ack := 0x3F } with inrush := [(0, [2])] }
     Tab.get s.inrush [] 0 = 2 :: [] ∧ s.ramping 0 < 4 ∧ (s.parish 2).ack.getLsbD 5 = true) ∧
    (let s := par fun x => { x with st := 5 }
     (s.parish 2).st = 5 ∧ (s.parish 2).holdStart + 3300 ≤ s.cycle) ∧
    ((par fun x => { x with st := 6 }).parish 2).st = 6 := by decide +kernel

theorem test_meets_ThermalAndRegisters :
    (low.cycle % 55000 = 0 ∧ low.cycle % 110000 = 0 ∧ { low with cycle := 1 }.cycle % 55000 ≠ 0 ∧ { low with cycle := 1 }.cycle % 110000 ≠ 0) ∧
    (let x := low.sensor 71
     x.t1.toInt < x.t2.toInt ∧ x.t2.toInt < x.t3.toInt ∧ 0 ≤ x.hyst.toInt ∧ x.level ≤ 3) ∧
    low.plimit.toNat * 100 < (160001 : W64).toNat ∧ 10 * (143999 : W64).toNat < 9 * (low.plimit.toNat * 100) ∧
    9 * (low.plimit.toNat * 100) ≤ 10 * (144000 : W64).toNat ∧ (160000 : W64).toNat ≤ low.plimit.toNat * 100 ∧
    (let s : State := { low with hbm := [(1, { waiters := [7, 8] })] }
     (s.stack 1).waiters = 7 :: [8] ∧ (s.stack 1).used + 32 ≤ s.stackRate 1) ∧
    (low.quad 3).next ≤ low.cycle + 0x100000 ∧ (low.quad 3).openG = none ∧
    (let s : State := { low.setQuad 3 { low.quad 3 with openG := some 2 } with cycle := 0x100000 }
     (s.quad 3).openG ≠ none ∧ (s.quad 3).next + 1760 ≤ s.cycle + (if (s.quad 3).hot then 4400 else 8800)) ∧
    placeOf 0x30000008000 = .mgmt ∧ (low.mgmtWrite 0x30000008000 5).isSome = true ∧ placeOf 0x30000009FF8 = .mgmt ∧
    low.mgmtWrite 0x30000009FF8 5 = none ∧ 100 ≤ (1600 : W64).toNat % 65536 ∧ (1600 : W64).toNat % 65536 ≤ 1600 ∧
    (1 : W64).getLsbD 0 = true := by decide +kernel

/-- The service ring at 0x8000 with one command whose first doubleword is w. -/
def svc (w : Nat) : State := { low with
  boot := { low.boot with svcRing := 0x8000 }
  mem := (low.mem.writeLE 0x8000 8 1).writeLE 0x8040 8 w }
theorem test_no_image (a : Nat) (h : low.flash.readLE a 4 = 0) : romAccepts low.flash a = false := by
  simp [romAccepts, h]

/-- The cases of two images that the ROM does not accept, of the bases set and clear, of a measurement extended and of the service ring. An
image that it accepts is `test_accepted_image`'s. -/
theorem test_meets_BootSteps :
    romAccepts low.flash 0 = false ∧ romAccepts low.flash 0x1000000 = false ∧
    low.boot.basesSet = false ∧
    ({ low.boot with ctxBase := 1, mktRing := 1, xlRing := 1, alog := 1, blog := 1, elog := 1, svcRing := 1, go := false } : Boot).basesSet = true ∧
    ({ low.boot with ctxBase := 1, mktRing := 1, xlRing := 1, alog := 1, blog := 1, elog := 1, svcRing := 1, manor := true } : Boot).manor = true ∧
    (svc 0x101).boot.svcRing = 0x8000 ∧ low.eccOf low.boot.mextSrc.toNat 64 = [] ∧
    (let head (s : State) : Option (Nat × Nat) := match s.readPhys serviceAgent 0x8000 16 with
       | .ok b _ => some (leNat ((b.drop 8).take 8), leNat (b.take 8))
       | _ => none
     let first (s : State) : Option Nat := match s.readPhys serviceAgent 0x8000 16 with
       | .ok _ t => (match t.readPhys serviceAgent (0x8000 + 64 + 32 * (0 % 126)) 32 with | .ok e _ => some (leNat e) | _ => none)
       | _ => none
     head (svc 0x101) = some (0, 1) ∧ head { svc 0x101 with mem := [] } = some (0, 0) ∧ first (svc 0x101) = some 0x101 ∧
       first (svc 0x201) = some 0x201 ∧ first (svc 0x102) = some 0x102) ∧
    (let s := svc 0x101
     isErr ((lost s 0x4000).readPhys serviceAgent 0x4000 64) = true ∧ 0x8000000000 < (0x8000000000 : W64).toNat + 64 ∧
     (match s.readPhys serviceAgent 0x4000 64 with
      | .ok n t => decide (n.length = 64) && isOk (t.writeBytesPhys serviceAgent true 0x5000 (List.replicate 3901 0)) &&
          isErr ((lost t 0x5000).writeBytesPhys serviceAgent true 0x5001 (List.replicate 3901 0))
      | _ => false) = true) ∧
    (∀ i, i < 8 → (low.boot.measure i).length = 64) ∧ (0x4000 : W64).toNat + 64 ≤ 0x8000000000 ∧ (0x5000 : W64).toNat + 3901 ≤ 0x8000000000 := by
  refine ⟨test_no_image 0 (by decide +kernel), test_no_image 0x1000000 (by decide +kernel), ?_⟩
  decide +kernel

def bus (w : Bool) (atom : Option (Nat × W64)) : BusReq :=
  { agent := 9, ctx := none, ham := none, pa := 0x5000, write := w, len := 8, bytes := leBytes 8 5, atom := atom }
/-- Ethernet port 0 on, with queue pair 1 at a request of the op given and a region entry of rkey 5 at 0x5000. -/
def wired (op : Nat) : State := { low with
  dma := [(0, (0, 0x100000))]
  eth := [(0, { regs := [(0, 1), (0x20, 0x2000), (0x28, 2), (0x30, 0x3000), (0x38, 1)], prod := [(1, 1)] })]
  mem := [(0x2056, 1)] ++ [(0x2061, 0x40)] ++ [(0x3001, 0x50), (0x3008, 64), (0x3011, 0x50), (0x3018, 5), (0x301C, 3)] ++
    (if op = 0 then [] else [(0x4000, BitVec.ofNat 8 op)]) ++ [(0x4009, 0x60), (0x4018, 8)] }
/-- The same with that request in flight. -/
def inAir (op : Nat) : State :=
  let s := wired op
  { s with eth := [(0, { s.port 0 with flight := [(1, s.mem.readBytes 0x2040 64 ++ s.mem.readBytes 0x4000 64)] })] }
/-- The queue pair, its work request and the state behind their reads. -/
def workOf (s : State) : Option (QPair × Work × State) :=
  match s.portRead 0 (s.qpAddr 0 1) 64 with
  | .ok entry t =>
    let q := QPair.ofBytes entry
    match t.portRead 0 (q.ring + 64 * (q.cons % 2 ^ q.log2)) 64 with
    | .ok work u => some (q, Work.ofBytes work, u)
    | _ => none
  | _ => none
/-- What the region table of port 0 grants. -/
def granted (s : State) (write : Bool) (rkey : W32) (addr : W64) (len : Nat) : Option Nat :=
  match s.portRead 0 ((s.port 0).reg 0x30) (32 * (s.port 0).reg 0x38) with
  | .ok table _ => rdmaGrant table ((s.port 0).reg 0x38) write rkey addr len
  | _ => none
theorem test_meets_OutsideRequests :
    (let w : State := { low with waiting := [.pcieEndpointRequest 0 false false (bus true none)] }
     w.pcieBehind 0 = true ∧ low.pcieBehind 0 = false) ∧ (0 < 18 ∧ 0 ∉ low.ualDown) ∧
    (placeOf 0x50000001000 = .pcie 1 ∧ 4096 ≤ 0x50000001000 % 0x10000000000) ∧
    low.busAfter (bus true none) = false ∧ low.partOf (.window (bus true none)) (pieces 0x5000 8) (leBytes 8 5) = (pieces 0x5000 8, leBytes 8 5) ∧
    (match low.busWrite (busAgent (bus true none)) (pieces 0x5000 8) (leBytes 8 5) with | .ok _ t => !t.again | _ => false) = true ∧
    (match low.barrierPhys (busAgent (bus false none)) none 0x5000 true 0 0 with | .ok _ _ => true | _ => false) = true ∧
    (match low.busRead (busAgent (bus false none)) (pieces 0x5000 8) [] with | .ok _ _ => true | _ => false) = true ∧
    (match low.atomicPhys (busAgent (bus true (some (0, 0)))) 0x5000 8 (.amo (amoOfNum 0) false 5 0) (amoBytes (amoOfNum 0) false 5 0) with | .ok _ _ => true | _ => false) = true ∧
    (wired 1).dmaOk 0 0x5000 8 = true ∧ low.dmaOk 0 0x5000 8 = false ∧ inDmaSpace 0x5000 8 = true ∧ (wired 1).mem.wf = true ∧
    (let s := wired 1
     (Tab.get (s.port 0).regs 0 0).getLsbD 0 = true ∧ 1 < (s.port 0).reg 0x28 ∧ ((s.port 0).inFlight 1).isNone = true ∧
     (match workOf s with
      | some (q, w, u) => q.valid && decide (Tab.get (s.port 0).prod 0 1 ≠ q.cons % 65536 ∧ w.len ≤ 2 ^ 31 ∧ w.op = 1) && u.dmaOk 0 w.pa w.len &&
          (match u.busRead (portAgent 0) (pieces w.pa w.len) [] with | .ok _ _ => true | _ => false)
      | none => false) = true ∧
     (match workOf (wired 2) with | some (_, w, _) => decide (w.op = 2) | none => false) = true ∧
     (match workOf { s with mem := s.mem.writeLE 0x4018 8 0x80000001 } with
      | some (_, w, _) => decide (2 ^ 31 < w.len ∧ w.op = 1) | none => false) = true) ∧
    (let s := inAir 2
     (match s.port 0 |>.inFlight 1 with
      | some (q, w) => decide (w.op = 2) && !s.agentAfter (portAgent 0) w.pa &&
          (match s.busWrite (portAgent 0) (pieces w.pa w.len) ((List.range w.len).map fun i => ([] : List Byte).getD i 0) with
           | .ok _ t => !((t.partDone (.work 0 1 true)).endWork 0 1 q w 0).again | _ => false)
      | none => false) = true ∧
     (match (inAir 1).port 0 |>.inFlight 1 with | some (_, w) => decide (w.op = 1) | none => false) = true) ∧
    (let s := wired 1
     let w : Work := { op := 1, rkey := 0, pa := 0x6000, remote := 0, len := 8, bar := 0x7000 }
     w.bar ≠ 0 ∧ s.dmaOk 0 w.bar 32 = true ∧ s.agentAfter (portAgent 0) w.bar = false ∧
     (match s.barrierPhys (portAgent 0) none w.bar false (-(BitVec.ofNat 64 w.len)) 0 with
      | .ok _ t => (t.eccOf (t.qpAddr 0 1 + 44) 4).isEmpty | _ => false) = true) ∧
    (let s := wired 1
     granted s true 6 0x5000 8 = none ∧ granted s false 5 0x5000 8 = some 0x5000 ∧ granted s true 5 0x5038 8 = some 0x5038 ∧
       granted s true 5 0x5039 8 = none ∧ s.agentAfter (portAgent 0) 0x5000 = false ∧
       s.busAfter { agent := 9, ctx := none, ham := none, pa := 0x5000, write := true, len := 8, bytes := [], atom := none } = false ∧
       (match s.busWrite (portAgent 0) (pieces 0x5000 8) (leBytes 8 5) with | .ok _ t => !t.again | _ => false) = true) := by decide +kernel

/-- A firmware image: its magic number, version 1, the highest security version, a body of four bytes whose entry is 0, a key and a signature
(R407). -/
def head1 : Mem := Mem.writeBytes [] 0 (leBytes 4 0x4C444542 ++ leBytes 4 1 ++ leBytes 4 0xFFFFFFFF ++ leBytes 4 4)
def flash1 (key sig : List Byte) : Mem := (head1.writeBytes 32 key).writeBytes 1984 sig
theorem readBytes_same {m k : Mem} (n a : Nat) (h : ∀ b, a ≤ b → b < a + n → m.read b = k.read b) : m.readBytes a n = k.readBytes a n := by
  induction n generalizing a with
  | zero => rfl
  | succ n ih => simp only [Mem.readBytes]; rw [h a (by omega) (by omega), ih (a + 1) fun b l u => h b (by omega) (by omega)]
/-- The ROM accepts that image where its key hashes to the fused value and its signature verifies, which are free values (log entry 13). -/
theorem test_accepted_image (key sig : List Byte) (hk : key.length = 1952) (hs : sig.length = 3309) (hash : shake256 key 64 = Config.keyHash)
    (ver : Config.secVer.toNat ≤ 0xFFFFFFFF) (good : Config.mlDsaVerify key (imageSigned (flash1 key sig) 0) sig = true) :
    romAccepts (flash1 key sig) 0 = true := by
  have wf : (head1.writeBytes 32 key).wf = true := Mem.wf_writeBytes _ _ _ (by decide +kernel)
  have away (a n : Nat) (h : a + n ≤ 32 ∨ 5293 ≤ a) : (flash1 key sig).readBytes a n = head1.readBytes a n :=
    readBytes_same n a fun b l u => by
      unfold flash1
      rw [Mem.read_writeBytes_outside _ _ _ _ wf (by omega), Mem.read_writeBytes_outside _ _ _ _ (by decide +kernel) (by omega)]
  have rkey : (flash1 key sig).readBytes 32 1952 = key := by
    rw [readBytes_same (m := flash1 key sig) (k := head1.writeBytes 32 key) 1952 32 fun b l u => Mem.read_writeBytes_outside _ 1984 _ sig wf (by omega), ← hk]
    exact Mem.readBytes_writeBytes _ _ _ (by decide +kernel)
  have rsig : (flash1 key sig).readBytes 1984 3309 = sig := by rw [← hs]; exact Mem.readBytes_writeBytes _ _ _ wf
  have le (a n : Nat) (h : a + n ≤ 32) : (flash1 key sig).readLE a n = head1.readLE a n := by unfold Mem.readLE; rw [away a n (.inl h)]
  simp only [romAccepts, Nat.zero_add, rkey, rsig, good, hash, le 0 4 (by omega), le 4 2 (by omega), le 8 4 (by omega), le 12 4 (by omega),
    le 16 4 (by omega), away 6 2 (by omega), away 20 12 (by omega), away 5293 19 (by omega)]
  have v : head1.readLE 8 4 = 0xFFFFFFFF := by decide +kernel
  rw [v, decide_eq_true ver]
  decide +kernel
/-- The cases of a recovery: to be read again or not, placed, killed; and reads of a service ring and of a measurement's source. -/
theorem test_meets_recoveryCases :
    ((banked false).region 0).reload = false ∧ (up.region 0).placed = false ∧ (up.region 0).killed = false ∧
    ((upWith fun r => { r with placed := true }).region 0).placed = true ∧
    ((upWith fun r => { r with killed := true }).region 0).placed = false ∧ ((upWith fun r => { r with killed := true }).region 0).killed = true ∧
    (∀ p ∈ up.hamlets, p.2.held = []) ∧
    low.HbmOpen { code := 7 } low.boot.mextSrc.toNat 64 ∧ (svc 0x101).devWaits 0x8000 4096 = false ∧
    ({ svc 0x101 with devQ := [.write serviceAgent 0x8008 (leBytes 8 1)] } : State).devWaits 0x8000 4096 = true := by
  unfold State.HbmOpen; decide +kernel

/-- Port 0, whose BAR is 0x40010000000, and port 1, whose BAR is the one given. -/
def bars (b : W64) : State := { low with eth := [(0, { bar := 0x40010000000 }), (1, { bar := b })] }
/-- The registers of PCIe window 0 by their addresses, and the grants of a region table. -/
theorem test_meets_PcieRegisters :
    (let s := bars 0x40010010000
     s.pregAt 0x40010000000 = some (.eth 0 0) ∧ s.pregAt 0x40010000008 = some (.eth 0 8) ∧ s.pregAt 0x40010000040 = some (.eth 0 0x40) ∧
     s.pregAt 0x4001001FFF8 = some (.eth 1 0xFFF8) ∧ s.pregAt 0x40000008010 = some (.bar 0) ∧ s.pregAt 0x40000009010 = some (.bar 1) ∧
     s.pregAt 0x40000008000 = some .config ∧ s.pregAt 0x40010020000 = none ∧ placeOf 0x40010000000 = .pcie 0 ∧
     (let bar := (s.port (2 * 0 + 1)).bar.toNat
      bar / 0x10000000000 = 4 + 0 ∧ bar % 8 = 0 ∧ 0x10000000 ≤ bar % 0x10000000000 ∧ bar % 0x10000000000 + 0x10000 ≤ 0x10000000000 ∧
        (s.port (2 * 0)).bar.toNat + 0x10000 ≤ bar + 0)) ∧
    (let s := wired 1
     (s.partly.any fun q => decide (q.1 = .lookup 0 1 5 0x5000 8 [])) = false ∧
     (match s.grantOf (.lookup 0 1 6 0x5000 8 []) 0 true 6 0x5000 8 with | .none _ => true | _ => false) = true ∧
     (match s.grantOf (.lookup 0 1 5 0x5000 8 []) 0 true 5 0x5000 8 with
      | .found pa v => decide (pa = 0x5000) && (v.partDone (.lookup 0 1 5 0x5000 8 [])).dmaOk 0 pa 8 | _ => false) = true ∧
     isOk (s.portRead 0 0x3000 32) = true ∧ isErr ((lost s 0x3000).portRead 0 0x3000 32) = true ∧ s.agentAfter (portAgent 0) 0x5000 = false ∧
     s.agentAfter (portAgent 0) (s.qpAddr 0 1 + 44) = false ∧ s.devQ = [] ∧
     (s.admitAll { code := 10, unit := 15 } [(s.qpAddr 0 1 + 44, 4)]).1 = true) := by decide +kernel
/-- A register of the DMA window stands where its offset, a free value, puts it (log entry 17). -/
theorem test_dmaRegister (h : Config.dmaOff false < 4096) : (bars 0).pregAt (0x40000000000 + Config.dmaOff false) = some (.dma 0 false) := by
  have e : (0x40000000000 + Config.dmaOff false) % 0x10000000000 = Config.dmaOff false := by omega
  have p : (0x40000000000 + Config.dmaOff false) / 0x10000000000 - 4 = 0 := by omega
  have f : ownFunction (Config.dmaOff false) = some 0 := by simp [ownFunction, h]
  simp [State.pregAt, e, p, f, show Config.dmaOff false < 0x10000000 by omega]

/-- A step of the beadle from a state whose memories keep their form. -/
theorem test_meets_StepKeepsMemOk :
    low.MemOk ∧ (match step { low with agenda := [.core .beadle] } with | .next _ => true | _ => false) = true := by
  unfold State.MemOk; decide +kernel

/-! ### Worked examples of the spec -/

/-- The result in d3 and the flag in p5 of an operation of the PE at site 1 on d1 and d2. -/
def gives (i : FOp → Instr) (x : BitVec 3) (a b : W40) : Option (W40 × Bool) :=
  match exec (i { f0 with x := x, pwe := true, pidx := 5 }) (el 1 (withD a b)) with
  | .next t => some (Tab.get (t.elem 0 1).d 0 3, Tab.get (t.elem 0 1).p false 5)
  | _ => none

/-- The example after R143 (spec/05): ADD, ADDS, SHR and SRA. -/
theorem test_example_integers :
    gives .add 0 0x7FFFFFF0 0x20 = some (0xFF80000010, true) ∧ gives .adds 0 0x7FFFFFF0 0x20 = some (0x007FFFFFFF, true) ∧
    gives .shr 0 0xFF80000000 40 = some (0, false) ∧ gives .sra 0 0xFF80000000 40 = some (0xFFFFFFFFFF, true) := by decide +kernel

/-- The same example: ICVTF to nearest, FCVTI to nearest, FMAX with a NaN, FMIN of two zeros. -/
theorem test_example_floats :
    gives .icvtf 0 0x7FFFFFFF 0 = some (0x41E8000000, true) ∧ gives .fcvti 0 0x400A000000 0 = some (2, false) ∧
    gives .fmax 0 0x7FF8000000 0x400C000000 = some (0x400C000000, true) ∧ gives .fmin 0 0 0x8000000000 = some (0x8000000000, true) := by
  decide +kernel

/-- The listing of spec/09: the COPY and BWAIT words. -/
theorem test_example_listing :
    (decodeReeve 0xA5895012).toOption = some (.copy 12 9 10 2 2) ∧ (decodeReeve 0xA9C758D1).toOption = some (.bwait 14 7 11 2 1) := by
  decide +kernel

/-- The example of spec/12: a delivery of 4,096 bytes, then an arrival of 8,192, at a barrier of two arrivals. -/
theorem test_example_barrier :
    let b0 : Bar := ⟨0, 0, 2, 0, 0, 0⟩
    let b1 := (b0.update false (-(4096 : W64)) 0).1
    b1.count = -(4096 : W64) ∧ b1.gen = 0 ∧ (b1.update true 8192 0).1.count = 4096 ∧ (b1.update true 8192 0).1.arrived = 1 := by decide +kernel

/-- The example of spec/00: hamlet 0x6D lies in parish 13, and hamlet 40 in parish 5. -/
theorem test_example_hamlets : parishOf 0x6D = 13 ∧ parishOf 40 = 5 ∧ quadOf 0x6D = 3 := by decide +kernel

end Sys2Proof.Tests
end

section
/-! The tag rule (R23): which token replaces the computed value, one lemma per rule of its table and for any number of operands, and the
obligation assembled from them. -/
namespace Sys2Proof.Machine
open Sys2Proof

/-! ### The tag classes of R19, as tests of the tag -/

@[simp] theorem Token.isFault_iff (t : Token) : t.isFault = true ↔ t.tag = 10 := by simp [Token.isFault]

@[simp] theorem Token.isHole_iff (t : Token) : t.isHole = true ↔ t.tag = 11 := by simp [Token.isHole]

/-- The markers are the tags 1 to 8 (EOD) and 9 (CUT). -/
@[simp] theorem Token.isMarker_iff (t : Token) : t.isMarker = true ↔ 1 ≤ t.tag.toNat ∧ t.tag.toNat ≤ 9 := by
  have hcut : t.tag = 9 ↔ t.tag.toNat = 9 := BitVec.toNat_inj.symm
  simp only [Token.isMarker, Token.isEod, Token.isCut, Bool.or_eq_true, decide_eq_true_eq, hcut]
  omega

/-! ### The rules of R23, in their order -/

variable {ops : List Token} {t : Token}

/-- Rule 1: the first FAULT operand stands for the result. -/
theorem underTags_of_find_fault (v : W40 × Bool) (h : ops.find? Token.isFault = some t) : underTags ops v = (t, false) := by
  simp only [underTags, tagRule, h]

/-- Rule 2: with no FAULT operand, the first marker stands for the result. -/
theorem underTags_of_find_marker (v : W40 × Bool) (hf : ∀ t ∈ ops, ¬ t.isFault = true) (h : ops.find? Token.isMarker = some t) :
    underTags ops v = (t, false) := by
  simp only [underTags, tagRule, List.find?_eq_none.mpr hf, h]

/-- Rule 3: with no FAULT operand and no marker, a HOLE operand makes the result a HOLE with data 0. -/
theorem underTags_of_hole (v : W40 × Bool) (hf : ∀ t ∈ ops, ¬ t.isFault = true) (hm : ∀ t ∈ ops, ¬ t.isMarker = true)
    (h : ∃ t ∈ ops, t.isHole = true) : underTags ops v = (holeTok, false) := by
  simp only [underTags, tagRule, List.find?_eq_none.mpr hf, List.find?_eq_none.mpr hm, List.any_eq_true.mpr h, if_true]

/-- Rule 4: of DATA operands the computed value and its flag stand. -/
theorem underTags_of_data (v : W40 × Bool) (h : ∀ t ∈ ops, t.tag = 0) : underTags ops v = (dataTok v.1, v.2) := by
  have hf : ops.find? Token.isFault = none := List.find?_eq_none.mpr fun t ht => by simp [h t ht]
  have hm : ops.find? Token.isMarker = none := List.find?_eq_none.mpr fun t ht => by simp [h t ht]
  have hh : ¬ ops.any Token.isHole = true := fun hany => by
    obtain ⟨t, ht, hole⟩ := List.any_eq_true.mp hany
    simp [h t ht] at hole
  simp only [underTags, tagRule, hf, hm, hh, Bool.false_eq_true, if_false]

/-! ### One operand and two -/

variable {a b : Token}

theorem underTags_fault_left (v : W40 × Bool) (ops : List Token) (ha : a.isFault = true) : underTags (a :: ops) v = (a, false) :=
  underTags_of_find_fault v (List.find?_cons_of_pos ha)

theorem underTags_fault_right (v : W40 × Bool) (ha : ¬ a.isFault = true) (hb : b.isFault = true) : underTags [a, b] v = (b, false) :=
  underTags_of_find_fault v (by rw [List.find?_cons_of_neg ha, List.find?_cons_of_pos hb])

theorem underTags_marker_left (v : W40 × Bool) (hf : ∀ t ∈ a :: ops, ¬ t.isFault = true) (ha : a.isMarker = true) :
    underTags (a :: ops) v = (a, false) :=
  underTags_of_find_marker v hf (List.find?_cons_of_pos ha)

theorem underTags_marker_right (v : W40 × Bool) (hf : ∀ t ∈ [a, b], ¬ t.isFault = true) (ha : ¬ a.isMarker = true)
    (hb : b.isMarker = true) : underTags [a, b] v = (b, false) :=
  underTags_of_find_marker v hf (by rw [List.find?_cons_of_neg ha, List.find?_cons_of_pos hb])

/-- Rule 3 where every operand is DATA or a HOLE, since neither class is FAULT or marker. -/
theorem underTags_of_data_or_hole (v : W40 × Bool) (hall : ∀ t ∈ ops, t.tag = 0 ∨ t.tag = 11) (h : ∃ t ∈ ops, t.tag = 11) :
    underTags ops v = (holeTok, false) := by
  have plain : ∀ t ∈ ops, ¬ t.isFault = true ∧ ¬ t.isMarker = true := fun t ht => by
    rcases hall t ht with tag | tag <;> simp [tag]
  exact underTags_of_hole v (fun t ht => (plain t ht).1) (fun t ht => (plain t ht).2) (by simpa using h)

end Sys2Proof.Machine

namespace Sys2Proof.Proofs.Tags
open Sys2Proof Sys2Proof.Machine

/-- Settles O30: each clause is one rule of R23, applied to the operands in their order. -/
theorem tagRule : Obligations.TagRule := by
  unfold Obligations.TagRule
  intro a b v
  simp only [← Token.isFault_iff, ← Token.isMarker_iff, ne_eq]
  refine ⟨underTags_fault_left v [b], underTags_fault_right v, fun ha hb => ?markerLeft, fun ha hb => ?markerRight, fun holes => ?hole,
    fun ha hb => ?data, fun passes => ?onePasses, fun ha => ?oneHole, fun ha => ?oneData⟩
  case markerLeft => exact underTags_marker_left v (List.forall_mem_cons.mpr ⟨ha, List.forall_mem_singleton.mpr hb⟩)
  case markerRight => exact underTags_marker_right v (List.forall_mem_cons.mpr ⟨ha, List.forall_mem_singleton.mpr hb⟩)
  case hole =>
    rcases holes with ⟨ha, hb⟩ | ⟨ha, hb⟩ | ⟨ha, hb⟩ <;>
      exact underTags_of_data_or_hole v (by simp [ha, hb]) (by simp [ha, hb])
  case data => exact underTags_of_data v (by simp [ha, hb])
  case onePasses =>
    by_cases fault : a.isFault = true
    · exact underTags_fault_left v [] fault
    · exact underTags_marker_left v (List.forall_mem_singleton.mpr fault) (passes.resolve_left fault)
  case oneHole => exact underTags_of_data_or_hole v (by simp [ha]) (by simp [ha])
  case oneData => exact underTags_of_data v (by simp [ha])

end Sys2Proof.Proofs.Tags
end

section
/-! The reeve's arithmetic, branches and return from a trap (R227, R233 to R236): what each of the model's shared forms gives for a core that
may issue, the model's operations as the spec's arithmetic, the words that are refused, and the obligations assembled from them. -/
namespace Sys2Proof.Machine
open Sys2Proof

/-! ### The shared operations as arithmetic on numbers (R233, R234) -/

/-- A shift count is gb[5:0], the register modulo 64. -/
theorem shiftOf_eq (v : W64) : shiftOf v = v.toNat % 64 := by simp [shiftOf]

theorem flag64_decide (p : Prop) [Decidable p] : flag64 (decide p) = if p then 1 else 0 := by simp [flag64]

/-- A signed comparison is one of the signed values. -/
theorem flag64_slt (x y : W64) : flag64 (x.slt y) = if x.toInt < y.toInt then 1 else 0 := flag64_decide _

/-- An unsigned comparison is one of the unsigned values. -/
theorem flag64_ult (x y : W64) : flag64 (x.ult y) = if x.toNat < y.toNat then 1 else 0 := flag64_decide _

/-- The choice that MIN and MAX make is by the signed values. -/
theorem ite_slt (x y u v : W64) : (if x.slt y then u else v) = if x.toInt < y.toInt then u else v := by
  simp only [BitVec.slt_iff_toInt_lt]

/-- BGE and BGEU take the branch where the first value is not below the second. -/
theorem not_slt_iff (x y : W64) : (!x.slt y) = true ↔ y.toInt ≤ x.toInt := by simp [BitVec.slt_eq_decide]

theorem not_ult_iff (x y : W64) : (!x.ult y) = true ↔ y.toNat ≤ x.toNat := by simp [BitVec.ult_eq_decide]

/-- MUL gives the low half of the product. -/
theorem mul_eq_ofNat (x y : W64) : x * y = BitVec.ofNat 64 (x.toNat * y.toNat) := by
  simp only [BitVec.ofNat_mul, BitVec.ofNat_toNat, BitVec.setWidth_eq]

/-- The high half of a signed product rounds towards minus infinity. -/
theorem mulHigh_eq (x y : W64) : mulHigh x y = BitVec.ofInt 64 ((x.toInt * y.toInt).fdiv (2 ^ 64)) := by
  rw [mulHigh, Int.fdiv_eq_ediv_of_nonneg _ (by decide)]

theorem divU_eq (x y : W64) : divU x y = if y = 0 then BitVec.allOnes 64 else BitVec.ofNat 64 (x.toNat / y.toNat) := by
  rw [divU, BitVec.udiv_def]

theorem remU_eq (x y : W64) : remU x y = if y = 0 then x else BitVec.ofNat 64 (x.toNat % y.toNat) := by
  rw [remU, BitVec.umod_def]

/-- The quotient 2^63 of R233's corner has no signed form, and wraps to −2^63. -/
theorem divS_min_neg_one : divS 0x8000000000000000 (BitVec.allOnes 64) = 0x8000000000000000 := by decide

theorem remS_min_neg_one : remS 0x8000000000000000 (BitVec.allOnes 64) = 0 := by decide

/-- ADDI adds the signed values. -/
theorem add_signExtend (x : W64) (i : BitVec 16) : x + i.signExtend 64 = BitVec.ofInt 64 (x.toInt + i.toInt) := by
  rw [BitVec.ofInt_add, BitVec.ofInt_toInt, BitVec.signExtend]

/-- SLTI compares the signed values, since sign extension keeps the immediate's. -/
theorem flag64_slt_signExtend (x : W64) (i : BitVec 16) : flag64 (x.slt (i.signExtend 64)) = if x.toInt < i.toInt then 1 else 0 := by
  rw [flag64_slt, BitVec.toInt_signExtend_of_le (by decide)]

/-- LUI's value is the immediate above 16 zero bits, sign-extended from bit 31. -/
theorem signExtend_append_zero (i : BitVec 16) : (i ++ (0 : BitVec 16)).signExtend 64 = BitVec.ofInt 64 (i.toInt * 2 ^ 16) := by
  rw [Int.mul_comm]; exact congrArg (BitVec.ofInt 64) BitVec.toInt_append_zero

/-- A target counts the signed offset in words (R235, R236). -/
theorem target_eq {n : Nat} (pc : W64) (o : BitVec n) : target pc o = pc + BitVec.ofInt 64 (4 * o.toInt) := by
  rw [target, BitVec.ofInt_mul]; rfl

/-- The bits [1:0] of a target tell whether it lies at a word (R236). -/
theorem low_bits_eq_zero_iff (t : W64) : t.extractLsb' 0 2 = 0 ↔ t.toNat % 4 = 0 := by
  simp [← BitVec.toNat_inj]

/-! ### The shared forms for a core that may issue -/

section
variable {s : State} {i : Instr} {d a b : BitVec 5}

/-- An instruction of the ALU form has its R-form word and retires with its operation on ga and gb (R233). -/
theorem alu_gives {n : BitVec 11} {v : W64} (hs : s.Issues) (f : W64 → W64 → W64) (value : f (s.reg s.core a) (s.reg s.core b) = v)
    (word : encode i = some ((0 : BitVec 6) ++ d ++ a ++ b ++ n) := by rfl) (form : exec i s = s.alu d a b f := by rfl) :
    encode i = some ((0 : BitVec 6) ++ d ++ a ++ b ++ n) ∧ exec i s = .next (s.retire s.core d v) :=
  ⟨word, by rw [form, State.alu, s.issue_of hs, value]⟩

/-- An instruction of the immediate form has its I-form word and retires with its operation on ga and the extended immediate (R234). -/
theorem aluImm_gives {n : BitVec 6} {m : BitVec 16} {v : W64} (hs : s.Issues) (f : W64 → W64 → W64)
    (value : f (s.reg s.core a) (m.signExtend 64) = v) (word : encode i = some (n ++ d ++ a ++ m) := by rfl)
    (form : exec i s = s.aluImm d a m f := by rfl) : encode i = some (n ++ d ++ a ++ m) ∧ exec i s = .next (s.retire s.core d v) :=
  ⟨word, by rw [form, State.aluImm, s.issue_of hs, value]⟩

/-- An immediate shift has its I-form word, with the count in its low bits, and retires with its shift of ga (R234). -/
theorem shift_gives {n k : BitVec 6} (hs : s.Issues) (f : W64 → Nat → W64)
    (word : encode i = some (n ++ d ++ a ++ k.setWidth 16) := by rfl)
    (form : exec i s = s.issue (fun c => s.retire c d (f (s.reg c a) k.toNat)) := by rfl) :
    encode i = some (n ++ d ++ a ++ k.setWidth 16) ∧ exec i s = .next (s.retire s.core d (f (s.reg s.core a) k.toNat)) :=
  ⟨word, by rw [form, s.issue_of hs]⟩

/-- An instruction of the branch form has its I-form word; it goes to its target where its condition holds, else on (R235). -/
theorem branch_goes {n : BitVec 6} {o : BitVec 16} {c : Prop} (hs : s.Issues) (p : W64 → W64 → Bool)
    (cond : p (s.reg s.core a) (s.reg s.core b) = true ↔ c) (word : encode i = some (n ++ a ++ b ++ o) := by rfl)
    (form : exec i s = s.branch a b o p := by rfl) :
    let pc := (s.coreOf s.core).pc
    encode i = some (n ++ a ++ b ++ o) ∧
    (c → exec i s = .next (s.jumpTo s.core 0 0 (pc + BitVec.ofInt 64 (4 * o.toInt)))) ∧
    (¬ c → exec i s = .next (s.jumpTo s.core 0 0 (pc + 4))) := by
  have result : exec i s = .next (s.jumpTo s.core 0 0
      (if p (s.reg s.core a) (s.reg s.core b) then target (s.coreOf s.core).pc o else (s.coreOf s.core).pc + 4)) :=
    form.trans (s.issue_of hs _)
  refine ⟨word, fun taken => ?_, fun passed => ?_⟩
  · rw [result, if_pos (cond.mpr taken), target_eq]
  · rw [result, if_neg (mt cond.mp passed)]

end

/-- A state in which one core has been replaced differs in that core alone. -/
theorem State.onlyCore_setCore (s : State) (c : CoreId) (k : Core) : s.OnlyCore (s.setCore c k) c := by
  rw [State.OnlyCore, State.coreOf_setCore]

/-! ### Words that are no instruction (R231, R233, R234) -/

theorem decodeReeve_of_error {w : W32} {e : DecodeErr} (h : reeveFields w = .error e) : decodeReeve w = .error e := by
  rw [decodeReeve, h]

/-- The functions from 19 on name no ALU instruction. -/
theorem aluOp_of_ge {n : Nat} (h : 19 ≤ n) (d a b : BitVec 5) : aluOp n d a b = .error .unassignedFunction := by
  obtain ⟨m, rfl⟩ := Nat.exists_eq_add_of_le' h
  rfl

/-- Major opcode 0 is the ALU's. -/
theorem reeveFields_of_alu {w : W32} (h : fld w 26 6 = 0) : reeveFields w = aluOp (fld w 0 11).toNat (fld w 21 5) (fld w 16 5) (fld w 11 5) := by
  rw [reeveFields, h]; rfl

/-- A shift count of 64 or more is refused. -/
theorem shiftImm_of_ge {i : BitVec 16} (h : 64 ≤ i.toNat) (j : Instr) : shiftImm i j = .error .nonzeroField := by
  have high : i.extractLsb' 6 10 ≠ 0 := fun e => by
    have bits := congrArg BitVec.toNat e
    simp only [BitVec.extractLsb'_toNat, Nat.shiftRight_eq_div_pow, BitVec.ofNat_eq_ofNat, BitVec.toNat_ofNat] at bits
    omega
  rw [shiftImm, decide_eq_false high]; rfl

/-- The three immediate shifts are refused at a count of 64 or more. -/
theorem decodeReeve_shift_of_ge {n : Nat} (hn : n ∈ [5, 6, 7]) (d a : BitVec 5) {i : BitVec 16} (h : 64 ≤ i.toNat) :
    decodeReeve (iWord n d a i) = .error .nonzeroField := by
  apply decodeReeve_of_error
  simp only [List.mem_cons, List.not_mem_nil, or_false] at hn
  rcases hn with rfl | rfl | rfl <;> simp [reeveFields, shiftImm_of_ge h]

/-- LUI has no ga: its field is zero. -/
theorem decodeReeve_lui_of_ne (d : BitVec 5) {a : BitVec 5} (i : BitVec 16) (h : a ≠ 0) : decodeReeve (iWord 9 d a i) = .error .nonzeroField := by
  apply decodeReeve_of_error
  have refused : reeveFields (iWord 9 d a i) = zeroed (decide (a = 0)) (.lui d i) := by simp [reeveFields]
  rw [refused, decide_eq_false h]; rfl

end Sys2Proof.Machine

namespace Sys2Proof.Proofs.Reeve
open Sys2Proof Sys2Proof.Machine

/-- Settles O10: each row of R233 and R234 is its shared form with the operation of the table, and the refused words are those of no row. -/
theorem reeveArithmetic : Obligations.ReeveArithmetic := by
  unfold Obligations.ReeveArithmetic
  refine ⟨fun s d a b hs => ?alu, fun w major fn => ?unassigned, fun s d a b hs ha hb => ?corner, fun s d a i k hs => ?immediate⟩
  case alu =>
    intro x y sh gives
    have shift : shiftOf y = sh := shiftOf_eq y
    exact ⟨alu_gives hs (· + ·) rfl, alu_gives hs (· - ·) rfl, alu_gives hs (· &&& ·) rfl, alu_gives hs (· ||| ·) rfl,
      alu_gives hs (· ^^^ ·) rfl, alu_gives hs (fun x y => x <<< shiftOf y) (congrArg (x <<< ·) shift),
      alu_gives hs (fun x y => x >>> shiftOf y) (congrArg (x >>> ·) shift),
      alu_gives hs (fun x y => x.sshiftRight (shiftOf y)) (congrArg x.sshiftRight shift),
      alu_gives hs (fun x y => flag64 (x.slt y)) (flag64_slt x y), alu_gives hs (fun x y => flag64 (x.ult y)) (flag64_ult x y),
      alu_gives hs (· * ·) (mul_eq_ofNat x y), alu_gives hs mulHigh (mulHigh_eq x y), alu_gives hs mulHighU rfl, alu_gives hs divS rfl,
      alu_gives hs divU (divU_eq x y), alu_gives hs remS rfl, alu_gives hs remU (remU_eq x y),
      alu_gives hs (fun x y => if y.slt x then y else x) (ite_slt y x y x),
      alu_gives hs (fun x y => if x.slt y then y else x) (ite_slt x y y x)⟩
  case unassigned =>
    exact decodeReeve_of_error ((reeveFields_of_alu major).trans (aluOp_of_ge fn _ _ _))
  case corner =>
    have quotient : divS (s.reg s.core a) (s.reg s.core b) = 0x8000000000000000 := by rw [ha, hb, divS_min_neg_one]
    have remainder : remS (s.reg s.core a) (s.reg s.core b) = 0 := by rw [ha, hb, remS_min_neg_one]
    exact ⟨(alu_gives hs divS quotient).2, (alu_gives hs remS remainder).2⟩
  case immediate =>
    intro x gives
    have lui : exec (.lui d i) s = .next (s.retire s.core d (BitVec.ofInt 64 (i.toInt * 2 ^ 16))) := by
      rw [← signExtend_append_zero]
      show execLui d i s = _
      exact s.issue_of hs _
    refine ⟨aluImm_gives hs (· + ·) (add_signExtend x i), aluImm_gives hs (· &&& ·) rfl, aluImm_gives hs (· ||| ·) rfl,
      aluImm_gives hs (· ^^^ ·) rfl, shift_gives hs (· <<< ·), shift_gives hs (· >>> ·), shift_gives hs BitVec.sshiftRight,
      aluImm_gives hs (fun x y => flag64 (x.slt y)) (flag64_slt_signExtend x i), rfl, lui, fun n hn count => ?shifts,
      fun ha => ⟨_, decodeReeve_lui_of_ne d i ha⟩⟩
    case shifts =>
      simp only [List.mem_cons, List.not_mem_nil, or_false] at hn
      rcases hn with rfl | rfl | rfl <;> exact ⟨_, decodeReeve_shift_of_ge (by decide) d a count⟩

/-- Settles O11: each row of R235 is the branch form with its condition; R236's jumps are an issue each. -/
theorem reeveControlFlow : Obligations.ReeveControlFlow := by
  unfold Obligations.ReeveControlFlow
  refine ⟨fun s a b o hs => ?branches, fun s d a o i hs => ?jumps⟩
  case branches =>
    intro x y pc goes
    exact ⟨branch_goes hs (· == ·) beq_iff_eq, branch_goes hs (· != ·) bne_iff_ne, branch_goes hs BitVec.slt BitVec.slt_iff_toInt_lt,
      branch_goes hs (fun x y => !x.slt y) (not_slt_iff x y), branch_goes hs BitVec.ult BitVec.ult_iff_toNat_lt,
      branch_goes hs (fun x y => !x.ult y) (not_ult_iff x y)⟩
  case jumps =>
    intro pc t
    have jal : exec (.jal d o) s = .next (s.jumpTo s.core d (pc + 4) (pc + BitVec.ofInt 64 (4 * o.toInt))) := by
      rw [← target_eq]
      show execJal d o s = _
      exact s.issue_of hs _
    have jalr : exec (.jalr d a i) s =
        .next (if t.extractLsb' 0 2 ≠ 0 then s.takeTrap s.core 3 t false else s.jumpTo s.core d (pc + 4) t) := by
      show execJalr d a i s = _
      exact s.issue_of hs _
    refine ⟨rfl, rfl, jal, fun aligned => ?_, fun misaligned => ?_⟩
    · rw [jalr, if_neg (Classical.not_not.mpr ((low_bits_eq_zero_iff t).mpr aligned))]
    · rw [jalr, if_pos (mt (low_bits_eq_zero_iff t).mp misaligned)]

/-- Settles O15: TRET returns in a trap, and is an illegal instruction outside one. -/
theorem trapReturn : Obligations.TrapReturn := by
  unfold Obligations.TrapReturn
  intro s hs k
  have tret : exec .tret s = .next (if k.mT then s.trapReturn s.core else s.illegal s.core .tret) := by
    show execTret s = _
    exact s.issue_of hs _
  refine ⟨fun inTrap => ⟨s.trapReturn s.core, ?_, s.onlyCore_setCore _ _, s.coreOf_setCore _ _⟩, fun noTrap => ?_⟩
  · rw [tret, if_pos inTrap]
  · rw [tret, noTrap]; rfl

end Sys2Proof.Proofs.Reeve
end
